-- ==== Sys2Proof/Word.lean ====
section
/-! DEFINITION. The word types of the block (00_scope.md R13) and the sparse index spaces (20_memory.md R60): a list of
(index, value) pairs, the index strictly rising. An index that is not listed holds nothing: no value was written there. -/

namespace Sys2Proof

/-- `u8`: a register, a byte on the bus (R13, R71). -/
abbrev Byte := BitVec 8

/-- `UQ4.12`: an unsigned 16-bit `u` standing for `u / 4096` volts (10_state.md R31). -/
abbrev Volt := BitVec 16

/-- `i32`: an entry of the scan result vector or the sample buffer (R13, R30), as a pattern of bits. -/
abbrev Sample := BitVec 32

/-- `CYC_W` = 32 bits: the cycle counter, its target and the overrun count (00_scope.md R11). -/
abbrev Count := BitVec 32

/-- An index space: the entries that hold a value, the index strictly rising (see `Store.wf`). -/
abbrev Store (α : Type) := List (Nat × α)

/-- The register space REG of the peer: a store of bytes, which is a list of `Host.Cell` (20_memory.md R61). -/
abbrev Memory := Store Byte

/-- A data register of the handler (10_state.md R27): its value, and whether an operation has written it since reset
(R32: one that no operation has written holds no value, and the host's read of it is a fault). -/
structure DataReg (α : Type) where
  value : α
  written : Bool
  deriving DecidableEq, Repr

end Sys2Proof
end

