-- ==== Sys2Proof/Config.lean ====
section
/-! DEFINITION. The parameters of 00_scope.md R11 as one record of plain data, which the State carries (log 1), the
constraints a coherent valuation meets (R11, R12, R260), and the free values: constants with no body, of which nothing
can be proved but what holds of every value (log 4, 6). -/

namespace Sys2Proof

/-- The byte values the handler sends and both peers recognise: the fifteen wire opcodes of 30_encoding.md R96, the
filler byte, and the two output command bytes `DAC_CMD[c]` (R95). All OPEN parameters. -/
structure WireCodes where
  wakeup : Byte
  rdata : Byte
  rdatac : Byte
  sdatac : Byte
  rreg : Byte
  wreg : Byte
  selfcal : Byte
  selfocal : Byte
  selfgcal : Byte
  sysocal : Byte
  sysgcal : Byte
  sync : Byte
  standby : Byte
  reset : Byte
  wakeup2 : Byte
  filler : Byte
  dacCmd0 : Byte
  dacCmd1 : Byte
  deriving DecidableEq, Repr

/-- `INIT_BLOCK[0..4]`, "status, multiplexer, gain/filter, data-rate, digital-IO" (45_init_sequencer.md R245). -/
structure InitBlock where
  status : Byte
  mux : Byte
  gf : Byte
  drate : Byte
  dio : Byte
  deriving DecidableEq, Repr

/-- `BUS_MODE`, `BUS_CLOCK`, `BIT_ORDER`: what the CONFIG action configures (R241, R68); no rule depends on them. -/
structure BusConfig where
  mode : BitVec 2
  clock : Nat
  msbFirst : Bool
  deriving DecidableEq, Repr

/-- The parameters of R11 that some rule reads. The delays are lower bounds no state depends on (70 R331), so only
their names occur, in the trace; the timer period and the reference voltages reach the block as ticks and operands. -/
structure Params where
  /-- `OP_*`, `FILLER`, `DAC_CMD[0..1]`. -/
  codes : WireCodes
  /-- `CHIP_ID`, the signature value the handler compares with. -/
  chipId : BitVec 4
  /-- The identity nibble hardwired in the chip that is on the bus (R41); equal to `chipId` on the right chip, another
  value in 95_test_vectors.md P2 (log 19). -/
  peerId : BitVec 4
  /-- `GF_UPPER`, bits 7:3 of the gain/filter byte the scan writes. -/
  gfUpper : BitVec 5
  /-- `INIT_BLOCK[0..4]`. -/
  initBlock : InitBlock
  /-- `WMASK[0..10]` (10_state.md R47). -/
  wmask : List Byte
  /-- `RATE_TABLE[0..14]`, ascending (46 R260). -/
  rates : List (Rat × Byte)
  /-- `RATE_TABLE[15]`, the maximum rate and its code. -/
  rateMax : Rat × Byte
  /-- `NCH_MAX`. -/
  nchMax : Nat
  /-- `READY_BOUND` in polls; `none` is infinity, the reference behaviour (43 R183). -/
  readyBound : Option Nat
  bus : BusConfig
  deriving DecidableEq, Repr

/-- The one-byte opcodes of R12 but WAKEUP2, which names the same command as WAKEUP. -/
def WireCodes.oneByte (c : WireCodes) : List Byte :=
  [c.wakeup, c.rdata, c.rdatac, c.sdatac, c.selfcal, c.selfocal, c.selfgcal, c.sysocal, c.sysgcal, c.sync, c.standby,
    c.reset]

/-- 00_scope.md R12, what makes the address decode a function, with R11's `DAC_CMD[0]` ≠ `DAC_CMD[1]`. -/
def WireCodes.wf (c : WireCodes) : Bool :=
  c.rreg.extractLsb' 0 4 == 0#4 && c.wreg.extractLsb' 0 4 == 0#4 && c.rreg.extractLsb' 4 4 != c.wreg.extractLsb' 4 4 &&
  (c.wakeup2 :: c.oneByte).all (fun b =>
    b.extractLsb' 4 4 != c.rreg.extractLsb' 4 4 && b.extractLsb' 4 4 != c.wreg.extractLsb' 4 4) &&
  decide (c.oneByte.Nodup) && !(c.oneByte.tail.contains c.wakeup2) && c.dacCmd0 != c.dacCmd1

/-- The facts 46_output_rate_conversion.md R260 fixes: sixteen entries, strictly ascending from 2.5 to 30000, 2000
tabulated, no entry from 1200 up to but not including 2000. -/
def Params.ratesWf (p : Params) : Bool :=
  let rs := (p.rates ++ [p.rateMax]).map Prod.fst
  rs.length == 16 && decide (rs.Pairwise (· < ·)) && rs.head? == some (5 / 2) && p.rateMax.1 == 30000 &&
  rs.contains 2000 && rs.all (fun r => !(decide (1200 ≤ r) && decide (r < 2000)))

/-- A valuation that meets every constraint R11, R12 and R260 put on the parameters. -/
def Params.wf (p : Params) : Bool :=
  p.codes.wf && p.ratesWf && p.wmask.length == 11 && decide (1 ≤ p.nchMax) && p.readyBound != some 0

/-- `draw(8)` (00_scope.md R14), one free byte per use: the argument is the State's counter. FREE VALUE, log 4. -/
opaque Config.draw : Nat → Byte

/-- What a peer register holds that nothing has written since the reset or calibration of the given epoch (10_state.md
R56, 44 R220): arguments epoch and address. FREE VALUE, log 4. -/
opaque Config.unspecifiedReg : Nat → Nat → Byte

/-- The ready line at power-up (R56). FREE VALUE, log 6. -/
opaque Config.powerUpDrdyN : Bool

/-- The transport layer's indication `hw_ok` before the first edge that drives it (R23). FREE VALUE, log 6. -/
opaque Config.powerUpHwOk : Bool

/-- The conversion value at power-up (R56). FREE VALUE, log 6. -/
opaque Config.powerUpConv : BitVec 24

/-- The conversion value a reset of the chip leaves (R56), by draw. FREE VALUE, log 4. -/
opaque Config.resetConv : Nat → BitVec 24

/-- The level of the ready line a reset of the chip leaves (R56), by draw. FREE VALUE, log 4. -/
opaque Config.resetDrdyN : Nat → Bool

/-- The output codes before the first write, by channel (R57). FREE VALUE, log 6. -/
opaque Config.powerUpDac : Nat → BitVec 16

/-- `INIT_BLOCK[i]` of `Params.default`: the spec gives no default (R11, N7). FREE VALUE, log 3. -/
opaque Config.initByte : Nat → Byte

/-- `BUS_CLOCK` of `Params.default`: the spec gives no value (R11, N33). FREE VALUE, log 3. -/
opaque Config.busClock : Nat

/-- The default byte values of 30_encoding.md R96, R11 (`FILLER`, `DAC_CMD`). PRESUMED: general knowledge, log 2. -/
def WireCodes.default : WireCodes :=
  { wakeup := 0x00#8, rdata := 0x01#8, rdatac := 0x03#8, sdatac := 0x0F#8, rreg := 0x10#8, wreg := 0x50#8,
    selfcal := 0xF0#8, selfocal := 0xF1#8, selfgcal := 0xF2#8, sysocal := 0xF3#8, sysgcal := 0xF4#8, sync := 0xFC#8,
    standby := 0xFD#8, reset := 0xFE#8, wakeup2 := 0xFF#8, filler := 0xFF#8, dacCmd0 := 0x30#8, dacCmd1 := 0x34#8 }

/-- The parameter values the machine starts with after reset: the spec's defaults where R11, R96 and R262 give one
(log 2), otherwise a free value or the value log 3 names. -/
def Params.default : Params :=
  { codes := WireCodes.default
    chipId := 0x3#4
    peerId := 0x3#4
    gfUpper := 0#5
    initBlock := ⟨Config.initByte 0, Config.initByte 1, Config.initByte 2, Config.initByte 3, Config.initByte 4⟩
    wmask := [0x0E#8, 0xFF#8, 0xFF#8, 0xFF#8, 0xFF#8, 0xFF#8, 0xFF#8, 0xFF#8, 0xFF#8, 0xFF#8, 0xFF#8]
    rates := [(5 / 2, 0x03#8), (5, 0x13#8), (10, 0x23#8), (15, 0x33#8), (25, 0x43#8), (30, 0x53#8), (50, 0x63#8),
      (60, 0x72#8), (100, 0x82#8), (500, 0x92#8), (1000, 0xA1#8), (2000, 0xB0#8), (3750, 0xC0#8), (7500, 0xD0#8),
      (15000, 0xE0#8)]
    rateMax := (30000, 0xF0#8)
    nchMax := 8
    readyBound := none
    bus := ⟨1#2, Config.busClock, true⟩ }

end Sys2Proof
end

