-- ==== Sys2Proof/Syntax.lean ====
section
/-! DEFINITION. The instructions: one constructor per row of spec/opcode_table.json, in the table's order. Wire commands
first (30_encoding.md R96), then the output frame (R95), the host operations (R110) and the tick (60 R291). -/

namespace Sys2Proof

inductive Instr where
  /-- Wire `WAKEUP` (44 R210). -/
  | wakeup
  /-- Wire `RDATA` and its three sample bytes (44 R211, 30 R94). -/
  | rdata
  /-- Wire `RDATAC` (44 R212). -/
  | rdatac
  /-- Wire `SDATAC` (44 R213). -/
  | sdatac
  /-- Wire `RREG`: first register `r`, count field `n` = registers minus one (40 R142). -/
  | rreg (r n : BitVec 4)
  /-- Wire `WREG`: first register `r`, count field `n`, the data bytes (40 R143). -/
  | wreg (r n : BitVec 4) (data : List Byte)
  /-- Wire `SELFCAL` (44 R220). -/
  | selfcal
  /-- Wire `SELFOCAL` (44 R221). -/
  | selfocal
  /-- Wire `SELFGCAL` (44 R222). -/
  | selfgcal
  /-- Wire `SYSOCAL` (44 R223). -/
  | sysocal
  /-- Wire `SYSGCAL` (44 R224). -/
  | sysgcal
  /-- Wire `SYNC` (44 R225). -/
  | sync
  /-- Wire `STANDBY` (44 R226). -/
  | standby
  /-- Wire `RESET` (44 R227). -/
  | reset
  /-- Wire `WAKEUP2` (44 R228). -/
  | wakeup2
  /-- The output frame `DACFRAME` (46 R251, 30 R95). -/
  | dacframe (c : BitVec 1) (code : BitVec 16)
  /-- Host `RDREG id` (40 R130). -/
  | rdreg (id : BitVec 4)
  /-- Host `WRREG id, value` (40 R131). -/
  | wrreg (id : BitVec 4) (value : Byte)
  /-- Host `RDID` (40 R132). -/
  | rdid
  /-- Host `MUXENC p, n`, pins as i8 (42 R171). -/
  | muxenc (p n : Byte)
  /-- Host `GAINENC v` (41 R161). -/
  | gainenc (v : Volt)
  /-- Host `GAINDEC code` (41 R162). -/
  | gaindec (code : BitVec 3)
  /-- Host `SETCH k, p, n, v` (42 R176). -/
  | setch (k : Nat) (p n : Byte) (v : Volt)
  /-- Host `SETK count` (42 R177). -/
  | setk (count : Nat)
  /-- Host `SCAN` (43 R180). -/
  | scan
  /-- Host `INIT` (45 R240). -/
  | init
  /-- Host `DACWR c, code` (46 R250). -/
  | dacwr (c : BitVec 1) (code : BitVec 16)
  /-- Host `V2CODE volt, ref` (46 R252). -/
  | v2code (volt ref : Rat)
  /-- Host `CODE2V code, ref` (46 R253). -/
  | code2v (code : BitVec 16) (ref : Rat)
  /-- Host `RAW2V raw, ref` (46 R255). -/
  | raw2v (raw : Sample) (ref : Rat)
  /-- Host `RATESEL rate` (46 R261). -/
  | ratesel (rate : Rat)
  /-- Host `ARM target, nout` (60 R286). -/
  | arm (target : Count) (nout : BitVec 2)
  /-- Host `START` (60 R287). -/
  | start
  /-- Host `CANCEL` (60 R289). -/
  | cancel
  /-- Host `LDOUT c, i, code` (60 R288). -/
  | ldout (c : BitVec 1) (i : Count) (code : BitVec 16)
  /-- A pulse of the `tick` input (60 R291, R283, R276). -/
  | tick
  deriving DecidableEq, Repr

end Sys2Proof
end

