-- ==== Sys2Proof/WellFormed.lean ====
section
/-! DEFINITION. Which instruction terms stand for words of the hardware. The checks are those the fields' widths do not
make: a wire burst stays inside the register map (30_encoding.md R119), and `WREG` carries one data byte per register
(R92). An operand a host operation does not accept (R111: `k`, `count`, `nout`, `ref` out of range) is no ill-formed
term: the operation is offered and nothing happens. -/

namespace Sys2Proof

/-- A register command of count field `n` from `r`: one register (a reserved id included, 20_memory.md R66), or a burst
that ends at 0x0A at the latest (R119). -/
def burstInMap (r n : BitVec 4) : Bool :=
  n == 0#4 || decide (r.toNat + n.toNat ≤ 0x0A)

def Instr.wellFormed : Instr → Bool
  | .rreg r n => burstInMap r n
  | .wreg r n data => burstInMap r n && data.length == n.toNat + 1
  | .wakeup | .rdata | .rdatac | .sdatac | .selfcal | .selfocal | .selfgcal | .sysocal | .sysgcal | .sync | .standby
  | .reset | .wakeup2 => true
  | .dacframe _ _ | .rdreg _ | .wrreg _ _ | .rdid | .muxenc _ _ | .gainenc _ | .gaindec _ => true
  | .setch _ _ _ _ | .setk _ | .scan | .init | .dacwr _ _ | .v2code _ _ | .code2v _ _ | .raw2v _ _ | .ratesel _ => true
  | .arm _ _ | .start | .cancel | .ldout _ _ _ | .tick => true

end Sys2Proof
end

