-- ==== Sys2Proof/Decode.lean ====
section
/-! DEFINITION. From words to instructions and back, from the tables of 30_encoding.md. A wire command is a list of
bytes in command position of an ADC frame (R90 to R94), an output frame a list of bytes (R95), a host operation the
select code with the operand ports (R110, R10), a tick the pulse itself. Every decoder is total and rejects by name. -/

namespace Sys2Proof

/-- The host side of 00_scope.md R10: `cmd_op[4:0]` and one port for each operand name of 30_encoding.md R110. The
rationals and the two index operands travel as themselves (R31 fixes no port format for them, log 32). -/
structure HostPort where
  cmdOp : BitVec 5
  id : BitVec 4
  value : Byte
  p : Byte
  n : Byte
  v : Volt
  gcode : BitVec 3
  k : Nat
  count : Nat
  c : BitVec 1
  code : BitVec 16
  raw : Sample
  volt : Rat
  ref : Rat
  rate : Rat
  target : Count
  nout : BitVec 2
  i : Count
  deriving DecidableEq, Repr

/-- The select code `op` with every operand port at zero. -/
def HostPort.ofOp (op : BitVec 5) : HostPort :=
  { cmdOp := op, id := 0, value := 0, p := 0, n := 0, v := 0, gcode := 0, k := 0, count := 0, c := 0, code := 0, raw := 0,
    volt := 0, ref := 0, rate := 0, target := 0, nout := 0, i := 0 }

/-- Why a decoder rejects. -/
inductive DecodeError where
  /-- A byte in command position that is no opcode (R115). -/
  | reservedByte
  /-- A count byte whose high nibble is not zero (R119). -/
  | reservedCount
  /-- A burst that would pass the last register (R119). -/
  | burstPastEnd
  /-- The frame ends before the command does. -/
  | truncated
  /-- Byte 0 of an output frame is neither `DAC_CMD[0]` nor `DAC_CMD[1]` (46 R251). -/
  | reservedDacCommand
  /-- `cmd_op` 0x13 to 0x1F (R121). -/
  | unassignedOp
  deriving DecidableEq, Repr

/-- What a byte in command position is (40_register_access.md R141). -/
inductive WireCmd where
  | wakeup | rdata | rdatac | sdatac
  | rreg (r : BitVec 4)
  | wreg (r : BitVec 4)
  | selfcal | selfocal | selfgcal | sysocal | sysgcal | sync | standby | reset | wakeup2
  deriving DecidableEq, Repr

/-- `bits[7:4]` and `bits[3:0]` of a byte (R13). -/
def hiNibble (b : Byte) : BitVec 4 := b.extractLsb' 4 4
def loNibble (b : Byte) : BitVec 4 := b.extractLsb' 0 4

/-- The command byte of a register command: `OP | zext_8(id)` (R97). -/
def commandByte (op : Byte) (id : BitVec 4) : Byte := op ||| id.setWidth 8

/-- The count byte: `zext_8(n)` (R98). -/
def countByte (n : BitVec 4) : Byte := n.setWidth 8

/-- `DAC_CMD[c]` (R95). -/
def dacCommand (C : WireCodes) (c : BitVec 1) : Byte := if c = 0#1 then C.dacCmd0 else C.dacCmd1

/-- The one-byte opcodes in the order of R96, `OP_RDATA` first as R141 asks for it first. -/
def oneByteCmds (C : WireCodes) : List (Byte × WireCmd) :=
  [(C.rdata, .rdata), (C.wakeup, .wakeup), (C.rdatac, .rdatac), (C.sdatac, .sdatac), (C.selfcal, .selfcal),
    (C.selfocal, .selfocal), (C.selfgcal, .selfgcal), (C.sysocal, .sysocal), (C.sysgcal, .sysgcal), (C.sync, .sync),
    (C.standby, .standby), (C.reset, .reset), (C.wakeup2, .wakeup2)]

/-- Command decode, first match wins (R141); `none` for a reserved byte (R115). -/
def classify (C : WireCodes) (b : Byte) : Option WireCmd :=
  if hiNibble b = hiNibble C.rreg then some (.rreg (loNibble b))
  else if hiNibble b = hiNibble C.wreg then some (.wreg (loNibble b))
  else ((oneByteCmds C).find? (fun row => row.1 == b)).map Prod.snd

/-- The count byte and what follows it in a register command from `r` (R92, R119): the count field and the data bytes,
with the rest of the frame. -/
def decodeRegister (r : BitVec 4) : List Byte → Except DecodeError (BitVec 4 × List Byte × List Byte)
  | [] => .error .truncated
  | cb :: rest =>
    let n := loNibble cb
    if hiNibble cb ≠ 0#4 then .error .reservedCount
    else if !burstInMap r n then .error .burstPastEnd
    else if rest.length < n.toNat + 1 then .error .truncated
    else .ok (n, rest.take (n.toNat + 1), rest.drop (n.toNat + 1))

/-- One wire command at the head of a frame, with the bytes after it (R93: how a decoder tells the length). -/
def decodeWire (C : WireCodes) : List Byte → Except DecodeError (Instr × List Byte)
  | [] => .error .truncated
  | b :: rest =>
    match classify C b with
    | none => .error .reservedByte
    | some (.rreg r) => (decodeRegister r rest).map fun x => (.rreg r x.1, x.2.2)
    | some (.wreg r) => (decodeRegister r rest).map fun x => (.wreg r x.1 x.2.1, x.2.2)
    | some .rdata => if rest.length < 3 then .error .truncated else .ok (.rdata, rest.drop 3)
    | some .wakeup => .ok (.wakeup, rest)
    | some .rdatac => .ok (.rdatac, rest)
    | some .sdatac => .ok (.sdatac, rest)
    | some .selfcal => .ok (.selfcal, rest)
    | some .selfocal => .ok (.selfocal, rest)
    | some .selfgcal => .ok (.selfgcal, rest)
    | some .sysocal => .ok (.sysocal, rest)
    | some .sysgcal => .ok (.sysgcal, rest)
    | some .sync => .ok (.sync, rest)
    | some .standby => .ok (.standby, rest)
    | some .reset => .ok (.reset, rest)
    | some .wakeup2 => .ok (.wakeup2, rest)

/-- One output frame: the command byte, the high byte, the low byte (R95). -/
def decodeDac (C : WireCodes) : List Byte → Except DecodeError (Instr × List Byte)
  | b0 :: hi :: lo :: rest =>
    if b0 = C.dacCmd0 then .ok (.dacframe 0#1 (hi ++ lo), rest)
    else if b0 = C.dacCmd1 then .ok (.dacframe 1#1 (hi ++ lo), rest)
    else .error .reservedDacCommand
  | _ => .error .truncated

/-- The host operation the ports ask for (R110); 0x13 to 0x1F are unassigned (R121). -/
def decodeHost (h : HostPort) : Except DecodeError Instr :=
  match h.cmdOp.toNat with
  | 0x00 => .ok (.rdreg h.id)
  | 0x01 => .ok (.wrreg h.id h.value)
  | 0x02 => .ok .rdid
  | 0x03 => .ok (.muxenc h.p h.n)
  | 0x04 => .ok (.gainenc h.v)
  | 0x05 => .ok (.gaindec h.gcode)
  | 0x06 => .ok (.setch h.k h.p h.n h.v)
  | 0x07 => .ok (.setk h.count)
  | 0x08 => .ok .scan
  | 0x09 => .ok .init
  | 0x0A => .ok (.dacwr h.c h.code)
  | 0x0B => .ok (.v2code h.volt h.ref)
  | 0x0C => .ok (.code2v h.code h.ref)
  | 0x0D => .ok (.raw2v h.raw h.ref)
  | 0x0E => .ok (.ratesel h.rate)
  | 0x0F => .ok (.arm h.target h.nout)
  | 0x10 => .ok .start
  | 0x11 => .ok .cancel
  | 0x12 => .ok (.ldout h.c h.i h.code)
  | _ => .error .unassignedOp

/-- The four forms in which an instruction reaches the hardware. -/
inductive Encoded where
  /-- Bytes inside one ADC frame (R90). -/
  | wire (bytes : List Byte)
  /-- Bytes inside one DAC frame (R95). -/
  | dac (bytes : List Byte)
  /-- `cmd_op` with the operand ports (R110). -/
  | host (port : HostPort)
  /-- A pulse of the `tick` input (60 R280). -/
  | tick
  deriving DecidableEq, Repr

/-- The instruction that `e` stands for; the words must end with it. -/
def decode (C : WireCodes) : Encoded → Except DecodeError Instr
  | .wire bytes => (decodeWire C bytes).map Prod.fst
  | .dac bytes => (decodeDac C bytes).map Prod.fst
  | .host port => decodeHost port
  | .tick => .ok .tick

/-- The words of an instruction, from the same tables (R91, R92, R94, R95, R110). -/
def encode (C : WireCodes) : Instr → Encoded
  | .wakeup => .wire [C.wakeup]
  | .rdata => .wire [C.rdata, C.filler, C.filler, C.filler]
  | .rdatac => .wire [C.rdatac]
  | .sdatac => .wire [C.sdatac]
  | .rreg r n => .wire (commandByte C.rreg r :: countByte n :: List.replicate (n.toNat + 1) C.filler)
  | .wreg r n data => .wire (commandByte C.wreg r :: countByte n :: data)
  | .selfcal => .wire [C.selfcal]
  | .selfocal => .wire [C.selfocal]
  | .selfgcal => .wire [C.selfgcal]
  | .sysocal => .wire [C.sysocal]
  | .sysgcal => .wire [C.sysgcal]
  | .sync => .wire [C.sync]
  | .standby => .wire [C.standby]
  | .reset => .wire [C.reset]
  | .wakeup2 => .wire [C.wakeup2]
  | .dacframe c code => .dac [dacCommand C c, code.extractLsb' 8 8, code.extractLsb' 0 8]
  | .rdreg id => .host { HostPort.ofOp 0x00#5 with id }
  | .wrreg id value => .host { HostPort.ofOp 0x01#5 with id, value }
  | .rdid => .host (HostPort.ofOp 0x02#5)
  | .muxenc p n => .host { HostPort.ofOp 0x03#5 with p, n }
  | .gainenc v => .host { HostPort.ofOp 0x04#5 with v }
  | .gaindec gcode => .host { HostPort.ofOp 0x05#5 with gcode }
  | .setch k p n v => .host { HostPort.ofOp 0x06#5 with k, p, n, v }
  | .setk count => .host { HostPort.ofOp 0x07#5 with count }
  | .scan => .host (HostPort.ofOp 0x08#5)
  | .init => .host (HostPort.ofOp 0x09#5)
  | .dacwr c code => .host { HostPort.ofOp 0x0A#5 with c, code }
  | .v2code volt ref => .host { HostPort.ofOp 0x0B#5 with volt, ref }
  | .code2v code ref => .host { HostPort.ofOp 0x0C#5 with code, ref }
  | .raw2v raw ref => .host { HostPort.ofOp 0x0D#5 with raw, ref }
  | .ratesel rate => .host { HostPort.ofOp 0x0E#5 with rate }
  | .arm target nout => .host { HostPort.ofOp 0x0F#5 with target, nout }
  | .start => .host (HostPort.ofOp 0x10#5)
  | .cancel => .host (HostPort.ofOp 0x11#5)
  | .ldout c i code => .host { HostPort.ofOp 0x12#5 with c, i, code }
  | .tick => .tick

/-- Byte `j` of a table word, bit 0 the least significant bit of the first byte. -/
def tableByte (w j : Nat) : Byte := BitVec.ofNat 8 (w / 256 ^ j)

/-- The bytes of a table word in bus order, with zeros above it up to the longest wire command (2 + 16 bytes). -/
def tableBytes (w : Nat) : List Byte := (List.range 18).map (tableByte w)

/-- The words a row of spec/opcode_table.json stands for. The table numbers three spaces from bit 0 (wire bytes, output
frames, `cmd_op`) and does not say in the word which one it is: a word of one byte up to 0x12 is read as a select code,
so that seven wire bytes of that range have no table word of their own here (log 14); a word of one bit is the tick. -/
def tableWords (nbits w : Nat) : Encoded :=
  if nbits = 1 then .tick
  else if nbits ≤ 8 ∧ w ≤ 0x12 then .host (HostPort.ofOp (BitVec.ofNat 5 w))
  else
    let bytes := tableBytes w
    match decodeDac WireCodes.default bytes with
    | .ok (_, rest) => .dac (bytes.take (18 - rest.length))
    | .error _ =>
      match decodeWire WireCodes.default bytes with
      | .ok (_, rest) => .wire (bytes.take (18 - rest.length))
      | .error _ => .wire bytes

/-- What the decoder reads from a table word. -/
def decodeTableWord (nbits w : Nat) : Option Instr :=
  match decode WireCodes.default (tableWords nbits w) with
  | .ok i => some i
  | .error _ => none

end Sys2Proof
end

