-- ==== Sys2Proof/Machine/State.lean ====
section
/-! DEFINITION. The state of the block as plain data: everything 10_state.md gives the machine, the parameters it runs
with, the inputs still to come and the trace of what it did; the reasons a step can stop; the state after block reset
(R55 to R57). -/

namespace Sys2Proof.Machine

/-- Why the machine stops with a fault: the treatment "fault" of 93_implementation_defined.md, "makes no claim past that
point". All are safe: a claim about a next state says nothing of such a run. -/
inductive Fault where
  /-- The run is marked faulted: a read command byte was exchanged while `drdy_n` = 1 (40 R148, 70 R330, U7). The command
  itself ran, its data bytes draws; raised by the step after the one that did it, whatever it would do. Safe. -/
  | readWhileNotReady
  /-- A scan reads a descriptor that SETCH never wrote (42 R177, 70 R339). Raised by SCAN, TICK. Safe. -/
  | unwrittenChannel (k : Nat)
  /-- A tick reads an output entry that LDOUT never loaded (60 R288, 70 R339). Raised by TICK. Safe. -/
  | unloadedOutput (c : Nat)
  /-- A tick would store outside the `TARGET` × `K` entries of BUF, or a result it has not got (20 R62). Raised by TICK,
  in states no run reaches only. Safe. -/
  | bufferRange
  /-- The host reads a data register or an entry that holds no value (10 R32: a model faults the read;
  R55, 70 R339, U18, D26). Raised by a read at the host's ports, by no instruction. Safe. -/
  | unwrittenRead
  /-- A byte exchange with both selects asserted (70 R336: never). Raised in states no run reaches only. Safe. -/
  | bothSelected
  deriving DecidableEq, Repr

/-- Why the machine refuses: the treatment "refuse" of 93_implementation_defined.md, where the source gives no meaning.
All are safe: no claim about a next state speaks of such a run. -/
inductive Refusal where
  /-- An instruction without a meaning in this model, by its mnemonic. Raised by `exec` only. Safe. -/
  | notModelled (mnemonic : String)
  /-- A bus operation other than INIT accepted with `INITOK` = 0 (70 R326, U21). Raised by RDREG, WRREG, RDID, SCAN,
  DACWR, TICK. Safe. -/
  | notBooted
  /-- A byte in command position that is no opcode (30 R115, U1). Raised by the peer's decode. Safe. -/
  | reservedWireByte
  /-- A count byte whose high nibble is not zero (30 R119, U6). Raised by the peer's decode. Safe. -/
  | reservedCount
  /-- A burst that would pass register 0x0A (30 R119, U6). Raised by the peer's decode. Safe. -/
  | burstPastEnd
  /-- Traffic in continuous-read mode other than SDATAC or RESET (44 R212, U9). Raised by any exchange. Safe. -/
  | peerInContinuousRead
  /-- Traffic in standby other than a wake command or RESET (44 R226, U9). Raised by any exchange. Safe. -/
  | peerInStandby
  /-- An output frame whose first byte is no `DAC_CMD[c]` (46 R251, U16). Raised by the output peer. Safe. -/
  | dacCommandByte
  /-- A fourth byte in an output frame (46 R251, U16). Raised by the output peer. Safe. -/
  | dacFourthByte
  deriving DecidableEq, Repr

/-- The two chips on the bus. -/
inductive Dev where
  | adc | dac
  deriving DecidableEq, Repr

/-- The delay parameters of 00_scope.md R11, by name: a delay is a lower bound that no state depends on (70 R331). -/
inductive DelayName where
  | tIB | tSTEP | tSYNC | tDATA | tRST | tCMD
  | tCOMMIT (i : Nat)
  deriving DecidableEq, Repr

/-- The transport actions of R14 as they stand in the trace (R16). -/
inductive Action where
  | cs (dev : Dev) (level : Bool)
  | xfer (tx rx : Byte)
  | delay (name : DelayName)
  | waitRdy
  | rst (level : Bool)
  | config (bus : BusConfig)
  deriving DecidableEq, Repr

/-- `pc.op`: IDLE, or the operation in progress with the operands it was accepted with (10_state.md R24). The pure
operations finish in the accepting step (30 R111), so they never stand here. -/
inductive Op where
  | idle
  | rdreg (id : BitVec 4)
  | wrreg (id : BitVec 4) (value : Byte)
  | rdid
  | scan
  | init
  | dacwr (c : BitVec 1) (code : BitVec 16)
  | tick
  deriving DecidableEq, Repr

/-- The program counter `(op, k, step)` (10_state.md R24). -/
structure Pc where
  op : Op
  k : Nat
  step : Nat
  deriving DecidableEq, Repr

/-- A Channel Descriptor (10_state.md R28). -/
structure ChDesc where
  pos : Byte
  neg : Byte
  range : Volt
  gain : BitVec 3
  mux : Byte
  deriving DecidableEq, Repr

/-- The single-valued data registers of 10_state.md R27. -/
structure DataRegs where
  rdata : DataReg Byte
  idnib : DataReg (BitVec 4)
  muxout : DataReg Byte
  gainout : DataReg (BitVec 3)
  vout : DataReg Volt
  code16 : DataReg (BitVec 16)
  ratecode : DataReg Byte
  ratehz : DataReg Rat
  volts : DataReg Rat
  deriving DecidableEq, Repr

/-- The condition flags, sticky (10_state.md R33). -/
structure Flags where
  eHw : Bool
  eId : Bool
  eCh : Bool
  eRdy : Bool
  eTick : Bool
  deriving DecidableEq, Repr

/-- `SCHED` (10_state.md R34). -/
inductive Sched where
  | idle | armed | running | stopped
  deriving DecidableEq, Repr

/-- The acquisition session (10_state.md R34, R35) with TIMER's `armed` (R20). -/
structure Session where
  sched : Sched
  armed : Bool
  cycle : Count
  target : Count
  overruns : Count
  nout : BitVec 2
  buf : Store Sample
  outseq0 : Store (BitVec 16)
  outseq1 : Store (BitVec 16)
  deriving DecidableEq, Repr

/-- Read or write, in a register command (10_state.md R48); a read whose command byte was exchanged while `drdy_n` = 1
returns draws and is kept apart (40 R148). -/
inductive Rw where
  | r | w | rNotReady
  deriving DecidableEq, Repr

/-- The peer's decode state `pst` (10_state.md R48). -/
inductive Pst where
  | cmd
  | cnt (rw : Rw) (a : BitVec 4)
  | dat (rw : Rw) (a : BitVec 4) (m : Nat)
  | smp (j : Nat)
  deriving DecidableEq, Repr

/-- The peer's mode (10_state.md R50). -/
inductive AdcMode where
  | normal | cont | stby
  deriving DecidableEq, Repr

/-- ADCPEER (10_state.md R40 to R50). `mem` lists the registers that hold a known value; one that is not listed holds the
draw of its epoch: `calEpoch` for the calibration registers, `epoch` for the others (log 4). -/
structure AdcPeer where
  mem : Memory
  epoch : Nat
  calEpoch : Nat
  pst : Pst
  mode : AdcMode
  shift : BitVec 24
  conv : BitVec 24
  deriving DecidableEq, Repr

/-- The byte position inside an output frame, with what the earlier bytes said (10_state.md R51, 46 R251). -/
inductive DacPst where
  | start
  | high (c : BitVec 1)
  | low (c : BitVec 1) (hi : Byte)
  | full
  deriving DecidableEq, Repr

/-- DACPEER (10_state.md R51). -/
structure DacPeer where
  out0 : BitVec 16
  out1 : BitVec 16
  pst : DacPst
  deriving DecidableEq, Repr

/-- What the host may read: the data registers, the indexed entries, the counters and `fault`, the five flags, and the
status it waits for (10_state.md R27, 60 R293, 70 R325, R345). -/
inductive ReadPort where
  | rdata | idnib | muxout | gainout | vout | code16 | ratecode | ratehz | volts
  | res (j : Nat)
  | buf (i : Nat)
  | ch (k : Nat)
  | cycle | overruns | fault
  | eHw | eId | eCh | eRdy | eTick
  | illegal | done | initok | sched | count
  deriving DecidableEq, Repr

/-- The input ports of 00_scope.md R10 at one clock edge: `drdy_n`, `hw_ok` and the peer's conversion value as they are
from this edge on (R23, R49), `tick`, the host's command (`cmd_valid` is the Option), the register the host reads while
idle, and whether the transport has finished the action in hand (`xfer_done`, `dly_done`). -/
structure Edge where
  drdyN : Bool
  hwOk : Bool
  conv : BitVec 24
  tick : Bool
  cmd : Option HostPort
  read : Option ReadPort
  actDone : Bool
  deriving DecidableEq, Repr

/-- A frame presented to a chip from outside the handler (log 13). -/
structure BusFrame where
  dev : Dev
  bytes : List Byte
  deriving DecidableEq, Repr

/-- The state. Each field names the rule of spec/10_state.md (or the other file named) that gives it. -/
structure State where
  /-- The parameters (00 R11); no step writes them. -/
  cfg : Params
  /-- R24. -/
  pc : Pc
  /-- The poll count `w` of a WAITRDY in progress (43 R183). -/
  polls : Nat
  /-- `DONE` (R26). -/
  done : Bool
  /-- `fault[2:0]` (R33). -/
  fault : BitVec 3
  /-- Output lines (R22). -/
  csAdcN : Bool
  csDacN : Bool
  rstN : Bool
  /-- Input lines as the latest edge left them (R23), the ready line as a reset of the chip left it if that is later (R56). -/
  drdyN : Bool
  hwOk : Bool
  /-- R27. -/
  regs : DataRegs
  /-- `ILLEGAL` (R33). -/
  illegal : Bool
  /-- `RES` (R30). -/
  res : Store Sample
  /-- The channel at which the latest scan aborted (43 R196, 70 R339; log 18). -/
  resAbort : Option Nat
  /-- `CH` (R28). -/
  ch : Store ChDesc
  /-- `K` (R28). -/
  chanCount : Nat
  /-- R33. -/
  flags : Flags
  /-- `INITOK` (R36). -/
  initok : Bool
  /-- R34. -/
  sess : Session
  /-- What the action lists call `rx`, `b2`, `b1`, `b0` (40 R130, 43 R185). -/
  rx : Byte
  b2 : Byte
  b1 : Byte
  b0 : Byte
  /-- R40 to R50. -/
  adc : AdcPeer
  /-- R51. -/
  dac : DacPeer
  /-- The trace, oldest action first (00 R14, R16). -/
  trace : List Action
  /-- The run is marked faulted (40 R148, 70 R330). -/
  runFaulted : Bool
  /-- How many free values have been drawn (log 4). -/
  draws : Nat
  /-- The clock edges to come (log 7). -/
  inputs : List Edge
  /-- The outside frames to come (log 13). -/
  frames : List BusFrame
  deriving DecidableEq, Repr

/-- A data register no operation has written (R32, R55); its value is a DESIGN CHOICE no read returns (log 5). -/
def unwritten {α : Type} (zero : α) : DataReg α := ⟨zero, false⟩

/-- The state right after block reset, the peers at power-up (R55, R56, R57). -/
def State.reset : State :=
  { cfg := Params.default
    pc := ⟨.idle, 0, 0⟩
    polls := 0
    done := false
    fault := 0#3
    csAdcN := true
    csDacN := true
    rstN := true
    drdyN := Config.powerUpDrdyN
    hwOk := Config.powerUpHwOk
    regs := { rdata := unwritten 0#8, idnib := unwritten 0#4, muxout := unwritten 0#8, gainout := unwritten 0#3,
              vout := unwritten 0#16, code16 := unwritten 0#16, ratecode := unwritten 0#8, ratehz := unwritten 0,
              volts := unwritten 0 }
    illegal := false
    res := []
    resAbort := none
    ch := []
    chanCount := 0
    flags := ⟨false, false, false, false, false⟩
    initok := false
    sess := { sched := .idle, armed := false, cycle := 0#32, target := 0#32, overruns := 0#32, nout := 0#2, buf := [],
              outseq0 := [], outseq1 := [] }
    rx := 0#8
    b2 := 0#8
    b1 := 0#8
    b0 := 0#8
    adc := { mem := [], epoch := 0, calEpoch := 0, pst := .cmd, mode := .normal, shift := 0#24,
             conv := Config.powerUpConv }
    dac := { out0 := Config.powerUpDac 0, out1 := Config.powerUpDac 1, pst := .start }
    trace := []
    runFaulted := false
    draws := 0
    inputs := []
    frames := [] }

end Sys2Proof.Machine
end

