-- ==== Sys2Proof/Machine/Flags.lean ====
section
/-! DEFINITION. The conditions of 60_exceptions.md R270: their codes, the sticky flag each sets, and the one computed
result flag, ILLEGAL. There are no arithmetic condition codes (10_state.md R33). -/

namespace Sys2Proof.Machine

/-- The conditions (R271 to R276). -/
inductive Condition where
  | hardwareUnavailable | chipIdentityMismatch | illegalChannelSelection | readyTimeout | tickOverrun
  deriving DecidableEq, Repr

/-- The code of a condition in `fault[2:0]` (R270). -/
def conditionCode : Condition → BitVec 3
  | .hardwareUnavailable => 1#3
  | .chipIdentityMismatch => 2#3
  | .illegalChannelSelection => 3#3
  | .readyTimeout => 4#3
  | .tickOverrun => 5#3

/-- The flags with that of a condition set (R270, 10_state.md R33). -/
def setFlag (c : Condition) (f : Flags) : Flags :=
  match c with
  | .hardwareUnavailable => { f with eHw := true }
  | .chipIdentityMismatch => { f with eId := true }
  | .illegalChannelSelection => { f with eCh := true }
  | .readyTimeout => { f with eRdy := true }
  | .tickOverrun => { f with eTick := true }

/-- `illegal(x)`: a pin outside [−1, 7] (42 R170, 60 R273). -/
def pinIllegal (x : Byte) : Bool := decide (x.toInt < -1) || decide (7 < x.toInt)

/-- The value of ILLEGAL for a pair of pins (42 R171). -/
def pairIllegal (p n : Byte) : Bool := pinIllegal p || pinIllegal n

/-- ILLEGAL written, and E_CH set when a pin was clamped; nothing aborts (42 R171, 60 R273). -/
def noteIllegal (p n : Byte) (s : State) : State :=
  { s with
    illegal := pairIllegal p n
    flags := if pairIllegal p n then setFlag .illegalChannelSelection s.flags else s.flags }

end Sys2Proof.Machine
end

