-- ==== Sys2Proof/Machine/Operands.lean ====
section
/-! DEFINITION. The operand forms and the pure functions of the spec: slices and extensions, the sample of three bytes,
the range/gain codec (41), the multiplexer codec (42), the conversions and the rate selection (46). -/

namespace Sys2Proof.Machine

/-! ### Bytes -/

/-- The bits of `a` where `mask` is 1 and of `b` elsewhere (10_state.md R47). -/
def mixBits (mask a b : Byte) : Byte :=
  if mask = 0xFF#8 then a else (a &&& mask) ||| (b &&& ~~~mask)

/-- `raw = b2 ‖ b1 ‖ b0`, most significant byte first (30 R99, 20 R67). -/
def rawOf (b2 b1 b0 : Byte) : BitVec 24 := b2 ++ b1 ++ b0

/-- `sample = sext_32(raw)` (30 R99, 43 R186). -/
def sampleOf (raw : BitVec 24) : Sample := raw.signExtend 32

/-- Byte `j` ∈ {3, 2, 1} of a conversion result: bits `8j−1 : 8j−8` (40 R147). -/
def sampleByte (raw : BitVec 24) (j : Nat) : Byte := raw.extractLsb' (8 * (j - 1)) 8

/-- `code[15:8]` and `code[7:0]` (30 R103). -/
def codeHigh (code : BitVec 16) : Byte := code.extractLsb' 8 8
def codeLow (code : BitVec 16) : Byte := code.extractLsb' 0 8

/-- The gain/filter byte of a scan: `GF_UPPER ‖ gain` (30 R101). -/
def gfByte (upper : BitVec 5) (gain : BitVec 3) : Byte := upper ++ gain

/-! ### Range and gain (41_range_gain_codec.md) -/

/-- The range table, code and threshold in UQ4.12 (R160). -/
def rangeTable : List (BitVec 3 × Volt) :=
  [(0#3, 0x5000#16), (1#3, 0x2800#16), (2#3, 0x1400#16), (3#3, 0x0A00#16), (4#3, 0x0500#16), (5#3, 0x0280#16),
    (6#3, 0x0140#16)]

/-- `code_of(v)`: in table order, a later, tighter entry overrides (R161). -/
def gainCode (v : Volt) : BitVec 3 :=
  rangeTable.foldl (fun code row => if v ≤ row.2 then row.1 else code) 0#3

/-- `voltage_of(code)`: table lookup, 5.00 V for the unrecognized code (R162). -/
def gainVolt (code : BitVec 3) : Volt :=
  ((rangeTable.find? (fun row => row.1 == code)).map Prod.snd).getD 0x5000#16

/-! ### Multiplexer (42_mux_codec.md) -/

/-- `sel(x)` of a pin: its number for 0..7, else the common reference 0b1000 (R170). -/
def pinSel (x : Byte) : BitVec 4 := if 0 ≤ x.toInt ∧ x.toInt ≤ 7 then x.setWidth 4 else 0b1000#4

/-- The multiplexer byte: positive selector high, negative selector low (R171, 30 R100). -/
def muxByte (p n : Byte) : Byte := pinSel p ++ pinSel n

/-! ### Conversions (46_output_rate_conversion.md), exact on rationals -/

/-- `volts_to_code`: round half up, clamp to [0, 65535] (R252). -/
def voltsToCode (volt ref : Rat) : BitVec 16 :=
  BitVec.ofInt 16 (max 0 (min 65535 (65536 * volt / ref + 1 / 2).floor))

/-- The inverse: `code × ref / 65536` (R253). -/
def codeToVolts (code : BitVec 16) (ref : Rat) : Rat := code.toNat * ref / 65536

/-- `raw_to_volts`: the signed sample times `ref / 0xFFFFFF` (R255). -/
def rawToVolts (raw : Sample) (ref : Rat) : Rat := raw.toInt * ref / 16777215

/-- The table entry a request selects: the least rate that reaches it, else entry 15 (R261). -/
def rateEntry (P : Params) (rate : Rat) : Rat × Byte :=
  ((P.rates ++ [P.rateMax]).find? (fun row => decide (rate ≤ row.1))).getD P.rateMax

end Sys2Proof.Machine
end

