-- ==== Sys2Proof/Machine/Ops.lean ====
section
/-! DEFINITION. The named operations: the index spaces, the two peers, the six transport actions, the clock edges that
arrive while an operation is in progress, running an action list, taking a condition and finishing an operation, and
the host's reads. Every meaning is written over these. -/

namespace Sys2Proof.Machine

/-! ### Index spaces (20_memory.md R60) -/

/-- The value entry `a` holds, if anything was written there. -/
def storeRead {α : Type} : Store α → Nat → Option α
  | [], _ => none
  | (b, v) :: t, a => if b = a then some v else storeRead t a

/-- Entry `a` takes the value `v`; the indices stay strictly rising. -/
def storeWrite {α : Type} : Store α → Nat → α → Store α
  | [], a, v => [(a, v)]
  | (b, u) :: t, a, v =>
    if a < b then (a, v) :: (b, u) :: t else if a = b then (a, v) :: t else (b, u) :: storeWrite t a v

/-- The entries below `bound` only. -/
def storeBelow {α : Type} (m : Store α) (bound : Nat) : Store α := m.filter (fun cell => decide (cell.1 < bound))

/-- The canonical form: indices strictly rising. An unlisted entry holds nothing, so no entry can equal it. -/
def storeWf {α : Type} (m : Store α) : Bool := decide (m.Pairwise (fun x y => x.1 < y.1))

/-- The canonical form of the register memory REG, all of whose addresses are in the map (20_memory.md R65). -/
def Memory.wf (m : Memory) : Bool := storeWf m && m.all (fun cell => decide (cell.1 ≤ 0x0A))

/-- A data register after an operation wrote it (10_state.md R27). -/
def written {α : Type} (v : α) : DataReg α := ⟨v, true⟩

/-! ### How far an operation gets -/

/-- The result of a part of an operation: it goes on, it stops in a state (aborted, or held in a WAITRDY), or the machine
stops. -/
inductive Run where
  | go (s : State)
  | halt (s : State)
  | fault (r : Fault)
  | refuse (r : Refusal)
  deriving Repr

/-- What comes after a part that goes on. -/
def andThen (r : Run) (f : State → Run) : Run :=
  match r with
  | .go s => f s
  | .halt s => .halt s
  | .fault x => .fault x
  | .refuse x => .refuse x

/-- The outcome of a step that did this much. -/
def toOutcome (r : Run) : Host.Outcome State Fault Refusal :=
  match r with
  | .go s => .next s
  | .halt s => .next s
  | .fault x => .fault x
  | .refuse x => .refused x

/-! ### The sequencer (10_state.md R24 to R26) -/

/-- `BUSY` (R26). -/
def busy (s : State) : Bool := decide (s.pc.op ≠ .idle)

/-- An operation is accepted: `pc <- (op, 0, 0)`, `DONE <- 0` (R25, R26, 60 R283); a scan's results are awaited anew. -/
def enterOp (op : Op) (s : State) : State :=
  { s with
    pc := ⟨op, 0, 0⟩
    polls := 0
    done := false
    resAbort := if op = .scan ∨ op = .tick then none else s.resAbort }

/-- An operation finishes without abort: `DONE <- 1`, `fault` 0, `pc <- (IDLE, 0, 0)` (R25, R26, R33, 60 R284). -/
def finishOp (s : State) : State := { s with pc := ⟨.idle, 0, 0⟩, done := true, fault := 0#3 }

/-- The scheduler stops and the timer is disarmed (60 R285). -/
def stopSession (s : State) : State := { s with sess := { s.sess with sched := .stopped, armed := false } }

/-- TAKING AN ABORTING CONDITION (60 R270 to R274, R277; 43 R196; 45 R246): the flag is set, `fault` takes the code, `DONE`
stays 0, `pc <- (IDLE, 0, 0)`; inside a tick the session stops (R292); a scan remembers at which channel it stopped.
There is no rollback. -/
def takeCondition (c : Condition) (s : State) : State :=
  let t :=
    { s with
      flags := setFlag c s.flags
      fault := conditionCode c
      polls := 0
      resAbort := if s.pc.op = .scan ∨ s.pc.op = .tick then some s.pc.k else s.resAbort
      pc := ⟨.idle, 0, 0⟩ }
  if s.pc.op = .tick then stopSession t else t

/-- TickOverrun: the tick is dropped, flagged and counted; the operation in progress is not disturbed (60 R276). -/
def noteOverrun (s : State) : State :=
  { s with flags := setFlag .tickOverrun s.flags, sess := { s.sess with overruns := s.sess.overruns + 1#32 } }

/-- External cancellation (60 R289): a single disarm that does not use the sequencer (log 15). -/
def cancelSession (s : State) : State :=
  if s.sess.sched = .armed ∨ s.sess.sched = .running then stopSession s else s

/-! ### Clock edges while an operation is in progress -/

/-- The input lines take the levels of an edge (10_state.md R23, R49). -/
def setLines (e : Edge) (s : State) : State :=
  { s with drdyN := e.drdyN, hwOk := e.hwOk, adc := { s.adc with conv := e.conv } }

/-- The host offers CANCEL at this edge (30 R110). -/
def offersCancel (e : Edge) : Bool :=
  match e.cmd with
  | some h => decide (h.cmdOp = 0x11#5)
  | none => false

/-- An edge while BUSY: the lines change, CANCEL is accepted and takes effect first, a tick of the armed timer is an
overrun, every other host operation is not accepted (30 R111, 60 R276, R282, R289). DESIGN CHOICE (log 35): a CANCEL of a
session takes the tick of its own edge with it, as R282 says of an idle edge, so no overrun is counted for it. -/
def busyEdge (e : Edge) (s : State) : State :=
  let t := setLines e s
  let u := if offersCancel e then cancelSession t else t
  if e.tick && u.sess.armed then noteOverrun u else u

/-- The edges that pass until the transport has finished the action in hand: up to and including the first whose
`actDone` is 1. With no edge listed nothing changes and the action finishes (log 7). -/
def absorb : List Edge → State → State
  | [], s => { s with inputs := [] }
  | e :: es, s => if e.actDone then { busyEdge e s with inputs := es } else absorb es (busyEdge e s)

/-! ### The converter peer: register file and decode (10_state.md R40 to R50, 40 R140 to R149, 44) -/

/-- A free byte takes the place of the byte returned (00 R14 `draw(8)`, U8). -/
def drawRx (s : State) : State := { s with rx := Config.draw s.draws, draws := s.draws + 1 }

/-- The bits of register `a` that can be written: `WMASK[a]`, of the status register the low nibble at most (R11, R41,
R47). -/
def writeMask (P : Params) (a : Nat) : Byte := if a = 0 then P.wmask.getD 0 0#8 &&& 0x0F#8 else P.wmask.getD a 0#8

/-- What register `a` holds: the value last written, or the draw of the latest reset or calibration (R56, 44 R220). -/
def peerRegister (p : AdcPeer) (a : Nat) : Byte :=
  (storeRead p.mem a).getD (Config.unspecifiedReg (if a < 5 then p.epoch else p.calEpoch) a)

/-- The read value of register `a` (R47): stored bits through the mask, a draw elsewhere, the identity of the chip in
`STATUS[7:4]` (R41). -/
def readValue (P : Params) (p : AdcPeer) (a : Nat) (free : Byte) : Byte :=
  let bits := mixBits (writeMask P a) (peerRegister p a) free
  if a = 0 then P.peerId ++ loNibble bits else bits

/-- `MemWrite` of one byte through the mask (R47); an address with no register takes nothing (40 R146). -/
def writeRegister (P : Params) (p : AdcPeer) (a : Nat) (v : Byte) : AdcPeer :=
  if a ≤ 0x0A then { p with mem := storeWrite p.mem a (mixBits (writeMask P a) v (peerRegister p a)) } else p

/-- Reset-line pulse and soft reset (R56, 44 R227): CMD, NORMAL; every register, `conv` and `drdy_n` fresh draws. -/
def peerReset (s : State) : State :=
  { s with
    drdyN := Config.resetDrdyN s.draws
    adc :=
      { s.adc with
        mem := [], epoch := s.draws + 1, calEpoch := s.draws + 1, pst := .cmd, mode := .normal
        conv := Config.resetConv s.draws }
    draws := s.draws + 1 }

/-- A calibration command: the six calibration registers become fresh draws (44 R220 to R224). -/
def calibrate (s : State) : State :=
  { s with adc := { s.adc with mem := storeBelow s.adc.mem 5, calEpoch := s.draws + 1 }, draws := s.draws + 1 }

def setPst (p : Pst) (s : State) : State := { s with adc := { s.adc with pst := p } }

def setMode (m : AdcMode) (s : State) : State := { s with adc := { s.adc with mode := m } }

/-- The command byte of a register read: begun while `drdy_n` = 1 it marks the run faulted, and its data bytes will be
draws (40 R142, R148). -/
def beginRead (r : BitVec 4) (s : State) : State :=
  if s.drdyN then setPst (.cnt .rNotReady r) { s with runFaulted := true } else setPst (.cnt .r r) s

/-- A command byte in NORMAL mode (40 R141, R142, R143, R148; 44 R210 to R228). -/
def normalCommand (c : WireCmd) (s : State) : Run :=
  match c with
  | .rreg r => .go (beginRead r s)
  | .wreg r => .go (setPst (.cnt .w r) s)
  | .rdata => .go { s with adc := { s.adc with shift := s.adc.conv, pst := .smp 3 } }
  | .selfcal | .selfocal | .selfgcal | .sysocal | .sysgcal => .go (calibrate s)
  | .rdatac => .go (setMode .cont s)
  | .standby => .go (setMode .stby s)
  | .reset => .go (peerReset s)
  | .wakeup | .wakeup2 | .sync | .sdatac => .go s

/-- A byte in command position, by mode (40 R141, R149; 44 R210, R212, R213, R226, R227; log 12). -/
def commandExchange (b : Byte) (s : State) : Run :=
  let s' := drawRx s
  match s.adc.mode, classify s.cfg.codes b with
  | _, some .reset => .go (peerReset s')
  | .normal, some c => normalCommand c s'
  | .normal, none => .refuse .reservedWireByte
  | .cont, some .sdatac => .go (setMode .normal s')
  | .cont, _ => .refuse .peerInContinuousRead
  | .stby, some .wakeup => .go (setMode .normal s')
  | .stby, some .wakeup2 => .go (setMode .normal s')
  | .stby, _ => .refuse .peerInStandby

/-- The count byte of a register command (40 R144, 30 R119). -/
def countExchange (rw : Rw) (a : BitVec 4) (b : Byte) (s : State) : Run :=
  if hiNibble b ≠ 0#4 then .refuse .reservedCount
  else if !burstInMap a (loNibble b) then .refuse .burstPastEnd
  else .go (setPst (.dat rw a ((loNibble b).toNat + 1)) (drawRx s))

/-- `pst` after a data byte: the next address, or CMD after the last (40 R145, R146). -/
def nextData (rw : Rw) (a : BitVec 4) (m : Nat) : Pst := if m > 1 then .dat rw (a + 1#4) (m - 1) else .cmd

/-- A data byte of a read (40 R145; a reserved address returns a draw, 20 R66; log 9). -/
def readExchange (a : BitVec 4) (m : Nat) (s : State) : State :=
  let t := drawRx s
  let u := if a.toNat ≤ 0x0A then { t with rx := readValue s.cfg s.adc a.toNat (Config.draw s.draws) } else t
  setPst (nextData .r a m) u

/-- A data byte of a read begun while not ready: a draw (40 R148). -/
def notReadyExchange (a : BitVec 4) (m : Nat) (s : State) : State := setPst (nextData .rNotReady a m) (drawRx s)

/-- A data byte of a write (40 R146). -/
def writeExchange (a : BitVec 4) (m : Nat) (b : Byte) (s : State) : State :=
  let t := drawRx s
  setPst (nextData .w a m) { t with adc := writeRegister t.cfg t.adc a.toNat b }

/-- A sample byte (40 R147). -/
def sampleExchange (j : Nat) (s : State) : State :=
  setPst (if j > 1 then .smp (j - 1) else .cmd) { s with rx := sampleByte s.adc.shift j }

/-- One byte exchanged with the selected converter chip: ignored while the reset line is low (45 R242), by `pst` in NORMAL
mode, and in the other modes in command position only (40 R149). -/
def adcExchange (b : Byte) (s : State) : Run :=
  if s.rstN = false then .go (drawRx s)
  else
    match s.adc.pst, s.adc.mode with
    | .cmd, _ => commandExchange b s
    | _, .cont => .refuse .peerInContinuousRead
    | _, .stby => .refuse .peerInStandby
    | .cnt rw a, .normal => countExchange rw a b s
    | .dat .r a m, .normal => .go (readExchange a m s)
    | .dat .rNotReady a m, .normal => .go (notReadyExchange a m s)
    | .dat .w a m, .normal => .go (writeExchange a m b s)
    | .smp j, .normal => .go (sampleExchange j s)

/-! ### The output peer (46 R251) -/

def setDacPst (p : DacPst) (s : State) : State := { s with dac := { s.dac with pst := p } }

/-- `dac[c] <- hi ‖ lo` (R251). -/
def latchDac (c : BitVec 1) (code : BitVec 16) (p : DacPeer) : DacPeer :=
  if c = 0#1 then { p with out0 := code } else { p with out1 := code }

/-- One byte exchanged with the selected output chip (R251). A frame that ends before its third byte is not refused: log 36. -/
def dacExchange (b : Byte) (s : State) : Run :=
  let s' := drawRx s
  match s.dac.pst with
  | .start =>
    if b = dacCommand s.cfg.codes 0#1 then .go (setDacPst (.high 0#1) s')
    else if b = dacCommand s.cfg.codes 1#1 then .go (setDacPst (.high 1#1) s')
    else .refuse .dacCommandByte
  | .high c => .go (setDacPst (.low c b) s')
  | .low c hi => .go (setDacPst .full { s' with dac := latchDac c (hi ++ b) s'.dac })
  | .full => .refuse .dacFourthByte

/-! ### Transport actions (00_scope.md R14) -/

/-- The action stands in the trace (R16). -/
def logAction (a : Action) (s : State) : State := { s with trace := s.trace ++ [a] }

/-- The exchange without its trace entry: the selected chip answers, and with no chip selected the byte returned is a draw
(40 R140). -/
def exchange (tx : Byte) (s : State) : Run :=
  match s.csAdcN, s.csDacN with
  | false, true => adcExchange tx s
  | true, false => dacExchange tx s
  | true, true => .go (drawRx s)
  | false, false => .fault .bothSelected

/-- `rx <- XFER(tx)`. -/
def xfer (tx : Byte) (s : State) : Run := andThen (exchange tx s) fun t => .go (logAction (.xfer tx t.rx) t)

/-- `CS(dev, level)`: the line moves, and raising it ends what the chip had in hand (40 R140, 46 R251). -/
def setCs (dev : Dev) (level : Bool) (s : State) : State :=
  logAction (.cs dev level)
    (match dev, level with
    | .adc, false => { s with csAdcN := false }
    | .adc, true => { s with csAdcN := true, adc := { s.adc with pst := .cmd } }
    | .dac, false => { s with csDacN := false }
    | .dac, true => { s with csDacN := true, dac := { s.dac with pst := .start } })

/-- `RST(level)`; low resets the converter chip only (45 R242). -/
def setRst (level : Bool) (s : State) : State :=
  logAction (.rst level) (let t := { s with rstN := level }; if level then t else peerReset t)

/-- `DELAY(T)`: an entry in the trace, nothing else (70 R331). -/
def delay (d : DelayName) (s : State) : State := logAction (.delay d) s

/-- `CONFIG`: samples `hw_ok` (45 R241, 60 R271). -/
def configure (s : State) : Run :=
  let t := logAction (.config s.cfg.bus) s
  if s.hwOk then .go t else .halt (takeCondition .hardwareUnavailable t)

/-- A WAITRDY that saw the line ready. -/
def readyNow (s : State) : State := logAction .waitRdy { s with polls := 0 }

/-- A WAITRDY that used up its bound (43 R183, 60 R274). -/
def readyTimeout (s : State) : State := takeCondition .readyTimeout (logAction .waitRdy s)

/-- `WAITRDY` (43 R183): one poll per edge at which the transport is free. After the last edge listed the line stays as it
is: ready ends the wait, not ready times out under a finite bound and holds under an infinite one (70 R333). -/
def waitRdy : List Edge → State → Run
  | [], s =>
    let t := { s with inputs := [] }
    if t.drdyN = false then .go (readyNow t)
    else if t.cfg.readyBound.isSome then .halt (readyTimeout t)
    else .halt t
  | e :: es, s =>
    let t := { busyEdge e s with inputs := es }
    if e.actDone = false then waitRdy es t
    else if t.drdyN = false then .go (readyNow t)
    else if t.cfg.readyBound = some (t.polls + 1) then .halt (readyTimeout { t with polls := t.polls + 1 })
    else waitRdy es { t with polls := t.polls + 1 }

/-! ### Action lists -/

/-- Which latch of the sequencer keeps a captured byte. -/
inductive Latch where
  | rx | b2 | b1 | b0
  deriving DecidableEq, Repr

/-- What the rules write beside the `CS(dev, 1)` that ends a frame. -/
inductive Post where
  | nothing
  /-- `x[RDATA] <- rx` (40 R130). -/
  | rdata
  /-- `x[RDATA] <- rx; x[IDNIB] <- rx[7:4]` (40 R132). -/
  | identity
  /-- The same, then the comparison with `CHIP_ID` (45 R240 action 13). -/
  | checkIdentity
  /-- `x[RES[k]] <- sext_32(b2 ‖ b1 ‖ b0)` (43 R185 action 19). -/
  | sample (k : Nat)
  /-- `x[INITOK] <- 1` (45 R240 action 37). -/
  | booted
  deriving DecidableEq, Repr

/-- One action of an operation's list. -/
inductive Micro where
  | config
  | rst (level : Bool)
  | delay (d : DelayName)
  | waitRdy
  /-- `CS(dev, 0)`. -/
  | select (dev : Dev)
  /-- `CS(dev, 1)` and what the rule writes with it. -/
  | release (dev : Dev) (post : Post)
  /-- `XFER(b)`, the byte returned discarded. -/
  | send (b : Byte)
  /-- `XFER(CH[k].mux)`, read when it is sent (20 R78). -/
  | sendMux (k : Nat)
  /-- `XFER(GF_UPPER ‖ CH[k].gain)`. -/
  | sendGf (k : Nat)
  /-- A latch `<- XFER(FILLER)`. -/
  | recv (dst : Latch)
  deriving DecidableEq, Repr

/-- An action with its place `(k, step)` in the operation (10_state.md R24). -/
structure Item where
  k : Nat
  step : Nat
  act : Micro
  deriving DecidableEq, Repr

/-- The actions of one list as channel `k`, counted from `first`. -/
def number (k first : Nat) (acts : List Micro) : List Item := (acts.zipIdx first).map fun x => ⟨k, x.2, x.1⟩

def keepByte (dst : Latch) (s : State) : State :=
  match dst with
  | .rx => s
  | .b2 => { s with b2 := s.rx }
  | .b1 => { s with b1 := s.rx }
  | .b0 => { s with b0 := s.rx }

/-- `x[RDATA] <- rx`. -/
def storeRdata (s : State) : State := { s with regs := { s.regs with rdata := written s.rx } }

/-- `x[RDATA] <- rx; x[IDNIB] <- rx[7:4]` (30 R102). -/
def storeIdentity (s : State) : State :=
  { s with regs := { s.regs with rdata := written s.rx, idnib := written (hiNibble s.rx) } }

def applyPost (p : Post) (s : State) : Run :=
  match p with
  | .nothing => .go s
  | .rdata => .go (storeRdata s)
  | .identity => .go (storeIdentity s)
  | .checkIdentity =>
    let t := storeIdentity s
    if hiNibble s.rx = s.cfg.chipId then .go t else .halt (takeCondition .chipIdentityMismatch t)
  | .sample k => .go { s with res := storeWrite s.res k (sampleOf (rawOf s.b2 s.b1 s.b0)) }
  | .booted => .go { s with initok := true }

/-- The descriptor of channel `k`, which SETCH must have written (42 R177, 70 R339). -/
def withChannel (k : Nat) (f : ChDesc → State → Run) (s : State) : Run :=
  match storeRead s.ch k with
  | some d => f d s
  | none => .fault (.unwrittenChannel k)

/-- One action, the edges before it already past. -/
def perform (m : Micro) (s : State) : Run :=
  match m with
  | .config => configure s
  | .rst level => .go (setRst level s)
  | .delay d => .go (delay d s)
  | .waitRdy => waitRdy s.inputs s
  | .select dev => .go (setCs dev false s)
  | .release dev post => applyPost post (setCs dev true s)
  | .send b => xfer b s
  | .sendMux k => withChannel k (fun d => xfer d.mux) s
  | .sendGf k => withChannel k (fun d => xfer (gfByte s.cfg.gfUpper d.gain)) s
  | .recv dst => andThen (xfer s.cfg.codes.filler s) fun t => .go (keepByte dst t)

/-- One action in its time: the edges pass in which `conv`, `drdy_n` and the other inputs may change (10_state.md R49),
then it is performed. A WAITRDY takes its edges itself, as polls. -/
def act (m : Micro) (s : State) : Run := if m = .waitRdy then perform m s else perform m (absorb s.inputs s)

/-- Several bytes sent one after the other, what comes back left in the trace. -/
def sendAll : List Byte → State → Run
  | [], s => .go s
  | b :: bs, s => andThen (act (.send b) s) (sendAll bs)

/-- One action at its place in the operation: `pc` stands on it (10_state.md R25). -/
def runItem (op : Op) (it : Item) (s : State) : Run := act it.act { s with pc := ⟨op, it.k, it.step⟩ }

/-- The actions of a list, one after the other. -/
def runItems (op : Op) : List Item → State → Run
  | [], s => .go s
  | it :: rest, s => andThen (runItem op it s) (runItems op rest)

/-- The part of a list that is still to do when `pc` stands at `(k, step)`. -/
def itemsFrom (pc : Pc) (items : List Item) : List Item :=
  items.dropWhile fun it => !(it.k == pc.k && it.step == pc.step)

/-! ### The host's reads (10_state.md R27, R32; 70 R339, R345) -/

/-- A value as the host reads it. -/
inductive ReadValue where
  | bit (b : Bool)
  | sched (x : Sched)
  | word (n : Nat)
  | signed (z : Int)
  | rational (q : Rat)
  | descriptor (d : ChDesc)
  deriving DecidableEq, Repr

def readReg {α : Type} (r : DataReg α) (f : α → ReadValue) : Except Fault ReadValue :=
  if r.written then .ok (f r.value) else .error .unwrittenRead

def readEntry {α : Type} (m : Store α) (a : Nat) (f : α → ReadValue) : Except Fault ReadValue :=
  match storeRead m a with
  | some v => .ok (f v)
  | none => .error .unwrittenRead

/-- The entries of RES from the channel at which the latest scan aborted on are no results (43 R196, 70 R339). -/
def resReadable (s : State) (j : Nat) : Bool :=
  match s.resAbort with
  | some k => decide (j < k)
  | none => true

/-- What the host gets from a read while `BUSY` = 0. What holds no value faults, as R32 ("a model faults the read rather than
returning a number"), R339 and U18 of 93_implementation_defined.md say. -/
def hostRead (port : ReadPort) (s : State) : Except Fault ReadValue :=
  match port with
  | .rdata => readReg s.regs.rdata fun v => .word v.toNat
  | .idnib => readReg s.regs.idnib fun v => .word v.toNat
  | .muxout => readReg s.regs.muxout fun v => .word v.toNat
  | .gainout => readReg s.regs.gainout fun v => .word v.toNat
  | .vout => readReg s.regs.vout fun v => .word v.toNat
  | .code16 => readReg s.regs.code16 fun v => .word v.toNat
  | .ratecode => readReg s.regs.ratecode fun v => .word v.toNat
  | .ratehz => readReg s.regs.ratehz .rational
  | .volts => readReg s.regs.volts .rational
  | .res j => if resReadable s j then readEntry s.res j fun v => .signed v.toInt else .error .unwrittenRead
  | .buf i => readEntry s.sess.buf i fun v => .signed v.toInt
  | .ch k => readEntry s.ch k .descriptor
  | .cycle => .ok (.word s.sess.cycle.toNat)
  | .overruns => .ok (.word s.sess.overruns.toNat)
  | .fault => .ok (.word s.fault.toNat)
  | .eHw => .ok (.bit s.flags.eHw)
  | .eId => .ok (.bit s.flags.eId)
  | .eCh => .ok (.bit s.flags.eCh)
  | .eRdy => .ok (.bit s.flags.eRdy)
  | .eTick => .ok (.bit s.flags.eTick)
  | .illegal => .ok (.bit s.illegal)
  | .done => .ok (.bit s.done)
  | .initok => .ok (.bit s.initok)
  | .sched => .ok (.sched s.sess.sched)
  | .count => .ok (.word s.chanCount)

end Sys2Proof.Machine
end

