-- ==== Sys2Proof/Machine/Programs.lean ====
section
/-! DEFINITION. The action lists of the bus operations, written from the numbered lists of the rules, and the run of an
operation from wherever its program counter stands (10_state.md R24, R25). -/

namespace Sys2Proof.Machine

/-- R130 (with `Post.rdata`) and R132 (with `Post.identity`), actions 0 to 5. -/
def readActs (P : Params) (id : BitVec 4) (post : Post) : List Micro :=
  [.select .adc, .send (commandByte P.codes.rreg id), .send (countByte 0#4), .delay .tIB, .recv .rx, .release .adc post]

/-- R131, actions 0 to 5. -/
def writeActs (P : Params) (id : BitVec 4) (value : Byte) : List Micro :=
  [.select .adc, .send (commandByte P.codes.wreg id), .send (countByte 0#4), .delay .tIB, .send value,
    .release .adc .nothing]

/-- R185, the twenty actions of channel `k`. -/
def channelActs (P : Params) (k : Nat) : List Micro :=
  [.waitRdy,
    .select .adc,
    .send (commandByte P.codes.wreg 0x1#4),
    .delay .tIB,
    .send (countByte 1#4),
    .delay .tIB,
    .sendMux k,
    .delay .tIB,
    .sendGf k,
    .delay .tSTEP,
    .send P.codes.sync,
    .delay .tSYNC,
    .send P.codes.wakeup,
    .delay .tSTEP,
    .send P.codes.rdata,
    .delay .tDATA,
    .recv .b2,
    .recv .b1,
    .recv .b0,
    .release .adc (.sample k)]

/-- R230: one framed command and the delay after the frame. -/
def commandActs (op : Byte) (d : DelayName) : List Micro := [.select .adc, .send op, .release .adc .nothing, .delay d]

/-- R240 actions 0 to 7: CONFIG, the reset pulse (R242), the ready wait (R243). -/
def initStartActs : List Micro :=
  [.config, .rst true, .delay .tRST, .rst false, .delay .tRST, .rst true, .delay .tRST, .waitRdy]

/-- R240 actions 22 to 37: the burst of the default block (R245, R133). -/
def initBlockActs (P : Params) : List Micro :=
  [.select .adc,
    .send (commandByte P.codes.wreg 0x0#4), .delay .tIB,
    .send (countByte 4#4), .delay .tIB,
    .send P.initBlock.status, .delay (.tCOMMIT 0),
    .send P.initBlock.mux, .delay (.tCOMMIT 1),
    .send P.initBlock.gf, .delay (.tCOMMIT 2),
    .send P.initBlock.drate, .delay (.tCOMMIT 3),
    .send P.initBlock.dio, .delay (.tCOMMIT 4),
    .release .adc .booted]

/-- R240, all thirty-eight actions: the identity read is R132's (R243), the two commands are R230's (R244). -/
def initActs (P : Params) : List Micro :=
  initStartActs ++ readActs P 0x0#4 .checkIdentity ++ commandActs P.codes.reset .tCMD ++
    commandActs P.codes.sdatac .tCMD ++ initBlockActs P

/-- R250, actions 0 to 5. -/
def dacActs (P : Params) (c : BitVec 1) (code : BitVec 16) : List Micro :=
  [.select .dac, .send (dacCommand P.codes c), .send (codeHigh code), .delay .tIB, .send (codeLow code),
    .release .dac .nothing]

/-- The scan of `count` channels, in order (R180). -/
def scanItems (P : Params) (count : Nat) : List Item :=
  (List.range count).flatMap fun k => number k 0 (channelActs P k)

/-- The list of an operation that is one list; the tick's parts are below. -/
def opItems (P : Params) (count : Nat) : Op → List Item
  | .idle => []
  | .rdreg id => number 0 0 (readActs P id .rdata)
  | .wrreg id value => number 0 0 (writeActs P id value)
  | .rdid => number 0 0 (readActs P 0x0#4 .identity)
  | .scan => scanItems P count
  | .init => number 0 0 (initActs P)
  | .dacwr c code => number 0 0 (dacActs P c code)
  | .tick => scanItems P count

/-- The last thing an operation does. -/
def finished (s : State) : Run := .go (finishOp s)

/-! ### The tick (60_exceptions.md R291) -/

/-- Step 2 for the channels listed: `BUF[CYCLE × K + j] <- RES[j]`; nothing is stored outside `TARGET × K` (20 R62). -/
def storeVector : List Nat → State → Run
  | [], s => .go s
  | j :: js, s =>
    let at_ := s.sess.cycle.toNat * s.chanCount + j
    match storeRead s.res j with
    | some v =>
      if at_ < s.sess.target.toNat * s.chanCount then
        storeVector js { s with sess := { s.sess with buf := storeWrite s.sess.buf at_ v } }
      else .fault .bufferRange
    | none => .fault .bufferRange

/-- `OUTSEQ[c]` (10_state.md R34). -/
def outSeq (s : State) (c : Nat) : Store (BitVec 16) :=
  match c with
  | 0 => s.sess.outseq0
  | 1 => s.sess.outseq1
  | _ => []

/-- Step 3 for the output channels listed: R250 with `code = OUTSEQ[c][CYCLE]`. `pc` is `(TICK, K, 6c + step)` there
(log 17); actions before `first` are already done. -/
def runOutputs (first : Nat) : List Nat → State → Run
  | [], s => .go s
  | c :: cs, s =>
    match storeRead (outSeq s c) s.sess.cycle.toNat with
    | none => .fault (.unloadedOutput c)
    | some code =>
      let items := number s.chanCount (6 * c) (dacActs s.cfg (BitVec.ofNat 1 c) code)
      andThen (runItems .tick (items.filter fun it => decide (first ≤ it.step)) s) (runOutputs first cs)

/-- Steps 4 to 6: the cycle is counted, the session stops at its target. -/
def tickDone (s : State) : Run :=
  let t := { s with sess := { s.sess with cycle := s.sess.cycle + 1#32 } }
  finished (if t.sess.cycle = t.sess.target then stopSession t else t)

/-- Step 3 from action `first` on, then steps 4 to 6. -/
def tickOutputs (first : Nat) (s : State) : Run :=
  let cs := (List.range s.sess.nout.toNat).filter fun c => decide (first < 6 * c + 6)
  andThen (runOutputs first cs s) tickDone

/-- The tick handler from where `pc` stands: the scan, the buffer write, the outputs, the count. -/
def continueTick (s : State) : Run :=
  if s.pc.k < s.chanCount then
    andThen (runItems .tick (itemsFrom s.pc (scanItems s.cfg s.chanCount)) s) fun t =>
      andThen (storeVector (List.range t.chanCount) t) (tickOutputs 0)
  else tickOutputs s.pc.step s

/-! ### Running an operation -/

/-- The operation in progress from where `pc` stands to its end, its abort, or a WAITRDY that holds. -/
def continueOp (s : State) : Run :=
  match s.pc.op with
  | .idle => .go s
  | .tick => continueTick s
  | op => andThen (runItems op (itemsFrom s.pc (opItems s.cfg s.chanCount op)) s) finished

/-- A bus operation other than INIT is offered: not accepted while BUSY (30 R111), refused with `INITOK` = 0 (70 R326),
else accepted and run. -/
def startBus (op : Op) (s : State) : Host.Outcome State Fault Refusal :=
  if busy s then .next s
  else if s.initok = false then .refused .notBooted
  else toOutcome (continueOp (enterOp op s))

/-- A pure operation is offered: not accepted while BUSY or when its own condition fails, else it finishes in this step
(30 R111). -/
def pureOp (acceptable : Bool) (f : State → State) (s : State) : Host.Outcome State Fault Refusal :=
  if busy s || !acceptable then .next s else .next (finishOp (f s))

/-- `SCHED` ∈ {Idle, Stopped}: outside a session (10 R29, 45 R240, 60 R286). -/
def outsideSession (s : State) : Bool := decide (s.sess.sched = .idle ∨ s.sess.sched = .stopped)

end Sys2Proof.Machine
end

