-- ==== Sys2Proof/Machine/Codec.lean ====
section
/-! DEFINITION. The range/gain codec, the multiplexer codec and the channel table (41 R161, R162; 42 R171, R176, R177). -/

namespace Sys2Proof.Machine

/-- `MUXENC p, n` (R171): the byte is produced whether or not a pin was clamped. -/
def execMuxenc (p n : Byte) (s : State) : Host.Outcome State Fault Refusal :=
  pureOp true (fun s => noteIllegal p n { s with regs := { s.regs with muxout := written (muxByte p n) } }) s

/-- `GAINENC v` (R161). -/
def execGainenc (v : Volt) (s : State) : Host.Outcome State Fault Refusal :=
  pureOp true (fun s => { s with regs := { s.regs with gainout := written (gainCode v) } }) s

/-- `GAINDEC code` (R162). -/
def execGaindec (code : BitVec 3) (s : State) : Host.Outcome State Fault Refusal :=
  pureOp true (fun s => { s with regs := { s.regs with vout := written (gainVolt code) } }) s

/-- The descriptor SETCH stores: the pins as given, the derived gain and multiplexer byte (R176, 10 R28). -/
def descriptor (p n : Byte) (v : Volt) : ChDesc := ⟨p, n, v, gainCode v, muxByte p n⟩

/-- `SETCH k, p, n, v` (R176): accepted outside a session, for `k < NCH_MAX` (20 R78). -/
def execSetch (k : Nat) (p n : Byte) (v : Volt) (s : State) : Host.Outcome State Fault Refusal :=
  pureOp (outsideSession s && decide (k < s.cfg.nchMax))
    (fun s => noteIllegal p n { s with ch := storeWrite s.ch k (descriptor p n v) }) s

/-- `SETK count` (R177): accepted outside a session, for `count ≤ NCH_MAX`. -/
def execSetk (count : Nat) (s : State) : Host.Outcome State Fault Refusal :=
  pureOp (outsideSession s && decide (count ≤ s.cfg.nchMax)) (fun s => { s with chanCount := count }) s

end Sys2Proof.Machine
end

