-- ==== Sys2Proof/Machine/Init.lean ====
section
/-! DEFINITION. The initialization and reset sequencer (45_init_sequencer.md R240). -/

namespace Sys2Proof.Machine

/-- `INIT` (R240): accepted outside a session; `INITOK <- 0` on acceptance. -/
def execInit (s : State) : Host.Outcome State Fault Refusal :=
  if busy s || !outsideSession s then .next s
  else toOutcome (continueOp (enterOp .init { s with initok := false }))

end Sys2Proof.Machine
end

