-- ==== Sys2Proof/Machine/Output.lean ====
section
/-! DEFINITION. The output writer, the voltage conversions and the rate selection (46 R250 to R261). -/

namespace Sys2Proof.Machine

/-- `DACWR c, code` (R250). -/
def execDacwr (c : BitVec 1) (code : BitVec 16) (s : State) : Host.Outcome State Fault Refusal :=
  startBus (.dacwr c code) s

/-- `V2CODE volt, ref` (R252): accepted for `ref > 0`. -/
def execV2code (volt ref : Rat) (s : State) : Host.Outcome State Fault Refusal :=
  pureOp (decide (0 < ref)) (fun s => { s with regs := { s.regs with code16 := written (voltsToCode volt ref) } }) s

/-- `CODE2V code, ref` (R253): accepted for `ref > 0`. -/
def execCode2v (code : BitVec 16) (ref : Rat) (s : State) : Host.Outcome State Fault Refusal :=
  pureOp (decide (0 < ref)) (fun s => { s with regs := { s.regs with volts := written (codeToVolts code ref) } }) s

/-- `RAW2V raw, ref` (R255): accepted for `ref > 0`. -/
def execRaw2v (raw : Sample) (ref : Rat) (s : State) : Host.Outcome State Fault Refusal :=
  pureOp (decide (0 < ref)) (fun s => { s with regs := { s.regs with volts := written (rawToVolts raw ref) } }) s

/-- `RATESEL rate` (R261). -/
def execRatesel (rate : Rat) (s : State) : Host.Outcome State Fault Refusal :=
  pureOp true
    (fun s =>
      let e := rateEntry s.cfg rate
      { s with regs := { s.regs with ratecode := written e.2, ratehz := written e.1 } }) s

end Sys2Proof.Machine
end

