-- ==== Sys2Proof/Machine/RegAccess.lean ====
section
/-! DEFINITION. The register access operations of the host (40_register_access.md R130 to R132). -/

namespace Sys2Proof.Machine

/-- `RDREG id` (R130). -/
def execRdreg (id : BitVec 4) (s : State) : Host.Outcome State Fault Refusal := startBus (.rdreg id) s

/-- `WRREG id, value` (R131). -/
def execWrreg (id : BitVec 4) (value : Byte) (s : State) : Host.Outcome State Fault Refusal :=
  startBus (.wrreg id value) s

/-- `RDID` (R132). -/
def execRdid (s : State) : Host.Outcome State Fault Refusal := startBus .rdid s

end Sys2Proof.Machine
end

