-- ==== Sys2Proof/Machine/Scan.lean ====
section
/-! DEFINITION. The channel scan engine (43_scan_engine.md R180). -/

namespace Sys2Proof.Machine

/-- `SCAN` (R180): the actions of R185 for every configured channel in order; with no channel it finishes at once (R181). -/
def execScan (s : State) : Host.Outcome State Fault Refusal := startBus .scan s

end Sys2Proof.Machine
end

