-- ==== Sys2Proof/Machine/Session.lean ====
section
/-! DEFINITION. The scheduler's operations and the tick (60_exceptions.md R286 to R292). -/

namespace Sys2Proof.Machine

/-- `ARM target, nout` (R286): a new session, its buffer and the configured output sequences unwritten. -/
def execArm (target : Count) (nout : BitVec 2) (s : State) : Host.Outcome State Fault Refusal :=
  pureOp (outsideSession s && decide (nout.toNat ≤ 2))
    (fun s =>
      { s with
        sess :=
          { s.sess with
            target, nout
            cycle := 0#32
            buf := []
            outseq0 := if 0 < nout.toNat then [] else s.sess.outseq0
            outseq1 := if 1 < nout.toNat then [] else s.sess.outseq1
            sched := .armed } }) s

/-- `START` (R287): a target of 0 is already reached. -/
def execStart (s : State) : Host.Outcome State Fault Refusal :=
  pureOp (decide (s.sess.sched = .armed))
    (fun s =>
      { s with
        sess :=
          if s.sess.target = 0#32 then { s.sess with sched := .stopped }
          else { s.sess with sched := .running, armed := true } }) s

/-- `CANCEL` (R289): accepted whatever BUSY is, and does not use the sequencer. -/
def execCancel (s : State) : Host.Outcome State Fault Refusal := .next (cancelSession s)

/-- `LDOUT c, i, code` (R288): accepted while Armed, for `c < NOUT` and `i < TARGET`. -/
def execLdout (c : BitVec 1) (i : Count) (code : BitVec 16) (s : State) : Host.Outcome State Fault Refusal :=
  pureOp (decide (s.sess.sched = .armed) && decide (c.toNat < s.sess.nout.toNat) && decide (i < s.sess.target))
    (fun s =>
      { s with
        sess :=
          if c = 0#1 then { s.sess with outseq0 := storeWrite s.sess.outseq0 i.toNat code }
          else { s.sess with outseq1 := storeWrite s.sess.outseq1 i.toNat code } }) s

/-- A pulse of `tick`: none comes from a timer that is not armed (R281); while BUSY it is an overrun (R276); otherwise
the tick handler is entered (R283), which needs the boot as every bus operation does (70 R326), and runs (R291, R292). -/
def execTick (s : State) : Host.Outcome State Fault Refusal :=
  if s.sess.armed = false then .next s
  else if busy s then .next (noteOverrun s)
  else startBus .tick s

end Sys2Proof.Machine
end

