-- ==== Sys2Proof/Machine/Wire.lean ====
section
/-! DEFINITION. The wire commands (40 R142, R143; 44 R210 to R228) and the output frame (46 R251) as the exchanges of
their bytes in the frame that is open: the peer's side of each is `adcExchange`, `dacExchange`. Edges pass before each
byte, in which `conv` and `drdy_n` may change as R49 and R210 to R228 say. With no frame open the chip ignores the bytes
(40 R140). -/

namespace Sys2Proof.Machine

/-- `WAKEUP` (R210). -/
def execWakeup (s : State) : Host.Outcome State Fault Refusal := toOutcome (act (.send s.cfg.codes.wakeup) s)

/-- `RDATA` (R211): the opcode, the delay `T_DATA`, three filler bytes whose answers are `b2`, `b1`, `b0` (30 R94).
DESIGN CHOICE (log 28): FILLER is what it sends, whatever three bytes an outside frame presents after the opcode. -/
def execRdata (s : State) : Host.Outcome State Fault Refusal :=
  toOutcome <|
    andThen (act (.send s.cfg.codes.rdata) s) fun t =>
    andThen (act (.delay .tDATA) t) fun t =>
    andThen (act (.recv .b2) t) fun t =>
    andThen (act (.recv .b1) t) (act (.recv .b0))

/-- `RDATAC` (R212). -/
def execRdatac (s : State) : Host.Outcome State Fault Refusal := toOutcome (act (.send s.cfg.codes.rdatac) s)

/-- `SDATAC` (R213). -/
def execSdatac (s : State) : Host.Outcome State Fault Refusal := toOutcome (act (.send s.cfg.codes.sdatac) s)

/-- `RREG` (40 R142): the command byte, the count byte, and a filler byte per register; the bytes captured stand in the
trace. -/
def execRreg (r n : BitVec 4) (s : State) : Host.Outcome State Fault Refusal :=
  toOutcome <| sendAll
    (commandByte s.cfg.codes.rreg r :: countByte n :: List.replicate (n.toNat + 1) s.cfg.codes.filler) s

/-- `WREG` (40 R143): the command byte, the count byte, the data bytes. -/
def execWreg (r n : BitVec 4) (data : List Byte) (s : State) : Host.Outcome State Fault Refusal :=
  toOutcome (sendAll (commandByte s.cfg.codes.wreg r :: countByte n :: data) s)

/-- `SELFCAL` (R220). -/
def execSelfcal (s : State) : Host.Outcome State Fault Refusal := toOutcome (act (.send s.cfg.codes.selfcal) s)

/-- `SELFOCAL` (R221). -/
def execSelfocal (s : State) : Host.Outcome State Fault Refusal := toOutcome (act (.send s.cfg.codes.selfocal) s)

/-- `SELFGCAL` (R222). -/
def execSelfgcal (s : State) : Host.Outcome State Fault Refusal := toOutcome (act (.send s.cfg.codes.selfgcal) s)

/-- `SYSOCAL` (R223). -/
def execSysocal (s : State) : Host.Outcome State Fault Refusal := toOutcome (act (.send s.cfg.codes.sysocal) s)

/-- `SYSGCAL` (R224). -/
def execSysgcal (s : State) : Host.Outcome State Fault Refusal := toOutcome (act (.send s.cfg.codes.sysgcal) s)

/-- `SYNC` (R225). -/
def execSync (s : State) : Host.Outcome State Fault Refusal := toOutcome (act (.send s.cfg.codes.sync) s)

/-- `STANDBY` (R226). -/
def execStandby (s : State) : Host.Outcome State Fault Refusal := toOutcome (act (.send s.cfg.codes.standby) s)

/-- `RESET` (R227). -/
def execReset (s : State) : Host.Outcome State Fault Refusal := toOutcome (act (.send s.cfg.codes.reset) s)

/-- `WAKEUP2` (R228). -/
def execWakeup2 (s : State) : Host.Outcome State Fault Refusal := toOutcome (act (.send s.cfg.codes.wakeup2) s)

/-- `DACFRAME` (46 R251, 30 R95): the command byte of the channel, the high byte, the low byte. -/
def execDacframe (c : BitVec 1) (code : BitVec 16) (s : State) : Host.Outcome State Fault Refusal :=
  toOutcome (sendAll [dacCommand s.cfg.codes c, codeHigh code, codeLow code] s)

end Sys2Proof.Machine
end

