-- ==== Sys2Proof/Machine/Dispatch.lean ====
section
/-! DEFINITION. One arm per instruction. -/

namespace Sys2Proof.Machine

def exec (i : Instr) (s : State) : Host.Outcome State Fault Refusal :=
  match i with
  | .wakeup => Sys2Proof.Machine.execWakeup s
  | .rdata => Sys2Proof.Machine.execRdata s
  | .rdatac => Sys2Proof.Machine.execRdatac s
  | .sdatac => Sys2Proof.Machine.execSdatac s
  | .rreg r n => Sys2Proof.Machine.execRreg r n s
  | .wreg r n data => Sys2Proof.Machine.execWreg r n data s
  | .selfcal => Sys2Proof.Machine.execSelfcal s
  | .selfocal => Sys2Proof.Machine.execSelfocal s
  | .selfgcal => Sys2Proof.Machine.execSelfgcal s
  | .sysocal => Sys2Proof.Machine.execSysocal s
  | .sysgcal => Sys2Proof.Machine.execSysgcal s
  | .sync => Sys2Proof.Machine.execSync s
  | .standby => Sys2Proof.Machine.execStandby s
  | .reset => Sys2Proof.Machine.execReset s
  | .wakeup2 => Sys2Proof.Machine.execWakeup2 s
  | .dacframe c code => Sys2Proof.Machine.execDacframe c code s
  | .rdreg id => Sys2Proof.Machine.execRdreg id s
  | .wrreg id value => Sys2Proof.Machine.execWrreg id value s
  | .rdid => Sys2Proof.Machine.execRdid s
  | .muxenc p n => Sys2Proof.Machine.execMuxenc p n s
  | .gainenc v => Sys2Proof.Machine.execGainenc v s
  | .gaindec code => Sys2Proof.Machine.execGaindec code s
  | .setch k p n v => Sys2Proof.Machine.execSetch k p n v s
  | .setk count => Sys2Proof.Machine.execSetk count s
  | .scan => Sys2Proof.Machine.execScan s
  | .init => Sys2Proof.Machine.execInit s
  | .dacwr c code => Sys2Proof.Machine.execDacwr c code s
  | .v2code volt ref => Sys2Proof.Machine.execV2code volt ref s
  | .code2v code ref => Sys2Proof.Machine.execCode2v code ref s
  | .raw2v raw ref => Sys2Proof.Machine.execRaw2v raw ref s
  | .ratesel rate => Sys2Proof.Machine.execRatesel rate s
  | .arm target nout => Sys2Proof.Machine.execArm target nout s
  | .start => Sys2Proof.Machine.execStart s
  | .cancel => Sys2Proof.Machine.execCancel s
  | .ldout c idx code => Sys2Proof.Machine.execLdout c idx code s
  | .tick => Sys2Proof.Machine.execTick s

end Sys2Proof.Machine
end

