-- ==== Sys2Proof/Machine/Fetch.lean ====
section
/-! DEFINITION. Where the next instruction comes from: an outside frame (log 13), or the clock edge that comes next (00
R10, 60 R282); and where a word of the opcode table is placed for the next step (log 14). -/

namespace Sys2Proof.Machine

def ofOutcome (o : Host.Outcome State Fault Refusal) : Run :=
  match o with
  | .next s => .go s
  | .fault r => .fault r
  | .refused r => .refuse r

/-- The commands of an ADC frame, one after the other (30 R90); bytes that make no command (a frame that ends early, a
reserved byte) are exchanged as they are. DESIGN CHOICE (log 28): the bytes presented after an RDATA opcode or an RREG count,
which the chip ignores (40 R145, R147), are only counted, and the instruction sends FILLER in their place, so the trace
shows FILLER there. The first argument bounds the number of commands. -/
def runCommands : Nat → List Byte → State → Run
  | 0, bytes, s => sendAll bytes s
  | _, [], s => .go s
  | n + 1, bytes, s =>
    match decodeWire s.cfg.codes bytes with
    | .ok (i, rest) => andThen (ofOutcome (exec i s)) (runCommands n rest)
    | .error _ => sendAll bytes s

/-- The bytes of an output frame: a whole frame is the instruction, and what follows it or falls short is exchanged as it
is (46 R251). DEDUCED (log 36): a frame of fewer than three bytes changes no output, as R251 says, where 93 U16 would refuse
it. -/
def runDacBytes (bytes : List Byte) (s : State) : Run :=
  match decodeDac s.cfg.codes bytes with
  | .ok (i, rest) => andThen (ofOutcome (exec i s)) (sendAll rest)
  | .error _ => sendAll bytes s

/-- An outside frame: the select falls, the bytes pass, the select rises. Each of these actions takes its edges as those of
an operation do, so the chip's `conv` and `drdy_n` change between any two bytes and between frames (10_state.md R49; the
other inputs meanwhile: log 13). -/
def runFrame (f : BusFrame) (s : State) : Run :=
  andThen (act (.select f.dev) s) fun t =>
    andThen (match f.dev with | .adc => runCommands f.bytes.length f.bytes t | .dac => runDacBytes f.bytes t)
      (act (.release f.dev .nothing))

/-- An edge while IDLE: the lines change; a host read of what holds no value faults; CANCEL takes effect before a tick,
which is then not taken; a tick of the armed timer comes before any other host operation (60 R282); an unassigned select
code is never accepted (30 R121). -/
def idleEdge (e : Edge) (s : State) : Host.Outcome State Fault Refusal :=
  let t := setLines e s
  match e.read.map fun port => hostRead port t with
  | some (.error r) => .fault r
  | _ =>
    if offersCancel e then exec .cancel t
    else if e.tick && t.sess.armed then exec .tick t
    else
      match e.cmd.map decodeHost with
      | some (.ok i) => exec i t
      | _ => .next t

/-- One step of the machine: the operation in progress goes on; else the next outside frame; else the next edge; else
nothing is offered and the block waits (70 R321). A run marked faulted goes no further: no claim is made past that point
(40 R148, 93 part 2). -/
def nextStep (s : State) : Host.Outcome State Fault Refusal :=
  if s.runFaulted then .fault .readWhileNotReady
  else if busy s then toOutcome (continueOp s)
  else
    match s.frames, s.inputs with
    | f :: fs, _ => toOutcome (runFrame f { s with frames := fs })
    | [], e :: es => idleEdge e { s with inputs := es }
    | [], [] => .next s

/-- An edge with the lines as they are. -/
def quietEdge (s : State) : Edge :=
  { drdyN := s.drdyN, hwOk := s.hwOk, conv := s.adc.conv, tick := false, cmd := none, read := none, actDone := true }

/-- Words placed where the next step fetches, the sequencer idle: a host operation at the ports of the next edge, a wire
command or output frame as the only outside frame, a tick pulse of a running session. -/
def placeWords (w : Encoded) (s : State) : State :=
  let t := { s with pc := ⟨.idle, 0, 0⟩, frames := [], runFaulted := false }
  match w with
  | .wire bytes => { t with frames := [⟨.adc, bytes⟩] }
  | .dac bytes => { t with frames := [⟨.dac, bytes⟩] }
  | .host port => { t with inputs := { quietEdge s with cmd := some port } :: s.inputs }
  | .tick =>
    { t with
      sess := { s.sess with sched := .running, armed := true }
      inputs := { quietEdge s with tick := true } :: s.inputs }

end Sys2Proof.Machine
end

