-- ==== Sys2Proof/Machine/Step.lean ====
section
/-! DEFINITION. The step, and where a word of the opcode table is placed for it (log 14). -/

namespace Sys2Proof.Machine

/-- One step (`nextStep`). -/
def step (s : State) : Host.Outcome State Fault Refusal := nextStep s

/-- The state with the words of an opcode-table row stored where `step` takes its next instruction from. -/
def State.withFetchWord (s : State) (nbits w : Nat) : State := placeWords (tableWords nbits w) s

end Sys2Proof.Machine
end

