-- ==== Sys2Proof/Safety.lean ====
section
/-! DEFINITION. What holds of a safe run, in the terms the claims use: each predicate is meant to hold after reset and to be
kept by every step. -/

namespace Sys2Proof.Machine

/-- The index spaces are in canonical form, the register memory inside the map (20_memory.md R60, R65). -/
def Canonical (s : State) : Prop :=
  Memory.wf s.adc.mem = true ∧ storeWf s.res = true ∧ storeWf s.ch = true ∧ storeWf s.sess.buf = true ∧
    storeWf s.sess.outseq0 = true ∧ storeWf s.sess.outseq1 = true

/-- `pc` stands at a WAITRDY: of a channel below `K` of a scan or tick, or of INIT (43 R185 action 0, 45 R240 action 7). -/
def AtWait (s : State) : Prop :=
  ((s.pc.op = .scan ∨ s.pc.op = .tick) ∧ s.pc.k < s.chanCount ∧ s.pc.step = 0) ∨
    (s.pc.op = .init ∧ s.pc.k = 0 ∧ s.pc.step = 7)

/-- Between steps no frame is open: both selects and the reset line are high, both peers are at the start of a command,
and an operation in progress is held in a WAITRDY (10 R22, 40 R134, 60 R277, 70 R336). -/
def NoFrameOpen (s : State) : Prop :=
  s.csAdcN = true ∧ s.csDacN = true ∧ s.rstN = true ∧ s.adc.pst = .cmd ∧ s.dac.pst = .start ∧
    (s.pc.op = .idle ∨ AtWait s)

/-- The timer is armed only in Running, and Running only with the timer armed; the counter stays below the target there
and while a tick is in progress, which leaves the session running unless a CANCEL stopped it; at most two outputs and
`NCH_MAX` channels (60 R281, R289, R291; 10 R28, R34). -/
def SessionSound (s : State) : Prop :=
  (s.sess.armed = true ↔ s.sess.sched = .running) ∧
    (s.sess.armed = true ∨ s.pc.op = .tick → s.sess.cycle < s.sess.target) ∧
    (s.pc.op = .tick → s.sess.sched = .running ∨ s.sess.sched = .stopped) ∧
    s.sess.cycle ≤ s.sess.target ∧ (s.sess.sched = .armed → s.sess.cycle = 0#32) ∧ s.sess.nout.toNat ≤ 2 ∧
    s.chanCount ≤ s.cfg.nchMax

/-- Every descriptor is inside the table and carries the two derived fields of its pins and range (10 R28). -/
def TableDerived (s : State) : Prop :=
  ∀ k d, storeRead s.ch k = some d →
    k < s.cfg.nchMax ∧ d.mux = muxByte d.pos d.neg ∧ d.gain = gainCode d.range

/-- Exactly the entries below `CYCLE × K` of the buffer are written (60 R293). -/
def BufferExact (s : State) : Prop :=
  ∀ i, (storeRead s.sess.buf i).isSome = true ↔ i < s.sess.cycle.toNat * s.chanCount

/-- In a session, or while a tick is in progress, the buffer is exact (60 R293; `K` cannot change there, 70 R335). -/
def SessionBufferExact (s : State) : Prop :=
  s.sess.sched = .armed ∨ s.sess.sched = .running ∨ s.pc.op = .tick → BufferExact s

/-! ### What a claim says an operation needs -/

/-- The handler is idle and booted, no frame is open and the converter chip is in NORMAL mode: the boot premise and the
state every operation leaves (70 R325, R326, R337). -/
def Booted (s : State) : Prop :=
  s.pc.op = .idle ∧ s.initok = true ∧ NoFrameOpen s ∧ s.adc.mode = .normal

/-- The ready line is low and every edge to come leaves it low (70 R330). -/
def StaysReady (s : State) : Prop := s.drdyN = false ∧ ∀ e ∈ s.inputs, e.drdyN = false

/-- The ready line is high and every edge to come leaves it high. -/
def StaysNotReady (s : State) : Prop := s.drdyN = true ∧ ∀ e ∈ s.inputs, e.drdyN = true

/-- How many actions, or polls of a WAITRDY, the edges last (log 7). -/
def actionsOf (es : List Edge) : Nat := (es.filter fun e => e.actDone).length

/-- The edges pass one after the other while an operation is in progress. -/
def passEdges (es : List Edge) (s : State) : State := es.foldl (fun u e => busyEdge e u) s

/-- Every edge to come leaves the line ready, and one comes after INIT's fourth action, the pulse, which leaves the line
unspecified (10 R56, 45 R242). -/
def ReadyAfterPulse (s : State) : Prop :=
  (∀ e ∈ s.inputs, e.drdyN = false) ∧ ∃ pre e post, s.inputs = pre ++ e :: post ∧ 4 ≤ actionsOf pre

/-- The edges of `n` polls of a WAITRDY, the line not ready at each. -/
def NotReadyPolls (n : Nat) (es : List Edge) : Prop :=
  (∀ e ∈ es, e.actDone = true → e.drdyN = true) ∧ actionsOf es = n ∧ ∃ pre e, es = pre ++ [e] ∧ e.actDone = true

/-- The edges of `n` actions, one each, the line ready at all of them. -/
def ReadyActions (n : Nat) (es : List Edge) : Prop :=
  es.length = n ∧ ∀ e ∈ es, e.actDone = true ∧ e.drdyN = false

/-- The converter chip listens in an open frame, at the start of a command, in NORMAL mode (40 R141). -/
def AdcListening (s : State) : Prop :=
  s.csAdcN = false ∧ s.csDacN = true ∧ s.rstN = true ∧ s.adc.pst = .cmd ∧ s.adc.mode = .normal

/-! ### Frames presented from outside (log 13) -/

/-- The bytes are these wire commands, one after the other (30 R90). -/
def CommandsOf (C : WireCodes) : List Byte → List Instr → Prop
  | bytes, [] => bytes = []
  | bytes, i :: is => ∃ rest, decodeWire C bytes = .ok (i, rest) ∧ CommandsOf C rest is

/-- The frame holds these instructions and nothing more: wire commands, or one output frame. -/
def FrameHolds (C : WireCodes) (f : BusFrame) (is : List Instr) : Prop :=
  match f.dev with
  | .adc => CommandsOf C f.bytes is
  | .dac => ∃ i, is = [i] ∧ decodeDac C f.bytes = .ok (i, [])

/-- Instructions executed one after the other. -/
def execAll : List Instr → State → Host.Outcome State Fault Refusal
  | [], s => .next s
  | i :: is, s =>
    match exec i s with
    | .next t => execAll is t
    | .fault r => .fault r
    | .refused r => .refused r

/-! ### What a claim says of the state after -/

/-- An action without the byte that came back. -/
def sent : Action → Action
  | .xfer tx _ => .xfer tx 0#8
  | a => a

/-- The trace grew by `acts`, the bytes returned aside. -/
def TraceGrew (s t : State) (acts : List Action) : Prop :=
  ∃ l, t.trace = s.trace ++ l ∧ l.map sent = acts.map sent

/-- `u` with what clock edges and byte exchanges may change taken from `t`: the lines, the edges used up, the overrun flag
and count, the scheduler and timer, the conversion value, the byte last returned, the draws and the trace. -/
def amid (u t : State) : State :=
  { u with
    drdyN := t.drdyN
    hwOk := t.hwOk
    inputs := t.inputs
    flags := { u.flags with eTick := t.flags.eTick }
    sess := { u.sess with sched := t.sess.sched, armed := t.sess.armed, overruns := t.sess.overruns }
    adc := { u.adc with conv := t.adc.conv }
    rx := t.rx
    draws := t.draws
    trace := t.trace }

/-- The scheduler is as it was, or a CANCEL stopped the session meanwhile (60 R289). -/
def KeptOrCancelled (u t : State) : Prop :=
  (t.sess.sched = u.sess.sched ∧ t.sess.armed = u.sess.armed) ∨
    ((u.sess.sched = .armed ∨ u.sess.sched = .running) ∧ t.sess.sched = .stopped ∧ t.sess.armed = false)

/-- `t` is `u`, the effect, but for what clock edges and byte exchanges may change; with no edge to come, but for the byte
returned, the draws and the trace. -/
def Passed (u t : State) : Prop :=
  t = amid u t ∧ KeptOrCancelled u t ∧ (u.inputs = [] → t = { u with rx := t.rx, draws := t.draws, trace := t.trace })

/-- The operation finished without abort: `t` is `u`, the operation's own effect, in every other part of the state. -/
def Finished (u t : State) : Prop :=
  t = amid { u with pc := ⟨.idle, 0, 0⟩, polls := 0, done := true, fault := 0#3 } t ∧ KeptOrCancelled u t

/-- The operation aborted by the condition of code `code` with the effects `u` (60 R270, R277). -/
def Aborted (code : BitVec 3) (u t : State) : Prop :=
  t = amid { u with pc := ⟨.idle, 0, 0⟩, polls := 0, done := false, fault := code } t

/-- The conversion value is the one there is or one that an edge to come brings (10 R49). -/
def ConvOf (s : State) (c : BitVec 24) : Prop := c = s.adc.conv ∨ ∃ e ∈ s.inputs, c = e.conv

/-- Register `a` took `v` in the bits that can be written, `old` is what it held (10 R47). -/
def TookMasked (mask v old new : Byte) : Prop :=
  ∀ i, i < 8 → new.getLsbD i = if mask.getLsbD i then v.getLsbD i else old.getLsbD i

end Sys2Proof.Machine
end

