-- ==== Sys2Proof/Certificates/Slice0/Obligations.lean ====
section
/-! DEFINITION. The statements for the provers. Each says which rule of spec/ it formalises; a clause that rests on a choice
of the model names the log entry. -/

open Sys2Proof Sys2Proof.Machine

/-! ### Encoding -/

/-- 30_encoding.md R91, R92, R94, R95, R97, R98, R103, R110: for every valuation of the opcode bytes that meets R12, the
words of a well-formed instruction decode to it. The second wake opcode is the exception R12 makes: where it has the
first one's byte it decodes to the first. -/
def Obligations.DecodeOfEncodeIsTheInstruction : Prop :=
  ∀ (C : WireCodes) (i : Instr), C.wf = true → i.wellFormed = true →
    decode C (encode C i) = .ok (if i = .wakeup2 ∧ C.wakeup2 = C.wakeup then .wakeup else i)

/-- R119: what the decoder accepts is well-formed: no burst past 0x0A, one data byte per register. -/
def Obligations.DecodeAcceptsOnlyWellFormed : Prop :=
  ∀ (C : WireCodes) (e : Encoded) (i : Instr), decode C e = .ok i → i.wellFormed = true

/-- Words of 95_test_vectors.md V6, V7, V8, V11 and rejected ones (R115, R119, R121), with the default bytes of R96. -/
def Obligations.SampleWordsDecode : Prop :=
  decode WireCodes.default (.wire [0x13#8, 0x00#8, 0xFF#8]) = .ok (.rreg 3#4 0#4) ∧
  decode WireCodes.default (.wire [0x51#8, 0x01#8, 0x38#8, 0x02#8]) = .ok (.wreg 1#4 1#4 [0x38#8, 0x02#8]) ∧
  decode WireCodes.default (.wire [0xFC#8]) = .ok .sync ∧
  decode WireCodes.default (.wire [0x02#8]) = .error .reservedByte ∧
  decode WireCodes.default (.wire [0x51#8, 0x10#8, 0x38#8]) = .error .reservedCount ∧
  decode WireCodes.default (.wire [0x59#8, 0x02#8, 0x11#8, 0x12#8, 0x13#8]) = .error .burstPastEnd ∧
  decode WireCodes.default (.dac [0x34#8, 0x12#8, 0x34#8]) = .ok (.dacframe 1#1 0x1234#16) ∧
  decode WireCodes.default (.host (HostPort.ofOp 0x08#5)) = .ok .scan ∧
  decode WireCodes.default (.host (HostPort.ofOp 0x13#5)) = .error .unassignedOp

/-! ### The step -/

/-- An operation offered at the next edge, no tick being taken with it, is what the step runs, the input lines at the
levels of that edge (R110, R111, R282); an unassigned select code changes nothing else (R121). R282 lets a tick keep the
operation out without asking whether the timer is armed: that a tick offered with `armed` = 0 is no tick, since TIMER raises
none then (R281), is the model's reading, log 29. -/
def Obligations.StepRunsTheOfferedOperation : Prop :=
  ∀ (s : State) (e : Edge) (es : List Edge) (h : HostPort), s.runFaulted = false →
    s.pc.op = .idle → s.frames = [] → s.inputs = e :: es → e.read = none → e.cmd = some h →
    (e.tick = false ∨ s.sess.armed = false ∨ h.cmdOp = 0x11#5) →
      (∀ i : Instr, decodeHost h = .ok i → step s = exec i (setLines e { s with inputs := es })) ∧
      (0x13#5 ≤ h.cmdOp → step s = .next (setLines e { s with inputs := es }))

/-- The wire commands of an outside frame, however many, and the three bytes of an outside output frame, are what the step
runs, one after the other, between the select's two edges; each of these takes its clock edges (R90, R95, R230; that a frame
can come from outside the handler, and when its edges pass, is the model's choice, log 13; that FILLER is sent where such a
frame has other bytes after an RDATA opcode or an RREG count is the model's choice, log 28). -/
def Obligations.StepRunsTheWireCommand : Prop :=
  ∀ (s : State) (f : BusFrame) (fs : List BusFrame) (is : List Instr), s.runFaulted = false →
    s.pc.op = .idle → s.frames = f :: fs → FrameHolds s.cfg.codes f is →
      step s =
        match execAll is (setCs f.dev false (absorb s.inputs { s with frames := fs })) with
        | .next t => .next (setCs f.dev true (absorb t.inputs t))
        | .fault r => .fault r
        | .refused r => .refused r

/-- R282: a tick of the armed timer is taken before a host operation offered with it, which is then not accepted; CANCEL
alone takes effect first, and the tick is not taken. -/
def Obligations.StepTakesTheTickFirst : Prop :=
  ∀ (s : State) (e : Edge) (es : List Edge), s.runFaulted = false →
    s.pc.op = .idle → s.frames = [] → s.inputs = e :: es → e.read = none → e.tick = true → s.sess.armed = true →
      step s = exec (if offersCancel e then .cancel else .tick) (setLines e { s with inputs := es })

/-- R276, R282, R289, R111: an edge while BUSY changes the input lines; CANCEL stops the session and takes the tick of
its own edge with it (the model's choice while BUSY, log 35); otherwise a tick of the armed timer sets E_TICK and counts (a
tick with `armed` = 0 is no tick, since TIMER raises none then, R281: the model's reading, log 29); any other host operation
changes nothing. -/
def Obligations.EdgeDuringAnOperation : Prop :=
  ∀ (s : State) (e : Edge),
    busyEdge e s =
      { s with
        drdyN := e.drdyN
        hwOk := e.hwOk
        adc := { s.adc with conv := e.conv }
        flags :=
          if e.tick = true ∧ s.sess.armed = true ∧
              ¬(offersCancel e = true ∧ (s.sess.sched = .armed ∨ s.sess.sched = .running))
          then { s.flags with eTick := true } else s.flags
        sess :=
          if offersCancel e = true ∧ (s.sess.sched = .armed ∨ s.sess.sched = .running)
          then { s.sess with sched := .stopped, armed := false }
          else if e.tick = true ∧ s.sess.armed = true then { s.sess with overruns := s.sess.overruns + 1#32 }
          else s.sess }

/-- R183, R333: with an infinite bound, the line not ready and nothing to come, a WAITRDY holds: the step changes
nothing. -/
def Obligations.UnboundedWaitHolds : Prop :=
  ∀ s : State, s.runFaulted = false → AtWait s → s.inputs = [] → s.drdyN = true → s.cfg.readyBound = none →
    step s = .next s

/-- R32, R339, 93 U18: a host read of what holds no value faults; after reset no data register, result, buffer entry or
descriptor holds one, and after an abort at channel `k` no `RES[j]` from `k` on. A read that is answered changes nothing.
(That the read comes before the operation of its edge, so that the step faults whatever is offered with it, is the model's
reading, log 27; that the block remembers where the latest scan aborted, log 18.) -/
def Obligations.HostReadOfUnwrittenFaults : Prop :=
  (∀ (s : State) (e : Edge) (es : List Edge) (port : ReadPort), s.runFaulted = false →
    s.pc.op = .idle → s.frames = [] → s.inputs = e :: es → e.read = some port →
    (∀ r, hostRead port (setLines e { s with inputs := es }) = .error r → step s = .fault r) ∧
    (∀ v, hostRead port (setLines e { s with inputs := es }) = .ok v →
      step s = step { s with inputs := { e with read := none } :: es })) ∧
  (∀ port ∈ [ReadPort.rdata, .idnib, .muxout, .gainout, .vout, .code16, .ratecode, .ratehz, .volts],
    hostRead port State.reset = .error .unwrittenRead) ∧
  (∀ i, hostRead (.res i) State.reset = .error .unwrittenRead ∧ hostRead (.buf i) State.reset = .error .unwrittenRead ∧
    hostRead (.ch i) State.reset = .error .unwrittenRead) ∧
  (∀ (s : State) (k j : Nat), s.resAbort = some k →
    (k ≤ j → hostRead (.res j) s = .error .unwrittenRead) ∧
    (∀ v, j < k → storeRead s.res j = some v → hostRead (.res j) s = .ok (.signed v.toInt)))

/-! ### Reset and what every step keeps -/

/-- 10_state.md R55, R56: the state after block reset; "unspecified" is that nothing is written (R32). -/
def Obligations.ResetState : Prop :=
  let s := State.reset
  s.pc = ⟨.idle, 0, 0⟩ ∧ s.done = false ∧ s.fault = 0#3 ∧ s.csAdcN = true ∧ s.csDacN = true ∧ s.rstN = true ∧
  s.flags = ⟨false, false, false, false, false⟩ ∧ s.illegal = false ∧ s.initok = false ∧ s.chanCount = 0 ∧
  s.sess.sched = .idle ∧ s.sess.cycle = 0#32 ∧ s.sess.overruns = 0#32 ∧ s.sess.target = 0#32 ∧ s.sess.nout = 0#2 ∧
  s.sess.armed = false ∧
  s.runFaulted = false ∧ s.regs.rdata.written = false ∧ s.regs.idnib.written = false ∧ s.regs.muxout.written = false ∧
  s.regs.gainout.written = false ∧ s.regs.vout.written = false ∧ s.regs.code16.written = false ∧
  s.regs.ratecode.written = false ∧ s.regs.ratehz.written = false ∧ s.regs.volts.written = false ∧
  (∀ k, storeRead s.ch k = none ∧ storeRead s.res k = none ∧ storeRead s.sess.buf k = none ∧
    storeRead s.sess.outseq0 k = none ∧ storeRead s.sess.outseq1 k = none) ∧
  s.adc.pst = .cmd ∧ s.adc.mode = .normal ∧ (∀ a, storeRead s.adc.mem a = none)

/-- The safety predicates hold after reset. -/
def Obligations.ResetIsSafe : Prop :=
  Canonical State.reset ∧ NoFrameOpen State.reset ∧ SessionSound State.reset ∧ TableDerived State.reset ∧
    SessionBufferExact State.reset

/-- The index spaces stay in canonical form (20_memory.md R60, R65). -/
def Obligations.StepKeepsStoresCanonical : Prop :=
  ∀ s t : State, Canonical s → step s = .next t → Canonical t

/-- R134, R277, R336: whatever a step does, it closes the frames it opened, the selects and the reset line are high after
it, and an operation still in progress is held in a WAITRDY. -/
def Obligations.StepLeavesNoFrameOpen : Prop :=
  ∀ s t : State, NoFrameOpen s → step s = .next t → NoFrameOpen t

/-- R281, R285, R291: the timer stays armed exactly in Running, and the cycle counter below the target there. -/
def Obligations.StepKeepsSessionSound : Prop :=
  ∀ s t : State, SessionSound s → step s = .next t → SessionSound t

/-- R28: the two derived fields of every descriptor stay those of its pins and range. -/
def Obligations.StepKeepsTableDerived : Prop :=
  ∀ s t : State, TableDerived s → step s = .next t → TableDerived t

/-- R293, R35: while a session or a tick lasts exactly the entries of the cycles counted are written, and so they are after
the step that ends it, with the counter at the target when no CANCEL and no ready timeout ended it (the first two premises
are invariants of their own). -/
def Obligations.StepKeepsBufferExact : Prop :=
  ∀ s t : State, NoFrameOpen s → SessionSound s → SessionBufferExact s → step s = .next t →
    SessionBufferExact t ∧
    (s.sess.sched = .armed ∨ s.sess.sched = .running ∨ s.pc.op = .tick → BufferExact t) ∧
    (s.sess.sched = .running → t.sess.sched = .stopped → t.fault = 0#3 → (∀ e ∈ s.inputs, offersCancel e = false) →
      t.sess.cycle = t.sess.target ∧ ∀ i, (storeRead t.sess.buf i).isSome = true ↔ i < t.sess.target.toNat * t.chanCount)

/-- The parameters never change, the trace only grows, and a condition flag once set stays set (R21, R14, R33). -/
def Obligations.StepOnlyGrowsTheRecord : Prop :=
  ∀ s t : State, step s = .next t →
    t.cfg = s.cfg ∧ s.trace <+: t.trace ∧
    (s.flags.eHw = true → t.flags.eHw = true) ∧ (s.flags.eId = true → t.flags.eId = true) ∧
    (s.flags.eCh = true → t.flags.eCh = true) ∧ (s.flags.eRdy = true → t.flags.eRdy = true) ∧
    (s.flags.eTick = true → t.flags.eTick = true)

/-- R27, R28, R33, R34, R36 with R240 (INIT writes RDATA and IDNIB too): each data register, RES, the channel table, INITOK,
ILLEGAL, the flags and each part of the session is written only by the operations named for it; SCHED, `armed`, OVERRUNS
and E_TICK also by the edges that pass meanwhile. The second half says the same of the step that goes on with an operation
held in a WAITRDY. -/
def Obligations.StateIsWrittenOnlyByItsOperations : Prop :=
  (∀ (i : Instr) (s t : State), exec i s = .next t →
    (t.regs.rdata ≠ s.regs.rdata → (∃ id, i = .rdreg id) ∨ i = .rdid ∨ i = .init) ∧
    (t.regs.idnib ≠ s.regs.idnib → i = .rdid ∨ i = .init) ∧
    (t.regs.muxout ≠ s.regs.muxout → ∃ p n, i = .muxenc p n) ∧
    (t.regs.gainout ≠ s.regs.gainout → ∃ v, i = .gainenc v) ∧
    (t.regs.vout ≠ s.regs.vout → ∃ c, i = .gaindec c) ∧
    (t.regs.code16 ≠ s.regs.code16 → ∃ v r, i = .v2code v r) ∧
    (t.regs.ratecode ≠ s.regs.ratecode → ∃ r, i = .ratesel r) ∧
    (t.regs.ratehz ≠ s.regs.ratehz → ∃ r, i = .ratesel r) ∧
    (t.regs.volts ≠ s.regs.volts → (∃ c r, i = .code2v c r) ∨ ∃ w r, i = .raw2v w r) ∧
    (t.res ≠ s.res → i = .scan ∨ i = .tick) ∧
    (t.ch ≠ s.ch → ∃ k p n v, i = .setch k p n v) ∧
    (t.chanCount ≠ s.chanCount → ∃ c, i = .setk c) ∧
    (t.initok ≠ s.initok → i = .init) ∧
    (t.illegal ≠ s.illegal → (∃ p n, i = .muxenc p n) ∨ ∃ k p n v, i = .setch k p n v) ∧
    (t.flags.eHw ≠ s.flags.eHw → i = .init) ∧
    (t.flags.eId ≠ s.flags.eId → i = .init) ∧
    (t.flags.eCh ≠ s.flags.eCh → (∃ p n, i = .muxenc p n) ∨ ∃ k p n v, i = .setch k p n v) ∧
    (t.flags.eRdy ≠ s.flags.eRdy → i = .scan ∨ i = .tick ∨ i = .init) ∧
    (t.flags.eTick ≠ s.flags.eTick → i = .tick ∨ ∃ e ∈ s.inputs, e.tick = true) ∧
    (t.sess.overruns ≠ s.sess.overruns → i = .tick ∨ ∃ e ∈ s.inputs, e.tick = true) ∧
    (t.sess.target ≠ s.sess.target → ∃ g n, i = .arm g n) ∧
    (t.sess.nout ≠ s.sess.nout → ∃ g n, i = .arm g n) ∧
    (t.sess.outseq0 ≠ s.sess.outseq0 → (∃ g n, i = .arm g n) ∨ ∃ c j v, i = .ldout c j v) ∧
    (t.sess.outseq1 ≠ s.sess.outseq1 → (∃ g n, i = .arm g n) ∨ ∃ c j v, i = .ldout c j v) ∧
    (t.sess.buf ≠ s.sess.buf → i = .tick ∨ ∃ g n, i = .arm g n) ∧
    (t.sess.cycle ≠ s.sess.cycle → i = .tick ∨ ∃ g n, i = .arm g n) ∧
    (t.sess.sched ≠ s.sess.sched → (∃ g n, i = .arm g n) ∨ i = .start ∨ i = .cancel ∨ i = .tick ∨
      ∃ e ∈ s.inputs, offersCancel e = true) ∧
    (t.sess.armed ≠ s.sess.armed → i = .start ∨ i = .cancel ∨ i = .tick ∨ ∃ e ∈ s.inputs, offersCancel e = true)) ∧
  (∀ s t : State, s.pc.op ≠ .idle → step s = .next t →
    (t.regs.rdata ≠ s.regs.rdata → (∃ id, s.pc.op = .rdreg id) ∨ s.pc.op = .rdid ∨ s.pc.op = .init) ∧
    (t.regs.idnib ≠ s.regs.idnib → s.pc.op = .rdid ∨ s.pc.op = .init) ∧
    t.regs = { s.regs with rdata := t.regs.rdata, idnib := t.regs.idnib } ∧
    (t.res ≠ s.res → s.pc.op = .scan ∨ s.pc.op = .tick) ∧
    t.ch = s.ch ∧ t.chanCount = s.chanCount ∧ t.illegal = s.illegal ∧
    (t.initok ≠ s.initok → s.pc.op = .init) ∧
    (t.flags.eHw ≠ s.flags.eHw → s.pc.op = .init) ∧
    (t.flags.eId ≠ s.flags.eId → s.pc.op = .init) ∧
    t.flags.eCh = s.flags.eCh ∧
    (t.flags.eRdy ≠ s.flags.eRdy → s.pc.op = .scan ∨ s.pc.op = .tick ∨ s.pc.op = .init) ∧
    (t.flags.eTick ≠ s.flags.eTick → ∃ e ∈ s.inputs, e.tick = true) ∧
    (t.sess.overruns ≠ s.sess.overruns → ∃ e ∈ s.inputs, e.tick = true) ∧
    t.sess.target = s.sess.target ∧ t.sess.nout = s.sess.nout ∧
    t.sess.outseq0 = s.sess.outseq0 ∧ t.sess.outseq1 = s.sess.outseq1 ∧
    (t.sess.buf ≠ s.sess.buf → s.pc.op = .tick) ∧
    (t.sess.cycle ≠ s.sess.cycle → s.pc.op = .tick) ∧
    (t.sess.sched ≠ s.sess.sched → s.pc.op = .tick ∨ ∃ e ∈ s.inputs, offersCancel e = true) ∧
    (t.sess.armed ≠ s.sess.armed → s.pc.op = .tick ∨ ∃ e ∈ s.inputs, offersCancel e = true))

/-- R111, R26: while BUSY a host operation other than CANCEL changes nothing. -/
def Obligations.BusyRefusesNewOperations : Prop :=
  ∀ (i : Instr) (s : State) (h : HostPort), s.pc.op ≠ .idle → decodeHost h = .ok i → i ≠ .cancel → exec i s = .next s

/-- R326: a bus operation other than INIT accepted with INITOK = 0 is refused. -/
def Obligations.UnbootedBusOperationsRefused : Prop :=
  ∀ (s : State), s.pc.op = .idle → s.initok = false →
    (∀ id, exec (.rdreg id) s = .refused .notBooted) ∧ (∀ id v, exec (.wrreg id v) s = .refused .notBooted) ∧
    exec .rdid s = .refused .notBooted ∧ exec .scan s = .refused .notBooted ∧
    (∀ c code, exec (.dacwr c code) s = .refused .notBooted) ∧
    (s.sess.armed = true → exec .tick s = .refused .notBooted)

/-! ### The pure operations -/

/-- The host operation with select code `op` is `i` of the operand ports (R110). -/
def OfferedAs (op : BitVec 5) (i : HostPort → Instr) : Prop := ∀ h : HostPort, h.cmdOp = op → decodeHost h = .ok (i h)

/-- While an operation is in progress `i` changes nothing (R111). -/
def NotAcceptedWhileBusy (i : Instr) : Prop := ∀ s : State, s.pc.op ≠ .idle → exec i s = .next s

/-- R170, R171, R273: the two selectors, ILLEGAL, and E_CH when a pin is outside [−1, 7]; nothing else changes. -/
def Obligations.MuxencEncodesThePins : Prop :=
  OfferedAs 0x03#5 (fun h => .muxenc h.p h.n) ∧
  ∀ p n : Byte, NotAcceptedWhileBusy (.muxenc p n) ∧
    ∀ s : State, s.pc.op = .idle →
      ∃ b bad, exec (.muxenc p n) s =
          .next { s with
            pc := ⟨.idle, 0, 0⟩, done := true, fault := 0#3, illegal := bad
            regs := { s.regs with muxout := ⟨b, true⟩ }
            flags := { s.flags with eCh := s.flags.eCh || bad } } ∧
        ((hiNibble b).toNat : Int) = (if 0 ≤ p.toInt ∧ p.toInt ≤ 7 then p.toInt else 8) ∧
        ((loNibble b).toNat : Int) = (if 0 ≤ n.toInt ∧ n.toInt ≤ 7 then n.toInt else 8) ∧
        (bad = true ↔ p.toInt < -1 ∨ 7 < p.toInt ∨ n.toInt < -1 ∨ 7 < n.toInt)

/-- R161 with the table of R160 (threshold of code `c` is 0x5000 >> c): the tightest entry that is not below the request,
0 when there is none. -/
def Obligations.GainencChoosesTheTightestRange : Prop :=
  OfferedAs 0x04#5 (fun h => .gainenc h.v) ∧
  ∀ v : Volt, NotAcceptedWhileBusy (.gainenc v) ∧
    ∀ s : State, s.pc.op = .idle →
      ∃ c : BitVec 3, exec (.gainenc v) s =
          .next { s with
            pc := ⟨.idle, 0, 0⟩, done := true, fault := 0#3, regs := { s.regs with gainout := ⟨c, true⟩ } } ∧
        c.toNat ≤ 6 ∧
        (v.toNat ≤ 0x5000 → v.toNat ≤ 0x5000 / 2 ^ c.toNat ∧
          ∀ d : Nat, d ≤ 6 → v.toNat ≤ 0x5000 / 2 ^ d → d ≤ c.toNat) ∧
        (0x5000 < v.toNat → c = 0#3)

/-- R162: the threshold of the code, 5.00 V for the unrecognized one. -/
def Obligations.GaindecLooksUpTheRange : Prop :=
  OfferedAs 0x05#5 (fun h => .gaindec h.gcode) ∧
  ∀ c : BitVec 3, NotAcceptedWhileBusy (.gaindec c) ∧
    ∀ s : State, s.pc.op = .idle →
      ∃ v : Volt, exec (.gaindec c) s =
          .next { s with
            pc := ⟨.idle, 0, 0⟩, done := true, fault := 0#3, regs := { s.regs with vout := ⟨v, true⟩ } } ∧
        v.toNat = if c.toNat ≤ 6 then 0x5000 / 2 ^ c.toNat else 0x5000

/-- R163: encoding a decoded code gives it back, for the seven codes of the table, and 0 for the eighth; decoding the code
of a voltage up to 5.00 V gives at least the voltage, and the voltage itself exactly at the thresholds. (R163 infers the
clause for code 7 and the second direction from R161 and R162; both are stated here of these rules' operations.) -/
def Obligations.GainRoundTrip : Prop :=
  (∀ (c : BitVec 3) (s t u : State), s.pc.op = .idle → exec (.gaindec c) s = .next t →
    exec (.gainenc t.regs.vout.value) t = .next u →
      u.regs.gainout.value = if c = 7#3 then 0#3 else c) ∧
  (∀ (v : Volt) (s t u : State), s.pc.op = .idle → v ≤ 0x5000#16 → exec (.gainenc v) s = .next t →
    exec (.gaindec t.regs.gainout.value) t = .next u →
      v ≤ u.regs.vout.value ∧ (u.regs.vout.value = v ↔ ∃ d : Nat, d ≤ 6 ∧ v.toNat = 0x5000 / 2 ^ d))

/-- R176, R78: outside a session and for `k < NCH_MAX` the descriptor is stored with its derived fields, ILLEGAL and E_CH
as MUXENC; the other descriptors stay; otherwise nothing happens. -/
def Obligations.SetchStoresTheDescriptor : Prop :=
  OfferedAs 0x06#5 (fun h => .setch h.k h.p h.n h.v) ∧
  ∀ (k : Nat) (p n : Byte) (v : Volt), NotAcceptedWhileBusy (.setch k p n v) ∧
    ∀ s : State, s.pc.op = .idle →
      (((s.sess.sched = .idle ∨ s.sess.sched = .stopped) ∧ k < s.cfg.nchMax) →
        ∃ ch, exec (.setch k p n v) s =
            .next { s with
              pc := ⟨.idle, 0, 0⟩, done := true, fault := 0#3, illegal := pairIllegal p n, ch := ch
              flags := { s.flags with eCh := s.flags.eCh || pairIllegal p n } } ∧
          ∀ j, storeRead ch j = if j = k then some ⟨p, n, v, gainCode v, muxByte p n⟩ else storeRead s.ch j) ∧
      (¬((s.sess.sched = .idle ∨ s.sess.sched = .stopped) ∧ k < s.cfg.nchMax) → exec (.setch k p n v) s = .next s)

/-- R177, R78: the channel count, outside a session and up to NCH_MAX; otherwise nothing happens. -/
def Obligations.SetkSetsTheChannelCount : Prop :=
  OfferedAs 0x07#5 (fun h => .setk h.count) ∧
  ∀ count : Nat, NotAcceptedWhileBusy (.setk count) ∧
    ∀ s : State, s.pc.op = .idle →
      exec (.setk count) s =
        if (s.sess.sched = .idle ∨ s.sess.sched = .stopped) ∧ count ≤ s.cfg.nchMax then
          .next { s with pc := ⟨.idle, 0, 0⟩, done := true, fault := 0#3, chanCount := count }
        else .next s

/-- R252: the nearest code, halves up, clamped to [0, 65535]; a reference that is not positive is not accepted. -/
def Obligations.V2codeRoundsAndClamps : Prop :=
  OfferedAs 0x0B#5 (fun h => .v2code h.volt h.ref) ∧
  ∀ volt ref : Rat, NotAcceptedWhileBusy (.v2code volt ref) ∧
    ∀ s : State, s.pc.op = .idle →
      (0 < ref →
        ∃ c : BitVec 16, exec (.v2code volt ref) s =
            .next { s with
              pc := ⟨.idle, 0, 0⟩, done := true, fault := 0#3, regs := { s.regs with code16 := ⟨c, true⟩ } } ∧
          (65536 * volt / ref < 1 / 2 → c = 0#16) ∧
          (65535 - 1 / 2 ≤ 65536 * volt / ref → c = 65535#16) ∧
          (1 / 2 ≤ 65536 * volt / ref → 65536 * volt / ref < 65535 - 1 / 2 →
            (c.toNat : Rat) - 1 / 2 ≤ 65536 * volt / ref ∧ 65536 * volt / ref < (c.toNat : Rat) + 1 / 2)) ∧
      (ref ≤ 0 → exec (.v2code volt ref) s = .next s)

/-- R253: `code × ref / 65536`, and V2CODE of it gives the code back. (R253 infers the formula by inverting R252's, and the
law from it.) -/
def Obligations.Code2vInvertsV2code : Prop :=
  OfferedAs 0x0C#5 (fun h => .code2v h.code h.ref) ∧
  ∀ (code : BitVec 16) (ref : Rat), NotAcceptedWhileBusy (.code2v code ref) ∧
    ∀ s : State, s.pc.op = .idle →
      (0 < ref →
        ∃ (q : Rat) (t u : State), exec (.code2v code ref) s = .next t ∧
          t = { s with
            pc := ⟨.idle, 0, 0⟩, done := true, fault := 0#3, regs := { s.regs with volts := ⟨q, true⟩ } } ∧
          q * 65536 = code.toNat * ref ∧ exec (.v2code q ref) t = .next u ∧ u.regs.code16 = ⟨code, true⟩) ∧
      (ref ≤ 0 → exec (.code2v code ref) s = .next s)

/-- R255: `raw × ref / 16777215`, the sample signed. -/
def Obligations.Raw2vScalesTheSignedSample : Prop :=
  OfferedAs 0x0D#5 (fun h => .raw2v h.raw h.ref) ∧
  ∀ (raw : Sample) (ref : Rat), NotAcceptedWhileBusy (.raw2v raw ref) ∧
    ∀ s : State, s.pc.op = .idle →
      (0 < ref →
        ∃ q : Rat, exec (.raw2v raw ref) s =
            .next { s with
              pc := ⟨.idle, 0, 0⟩, done := true, fault := 0#3, regs := { s.regs with volts := ⟨q, true⟩ } } ∧
          q * 16777215 = raw.toInt * ref) ∧
      (ref ≤ 0 → exec (.raw2v raw ref) s = .next s)

/-- R261 over a table that meets R260: the least rate that reaches the request, the maximum when none does. -/
def Obligations.RateselChoosesTheCeiling : Prop :=
  OfferedAs 0x0E#5 (fun h => .ratesel h.rate) ∧
  ∀ rate : Rat, NotAcceptedWhileBusy (.ratesel rate) ∧
    ∀ s : State, s.pc.op = .idle → s.cfg.ratesWf = true →
      ∃ (hz : Rat) (code : Byte), exec (.ratesel rate) s =
          .next { s with
            pc := ⟨.idle, 0, 0⟩, done := true, fault := 0#3
            regs := { s.regs with ratecode := ⟨code, true⟩, ratehz := ⟨hz, true⟩ } } ∧
        (hz, code) ∈ s.cfg.rates ++ [s.cfg.rateMax] ∧
        ((∃ e ∈ s.cfg.rates ++ [s.cfg.rateMax], rate ≤ e.1) →
          rate ≤ hz ∧ ∀ e ∈ s.cfg.rates ++ [s.cfg.rateMax], rate ≤ e.1 → hz ≤ e.1) ∧
        ((∀ e ∈ s.cfg.rates ++ [s.cfg.rateMax], e.1 < rate) → (hz, code) = s.cfg.rateMax)

/-- R286: a new session, its buffer and configured sequences unwritten; not accepted in a session or for three outputs. -/
def Obligations.ArmOpensASession : Prop :=
  OfferedAs 0x0F#5 (fun h => .arm h.target h.nout) ∧
  ∀ (target : Count) (nout : BitVec 2), NotAcceptedWhileBusy (.arm target nout) ∧
    ∀ s : State, s.pc.op = .idle →
      exec (.arm target nout) s =
        if (s.sess.sched = .idle ∨ s.sess.sched = .stopped) ∧ nout.toNat ≤ 2 then
          .next { s with
            pc := ⟨.idle, 0, 0⟩, done := true, fault := 0#3
            sess := { s.sess with
              target := target, nout := nout, cycle := 0#32, buf := [], sched := .armed
              outseq0 := if nout = 0#2 then s.sess.outseq0 else []
              outseq1 := if nout = 2#2 then [] else s.sess.outseq1 } }
        else .next s

/-- R287: Armed to Running with the timer armed, or to Stopped when the target is 0; not accepted elsewhere. -/
def Obligations.StartStartsTheTimer : Prop :=
  OfferedAs 0x10#5 (fun _ => .start) ∧ NotAcceptedWhileBusy .start ∧
  ∀ s : State, s.pc.op = .idle →
    exec .start s =
      if s.sess.sched = .armed then
        .next { s with
          pc := ⟨.idle, 0, 0⟩, done := true, fault := 0#3
          sess := if s.sess.target = 0#32 then { s.sess with sched := .stopped }
            else { s.sess with sched := .running, armed := true } }
      else .next s

/-- R288: one entry of a configured output sequence, while Armed and in range; otherwise nothing happens. -/
def Obligations.LdoutLoadsOneEntry : Prop :=
  OfferedAs 0x12#5 (fun h => .ldout h.c h.i h.code) ∧
  ∀ (c : BitVec 1) (i : Count) (code : BitVec 16), NotAcceptedWhileBusy (.ldout c i code) ∧
    ∀ s : State, s.pc.op = .idle →
      ((s.sess.sched = .armed ∧ c.toNat < s.sess.nout.toNat ∧ i < s.sess.target) →
        ∃ o0 o1, exec (.ldout c i code) s =
            .next { s with
              pc := ⟨.idle, 0, 0⟩, done := true, fault := 0#3
              sess := { s.sess with outseq0 := o0, outseq1 := o1 } } ∧
          (∀ j, storeRead o0 j = if c = 0#1 ∧ j = i.toNat then some code else storeRead s.sess.outseq0 j) ∧
          (∀ j, storeRead o1 j = if c = 1#1 ∧ j = i.toNat then some code else storeRead s.sess.outseq1 j)) ∧
      (¬(s.sess.sched = .armed ∧ c.toNat < s.sess.nout.toNat ∧ i < s.sess.target) →
        exec (.ldout c i code) s = .next s)

/-- R289: CANCEL is accepted whatever BUSY is; it stops an armed or running session and otherwise does nothing (that DONE
and `fault` stay is the model's reading, log 15). -/
def Obligations.CancelStopsTheSession : Prop :=
  OfferedAs 0x11#5 (fun _ => .cancel) ∧
  ∀ s : State,
    exec .cancel s =
      .next { s with
        sess := if s.sess.sched = .armed ∨ s.sess.sched = .running
          then { s.sess with sched := .stopped, armed := false } else s.sess }

/-! ### The register access operations -/

/-- R130, R145, R47, R66: the six actions in order; RDATA is the register's written bits under its mask, the identity in
STATUS[7:4], which is the nibble of the chip on the bus (R41 calls it `CHIP_ID`; that it is a parameter of its own is the
model's reading, log 19); for a reserved id it is some byte (log 9). Nothing else of the state changes but what edges may. -/
def Obligations.RdregReturnsTheRegister : Prop :=
  ∀ (id : BitVec 4) (s : State), Booted s → s.cfg.codes.wf = true → StaysReady s →
    ∃ (v : Byte) (t : State), exec (.rdreg id) s = .next t ∧
      Finished { s with regs := { s.regs with rdata := ⟨v, true⟩ } } t ∧
      TraceGrew s t
        [.cs .adc false, .xfer (s.cfg.codes.rreg ||| id.setWidth 8) 0#8, .xfer 0x00#8 0#8, .delay .tIB,
          .xfer s.cfg.codes.filler 0#8, .cs .adc true] ∧
      (id.toNat ≤ 0x0A → ∀ i, i < 8 → (writeMask s.cfg id.toNat).getLsbD i = true →
        v.getLsbD i = (peerRegister s.adc id.toNat).getLsbD i) ∧
      (id = 0#4 → hiNibble v = s.cfg.peerId)

/-- R131, R146, R47: the six actions in order; the register takes the value through its mask, every other register and
every block register stays; a reserved id writes nothing (R66, log 9). The ready line plays no part (N12). -/
def Obligations.WrregWritesTheRegister : Prop :=
  ∀ (id : BitVec 4) (value : Byte) (s : State), Booted s → s.cfg.codes.wf = true →
    ∃ (m : Memory) (t : State), exec (.wrreg id value) s = .next t ∧
      Finished { s with adc := { s.adc with mem := m } } t ∧
      TraceGrew s t
        [.cs .adc false, .xfer (s.cfg.codes.wreg ||| id.setWidth 8) 0#8, .xfer 0x00#8 0#8, .delay .tIB,
          .xfer value 0#8, .cs .adc true] ∧
      (id.toNat ≤ 0x0A → TookMasked (writeMask s.cfg id.toNat) value (peerRegister s.adc id.toNat)
        (peerRegister t.adc id.toNat)) ∧
      (∀ a, a ≠ id.toNat → peerRegister t.adc a = peerRegister s.adc a) ∧
      (0x0A < id.toNat → m = s.adc.mem)

/-- R132: as RDREG of the status register; RDATA is the byte, IDNIB its upper nibble, the identity of the chip on the bus (R41
calls it `CHIP_ID`; that it is a parameter of its own is the model's reading, log 19); nothing is compared. -/
def Obligations.RdidReturnsTheIdentity : Prop :=
  ∀ s : State, Booted s → s.cfg.codes.wf = true → StaysReady s →
    ∃ (v : Byte) (t : State), exec .rdid s = .next t ∧
      Finished { s with regs := { s.regs with rdata := ⟨v, true⟩, idnib := ⟨s.cfg.peerId, true⟩ } } t ∧
      hiNibble v = s.cfg.peerId ∧
      TraceGrew s t
        [.cs .adc false, .xfer s.cfg.codes.rreg 0#8, .xfer 0x00#8 0#8, .delay .tIB, .xfer s.cfg.codes.filler 0#8,
          .cs .adc true]

/-- R135, inferred there from R130, R131, R142 to R146 and R47: RDREG after WRREG of the same register returns the value in
the bits of the mask, and the identity. That the run is not marked faulted stands for the line being ready when the read's
command byte was sent (R148; the mark is the model's, log 11), and the identity is `CHIP_ID` on the chip whose own nibble
it is (log 19). -/
def Obligations.ReadAfterWriteReturnsTheValue : Prop :=
  ∀ (a : BitVec 4) (v : Byte) (s t u : State), Booted s → s.cfg.codes.wf = true → a.toNat ≤ 0x0A →
    exec (.wrreg a v) s = .next t → exec (.rdreg a) t = .next u → u.runFaulted = false →
      (∀ i, i < 8 → (writeMask s.cfg a.toNat).getLsbD i = true → u.regs.rdata.value.getLsbD i = v.getLsbD i) ∧
      (a = 0#4 → s.cfg.peerId = s.cfg.chipId → hiNibble u.regs.rdata.value = s.cfg.chipId)

/-- R148, R330, 93 part 2 U7: a register read whose command byte is sent while the line is not ready sends the same bytes; some
byte comes back for each register, and the run is marked faulted (wire RREG, RDREG, RDID). That the operation finishes,
and that a marked run goes no further, is the model's reading of the mark (log 11). -/
def Obligations.ReadWhileNotReadyIsMarked : Prop :=
  (∀ (s : State) (r n : BitVec 4), AdcListening s → s.cfg.codes.wf = true → StaysNotReady s → burstInMap r n = true →
    ∃ (d1 d2 : Byte) (vs : List Byte) (t : State), exec (.rreg r n) s = .next t ∧ vs.length = n.toNat + 1 ∧
      Passed { s with runFaulted := true } t ∧
      t.trace = s.trace ++ .xfer (s.cfg.codes.rreg ||| r.setWidth 8) d1 :: .xfer (n.setWidth 8) d2 ::
        vs.map (fun v => .xfer s.cfg.codes.filler v)) ∧
  (∀ s : State, Booted s → s.cfg.codes.wf = true → StaysNotReady s →
    (∀ id, ∃ (v : Byte) (t : State), exec (.rdreg id) s = .next t ∧
      Finished { s with runFaulted := true, regs := { s.regs with rdata := ⟨v, true⟩ } } t ∧
      TraceGrew s t
        [.cs .adc false, .xfer (s.cfg.codes.rreg ||| id.setWidth 8) 0#8, .xfer 0x00#8 0#8, .delay .tIB,
          .xfer s.cfg.codes.filler 0#8, .cs .adc true]) ∧
    (∃ (v : Byte) (t : State), exec .rdid s = .next t ∧
      Finished { s with
        runFaulted := true, regs := { s.regs with rdata := ⟨v, true⟩, idnib := ⟨hiNibble v, true⟩ } } t ∧
      TraceGrew s t
        [.cs .adc false, .xfer s.cfg.codes.rreg 0#8, .xfer 0x00#8 0#8, .delay .tIB, .xfer s.cfg.codes.filler 0#8,
          .cs .adc true])) ∧
  (∀ s : State, s.runFaulted = true → step s = .fault .readWhileNotReady)

/-! ### The scan -/

/-- The transport actions of one channel (R185), the bytes returned left out. -/
def channelTrace (P : Params) (d : ChDesc) : List Action :=
  [.waitRdy, .cs .adc false, .xfer (P.codes.wreg ||| 0x01#8) 0#8, .delay .tIB, .xfer 0x01#8 0#8, .delay .tIB,
    .xfer d.mux 0#8, .delay .tIB, .xfer (P.gfUpper ++ d.gain) 0#8, .delay .tSTEP, .xfer P.codes.sync 0#8, .delay .tSYNC,
    .xfer P.codes.wakeup 0#8, .delay .tSTEP, .xfer P.codes.rdata 0#8, .delay .tDATA, .xfer P.codes.filler 0#8,
    .xfer P.codes.filler 0#8, .xfer P.codes.filler 0#8, .cs .adc true]

/-- R180, R181, R185, R186, R191, R192: a scan whose channels are written finishes if the line stays ready, whatever edges
pass; and whenever it finishes, the line not ready at some polls included, RES[j] of each channel in order is a
sign-extended conversion result (the one there is or one an edge brought), the other entries stay, the trace is one frame
per channel, the two registers hold the last channel's bytes. -/
def Obligations.ScanSamplesEveryChannel : Prop :=
  ∀ (s : State) (chan : Nat → ChDesc), Booted s → s.cfg.codes.wf = true →
    (∀ k, k < s.chanCount → storeRead s.ch k = some (chan k)) →
    ∃ (raw : Nat → BitVec 24) (res : Store Sample) (adc : AdcPeer) (t : State), exec .scan s = .next t ∧
      (StaysReady s ∨ t.done = true →
        Finished { s with res := res, resAbort := none, adc := adc, b2 := t.b2, b1 := t.b1, b0 := t.b0 } t ∧
        (∀ j, storeRead res j = if j < s.chanCount then some ((raw j).signExtend 32) else storeRead s.res j) ∧
        (∀ j, ConvOf s (raw j)) ∧
        TraceGrew s t ((List.range s.chanCount).flatMap fun k => channelTrace s.cfg (chan k)) ∧
        adc = { s.adc with mem := adc.mem, shift := adc.shift, conv := adc.conv } ∧
        (s.chanCount = 0 → adc = { s.adc with conv := adc.conv } ∧ t.trace = s.trace) ∧
        (0 < s.chanCount →
          TookMasked (writeMask s.cfg 1) (chan (s.chanCount - 1)).mux (peerRegister s.adc 1) (peerRegister adc 1) ∧
          TookMasked (writeMask s.cfg 2) (s.cfg.gfUpper ++ (chan (s.chanCount - 1)).gain) (peerRegister s.adc 2)
            (peerRegister adc 2)) ∧
        (∀ a, a ≠ 1 → a ≠ 2 → peerRegister adc a = peerRegister s.adc a))

/-- R183, R196, R246, R274, R277, R292. First the poll count of a WAITRDY: it ends at the first poll that sees the line ready
before the bound is used up, and times out at the poll that uses it up. Then a scan or tick that finds the line not ready at
`READY_BOUND` polls of any channel's WAITRDY, and INIT at its own: E_RDY, `fault` 4, DONE 0, idle, no frame open, the
results and peer registers of earlier channels kept, the rest of RES and BUF untouched; the tick counts nothing and stops the
session; INIT leaves INITOK 0. Last the same with no edge to come (the line then stays as it is, log 7). How the WAITRDY
stands in the trace is log 26, that the block remembers the channel is log 18. -/
def Obligations.ReadyTimeoutAborts : Prop :=
  (∀ (s : State) (wait post : List Edge) (e : Edge), (∀ x ∈ wait, x.actDone = true → x.drdyN = true) → e.actDone = true →
    (e.drdyN = false → (∀ n, s.cfg.readyBound = some n → s.polls + actionsOf wait < n) →
      waitRdy (wait ++ e :: post) s = .go (readyNow { passEdges (wait ++ [e]) s with inputs := post })) ∧
    (e.drdyN = true → s.cfg.readyBound = some (s.polls + actionsOf wait + 1) →
      waitRdy (wait ++ e :: post) s =
        .halt (readyTimeout
          { passEdges (wait ++ [e]) s with inputs := post, polls := s.polls + actionsOf wait + 1 }))) ∧
  (∀ (s : State) (chan : Nat → ChDesc) (k n : Nat) (pre wait post : List Edge), Booted s → s.cfg.codes.wf = true →
    k < s.chanCount → (∀ j, j < k → storeRead s.ch j = some (chan j)) → s.cfg.readyBound = some n →
    s.inputs = pre ++ wait ++ post → ReadyActions (20 * k) pre → NotReadyPolls n wait →
    ∀ i, i = .scan ∨ (i = .tick ∧ s.sess.armed = true) →
      ∃ (raw : Nat → BitVec 24) (t : State), exec i s = .next t ∧
        Aborted 4#3 { s with
          res := t.res, resAbort := some k, b2 := t.b2, b1 := t.b1, b0 := t.b0, flags := { s.flags with eRdy := true }
          adc := { s.adc with mem := t.adc.mem, shift := t.adc.shift } } t ∧
        (∀ j, storeRead t.res j = if j < k then some ((raw j).signExtend 32) else storeRead s.res j) ∧
        t.inputs = post ∧
        (∀ a, a ≠ 1 → a ≠ 2 → peerRegister t.adc a = peerRegister s.adc a) ∧
        TraceGrew s t (((List.range k).flatMap fun j => channelTrace s.cfg (chan j)) ++ [.waitRdy]) ∧
        (i = .scan → KeptOrCancelled s t) ∧ (i = .tick → t.sess.sched = .stopped ∧ t.sess.armed = false)) ∧
  (∀ (s : State) (n : Nat) (pre wait post : List Edge), s.pc.op = .idle → NoFrameOpen s →
    (s.sess.sched = .idle ∨ s.sess.sched = .stopped) → s.cfg.readyBound = some n → s.inputs = pre ++ wait ++ post →
    ReadyActions 7 pre → (∀ e ∈ pre, e.hwOk = true) → NotReadyPolls n wait →
    ∃ t : State, exec .init s = .next t ∧
      Aborted 4#3 { s with
        initok := false, flags := { s.flags with eRdy := true }
        adc := { s.adc with mem := [], epoch := t.adc.epoch, calEpoch := t.adc.calEpoch, mode := .normal } } t ∧
      t.sess.sched = s.sess.sched ∧ t.sess.armed = s.sess.armed ∧ t.inputs = post ∧
      TraceGrew s t
        [.config s.cfg.bus, .rst true, .delay .tRST, .rst false, .delay .tRST, .rst true, .delay .tRST, .waitRdy]) ∧
  (∀ (s : State) (n : Nat), Booted s → s.inputs = [] → s.drdyN = true → s.cfg.readyBound = some n → 0 < s.chanCount →
    exec .scan s =
      .next { s with
        pc := ⟨.idle, 0, 0⟩, polls := 0, done := false, fault := 4#3, resAbort := some 0
        flags := { s.flags with eRdy := true }, trace := s.trace ++ [.waitRdy] } ∧
    (s.sess.armed = true →
      exec .tick s =
        .next { s with
          pc := ⟨.idle, 0, 0⟩, polls := 0, done := false, fault := 4#3, resAbort := some 0
          flags := { s.flags with eRdy := true }, trace := s.trace ++ [.waitRdy]
          sess := { s.sess with sched := .stopped, armed := false } }))

/-- R177, R339: a scan that comes to a descriptor SETCH never wrote faults. -/
def Obligations.ScanOfUnwrittenChannelFaults : Prop :=
  ∀ (s : State) (k : Nat), Booted s → s.cfg.codes.wf = true → StaysReady s → k < s.chanCount →
    (∀ j, j < k → (storeRead s.ch j).isSome = true) → storeRead s.ch k = none →
      exec .scan s = .fault (.unwrittenChannel k)

/-! ### Initialization -/

/-- R240 to R245, R247: on the right chip (its nibble is `CHIP_ID`, log 19), with the transport up, INIT finishes if the line
is ready at every edge, one of them after the pulse, whatever else the edges bring. Then, and whenever it finishes with the run
not marked faulted (the line not ready at some polls, but ready when the identity is read: R148, log 11): its thirty-eight
actions, INITOK, the identity, the five registers of the block under their masks, the calibration registers unspecified
(nothing listed), NORMAL mode; nothing else changes but what clock edges may change. -/
def Obligations.InitBringsTheChipUp : Prop :=
  ∀ s : State, s.pc.op = .idle → NoFrameOpen s → s.cfg.codes.wf = true →
    (s.sess.sched = .idle ∨ s.sess.sched = .stopped) → s.hwOk = true → (∀ e ∈ s.inputs, e.hwOk = true) →
    s.cfg.peerId = s.cfg.chipId →
    ∃ (v : Byte) (adc : AdcPeer) (t : State), exec .init s = .next t ∧
      (ReadyAfterPulse s ∨ (t.done = true ∧ t.runFaulted = false) →
        Finished { s with
          initok := true, adc := adc
          regs := { s.regs with rdata := ⟨v, true⟩, idnib := ⟨s.cfg.chipId, true⟩ } } t ∧
        hiNibble v = s.cfg.chipId ∧
        adc = { s.adc with
          mem := adc.mem, epoch := adc.epoch, calEpoch := adc.calEpoch, mode := .normal, conv := adc.conv } ∧
        (∀ a b, (a, b) ∈ [(0, s.cfg.initBlock.status), (1, s.cfg.initBlock.mux), (2, s.cfg.initBlock.gf),
            (3, s.cfg.initBlock.drate), (4, s.cfg.initBlock.dio)] → ∀ i, i < 8 →
          (writeMask s.cfg a).getLsbD i = true → (peerRegister adc a).getLsbD i = b.getLsbD i) ∧
        (∀ a, 5 ≤ a → storeRead adc.mem a = none) ∧
        TraceGrew s t
          [.config s.cfg.bus, .rst true, .delay .tRST, .rst false, .delay .tRST, .rst true, .delay .tRST, .waitRdy,
            .cs .adc false, .xfer s.cfg.codes.rreg 0#8, .xfer 0x00#8 0#8, .delay .tIB, .xfer s.cfg.codes.filler 0#8,
            .cs .adc true,
            .cs .adc false, .xfer s.cfg.codes.reset 0#8, .cs .adc true, .delay .tCMD,
            .cs .adc false, .xfer s.cfg.codes.sdatac 0#8, .cs .adc true, .delay .tCMD,
            .cs .adc false, .xfer s.cfg.codes.wreg 0#8, .delay .tIB, .xfer 0x04#8 0#8, .delay .tIB,
            .xfer s.cfg.initBlock.status 0#8, .delay (.tCOMMIT 0), .xfer s.cfg.initBlock.mux 0#8, .delay (.tCOMMIT 1),
            .xfer s.cfg.initBlock.gf 0#8, .delay (.tCOMMIT 2), .xfer s.cfg.initBlock.drate 0#8, .delay (.tCOMMIT 3),
            .xfer s.cfg.initBlock.dio 0#8, .delay (.tCOMMIT 4), .cs .adc true])

/-- R246, R271: with the transport down INIT stops at its first action: E_HW, `fault` 1, INITOK and DONE 0; nothing else
changes but what clock edges may change. -/
def Obligations.InitWithoutHardwareAborts : Prop :=
  ∀ s : State, s.pc.op = .idle → (s.sess.sched = .idle ∨ s.sess.sched = .stopped) → s.hwOk = false →
    (∀ e ∈ s.inputs, e.hwOk = false) →
    ∃ t : State, exec .init s = .next t ∧
      t = { s with
        pc := ⟨.idle, 0, 0⟩, polls := 0, done := false, fault := 1#3, initok := false
        drdyN := t.drdyN, inputs := t.inputs, adc := { s.adc with conv := t.adc.conv }
        flags := { s.flags with eHw := true, eTick := t.flags.eTick }
        sess := { s.sess with overruns := t.sess.overruns }, trace := s.trace ++ [.config s.cfg.bus] }

/-- R246, R272: on the wrong chip (its nibble is not `CHIP_ID`, log 19), the line ready after the pulse, INIT stops after the
identity read: E_ID, `fault` 2, the nibble read in IDNIB, INITOK and DONE 0, the frame closed, no soft reset and no burst
sent; the chip has been reset by the pulse. -/
def Obligations.InitOnTheWrongChipAborts : Prop :=
  ∀ s : State, s.pc.op = .idle → NoFrameOpen s → s.cfg.codes.wf = true →
    (s.sess.sched = .idle ∨ s.sess.sched = .stopped) → s.hwOk = true → (∀ e ∈ s.inputs, e.hwOk = true) →
    ReadyAfterPulse s → s.cfg.peerId ≠ s.cfg.chipId →
    ∃ (v : Byte) (t : State), exec .init s = .next t ∧
      t = { s with
        pc := ⟨.idle, 0, 0⟩, polls := 0, done := false, fault := 2#3, initok := false
        regs := { s.regs with rdata := ⟨v, true⟩, idnib := ⟨s.cfg.peerId, true⟩ }
        drdyN := t.drdyN, hwOk := t.hwOk, inputs := t.inputs
        flags := { s.flags with eId := true, eTick := t.flags.eTick }
        sess := { s.sess with overruns := t.sess.overruns }
        adc := { s.adc with
          mem := [], epoch := t.adc.epoch, calEpoch := t.adc.calEpoch, mode := .normal, conv := t.adc.conv }
        rx := t.rx, draws := t.draws, trace := t.trace } ∧
      hiNibble v = s.cfg.peerId ∧
      TraceGrew s t
        [.config s.cfg.bus, .rst true, .delay .tRST, .rst false, .delay .tRST, .rst true, .delay .tRST, .waitRdy,
          .cs .adc false, .xfer s.cfg.codes.rreg 0#8, .xfer 0x00#8 0#8, .delay .tIB, .xfer s.cfg.codes.filler 0#8,
          .cs .adc true]

/-! ### Output and the tick -/

/-- The transport actions of one output write (R250), the bytes returned left out. -/
def outputTrace (P : Params) (c : Nat) (code : BitVec 16) : List Action :=
  [.cs .dac false, .xfer (if c = 0 then P.codes.dacCmd0 else P.codes.dacCmd1) 0#8, .xfer (code.extractLsb' 8 8) 0#8,
    .delay .tIB, .xfer (code.extractLsb' 0 8) 0#8, .cs .dac true]

/-- R250, R251: the six actions in order; the channel's output holds the code, the other one and everything else stays. -/
def Obligations.DacwrSetsTheOutput : Prop :=
  ∀ (c : BitVec 1) (code : BitVec 16) (s : State), Booted s → s.cfg.codes.wf = true →
    ∃ t : State, exec (.dacwr c code) s = .next t ∧
      Finished { s with
        dac := if c = 0#1 then { s.dac with out0 := code } else { s.dac with out1 := code } } t ∧
      TraceGrew s t (outputTrace s.cfg c.toNat code)

/-- R291: a tick of a running session, its channels written and its outputs loaded, finishes if the line stays ready, whatever
edges pass; and whenever it finishes: the scan's results, the buffer at `CYCLE × K + j`, registers 1 and 2 as a scan leaves
them (R192), the outputs 0 then 1, the count, and Stopped with the timer disarmed at the target or after a CANCEL in
mid-tick (R289); the trace is the scan's frames and then the outputs'. -/
def Obligations.TickRunsOneCycle : Prop :=
  ∀ (s : State) (chan : Nat → ChDesc) (out : Nat → BitVec 16), Booted s → SessionSound s → s.cfg.codes.wf = true →
    s.sess.armed = true →
    (∀ k, k < s.chanCount → storeRead s.ch k = some (chan k)) →
    (∀ c, c < s.sess.nout.toNat → storeRead (outSeq s c) s.sess.cycle.toNat = some (out c)) →
    ∃ (raw : Nat → BitVec 24) (t : State), exec .tick s = .next t ∧
      (StaysReady s ∨ t.done = true →
        t.pc = ⟨.idle, 0, 0⟩ ∧ t.done = true ∧ t.fault = 0#3 ∧ t.polls = 0 ∧ t.resAbort = none ∧ t.runFaulted = s.runFaulted ∧
        (∀ j, storeRead t.res j = if j < s.chanCount then some ((raw j).signExtend 32) else storeRead s.res j) ∧
        (∀ j, ConvOf s (raw j)) ∧
        (∀ i, storeRead t.sess.buf i =
          if s.sess.cycle.toNat * s.chanCount ≤ i ∧ i < (s.sess.cycle.toNat + 1) * s.chanCount
          then some ((raw (i - s.sess.cycle.toNat * s.chanCount)).signExtend 32) else storeRead s.sess.buf i) ∧
        t.sess.cycle = s.sess.cycle + 1#32 ∧
        (t.sess.cycle = t.sess.target → t.sess.sched = .stopped ∧ t.sess.armed = false) ∧
        ((t.sess.sched = .running ∧ t.sess.armed = true) ∨ (t.sess.sched = .stopped ∧ t.sess.armed = false)) ∧
        ((∀ e ∈ s.inputs, offersCancel e = false) → t.sess.cycle ≠ t.sess.target → t.sess.sched = .running) ∧
        t.dac = { s.dac with
          out0 := if 0 < s.sess.nout.toNat then out 0 else s.dac.out0
          out1 := if 1 < s.sess.nout.toNat then out 1 else s.dac.out1 } ∧
        TraceGrew s t
          (((List.range s.chanCount).flatMap fun k => channelTrace s.cfg (chan k)) ++
            ((List.range s.sess.nout.toNat).flatMap fun c => outputTrace s.cfg c (out c))) ∧
        t.cfg = s.cfg ∧ t.regs = s.regs ∧ t.ch = s.ch ∧ t.chanCount = s.chanCount ∧ t.initok = s.initok ∧
        t.illegal = s.illegal ∧ t.flags = { s.flags with eTick := t.flags.eTick } ∧
        t.sess.target = s.sess.target ∧ t.sess.nout = s.sess.nout ∧ t.sess.outseq0 = s.sess.outseq0 ∧
        t.sess.outseq1 = s.sess.outseq1 ∧ t.frames = s.frames ∧ NoFrameOpen t ∧
        t.adc = { s.adc with mem := t.adc.mem, shift := t.adc.shift, conv := t.adc.conv } ∧
        (0 < s.chanCount →
          TookMasked (writeMask s.cfg 1) (chan (s.chanCount - 1)).mux (peerRegister s.adc 1) (peerRegister t.adc 1) ∧
          TookMasked (writeMask s.cfg 2) (s.cfg.gfUpper ++ (chan (s.chanCount - 1)).gain) (peerRegister s.adc 2)
            (peerRegister t.adc 2)) ∧
        (∀ a, a ≠ 1 → a ≠ 2 → peerRegister t.adc a = peerRegister s.adc a) ∧
        (s.chanCount = 0 → t.adc.mem = s.adc.mem))

/-- R276: a tick of the armed timer while BUSY sets E_TICK, counts the overrun and changes nothing else. From a timer that is
not armed no tick comes (R281), so the model lets one offered then change nothing (log 29). -/
def Obligations.TickWhileBusyIsAnOverrun : Prop :=
  ∀ s : State,
    (s.pc.op ≠ .idle → s.sess.armed = true →
      exec .tick s =
        .next { s with
          flags := { s.flags with eTick := true }
          sess := { s.sess with overruns := s.sess.overruns + 1#32 } }) ∧
    (s.sess.armed = false → exec .tick s = .next s)

/-- R288, R339: a tick that comes to a descriptor SETCH never wrote, or to an output entry LDOUT never loaded, faults. -/
def Obligations.TickWithUnloadedOutputFaults : Prop :=
  ∀ s : State, Booted s → SessionSound s → s.cfg.codes.wf = true → StaysReady s → s.sess.armed = true →
    (∀ k, k < s.chanCount → (∀ j, j < k → (storeRead s.ch j).isSome = true) → storeRead s.ch k = none →
      exec .tick s = .fault (.unwrittenChannel k)) ∧
    (∀ c, (∀ k, k < s.chanCount → (storeRead s.ch k).isSome = true) → c < s.sess.nout.toNat →
      (∀ d, d < c → (storeRead (outSeq s d) s.sess.cycle.toNat).isSome = true) →
      storeRead (outSeq s c) s.sess.cycle.toNat = none → exec .tick s = .fault (.unloadedOutput c))

/-! ### The wire commands -/

/-- R210, R213, R225, R228: in NORMAL mode WAKEUP, SDATAC, SYNC and WAKEUP2 change nothing of the chip; `conv` and the ready
line change with the edges that pass (R49). -/
def Obligations.WireCommandsWithoutEffect : Prop :=
  ∀ (s : State) (i : Instr) (b : Byte), AdcListening s → s.cfg.codes.wf = true →
    (i, b) ∈ [(Instr.wakeup, s.cfg.codes.wakeup), (.sdatac, s.cfg.codes.sdatac), (.sync, s.cfg.codes.sync),
      (.wakeup2, s.cfg.codes.wakeup2)] →
    ∃ (rx : Byte) (t : State), exec i s = .next t ∧ Passed s t ∧ t.trace = s.trace ++ [.xfer b rx]

/-- R212, R226, R213, R210, R228: RDATAC and STANDBY enter their modes, and SDATAC and the two wake commands leave them;
nothing else of the chip changes but what the edges that pass may change. -/
def Obligations.WireCommandsThatChangeMode : Prop :=
  ∀ (s : State) (i : Instr) (b : Byte) (m m' : AdcMode), s.cfg.codes.wf = true → s.csAdcN = false → s.csDacN = true →
    s.rstN = true → s.adc.pst = .cmd → s.adc.mode = m →
    (i, b, m, m') ∈ [(Instr.rdatac, s.cfg.codes.rdatac, AdcMode.normal, AdcMode.cont),
      (.standby, s.cfg.codes.standby, .normal, .stby), (.sdatac, s.cfg.codes.sdatac, .cont, .normal),
      (.wakeup, s.cfg.codes.wakeup, .stby, .normal), (.wakeup2, s.cfg.codes.wakeup2, .stby, .normal)] →
    ∃ (rx : Byte) (t : State), exec i s = .next t ∧ Passed { s with adc := { s.adc with mode := m' } } t ∧
      t.trace = s.trace ++ [.xfer b rx]

/-- R220 to R224: each calibration leaves registers 0 to 4 as they were and makes the six calibration registers unspecified
(nothing listed, a fresh draw each: log 4); `conv` and the ready line change with the edges that pass. -/
def Obligations.CalibrationsDrawTheirRegisters : Prop :=
  ∀ (s : State) (i : Instr) (b : Byte), AdcListening s → s.cfg.codes.wf = true →
    (i, b) ∈ [(Instr.selfcal, s.cfg.codes.selfcal), (.selfocal, s.cfg.codes.selfocal),
      (.selfgcal, s.cfg.codes.selfgcal), (.sysocal, s.cfg.codes.sysocal), (.sysgcal, s.cfg.codes.sysgcal)] →
    ∃ (rx : Byte) (t : State), exec i s = .next t ∧
      Passed { s with adc := { s.adc with mem := t.adc.mem, calEpoch := t.draws } } t ∧
      s.draws < t.draws ∧ t.trace = s.trace ++ [.xfer b rx] ∧
      (∀ a, a < 5 → peerRegister t.adc a = peerRegister s.adc a) ∧
      (∀ a, 5 ≤ a → storeRead t.adc.mem a = none ∧ peerRegister t.adc a = Config.unspecifiedReg t.draws a)

/-- R227, R56: RESET, in every mode (log 12): NORMAL, CMD, and every register, `conv` and the ready line unspecified (fresh
draws: log 4). -/
def Obligations.ResetCommandResetsTheChip : Prop :=
  ∀ s : State, s.cfg.codes.wf = true → s.csAdcN = false → s.csDacN = true → s.rstN = true → s.adc.pst = .cmd →
    ∃ (rx : Byte) (line : Bool) (conv : BitVec 24) (t : State), exec .reset s = .next t ∧
      Passed { s with
        drdyN := line
        adc := { s.adc with
          mem := [], epoch := t.draws, calEpoch := t.draws, pst := .cmd, mode := .normal, conv := conv } } t ∧
      s.draws < t.draws ∧ t.trace = s.trace ++ [.xfer s.cfg.codes.reset rx]

/-- R211, R94, R147, R67: the conversion result as it is when the opcode is taken, most significant byte first, in `b2`,
`b1`, `b0`; no register changes. -/
def Obligations.RdataReturnsTheConversion : Prop :=
  ∀ s : State, AdcListening s → s.cfg.codes.wf = true →
    ∃ (rx : Byte) (v : BitVec 24) (t : State), exec .rdata s = .next t ∧ ConvOf s v ∧
      Passed { s with
        b2 := v.extractLsb' 16 8, b1 := v.extractLsb' 8 8, b0 := v.extractLsb' 0 8
        adc := { s.adc with shift := v } } t ∧
      t.rx = v.extractLsb' 0 8 ∧
      t.trace = s.trace ++
        [.xfer s.cfg.codes.rdata rx, .delay .tDATA, .xfer s.cfg.codes.filler (v.extractLsb' 16 8),
          .xfer s.cfg.codes.filler (v.extractLsb' 8 8), .xfer s.cfg.codes.filler (v.extractLsb' 0 8)]

/-- R142, R144, R145: a read of `n + 1` registers from `r` returns them in ascending order, each in the bits of its mask
(a reserved id returns some byte, log 9); no register changes. The upper nibble of the status register is that of the chip on
the bus (R41 calls it `CHIP_ID`; that it is a parameter of its own is the model's reading, log 19). -/
def Obligations.RregReturnsTheRegisters : Prop :=
  ∀ (r n : BitVec 4) (s : State), AdcListening s → s.cfg.codes.wf = true → StaysReady s → burstInMap r n = true →
    ∃ (d1 d2 : Byte) (vs : List Byte) (t : State), exec (.rreg r n) s = .next t ∧ vs.length = n.toNat + 1 ∧
      Passed s t ∧
      t.trace = s.trace ++ .xfer (s.cfg.codes.rreg ||| r.setWidth 8) d1 :: .xfer (n.setWidth 8) d2 ::
        vs.map (fun v => .xfer s.cfg.codes.filler v) ∧
      (∀ (j : Nat) (v : Byte), vs[j]? = some v → r.toNat + j ≤ 0x0A → ∀ i, i < 8 →
        (writeMask s.cfg (r.toNat + j)).getLsbD i = true →
          v.getLsbD i = (peerRegister s.adc (r.toNat + j)).getLsbD i) ∧
      (∀ v : Byte, r = 0#4 → vs[0]? = some v → hiNibble v = s.cfg.peerId)

/-- R143, R144, R146: a write of `n + 1` bytes from `r` puts byte `j` into register `r + j` through its mask; every other
register stays (a reserved id takes nothing, log 9). -/
def Obligations.WregWritesTheRegisters : Prop :=
  ∀ (r n : BitVec 4) (data : List Byte) (s : State), AdcListening s → s.cfg.codes.wf = true →
    burstInMap r n = true → data.length = n.toNat + 1 →
    ∃ t : State, exec (.wreg r n data) s = .next t ∧
      Passed { s with adc := { s.adc with mem := t.adc.mem } } t ∧
      TraceGrew s t (.xfer (s.cfg.codes.wreg ||| r.setWidth 8) 0#8 :: .xfer (n.setWidth 8) 0#8 ::
        data.map (fun v => .xfer v 0#8)) ∧
      (∀ (j : Nat) (v : Byte), data[j]? = some v → r.toNat + j ≤ 0x0A →
        TookMasked (writeMask s.cfg (r.toNat + j)) v (peerRegister s.adc (r.toNat + j))
          (peerRegister t.adc (r.toNat + j))) ∧
      (∀ a, a < r.toNat ∨ r.toNat + n.toNat < a ∨ 0x0A < a → peerRegister t.adc a = peerRegister s.adc a)

/-- R251, R95: the output frame's three bytes set the channel's output, high byte first; the other output stays. -/
def Obligations.DacframeSetsTheOutput : Prop :=
  ∀ (c : BitVec 1) (code : BitVec 16) (s : State), s.csAdcN = true → s.csDacN = false → s.dac.pst = .start →
    s.cfg.codes.wf = true →
    ∃ t : State, exec (.dacframe c code) s = .next t ∧
      Passed { s with
        dac := if c = 0#1 then { s.dac with out0 := code, pst := .full } else { s.dac with out1 := code, pst := .full } } t ∧
      TraceGrew s t
        [.xfer (if c = 0#1 then s.cfg.codes.dacCmd0 else s.cfg.codes.dacCmd1) 0#8, .xfer (code.extractLsb' 8 8) 0#8,
          .xfer (code.extractLsb' 0 8) 0#8]

/-- R140: while the chip is not selected (and no other is) every wire command is ignored: neither peer changes but by the
edges that pass, nothing else of the state but the byte returned, the draws, the trace and the latches of RDATA. -/
def Obligations.DeselectedChipsIgnoreTheBus : Prop :=
  ∀ (s : State) (i : Instr) (bytes : List Byte), s.csAdcN = true → s.csDacN = true →
    encode s.cfg.codes i = .wire bytes →
      ∃ t : State, exec i s = .next t ∧ Passed { s with b2 := t.b2, b1 := t.b1, b0 := t.b0 } t ∧
        (i ≠ .rdata → t.b2 = s.b2 ∧ t.b1 = s.b1 ∧ t.b0 = s.b0)

/-- R212, R226, R115, R119, R144, R149, R251, 93 U1, U6, U9, U16: in continuous-read mode every byte but SDATAC and RESET is
refused, in standby every one but the wake commands and RESET (RESET in every mode: log 12); in NORMAL mode a byte that is no
opcode, a count byte with a high nibble, a count that takes a burst past 0x0A (one reserved register is no burst: log 10);
and in an output frame a first byte that is no output command, and a fourth byte. -/
def Obligations.UnmeantTrafficRefused : Prop :=
  (∀ s : State, s.cfg.codes.wf = true → s.csAdcN = false → s.csDacN = true → s.rstN = true →
    (s.adc.pst = .cmd → s.adc.mode = .cont →
      (∀ b : Byte, b ≠ s.cfg.codes.sdatac → b ≠ s.cfg.codes.reset → xfer b s = .refuse .peerInContinuousRead) ∧
      ∀ (i : Instr) (bytes : List Byte), encode s.cfg.codes i = .wire bytes → i ≠ .sdatac → i ≠ .reset →
        exec i s = .refused .peerInContinuousRead) ∧
    (s.adc.pst = .cmd → s.adc.mode = .stby →
      (∀ b : Byte, b ≠ s.cfg.codes.wakeup → b ≠ s.cfg.codes.wakeup2 → b ≠ s.cfg.codes.reset →
        xfer b s = .refuse .peerInStandby) ∧
      ∀ (i : Instr) (bytes : List Byte), encode s.cfg.codes i = .wire bytes → i ≠ .wakeup → i ≠ .wakeup2 → i ≠ .reset →
        exec i s = .refused .peerInStandby) ∧
    (s.adc.mode = .normal → s.adc.pst = .cmd →
      (∀ b : Byte, classify s.cfg.codes b = none → xfer b s = .refuse .reservedWireByte) ∧
      (∀ r n : BitVec 4, n ≠ 0#4 → 0x0A < r.toNat + n.toNat → exec (.rreg r n) s = .refused .burstPastEnd ∧
        ∀ data, exec (.wreg r n data) s = .refused .burstPastEnd)) ∧
    (s.adc.mode = .normal → ∀ (rw : Rw) (a : BitVec 4) (b : Byte), s.adc.pst = .cnt rw a →
      (hiNibble b ≠ 0#4 → xfer b s = .refuse .reservedCount) ∧
      (hiNibble b = 0#4 → loNibble b ≠ 0#4 → 0x0A < a.toNat + (loNibble b).toNat → xfer b s = .refuse .burstPastEnd))) ∧
  (∀ (s : State) (b : Byte), s.csAdcN = true → s.csDacN = false →
    (s.dac.pst = .start → b ≠ s.cfg.codes.dacCmd0 → b ≠ s.cfg.codes.dacCmd1 → xfer b s = .refuse .dacCommandByte) ∧
    (s.dac.pst = .full → xfer b s = .refuse .dacFourthByte))

/-- R140, R72, R211, 93 U15: a frame that ends before its command does leaves the chip at the start of a command. Of a WREG
the bytes sent are written, through their masks, and no other register; of an RDATA the rest of the sample is lost; a RREG
changes nothing of the chip. (That a frame can come from outside the handler is the model's choice, log 13; a read begun
while not ready marks the run, log 11.) -/
def Obligations.FrameEndingEarlyKeepsWhatWasSent : Prop :=
  ∀ (s : State) (fs : List BusFrame) (words : List Byte) (i : Instr) (m : Nat), s.runFaulted = false →
    s.pc.op = .idle → NoFrameOpen s → s.adc.mode = .normal → s.cfg.codes.wf = true → i.wellFormed = true →
    encode s.cfg.codes i = .wire words → m < words.length → s.frames = ⟨.adc, words.take m⟩ :: fs →
    (∀ r n data, i = .wreg r n data →
      ∃ t : State, step s = .next t ∧ Passed { s with frames := fs, adc := { s.adc with mem := t.adc.mem } } t ∧
        t.adc.pst = .cmd ∧
        TraceGrew s t (.cs .adc false :: (words.take m).map (fun b => .xfer b 0#8) ++ [.cs .adc true]) ∧
        (∀ (j : Nat) (v : Byte), data[j]? = some v → j + 2 < m → r.toNat + j ≤ 0x0A →
          TookMasked (writeMask s.cfg (r.toNat + j)) v (peerRegister s.adc (r.toNat + j))
            (peerRegister t.adc (r.toNat + j))) ∧
        (∀ a, a < r.toNat ∨ r.toNat + m ≤ a + 2 ∨ 0x0A < a → peerRegister t.adc a = peerRegister s.adc a)) ∧
    ((∃ r n, i = .rreg r n) ∨ i = .rdata →
      ∃ t : State, step s = .next t ∧
        Passed { s with frames := fs, runFaulted := t.runFaulted, adc := { s.adc with shift := t.adc.shift } } t ∧
        t.adc.pst = .cmd ∧
        TraceGrew s t (.cs .adc false :: (words.take m).map (fun b => .xfer b 0#8) ++ [.cs .adc true]))
end

