-- ==== Sys2Proof/Laws/Decode.lean ====
section
/-! SUPPORT. What the command decode makes of each opcode, for every valuation of the opcode bytes that meets R12: the
address decode of 40_register_access.md R141 is the inverse of the assembly of 30_encoding.md R97. -/

namespace Sys2Proof

theorem WireCodes.wf_rreg_low {C : WireCodes} (h : C.wf = true) : C.rreg.extractLsb' 0 4 = 0#4 := by
  simp only [WireCodes.wf, Bool.and_eq_true, beq_iff_eq] at h
  tauto

theorem WireCodes.wf_wreg_low {C : WireCodes} (h : C.wf = true) : C.wreg.extractLsb' 0 4 = 0#4 := by
  simp only [WireCodes.wf, Bool.and_eq_true, beq_iff_eq] at h
  tauto

theorem WireCodes.wf_classes {C : WireCodes} (h : C.wf = true) : hiNibble C.wreg ≠ hiNibble C.rreg := by
  simp only [WireCodes.wf, Bool.and_eq_true, bne_iff_ne] at h
  exact fun e => h.1.1.1.1.2 e.symm

/-- A one-byte opcode is in neither register class (R12). -/
theorem WireCodes.wf_oneByte {C : WireCodes} (h : C.wf = true) {b : Byte} (hb : b ∈ C.wakeup2 :: C.oneByte) :
    hiNibble b ≠ hiNibble C.rreg ∧ hiNibble b ≠ hiNibble C.wreg := by
  simp only [WireCodes.wf, Bool.and_eq_true, bne_iff_ne, List.all_eq_true] at h
  exact h.1.1.1.2 b hb

theorem WireCodes.wf_nodup {C : WireCodes} (h : C.wf = true) : C.oneByte.Nodup := by
  simp only [WireCodes.wf, Bool.and_eq_true, decide_eq_true_eq] at h
  exact h.1.1.2

theorem WireCodes.wf_wakeup2 {C : WireCodes} (h : C.wf = true) : C.wakeup2 ∉ C.oneByte.tail := by
  simp only [WireCodes.wf, Bool.and_eq_true, Bool.not_eq_true', List.contains_eq_mem, decide_eq_false_iff_not] at h
  exact h.1.2

theorem WireCodes.wf_dacCmd {C : WireCodes} (h : C.wf = true) : C.dacCmd0 ≠ C.dacCmd1 := by
  simp only [WireCodes.wf, Bool.and_eq_true, bne_iff_ne] at h
  exact h.2

/-- The class of a command byte is its opcode's, whatever the id (R97). -/
theorem hiNibble_commandByte (op : Byte) (id : BitVec 4) : hiNibble (commandByte op id) = hiNibble op := by
  ext i hi
  simp [hiNibble, commandByte]

/-- The id of a command byte is recovered, the opcode's low nibble being zero (R97, R12). -/
theorem loNibble_commandByte (op : Byte) (id : BitVec 4) (h : op.extractLsb' 0 4 = 0#4) :
    loNibble (commandByte op id) = id := by
  apply BitVec.eq_of_getLsbD_eq
  intro i hi
  have h0 : op.getLsbD i = false := by
    have := congrArg (fun x => x.getLsbD i) h
    simpa [BitVec.getLsbD_extractLsb', hi] using this
  rw [BitVec.getLsbD_eq_getElem (show i < 8 by omega)] at h0
  simp [loNibble, commandByte, hi, h0, show i < 8 by omega]

theorem hiNibble_countByte (n : BitVec 4) : hiNibble (countByte n) = 0#4 := by
  ext i hi
  simp [hiNibble, countByte]

theorem loNibble_countByte (n : BitVec 4) : loNibble (countByte n) = n := by
  apply BitVec.eq_of_getLsbD_eq
  intro i hi
  simp [loNibble, countByte, hi, show i < 8 by omega]

/-- The two bytes of an output code make the code again (R103, R95). -/
theorem code_bytes (code : BitVec 16) : (code.extractLsb' 8 8 ++ code.extractLsb' 0 8 : BitVec 16) = code := by
  apply BitVec.eq_of_getLsbD_eq
  intro i hi
  rw [BitVec.getLsbD_append]
  by_cases h : i < 8
  · simp [h]
  · simp [h, show i - 8 < 8 by omega, show 8 + (i - 8) = i by omega]

/-! ### The decode of each opcode (40 R141) -/

theorem classify_rreg (C : WireCodes) (h : C.wf = true) (r : BitVec 4) :
    classify C (commandByte C.rreg r) = some (.rreg r) := by
  simp [classify, hiNibble_commandByte, loNibble_commandByte _ _ (WireCodes.wf_rreg_low h)]

theorem classify_wreg (C : WireCodes) (h : C.wf = true) (r : BitVec 4) :
    classify C (commandByte C.wreg r) = some (.wreg r) := by
  simp [classify, hiNibble_commandByte, loNibble_commandByte _ _ (WireCodes.wf_wreg_low h), WireCodes.wf_classes h]

/-- A one-byte opcode is looked up in the list. -/
theorem classify_oneByte {C : WireCodes} (h : C.wf = true) {b : Byte} (hb : b ∈ C.wakeup2 :: C.oneByte) :
    classify C b = ((oneByteCmds C).find? (fun row => row.1 == b)).map Prod.snd := by
  simp [classify, WireCodes.wf_oneByte h hb]

/-- The opcodes of the list are distinct, so the lookup finds the row of the byte. -/
theorem classify_eq {C : WireCodes} (h : C.wf = true) :
    classify C C.rdata = some .rdata ∧ classify C C.wakeup = some .wakeup ∧ classify C C.rdatac = some .rdatac ∧
      classify C C.sdatac = some .sdatac ∧ classify C C.selfcal = some .selfcal ∧
      classify C C.selfocal = some .selfocal ∧ classify C C.selfgcal = some .selfgcal ∧
      classify C C.sysocal = some .sysocal ∧ classify C C.sysgcal = some .sysgcal ∧ classify C C.sync = some .sync ∧
      classify C C.standby = some .standby ∧ classify C C.reset = some .reset ∧
      (C.wakeup2 ≠ C.wakeup → classify C C.wakeup2 = some .wakeup2) := by
  have hn := WireCodes.wf_nodup h
  have h2 := WireCodes.wf_wakeup2 h
  have hc : ∀ b, b ∈ C.wakeup2 :: C.oneByte →
      classify C b = ((oneByteCmds C).find? (fun row => row.1 == b)).map Prod.snd := fun b hb => classify_oneByte h hb
  simp only [WireCodes.oneByte, List.nodup_cons, List.mem_cons, List.not_mem_nil, or_false, not_or, List.tail_cons]
    at hn h2 hc
  obtain ⟨⟨a1, a2, a3, a4, a5, a6, a7, a8, a9, a10, a11⟩, ⟨b1, b2, b3, b4, b5, b6, b7, b8, b9, b10⟩,
    ⟨d1, d2, d3, d4, d5, d6, d7, d8, d9⟩, ⟨e1, e2, e3, e4, e5, e6, e7, e8⟩, ⟨f1, f2, f3, f4, f5, f6, f7⟩,
    ⟨g1, g2, g3, g4, g5, g6⟩, ⟨i1, i2, i3, i4, i5⟩, ⟨j1, j2, j3, j4⟩, ⟨k1, k2, k3⟩, ⟨l1, l2⟩, m1, -, -⟩ := hn
  obtain ⟨w1, w2, w3, w4, w5, w6, w7, w8, w9, w10, w11⟩ := h2
  refine ⟨?_, ?_, ?_, ?_, ?_, ?_, ?_, ?_, ?_, ?_, ?_, ?_, ?_⟩
  · rw [hc _ (by simp)]; simp [oneByteCmds]
  · rw [hc _ (by simp)]; simp [oneByteCmds, Ne.symm a1]
  · rw [hc _ (by simp)]; simp [oneByteCmds, *]
  · rw [hc _ (by simp)]; simp [oneByteCmds, *]
  · rw [hc _ (by simp)]; simp [oneByteCmds, *]
  · rw [hc _ (by simp)]; simp [oneByteCmds, *]
  · rw [hc _ (by simp)]; simp [oneByteCmds, *]
  · rw [hc _ (by simp)]; simp [oneByteCmds, *]
  · rw [hc _ (by simp)]; simp [oneByteCmds, *]
  · rw [hc _ (by simp)]; simp [oneByteCmds, *]
  · rw [hc _ (by simp)]; simp [oneByteCmds, *]
  · rw [hc _ (by simp)]; simp [oneByteCmds, *]
  · intro hne
    rw [hc _ (by simp)]
    simp [oneByteCmds, Ne.symm w1, Ne.symm w2, Ne.symm w3, Ne.symm w4, Ne.symm w5, Ne.symm w6, Ne.symm w7, Ne.symm w8,
      Ne.symm w9, Ne.symm w10, Ne.symm w11, Ne.symm hne]

/-- Where the two wake opcodes share one byte, the byte is the wake command (R12, 44 R228). -/
theorem classify_wakeup2_cases {C : WireCodes} (h : C.wf = true) :
    classify C C.wakeup2 = some .wakeup2 ∨ classify C C.wakeup2 = some .wakeup := by
  by_cases hne : C.wakeup2 = C.wakeup
  · exact .inr (hne ▸ (classify_eq h).2.1)
  · exact .inl ((classify_eq h).2.2.2.2.2.2.2.2.2.2.2.2 hne)

end Sys2Proof
end

