-- ==== Sys2Proof/Laws/State.lean ====
section
/-! SUPPORT. What each plain update of the State does to each field: one lemma per field per update, true by unfolding,
so that no later proof unfolds a record update. -/

namespace Sys2Proof.Machine

variable (s : State)

@[simp] theorem drawRx_cfg : (drawRx s).cfg = s.cfg := rfl
@[simp] theorem drawRx_pc : (drawRx s).pc = s.pc := rfl
@[simp] theorem drawRx_polls : (drawRx s).polls = s.polls := rfl
@[simp] theorem drawRx_done : (drawRx s).done = s.done := rfl
@[simp] theorem drawRx_fault : (drawRx s).fault = s.fault := rfl
@[simp] theorem drawRx_csAdcN : (drawRx s).csAdcN = s.csAdcN := rfl
@[simp] theorem drawRx_csDacN : (drawRx s).csDacN = s.csDacN := rfl
@[simp] theorem drawRx_rstN : (drawRx s).rstN = s.rstN := rfl
@[simp] theorem drawRx_drdyN : (drawRx s).drdyN = s.drdyN := rfl
@[simp] theorem drawRx_hwOk : (drawRx s).hwOk = s.hwOk := rfl
@[simp] theorem drawRx_regs : (drawRx s).regs = s.regs := rfl
@[simp] theorem drawRx_illegal : (drawRx s).illegal = s.illegal := rfl
@[simp] theorem drawRx_res : (drawRx s).res = s.res := rfl
@[simp] theorem drawRx_resAbort : (drawRx s).resAbort = s.resAbort := rfl
@[simp] theorem drawRx_ch : (drawRx s).ch = s.ch := rfl
@[simp] theorem drawRx_chanCount : (drawRx s).chanCount = s.chanCount := rfl
@[simp] theorem drawRx_flags : (drawRx s).flags = s.flags := rfl
@[simp] theorem drawRx_initok : (drawRx s).initok = s.initok := rfl
@[simp] theorem drawRx_sess : (drawRx s).sess = s.sess := rfl
@[simp] theorem drawRx_rx : (drawRx s).rx = Config.draw s.draws := rfl
@[simp] theorem drawRx_b2 : (drawRx s).b2 = s.b2 := rfl
@[simp] theorem drawRx_b1 : (drawRx s).b1 = s.b1 := rfl
@[simp] theorem drawRx_b0 : (drawRx s).b0 = s.b0 := rfl
@[simp] theorem drawRx_adc : (drawRx s).adc = s.adc := rfl
@[simp] theorem drawRx_dac : (drawRx s).dac = s.dac := rfl
@[simp] theorem drawRx_trace : (drawRx s).trace = s.trace := rfl
@[simp] theorem drawRx_runFaulted : (drawRx s).runFaulted = s.runFaulted := rfl
@[simp] theorem drawRx_draws : (drawRx s).draws = s.draws + 1 := rfl
@[simp] theorem drawRx_inputs : (drawRx s).inputs = s.inputs := rfl
@[simp] theorem drawRx_frames : (drawRx s).frames = s.frames := rfl

@[simp] theorem setPst_cfg (p : Pst) : (setPst p s).cfg = s.cfg := rfl
@[simp] theorem setPst_pc (p : Pst) : (setPst p s).pc = s.pc := rfl
@[simp] theorem setPst_polls (p : Pst) : (setPst p s).polls = s.polls := rfl
@[simp] theorem setPst_done (p : Pst) : (setPst p s).done = s.done := rfl
@[simp] theorem setPst_fault (p : Pst) : (setPst p s).fault = s.fault := rfl
@[simp] theorem setPst_csAdcN (p : Pst) : (setPst p s).csAdcN = s.csAdcN := rfl
@[simp] theorem setPst_csDacN (p : Pst) : (setPst p s).csDacN = s.csDacN := rfl
@[simp] theorem setPst_rstN (p : Pst) : (setPst p s).rstN = s.rstN := rfl
@[simp] theorem setPst_drdyN (p : Pst) : (setPst p s).drdyN = s.drdyN := rfl
@[simp] theorem setPst_hwOk (p : Pst) : (setPst p s).hwOk = s.hwOk := rfl
@[simp] theorem setPst_regs (p : Pst) : (setPst p s).regs = s.regs := rfl
@[simp] theorem setPst_illegal (p : Pst) : (setPst p s).illegal = s.illegal := rfl
@[simp] theorem setPst_res (p : Pst) : (setPst p s).res = s.res := rfl
@[simp] theorem setPst_resAbort (p : Pst) : (setPst p s).resAbort = s.resAbort := rfl
@[simp] theorem setPst_ch (p : Pst) : (setPst p s).ch = s.ch := rfl
@[simp] theorem setPst_chanCount (p : Pst) : (setPst p s).chanCount = s.chanCount := rfl
@[simp] theorem setPst_flags (p : Pst) : (setPst p s).flags = s.flags := rfl
@[simp] theorem setPst_initok (p : Pst) : (setPst p s).initok = s.initok := rfl
@[simp] theorem setPst_sess (p : Pst) : (setPst p s).sess = s.sess := rfl
@[simp] theorem setPst_rx (p : Pst) : (setPst p s).rx = s.rx := rfl
@[simp] theorem setPst_b2 (p : Pst) : (setPst p s).b2 = s.b2 := rfl
@[simp] theorem setPst_b1 (p : Pst) : (setPst p s).b1 = s.b1 := rfl
@[simp] theorem setPst_b0 (p : Pst) : (setPst p s).b0 = s.b0 := rfl
@[simp] theorem setPst_adc (p : Pst) : (setPst p s).adc = { s.adc with pst := p } := rfl
@[simp] theorem setPst_dac (p : Pst) : (setPst p s).dac = s.dac := rfl
@[simp] theorem setPst_trace (p : Pst) : (setPst p s).trace = s.trace := rfl
@[simp] theorem setPst_runFaulted (p : Pst) : (setPst p s).runFaulted = s.runFaulted := rfl
@[simp] theorem setPst_draws (p : Pst) : (setPst p s).draws = s.draws := rfl
@[simp] theorem setPst_inputs (p : Pst) : (setPst p s).inputs = s.inputs := rfl
@[simp] theorem setPst_frames (p : Pst) : (setPst p s).frames = s.frames := rfl

@[simp] theorem setMode_cfg (m : AdcMode) : (setMode m s).cfg = s.cfg := rfl
@[simp] theorem setMode_pc (m : AdcMode) : (setMode m s).pc = s.pc := rfl
@[simp] theorem setMode_polls (m : AdcMode) : (setMode m s).polls = s.polls := rfl
@[simp] theorem setMode_done (m : AdcMode) : (setMode m s).done = s.done := rfl
@[simp] theorem setMode_fault (m : AdcMode) : (setMode m s).fault = s.fault := rfl
@[simp] theorem setMode_csAdcN (m : AdcMode) : (setMode m s).csAdcN = s.csAdcN := rfl
@[simp] theorem setMode_csDacN (m : AdcMode) : (setMode m s).csDacN = s.csDacN := rfl
@[simp] theorem setMode_rstN (m : AdcMode) : (setMode m s).rstN = s.rstN := rfl
@[simp] theorem setMode_drdyN (m : AdcMode) : (setMode m s).drdyN = s.drdyN := rfl
@[simp] theorem setMode_hwOk (m : AdcMode) : (setMode m s).hwOk = s.hwOk := rfl
@[simp] theorem setMode_regs (m : AdcMode) : (setMode m s).regs = s.regs := rfl
@[simp] theorem setMode_illegal (m : AdcMode) : (setMode m s).illegal = s.illegal := rfl
@[simp] theorem setMode_res (m : AdcMode) : (setMode m s).res = s.res := rfl
@[simp] theorem setMode_resAbort (m : AdcMode) : (setMode m s).resAbort = s.resAbort := rfl
@[simp] theorem setMode_ch (m : AdcMode) : (setMode m s).ch = s.ch := rfl
@[simp] theorem setMode_chanCount (m : AdcMode) : (setMode m s).chanCount = s.chanCount := rfl
@[simp] theorem setMode_flags (m : AdcMode) : (setMode m s).flags = s.flags := rfl
@[simp] theorem setMode_initok (m : AdcMode) : (setMode m s).initok = s.initok := rfl
@[simp] theorem setMode_sess (m : AdcMode) : (setMode m s).sess = s.sess := rfl
@[simp] theorem setMode_rx (m : AdcMode) : (setMode m s).rx = s.rx := rfl
@[simp] theorem setMode_b2 (m : AdcMode) : (setMode m s).b2 = s.b2 := rfl
@[simp] theorem setMode_b1 (m : AdcMode) : (setMode m s).b1 = s.b1 := rfl
@[simp] theorem setMode_b0 (m : AdcMode) : (setMode m s).b0 = s.b0 := rfl
@[simp] theorem setMode_adc (m : AdcMode) : (setMode m s).adc = { s.adc with mode := m } := rfl
@[simp] theorem setMode_dac (m : AdcMode) : (setMode m s).dac = s.dac := rfl
@[simp] theorem setMode_trace (m : AdcMode) : (setMode m s).trace = s.trace := rfl
@[simp] theorem setMode_runFaulted (m : AdcMode) : (setMode m s).runFaulted = s.runFaulted := rfl
@[simp] theorem setMode_draws (m : AdcMode) : (setMode m s).draws = s.draws := rfl
@[simp] theorem setMode_inputs (m : AdcMode) : (setMode m s).inputs = s.inputs := rfl
@[simp] theorem setMode_frames (m : AdcMode) : (setMode m s).frames = s.frames := rfl

@[simp] theorem peerReset_cfg : (peerReset s).cfg = s.cfg := rfl
@[simp] theorem peerReset_pc : (peerReset s).pc = s.pc := rfl
@[simp] theorem peerReset_polls : (peerReset s).polls = s.polls := rfl
@[simp] theorem peerReset_done : (peerReset s).done = s.done := rfl
@[simp] theorem peerReset_fault : (peerReset s).fault = s.fault := rfl
@[simp] theorem peerReset_csAdcN : (peerReset s).csAdcN = s.csAdcN := rfl
@[simp] theorem peerReset_csDacN : (peerReset s).csDacN = s.csDacN := rfl
@[simp] theorem peerReset_rstN : (peerReset s).rstN = s.rstN := rfl
@[simp] theorem peerReset_drdyN : (peerReset s).drdyN = Config.resetDrdyN s.draws := rfl
@[simp] theorem peerReset_hwOk : (peerReset s).hwOk = s.hwOk := rfl
@[simp] theorem peerReset_regs : (peerReset s).regs = s.regs := rfl
@[simp] theorem peerReset_illegal : (peerReset s).illegal = s.illegal := rfl
@[simp] theorem peerReset_res : (peerReset s).res = s.res := rfl
@[simp] theorem peerReset_resAbort : (peerReset s).resAbort = s.resAbort := rfl
@[simp] theorem peerReset_ch : (peerReset s).ch = s.ch := rfl
@[simp] theorem peerReset_chanCount : (peerReset s).chanCount = s.chanCount := rfl
@[simp] theorem peerReset_flags : (peerReset s).flags = s.flags := rfl
@[simp] theorem peerReset_initok : (peerReset s).initok = s.initok := rfl
@[simp] theorem peerReset_sess : (peerReset s).sess = s.sess := rfl
@[simp] theorem peerReset_rx : (peerReset s).rx = s.rx := rfl
@[simp] theorem peerReset_b2 : (peerReset s).b2 = s.b2 := rfl
@[simp] theorem peerReset_b1 : (peerReset s).b1 = s.b1 := rfl
@[simp] theorem peerReset_b0 : (peerReset s).b0 = s.b0 := rfl
@[simp] theorem peerReset_adc :
    (peerReset s).adc =
      { s.adc with
        mem := [], epoch := s.draws + 1, calEpoch := s.draws + 1, pst := .cmd, mode := .normal
        conv := Config.resetConv s.draws } := rfl
@[simp] theorem peerReset_dac : (peerReset s).dac = s.dac := rfl
@[simp] theorem peerReset_trace : (peerReset s).trace = s.trace := rfl
@[simp] theorem peerReset_runFaulted : (peerReset s).runFaulted = s.runFaulted := rfl
@[simp] theorem peerReset_draws : (peerReset s).draws = s.draws + 1 := rfl
@[simp] theorem peerReset_inputs : (peerReset s).inputs = s.inputs := rfl
@[simp] theorem peerReset_frames : (peerReset s).frames = s.frames := rfl

@[simp] theorem calibrate_cfg : (calibrate s).cfg = s.cfg := rfl
@[simp] theorem calibrate_pc : (calibrate s).pc = s.pc := rfl
@[simp] theorem calibrate_polls : (calibrate s).polls = s.polls := rfl
@[simp] theorem calibrate_done : (calibrate s).done = s.done := rfl
@[simp] theorem calibrate_fault : (calibrate s).fault = s.fault := rfl
@[simp] theorem calibrate_csAdcN : (calibrate s).csAdcN = s.csAdcN := rfl
@[simp] theorem calibrate_csDacN : (calibrate s).csDacN = s.csDacN := rfl
@[simp] theorem calibrate_rstN : (calibrate s).rstN = s.rstN := rfl
@[simp] theorem calibrate_drdyN : (calibrate s).drdyN = s.drdyN := rfl
@[simp] theorem calibrate_hwOk : (calibrate s).hwOk = s.hwOk := rfl
@[simp] theorem calibrate_regs : (calibrate s).regs = s.regs := rfl
@[simp] theorem calibrate_illegal : (calibrate s).illegal = s.illegal := rfl
@[simp] theorem calibrate_res : (calibrate s).res = s.res := rfl
@[simp] theorem calibrate_resAbort : (calibrate s).resAbort = s.resAbort := rfl
@[simp] theorem calibrate_ch : (calibrate s).ch = s.ch := rfl
@[simp] theorem calibrate_chanCount : (calibrate s).chanCount = s.chanCount := rfl
@[simp] theorem calibrate_flags : (calibrate s).flags = s.flags := rfl
@[simp] theorem calibrate_initok : (calibrate s).initok = s.initok := rfl
@[simp] theorem calibrate_sess : (calibrate s).sess = s.sess := rfl
@[simp] theorem calibrate_rx : (calibrate s).rx = s.rx := rfl
@[simp] theorem calibrate_b2 : (calibrate s).b2 = s.b2 := rfl
@[simp] theorem calibrate_b1 : (calibrate s).b1 = s.b1 := rfl
@[simp] theorem calibrate_b0 : (calibrate s).b0 = s.b0 := rfl
@[simp] theorem calibrate_adc :
    (calibrate s).adc =
      { s.adc with mem := storeBelow s.adc.mem 5, calEpoch := s.draws + 1 } := rfl
@[simp] theorem calibrate_dac : (calibrate s).dac = s.dac := rfl
@[simp] theorem calibrate_trace : (calibrate s).trace = s.trace := rfl
@[simp] theorem calibrate_runFaulted : (calibrate s).runFaulted = s.runFaulted := rfl
@[simp] theorem calibrate_draws : (calibrate s).draws = s.draws + 1 := rfl
@[simp] theorem calibrate_inputs : (calibrate s).inputs = s.inputs := rfl
@[simp] theorem calibrate_frames : (calibrate s).frames = s.frames := rfl

@[simp] theorem setDacPst_cfg (p : DacPst) : (setDacPst p s).cfg = s.cfg := rfl
@[simp] theorem setDacPst_pc (p : DacPst) : (setDacPst p s).pc = s.pc := rfl
@[simp] theorem setDacPst_polls (p : DacPst) : (setDacPst p s).polls = s.polls := rfl
@[simp] theorem setDacPst_done (p : DacPst) : (setDacPst p s).done = s.done := rfl
@[simp] theorem setDacPst_fault (p : DacPst) : (setDacPst p s).fault = s.fault := rfl
@[simp] theorem setDacPst_csAdcN (p : DacPst) : (setDacPst p s).csAdcN = s.csAdcN := rfl
@[simp] theorem setDacPst_csDacN (p : DacPst) : (setDacPst p s).csDacN = s.csDacN := rfl
@[simp] theorem setDacPst_rstN (p : DacPst) : (setDacPst p s).rstN = s.rstN := rfl
@[simp] theorem setDacPst_drdyN (p : DacPst) : (setDacPst p s).drdyN = s.drdyN := rfl
@[simp] theorem setDacPst_hwOk (p : DacPst) : (setDacPst p s).hwOk = s.hwOk := rfl
@[simp] theorem setDacPst_regs (p : DacPst) : (setDacPst p s).regs = s.regs := rfl
@[simp] theorem setDacPst_illegal (p : DacPst) : (setDacPst p s).illegal = s.illegal := rfl
@[simp] theorem setDacPst_res (p : DacPst) : (setDacPst p s).res = s.res := rfl
@[simp] theorem setDacPst_resAbort (p : DacPst) : (setDacPst p s).resAbort = s.resAbort := rfl
@[simp] theorem setDacPst_ch (p : DacPst) : (setDacPst p s).ch = s.ch := rfl
@[simp] theorem setDacPst_chanCount (p : DacPst) : (setDacPst p s).chanCount = s.chanCount := rfl
@[simp] theorem setDacPst_flags (p : DacPst) : (setDacPst p s).flags = s.flags := rfl
@[simp] theorem setDacPst_initok (p : DacPst) : (setDacPst p s).initok = s.initok := rfl
@[simp] theorem setDacPst_sess (p : DacPst) : (setDacPst p s).sess = s.sess := rfl
@[simp] theorem setDacPst_rx (p : DacPst) : (setDacPst p s).rx = s.rx := rfl
@[simp] theorem setDacPst_b2 (p : DacPst) : (setDacPst p s).b2 = s.b2 := rfl
@[simp] theorem setDacPst_b1 (p : DacPst) : (setDacPst p s).b1 = s.b1 := rfl
@[simp] theorem setDacPst_b0 (p : DacPst) : (setDacPst p s).b0 = s.b0 := rfl
@[simp] theorem setDacPst_adc (p : DacPst) : (setDacPst p s).adc = s.adc := rfl
@[simp] theorem setDacPst_dac (p : DacPst) : (setDacPst p s).dac = { s.dac with pst := p } := rfl
@[simp] theorem setDacPst_trace (p : DacPst) : (setDacPst p s).trace = s.trace := rfl
@[simp] theorem setDacPst_runFaulted (p : DacPst) : (setDacPst p s).runFaulted = s.runFaulted := rfl
@[simp] theorem setDacPst_draws (p : DacPst) : (setDacPst p s).draws = s.draws := rfl
@[simp] theorem setDacPst_inputs (p : DacPst) : (setDacPst p s).inputs = s.inputs := rfl
@[simp] theorem setDacPst_frames (p : DacPst) : (setDacPst p s).frames = s.frames := rfl

@[simp] theorem logAction_cfg (a : Action) : (logAction a s).cfg = s.cfg := rfl
@[simp] theorem logAction_pc (a : Action) : (logAction a s).pc = s.pc := rfl
@[simp] theorem logAction_polls (a : Action) : (logAction a s).polls = s.polls := rfl
@[simp] theorem logAction_done (a : Action) : (logAction a s).done = s.done := rfl
@[simp] theorem logAction_fault (a : Action) : (logAction a s).fault = s.fault := rfl
@[simp] theorem logAction_csAdcN (a : Action) : (logAction a s).csAdcN = s.csAdcN := rfl
@[simp] theorem logAction_csDacN (a : Action) : (logAction a s).csDacN = s.csDacN := rfl
@[simp] theorem logAction_rstN (a : Action) : (logAction a s).rstN = s.rstN := rfl
@[simp] theorem logAction_drdyN (a : Action) : (logAction a s).drdyN = s.drdyN := rfl
@[simp] theorem logAction_hwOk (a : Action) : (logAction a s).hwOk = s.hwOk := rfl
@[simp] theorem logAction_regs (a : Action) : (logAction a s).regs = s.regs := rfl
@[simp] theorem logAction_illegal (a : Action) : (logAction a s).illegal = s.illegal := rfl
@[simp] theorem logAction_res (a : Action) : (logAction a s).res = s.res := rfl
@[simp] theorem logAction_resAbort (a : Action) : (logAction a s).resAbort = s.resAbort := rfl
@[simp] theorem logAction_ch (a : Action) : (logAction a s).ch = s.ch := rfl
@[simp] theorem logAction_chanCount (a : Action) : (logAction a s).chanCount = s.chanCount := rfl
@[simp] theorem logAction_flags (a : Action) : (logAction a s).flags = s.flags := rfl
@[simp] theorem logAction_initok (a : Action) : (logAction a s).initok = s.initok := rfl
@[simp] theorem logAction_sess (a : Action) : (logAction a s).sess = s.sess := rfl
@[simp] theorem logAction_rx (a : Action) : (logAction a s).rx = s.rx := rfl
@[simp] theorem logAction_b2 (a : Action) : (logAction a s).b2 = s.b2 := rfl
@[simp] theorem logAction_b1 (a : Action) : (logAction a s).b1 = s.b1 := rfl
@[simp] theorem logAction_b0 (a : Action) : (logAction a s).b0 = s.b0 := rfl
@[simp] theorem logAction_adc (a : Action) : (logAction a s).adc = s.adc := rfl
@[simp] theorem logAction_dac (a : Action) : (logAction a s).dac = s.dac := rfl
@[simp] theorem logAction_trace (a : Action) : (logAction a s).trace = s.trace ++ [a] := rfl
@[simp] theorem logAction_runFaulted (a : Action) : (logAction a s).runFaulted = s.runFaulted := rfl
@[simp] theorem logAction_draws (a : Action) : (logAction a s).draws = s.draws := rfl
@[simp] theorem logAction_inputs (a : Action) : (logAction a s).inputs = s.inputs := rfl
@[simp] theorem logAction_frames (a : Action) : (logAction a s).frames = s.frames := rfl

@[simp] theorem delay_cfg (d : DelayName) : (delay d s).cfg = s.cfg := rfl
@[simp] theorem delay_pc (d : DelayName) : (delay d s).pc = s.pc := rfl
@[simp] theorem delay_polls (d : DelayName) : (delay d s).polls = s.polls := rfl
@[simp] theorem delay_done (d : DelayName) : (delay d s).done = s.done := rfl
@[simp] theorem delay_fault (d : DelayName) : (delay d s).fault = s.fault := rfl
@[simp] theorem delay_csAdcN (d : DelayName) : (delay d s).csAdcN = s.csAdcN := rfl
@[simp] theorem delay_csDacN (d : DelayName) : (delay d s).csDacN = s.csDacN := rfl
@[simp] theorem delay_rstN (d : DelayName) : (delay d s).rstN = s.rstN := rfl
@[simp] theorem delay_drdyN (d : DelayName) : (delay d s).drdyN = s.drdyN := rfl
@[simp] theorem delay_hwOk (d : DelayName) : (delay d s).hwOk = s.hwOk := rfl
@[simp] theorem delay_regs (d : DelayName) : (delay d s).regs = s.regs := rfl
@[simp] theorem delay_illegal (d : DelayName) : (delay d s).illegal = s.illegal := rfl
@[simp] theorem delay_res (d : DelayName) : (delay d s).res = s.res := rfl
@[simp] theorem delay_resAbort (d : DelayName) : (delay d s).resAbort = s.resAbort := rfl
@[simp] theorem delay_ch (d : DelayName) : (delay d s).ch = s.ch := rfl
@[simp] theorem delay_chanCount (d : DelayName) : (delay d s).chanCount = s.chanCount := rfl
@[simp] theorem delay_flags (d : DelayName) : (delay d s).flags = s.flags := rfl
@[simp] theorem delay_initok (d : DelayName) : (delay d s).initok = s.initok := rfl
@[simp] theorem delay_sess (d : DelayName) : (delay d s).sess = s.sess := rfl
@[simp] theorem delay_rx (d : DelayName) : (delay d s).rx = s.rx := rfl
@[simp] theorem delay_b2 (d : DelayName) : (delay d s).b2 = s.b2 := rfl
@[simp] theorem delay_b1 (d : DelayName) : (delay d s).b1 = s.b1 := rfl
@[simp] theorem delay_b0 (d : DelayName) : (delay d s).b0 = s.b0 := rfl
@[simp] theorem delay_adc (d : DelayName) : (delay d s).adc = s.adc := rfl
@[simp] theorem delay_dac (d : DelayName) : (delay d s).dac = s.dac := rfl
@[simp] theorem delay_trace (d : DelayName) : (delay d s).trace = s.trace ++ [.delay d] := rfl
@[simp] theorem delay_runFaulted (d : DelayName) : (delay d s).runFaulted = s.runFaulted := rfl
@[simp] theorem delay_draws (d : DelayName) : (delay d s).draws = s.draws := rfl
@[simp] theorem delay_inputs (d : DelayName) : (delay d s).inputs = s.inputs := rfl
@[simp] theorem delay_frames (d : DelayName) : (delay d s).frames = s.frames := rfl

@[simp] theorem readyNow_cfg : (readyNow s).cfg = s.cfg := rfl
@[simp] theorem readyNow_pc : (readyNow s).pc = s.pc := rfl
@[simp] theorem readyNow_polls : (readyNow s).polls = 0 := rfl
@[simp] theorem readyNow_done : (readyNow s).done = s.done := rfl
@[simp] theorem readyNow_fault : (readyNow s).fault = s.fault := rfl
@[simp] theorem readyNow_csAdcN : (readyNow s).csAdcN = s.csAdcN := rfl
@[simp] theorem readyNow_csDacN : (readyNow s).csDacN = s.csDacN := rfl
@[simp] theorem readyNow_rstN : (readyNow s).rstN = s.rstN := rfl
@[simp] theorem readyNow_drdyN : (readyNow s).drdyN = s.drdyN := rfl
@[simp] theorem readyNow_hwOk : (readyNow s).hwOk = s.hwOk := rfl
@[simp] theorem readyNow_regs : (readyNow s).regs = s.regs := rfl
@[simp] theorem readyNow_illegal : (readyNow s).illegal = s.illegal := rfl
@[simp] theorem readyNow_res : (readyNow s).res = s.res := rfl
@[simp] theorem readyNow_resAbort : (readyNow s).resAbort = s.resAbort := rfl
@[simp] theorem readyNow_ch : (readyNow s).ch = s.ch := rfl
@[simp] theorem readyNow_chanCount : (readyNow s).chanCount = s.chanCount := rfl
@[simp] theorem readyNow_flags : (readyNow s).flags = s.flags := rfl
@[simp] theorem readyNow_initok : (readyNow s).initok = s.initok := rfl
@[simp] theorem readyNow_sess : (readyNow s).sess = s.sess := rfl
@[simp] theorem readyNow_rx : (readyNow s).rx = s.rx := rfl
@[simp] theorem readyNow_b2 : (readyNow s).b2 = s.b2 := rfl
@[simp] theorem readyNow_b1 : (readyNow s).b1 = s.b1 := rfl
@[simp] theorem readyNow_b0 : (readyNow s).b0 = s.b0 := rfl
@[simp] theorem readyNow_adc : (readyNow s).adc = s.adc := rfl
@[simp] theorem readyNow_dac : (readyNow s).dac = s.dac := rfl
@[simp] theorem readyNow_trace : (readyNow s).trace = s.trace ++ [.waitRdy] := rfl
@[simp] theorem readyNow_runFaulted : (readyNow s).runFaulted = s.runFaulted := rfl
@[simp] theorem readyNow_draws : (readyNow s).draws = s.draws := rfl
@[simp] theorem readyNow_inputs : (readyNow s).inputs = s.inputs := rfl
@[simp] theorem readyNow_frames : (readyNow s).frames = s.frames := rfl

@[simp] theorem enterOp_cfg (op : Op) : (enterOp op s).cfg = s.cfg := rfl
@[simp] theorem enterOp_pc (op : Op) : (enterOp op s).pc = ⟨op, 0, 0⟩ := rfl
@[simp] theorem enterOp_polls (op : Op) : (enterOp op s).polls = 0 := rfl
@[simp] theorem enterOp_done (op : Op) : (enterOp op s).done = false := rfl
@[simp] theorem enterOp_fault (op : Op) : (enterOp op s).fault = s.fault := rfl
@[simp] theorem enterOp_csAdcN (op : Op) : (enterOp op s).csAdcN = s.csAdcN := rfl
@[simp] theorem enterOp_csDacN (op : Op) : (enterOp op s).csDacN = s.csDacN := rfl
@[simp] theorem enterOp_rstN (op : Op) : (enterOp op s).rstN = s.rstN := rfl
@[simp] theorem enterOp_drdyN (op : Op) : (enterOp op s).drdyN = s.drdyN := rfl
@[simp] theorem enterOp_hwOk (op : Op) : (enterOp op s).hwOk = s.hwOk := rfl
@[simp] theorem enterOp_regs (op : Op) : (enterOp op s).regs = s.regs := rfl
@[simp] theorem enterOp_illegal (op : Op) : (enterOp op s).illegal = s.illegal := rfl
@[simp] theorem enterOp_res (op : Op) : (enterOp op s).res = s.res := rfl
@[simp] theorem enterOp_resAbort (op : Op) :
    (enterOp op s).resAbort =
      if op = .scan ∨ op = .tick then none else s.resAbort := rfl
@[simp] theorem enterOp_ch (op : Op) : (enterOp op s).ch = s.ch := rfl
@[simp] theorem enterOp_chanCount (op : Op) : (enterOp op s).chanCount = s.chanCount := rfl
@[simp] theorem enterOp_flags (op : Op) : (enterOp op s).flags = s.flags := rfl
@[simp] theorem enterOp_initok (op : Op) : (enterOp op s).initok = s.initok := rfl
@[simp] theorem enterOp_sess (op : Op) : (enterOp op s).sess = s.sess := rfl
@[simp] theorem enterOp_rx (op : Op) : (enterOp op s).rx = s.rx := rfl
@[simp] theorem enterOp_b2 (op : Op) : (enterOp op s).b2 = s.b2 := rfl
@[simp] theorem enterOp_b1 (op : Op) : (enterOp op s).b1 = s.b1 := rfl
@[simp] theorem enterOp_b0 (op : Op) : (enterOp op s).b0 = s.b0 := rfl
@[simp] theorem enterOp_adc (op : Op) : (enterOp op s).adc = s.adc := rfl
@[simp] theorem enterOp_dac (op : Op) : (enterOp op s).dac = s.dac := rfl
@[simp] theorem enterOp_trace (op : Op) : (enterOp op s).trace = s.trace := rfl
@[simp] theorem enterOp_runFaulted (op : Op) : (enterOp op s).runFaulted = s.runFaulted := rfl
@[simp] theorem enterOp_draws (op : Op) : (enterOp op s).draws = s.draws := rfl
@[simp] theorem enterOp_inputs (op : Op) : (enterOp op s).inputs = s.inputs := rfl
@[simp] theorem enterOp_frames (op : Op) : (enterOp op s).frames = s.frames := rfl

@[simp] theorem finishOp_cfg : (finishOp s).cfg = s.cfg := rfl
@[simp] theorem finishOp_pc : (finishOp s).pc = ⟨.idle, 0, 0⟩ := rfl
@[simp] theorem finishOp_polls : (finishOp s).polls = s.polls := rfl
@[simp] theorem finishOp_done : (finishOp s).done = true := rfl
@[simp] theorem finishOp_fault : (finishOp s).fault = 0#3 := rfl
@[simp] theorem finishOp_csAdcN : (finishOp s).csAdcN = s.csAdcN := rfl
@[simp] theorem finishOp_csDacN : (finishOp s).csDacN = s.csDacN := rfl
@[simp] theorem finishOp_rstN : (finishOp s).rstN = s.rstN := rfl
@[simp] theorem finishOp_drdyN : (finishOp s).drdyN = s.drdyN := rfl
@[simp] theorem finishOp_hwOk : (finishOp s).hwOk = s.hwOk := rfl
@[simp] theorem finishOp_regs : (finishOp s).regs = s.regs := rfl
@[simp] theorem finishOp_illegal : (finishOp s).illegal = s.illegal := rfl
@[simp] theorem finishOp_res : (finishOp s).res = s.res := rfl
@[simp] theorem finishOp_resAbort : (finishOp s).resAbort = s.resAbort := rfl
@[simp] theorem finishOp_ch : (finishOp s).ch = s.ch := rfl
@[simp] theorem finishOp_chanCount : (finishOp s).chanCount = s.chanCount := rfl
@[simp] theorem finishOp_flags : (finishOp s).flags = s.flags := rfl
@[simp] theorem finishOp_initok : (finishOp s).initok = s.initok := rfl
@[simp] theorem finishOp_sess : (finishOp s).sess = s.sess := rfl
@[simp] theorem finishOp_rx : (finishOp s).rx = s.rx := rfl
@[simp] theorem finishOp_b2 : (finishOp s).b2 = s.b2 := rfl
@[simp] theorem finishOp_b1 : (finishOp s).b1 = s.b1 := rfl
@[simp] theorem finishOp_b0 : (finishOp s).b0 = s.b0 := rfl
@[simp] theorem finishOp_adc : (finishOp s).adc = s.adc := rfl
@[simp] theorem finishOp_dac : (finishOp s).dac = s.dac := rfl
@[simp] theorem finishOp_trace : (finishOp s).trace = s.trace := rfl
@[simp] theorem finishOp_runFaulted : (finishOp s).runFaulted = s.runFaulted := rfl
@[simp] theorem finishOp_draws : (finishOp s).draws = s.draws := rfl
@[simp] theorem finishOp_inputs : (finishOp s).inputs = s.inputs := rfl
@[simp] theorem finishOp_frames : (finishOp s).frames = s.frames := rfl

@[simp] theorem stopSession_cfg : (stopSession s).cfg = s.cfg := rfl
@[simp] theorem stopSession_pc : (stopSession s).pc = s.pc := rfl
@[simp] theorem stopSession_polls : (stopSession s).polls = s.polls := rfl
@[simp] theorem stopSession_done : (stopSession s).done = s.done := rfl
@[simp] theorem stopSession_fault : (stopSession s).fault = s.fault := rfl
@[simp] theorem stopSession_csAdcN : (stopSession s).csAdcN = s.csAdcN := rfl
@[simp] theorem stopSession_csDacN : (stopSession s).csDacN = s.csDacN := rfl
@[simp] theorem stopSession_rstN : (stopSession s).rstN = s.rstN := rfl
@[simp] theorem stopSession_drdyN : (stopSession s).drdyN = s.drdyN := rfl
@[simp] theorem stopSession_hwOk : (stopSession s).hwOk = s.hwOk := rfl
@[simp] theorem stopSession_regs : (stopSession s).regs = s.regs := rfl
@[simp] theorem stopSession_illegal : (stopSession s).illegal = s.illegal := rfl
@[simp] theorem stopSession_res : (stopSession s).res = s.res := rfl
@[simp] theorem stopSession_resAbort : (stopSession s).resAbort = s.resAbort := rfl
@[simp] theorem stopSession_ch : (stopSession s).ch = s.ch := rfl
@[simp] theorem stopSession_chanCount : (stopSession s).chanCount = s.chanCount := rfl
@[simp] theorem stopSession_flags : (stopSession s).flags = s.flags := rfl
@[simp] theorem stopSession_initok : (stopSession s).initok = s.initok := rfl
@[simp] theorem stopSession_sess : (stopSession s).sess = { s.sess with sched := .stopped, armed := false } := rfl
@[simp] theorem stopSession_rx : (stopSession s).rx = s.rx := rfl
@[simp] theorem stopSession_b2 : (stopSession s).b2 = s.b2 := rfl
@[simp] theorem stopSession_b1 : (stopSession s).b1 = s.b1 := rfl
@[simp] theorem stopSession_b0 : (stopSession s).b0 = s.b0 := rfl
@[simp] theorem stopSession_adc : (stopSession s).adc = s.adc := rfl
@[simp] theorem stopSession_dac : (stopSession s).dac = s.dac := rfl
@[simp] theorem stopSession_trace : (stopSession s).trace = s.trace := rfl
@[simp] theorem stopSession_runFaulted : (stopSession s).runFaulted = s.runFaulted := rfl
@[simp] theorem stopSession_draws : (stopSession s).draws = s.draws := rfl
@[simp] theorem stopSession_inputs : (stopSession s).inputs = s.inputs := rfl
@[simp] theorem stopSession_frames : (stopSession s).frames = s.frames := rfl

@[simp] theorem noteOverrun_cfg : (noteOverrun s).cfg = s.cfg := rfl
@[simp] theorem noteOverrun_pc : (noteOverrun s).pc = s.pc := rfl
@[simp] theorem noteOverrun_polls : (noteOverrun s).polls = s.polls := rfl
@[simp] theorem noteOverrun_done : (noteOverrun s).done = s.done := rfl
@[simp] theorem noteOverrun_fault : (noteOverrun s).fault = s.fault := rfl
@[simp] theorem noteOverrun_csAdcN : (noteOverrun s).csAdcN = s.csAdcN := rfl
@[simp] theorem noteOverrun_csDacN : (noteOverrun s).csDacN = s.csDacN := rfl
@[simp] theorem noteOverrun_rstN : (noteOverrun s).rstN = s.rstN := rfl
@[simp] theorem noteOverrun_drdyN : (noteOverrun s).drdyN = s.drdyN := rfl
@[simp] theorem noteOverrun_hwOk : (noteOverrun s).hwOk = s.hwOk := rfl
@[simp] theorem noteOverrun_regs : (noteOverrun s).regs = s.regs := rfl
@[simp] theorem noteOverrun_illegal : (noteOverrun s).illegal = s.illegal := rfl
@[simp] theorem noteOverrun_res : (noteOverrun s).res = s.res := rfl
@[simp] theorem noteOverrun_resAbort : (noteOverrun s).resAbort = s.resAbort := rfl
@[simp] theorem noteOverrun_ch : (noteOverrun s).ch = s.ch := rfl
@[simp] theorem noteOverrun_chanCount : (noteOverrun s).chanCount = s.chanCount := rfl
@[simp] theorem noteOverrun_flags : (noteOverrun s).flags = { s.flags with eTick := true } := rfl
@[simp] theorem noteOverrun_initok : (noteOverrun s).initok = s.initok := rfl
@[simp] theorem noteOverrun_sess : (noteOverrun s).sess = { s.sess with overruns := s.sess.overruns + 1#32 } := rfl
@[simp] theorem noteOverrun_rx : (noteOverrun s).rx = s.rx := rfl
@[simp] theorem noteOverrun_b2 : (noteOverrun s).b2 = s.b2 := rfl
@[simp] theorem noteOverrun_b1 : (noteOverrun s).b1 = s.b1 := rfl
@[simp] theorem noteOverrun_b0 : (noteOverrun s).b0 = s.b0 := rfl
@[simp] theorem noteOverrun_adc : (noteOverrun s).adc = s.adc := rfl
@[simp] theorem noteOverrun_dac : (noteOverrun s).dac = s.dac := rfl
@[simp] theorem noteOverrun_trace : (noteOverrun s).trace = s.trace := rfl
@[simp] theorem noteOverrun_runFaulted : (noteOverrun s).runFaulted = s.runFaulted := rfl
@[simp] theorem noteOverrun_draws : (noteOverrun s).draws = s.draws := rfl
@[simp] theorem noteOverrun_inputs : (noteOverrun s).inputs = s.inputs := rfl
@[simp] theorem noteOverrun_frames : (noteOverrun s).frames = s.frames := rfl

@[simp] theorem setLines_cfg (e : Edge) : (setLines e s).cfg = s.cfg := rfl
@[simp] theorem setLines_pc (e : Edge) : (setLines e s).pc = s.pc := rfl
@[simp] theorem setLines_polls (e : Edge) : (setLines e s).polls = s.polls := rfl
@[simp] theorem setLines_done (e : Edge) : (setLines e s).done = s.done := rfl
@[simp] theorem setLines_fault (e : Edge) : (setLines e s).fault = s.fault := rfl
@[simp] theorem setLines_csAdcN (e : Edge) : (setLines e s).csAdcN = s.csAdcN := rfl
@[simp] theorem setLines_csDacN (e : Edge) : (setLines e s).csDacN = s.csDacN := rfl
@[simp] theorem setLines_rstN (e : Edge) : (setLines e s).rstN = s.rstN := rfl
@[simp] theorem setLines_drdyN (e : Edge) : (setLines e s).drdyN = e.drdyN := rfl
@[simp] theorem setLines_hwOk (e : Edge) : (setLines e s).hwOk = e.hwOk := rfl
@[simp] theorem setLines_regs (e : Edge) : (setLines e s).regs = s.regs := rfl
@[simp] theorem setLines_illegal (e : Edge) : (setLines e s).illegal = s.illegal := rfl
@[simp] theorem setLines_res (e : Edge) : (setLines e s).res = s.res := rfl
@[simp] theorem setLines_resAbort (e : Edge) : (setLines e s).resAbort = s.resAbort := rfl
@[simp] theorem setLines_ch (e : Edge) : (setLines e s).ch = s.ch := rfl
@[simp] theorem setLines_chanCount (e : Edge) : (setLines e s).chanCount = s.chanCount := rfl
@[simp] theorem setLines_flags (e : Edge) : (setLines e s).flags = s.flags := rfl
@[simp] theorem setLines_initok (e : Edge) : (setLines e s).initok = s.initok := rfl
@[simp] theorem setLines_sess (e : Edge) : (setLines e s).sess = s.sess := rfl
@[simp] theorem setLines_rx (e : Edge) : (setLines e s).rx = s.rx := rfl
@[simp] theorem setLines_b2 (e : Edge) : (setLines e s).b2 = s.b2 := rfl
@[simp] theorem setLines_b1 (e : Edge) : (setLines e s).b1 = s.b1 := rfl
@[simp] theorem setLines_b0 (e : Edge) : (setLines e s).b0 = s.b0 := rfl
@[simp] theorem setLines_adc (e : Edge) : (setLines e s).adc = { s.adc with conv := e.conv } := rfl
@[simp] theorem setLines_dac (e : Edge) : (setLines e s).dac = s.dac := rfl
@[simp] theorem setLines_trace (e : Edge) : (setLines e s).trace = s.trace := rfl
@[simp] theorem setLines_runFaulted (e : Edge) : (setLines e s).runFaulted = s.runFaulted := rfl
@[simp] theorem setLines_draws (e : Edge) : (setLines e s).draws = s.draws := rfl
@[simp] theorem setLines_inputs (e : Edge) : (setLines e s).inputs = s.inputs := rfl
@[simp] theorem setLines_frames (e : Edge) : (setLines e s).frames = s.frames := rfl

@[simp] theorem storeRdata_cfg : (storeRdata s).cfg = s.cfg := rfl
@[simp] theorem storeRdata_pc : (storeRdata s).pc = s.pc := rfl
@[simp] theorem storeRdata_polls : (storeRdata s).polls = s.polls := rfl
@[simp] theorem storeRdata_done : (storeRdata s).done = s.done := rfl
@[simp] theorem storeRdata_fault : (storeRdata s).fault = s.fault := rfl
@[simp] theorem storeRdata_csAdcN : (storeRdata s).csAdcN = s.csAdcN := rfl
@[simp] theorem storeRdata_csDacN : (storeRdata s).csDacN = s.csDacN := rfl
@[simp] theorem storeRdata_rstN : (storeRdata s).rstN = s.rstN := rfl
@[simp] theorem storeRdata_drdyN : (storeRdata s).drdyN = s.drdyN := rfl
@[simp] theorem storeRdata_hwOk : (storeRdata s).hwOk = s.hwOk := rfl
@[simp] theorem storeRdata_regs : (storeRdata s).regs = { s.regs with rdata := written s.rx } := rfl
@[simp] theorem storeRdata_illegal : (storeRdata s).illegal = s.illegal := rfl
@[simp] theorem storeRdata_res : (storeRdata s).res = s.res := rfl
@[simp] theorem storeRdata_resAbort : (storeRdata s).resAbort = s.resAbort := rfl
@[simp] theorem storeRdata_ch : (storeRdata s).ch = s.ch := rfl
@[simp] theorem storeRdata_chanCount : (storeRdata s).chanCount = s.chanCount := rfl
@[simp] theorem storeRdata_flags : (storeRdata s).flags = s.flags := rfl
@[simp] theorem storeRdata_initok : (storeRdata s).initok = s.initok := rfl
@[simp] theorem storeRdata_sess : (storeRdata s).sess = s.sess := rfl
@[simp] theorem storeRdata_rx : (storeRdata s).rx = s.rx := rfl
@[simp] theorem storeRdata_b2 : (storeRdata s).b2 = s.b2 := rfl
@[simp] theorem storeRdata_b1 : (storeRdata s).b1 = s.b1 := rfl
@[simp] theorem storeRdata_b0 : (storeRdata s).b0 = s.b0 := rfl
@[simp] theorem storeRdata_adc : (storeRdata s).adc = s.adc := rfl
@[simp] theorem storeRdata_dac : (storeRdata s).dac = s.dac := rfl
@[simp] theorem storeRdata_trace : (storeRdata s).trace = s.trace := rfl
@[simp] theorem storeRdata_runFaulted : (storeRdata s).runFaulted = s.runFaulted := rfl
@[simp] theorem storeRdata_draws : (storeRdata s).draws = s.draws := rfl
@[simp] theorem storeRdata_inputs : (storeRdata s).inputs = s.inputs := rfl
@[simp] theorem storeRdata_frames : (storeRdata s).frames = s.frames := rfl

@[simp] theorem storeIdentity_cfg : (storeIdentity s).cfg = s.cfg := rfl
@[simp] theorem storeIdentity_pc : (storeIdentity s).pc = s.pc := rfl
@[simp] theorem storeIdentity_polls : (storeIdentity s).polls = s.polls := rfl
@[simp] theorem storeIdentity_done : (storeIdentity s).done = s.done := rfl
@[simp] theorem storeIdentity_fault : (storeIdentity s).fault = s.fault := rfl
@[simp] theorem storeIdentity_csAdcN : (storeIdentity s).csAdcN = s.csAdcN := rfl
@[simp] theorem storeIdentity_csDacN : (storeIdentity s).csDacN = s.csDacN := rfl
@[simp] theorem storeIdentity_rstN : (storeIdentity s).rstN = s.rstN := rfl
@[simp] theorem storeIdentity_drdyN : (storeIdentity s).drdyN = s.drdyN := rfl
@[simp] theorem storeIdentity_hwOk : (storeIdentity s).hwOk = s.hwOk := rfl
@[simp] theorem storeIdentity_regs :
    (storeIdentity s).regs =
      { s.regs with rdata := written s.rx, idnib := written (hiNibble s.rx) } := rfl
@[simp] theorem storeIdentity_illegal : (storeIdentity s).illegal = s.illegal := rfl
@[simp] theorem storeIdentity_res : (storeIdentity s).res = s.res := rfl
@[simp] theorem storeIdentity_resAbort : (storeIdentity s).resAbort = s.resAbort := rfl
@[simp] theorem storeIdentity_ch : (storeIdentity s).ch = s.ch := rfl
@[simp] theorem storeIdentity_chanCount : (storeIdentity s).chanCount = s.chanCount := rfl
@[simp] theorem storeIdentity_flags : (storeIdentity s).flags = s.flags := rfl
@[simp] theorem storeIdentity_initok : (storeIdentity s).initok = s.initok := rfl
@[simp] theorem storeIdentity_sess : (storeIdentity s).sess = s.sess := rfl
@[simp] theorem storeIdentity_rx : (storeIdentity s).rx = s.rx := rfl
@[simp] theorem storeIdentity_b2 : (storeIdentity s).b2 = s.b2 := rfl
@[simp] theorem storeIdentity_b1 : (storeIdentity s).b1 = s.b1 := rfl
@[simp] theorem storeIdentity_b0 : (storeIdentity s).b0 = s.b0 := rfl
@[simp] theorem storeIdentity_adc : (storeIdentity s).adc = s.adc := rfl
@[simp] theorem storeIdentity_dac : (storeIdentity s).dac = s.dac := rfl
@[simp] theorem storeIdentity_trace : (storeIdentity s).trace = s.trace := rfl
@[simp] theorem storeIdentity_runFaulted : (storeIdentity s).runFaulted = s.runFaulted := rfl
@[simp] theorem storeIdentity_draws : (storeIdentity s).draws = s.draws := rfl
@[simp] theorem storeIdentity_inputs : (storeIdentity s).inputs = s.inputs := rfl
@[simp] theorem storeIdentity_frames : (storeIdentity s).frames = s.frames := rfl

@[simp] theorem noteIllegal_cfg (p n : Byte) : (noteIllegal p n s).cfg = s.cfg := rfl
@[simp] theorem noteIllegal_pc (p n : Byte) : (noteIllegal p n s).pc = s.pc := rfl
@[simp] theorem noteIllegal_polls (p n : Byte) : (noteIllegal p n s).polls = s.polls := rfl
@[simp] theorem noteIllegal_done (p n : Byte) : (noteIllegal p n s).done = s.done := rfl
@[simp] theorem noteIllegal_fault (p n : Byte) : (noteIllegal p n s).fault = s.fault := rfl
@[simp] theorem noteIllegal_csAdcN (p n : Byte) : (noteIllegal p n s).csAdcN = s.csAdcN := rfl
@[simp] theorem noteIllegal_csDacN (p n : Byte) : (noteIllegal p n s).csDacN = s.csDacN := rfl
@[simp] theorem noteIllegal_rstN (p n : Byte) : (noteIllegal p n s).rstN = s.rstN := rfl
@[simp] theorem noteIllegal_drdyN (p n : Byte) : (noteIllegal p n s).drdyN = s.drdyN := rfl
@[simp] theorem noteIllegal_hwOk (p n : Byte) : (noteIllegal p n s).hwOk = s.hwOk := rfl
@[simp] theorem noteIllegal_regs (p n : Byte) : (noteIllegal p n s).regs = s.regs := rfl
@[simp] theorem noteIllegal_illegal (p n : Byte) : (noteIllegal p n s).illegal = pairIllegal p n := rfl
@[simp] theorem noteIllegal_res (p n : Byte) : (noteIllegal p n s).res = s.res := rfl
@[simp] theorem noteIllegal_resAbort (p n : Byte) : (noteIllegal p n s).resAbort = s.resAbort := rfl
@[simp] theorem noteIllegal_ch (p n : Byte) : (noteIllegal p n s).ch = s.ch := rfl
@[simp] theorem noteIllegal_chanCount (p n : Byte) : (noteIllegal p n s).chanCount = s.chanCount := rfl
@[simp] theorem noteIllegal_flags (p n : Byte) :
    (noteIllegal p n s).flags =
      if pairIllegal p n then { s.flags with eCh := true } else s.flags := rfl
@[simp] theorem noteIllegal_initok (p n : Byte) : (noteIllegal p n s).initok = s.initok := rfl
@[simp] theorem noteIllegal_sess (p n : Byte) : (noteIllegal p n s).sess = s.sess := rfl
@[simp] theorem noteIllegal_rx (p n : Byte) : (noteIllegal p n s).rx = s.rx := rfl
@[simp] theorem noteIllegal_b2 (p n : Byte) : (noteIllegal p n s).b2 = s.b2 := rfl
@[simp] theorem noteIllegal_b1 (p n : Byte) : (noteIllegal p n s).b1 = s.b1 := rfl
@[simp] theorem noteIllegal_b0 (p n : Byte) : (noteIllegal p n s).b0 = s.b0 := rfl
@[simp] theorem noteIllegal_adc (p n : Byte) : (noteIllegal p n s).adc = s.adc := rfl
@[simp] theorem noteIllegal_dac (p n : Byte) : (noteIllegal p n s).dac = s.dac := rfl
@[simp] theorem noteIllegal_trace (p n : Byte) : (noteIllegal p n s).trace = s.trace := rfl
@[simp] theorem noteIllegal_runFaulted (p n : Byte) : (noteIllegal p n s).runFaulted = s.runFaulted := rfl
@[simp] theorem noteIllegal_draws (p n : Byte) : (noteIllegal p n s).draws = s.draws := rfl
@[simp] theorem noteIllegal_inputs (p n : Byte) : (noteIllegal p n s).inputs = s.inputs := rfl
@[simp] theorem noteIllegal_frames (p n : Byte) : (noteIllegal p n s).frames = s.frames := rfl

@[simp] theorem setCs_cfg (dev : Dev) (level : Bool) : (setCs dev level s).cfg = s.cfg := by
  cases dev <;> cases level <;> rfl
@[simp] theorem setCs_pc (dev : Dev) (level : Bool) : (setCs dev level s).pc = s.pc := by
  cases dev <;> cases level <;> rfl
@[simp] theorem setCs_polls (dev : Dev) (level : Bool) : (setCs dev level s).polls = s.polls := by
  cases dev <;> cases level <;> rfl
@[simp] theorem setCs_done (dev : Dev) (level : Bool) : (setCs dev level s).done = s.done := by
  cases dev <;> cases level <;> rfl
@[simp] theorem setCs_fault (dev : Dev) (level : Bool) : (setCs dev level s).fault = s.fault := by
  cases dev <;> cases level <;> rfl
@[simp] theorem setCs_csAdcN (dev : Dev) (level : Bool) :
    (setCs dev level s).csAdcN =
      if dev = .adc then level else s.csAdcN := by
  cases dev <;> cases level <;> rfl
@[simp] theorem setCs_csDacN (dev : Dev) (level : Bool) :
    (setCs dev level s).csDacN =
      if dev = .dac then level else s.csDacN := by
  cases dev <;> cases level <;> rfl
@[simp] theorem setCs_rstN (dev : Dev) (level : Bool) : (setCs dev level s).rstN = s.rstN := by
  cases dev <;> cases level <;> rfl
@[simp] theorem setCs_drdyN (dev : Dev) (level : Bool) : (setCs dev level s).drdyN = s.drdyN := by
  cases dev <;> cases level <;> rfl
@[simp] theorem setCs_hwOk (dev : Dev) (level : Bool) : (setCs dev level s).hwOk = s.hwOk := by
  cases dev <;> cases level <;> rfl
@[simp] theorem setCs_regs (dev : Dev) (level : Bool) : (setCs dev level s).regs = s.regs := by
  cases dev <;> cases level <;> rfl
@[simp] theorem setCs_illegal (dev : Dev) (level : Bool) : (setCs dev level s).illegal = s.illegal := by
  cases dev <;> cases level <;> rfl
@[simp] theorem setCs_res (dev : Dev) (level : Bool) : (setCs dev level s).res = s.res := by
  cases dev <;> cases level <;> rfl
@[simp] theorem setCs_resAbort (dev : Dev) (level : Bool) : (setCs dev level s).resAbort = s.resAbort := by
  cases dev <;> cases level <;> rfl
@[simp] theorem setCs_ch (dev : Dev) (level : Bool) : (setCs dev level s).ch = s.ch := by
  cases dev <;> cases level <;> rfl
@[simp] theorem setCs_chanCount (dev : Dev) (level : Bool) : (setCs dev level s).chanCount = s.chanCount := by
  cases dev <;> cases level <;> rfl
@[simp] theorem setCs_flags (dev : Dev) (level : Bool) : (setCs dev level s).flags = s.flags := by
  cases dev <;> cases level <;> rfl
@[simp] theorem setCs_initok (dev : Dev) (level : Bool) : (setCs dev level s).initok = s.initok := by
  cases dev <;> cases level <;> rfl
@[simp] theorem setCs_sess (dev : Dev) (level : Bool) : (setCs dev level s).sess = s.sess := by
  cases dev <;> cases level <;> rfl
@[simp] theorem setCs_rx (dev : Dev) (level : Bool) : (setCs dev level s).rx = s.rx := by
  cases dev <;> cases level <;> rfl
@[simp] theorem setCs_b2 (dev : Dev) (level : Bool) : (setCs dev level s).b2 = s.b2 := by
  cases dev <;> cases level <;> rfl
@[simp] theorem setCs_b1 (dev : Dev) (level : Bool) : (setCs dev level s).b1 = s.b1 := by
  cases dev <;> cases level <;> rfl
@[simp] theorem setCs_b0 (dev : Dev) (level : Bool) : (setCs dev level s).b0 = s.b0 := by
  cases dev <;> cases level <;> rfl
@[simp] theorem setCs_adc (dev : Dev) (level : Bool) :
    (setCs dev level s).adc =
      if dev = .adc ∧ level = true then { s.adc with pst := .cmd } else s.adc := by
  cases dev <;> cases level <;> rfl
@[simp] theorem setCs_dac (dev : Dev) (level : Bool) :
    (setCs dev level s).dac =
      if dev = .dac ∧ level = true then { s.dac with pst := .start } else s.dac := by
  cases dev <;> cases level <;> rfl
@[simp] theorem setCs_trace (dev : Dev) (level : Bool) : (setCs dev level s).trace = s.trace ++ [.cs dev level] := by
  cases dev <;> cases level <;> rfl
@[simp] theorem setCs_runFaulted (dev : Dev) (level : Bool) : (setCs dev level s).runFaulted = s.runFaulted := by
  cases dev <;> cases level <;> rfl
@[simp] theorem setCs_draws (dev : Dev) (level : Bool) : (setCs dev level s).draws = s.draws := by
  cases dev <;> cases level <;> rfl
@[simp] theorem setCs_inputs (dev : Dev) (level : Bool) : (setCs dev level s).inputs = s.inputs := by
  cases dev <;> cases level <;> rfl
@[simp] theorem setCs_frames (dev : Dev) (level : Bool) : (setCs dev level s).frames = s.frames := by
  cases dev <;> cases level <;> rfl

@[simp] theorem setRst_cfg (level : Bool) : (setRst level s).cfg = s.cfg := by
  cases level <;> rfl
@[simp] theorem setRst_pc (level : Bool) : (setRst level s).pc = s.pc := by
  cases level <;> rfl
@[simp] theorem setRst_polls (level : Bool) : (setRst level s).polls = s.polls := by
  cases level <;> rfl
@[simp] theorem setRst_done (level : Bool) : (setRst level s).done = s.done := by
  cases level <;> rfl
@[simp] theorem setRst_fault (level : Bool) : (setRst level s).fault = s.fault := by
  cases level <;> rfl
@[simp] theorem setRst_csAdcN (level : Bool) : (setRst level s).csAdcN = s.csAdcN := by
  cases level <;> rfl
@[simp] theorem setRst_csDacN (level : Bool) : (setRst level s).csDacN = s.csDacN := by
  cases level <;> rfl
@[simp] theorem setRst_rstN (level : Bool) : (setRst level s).rstN = level := by
  cases level <;> rfl
@[simp] theorem setRst_drdyN (level : Bool) :
    (setRst level s).drdyN =
      if level = true then s.drdyN else Config.resetDrdyN s.draws := by
  cases level <;> rfl
@[simp] theorem setRst_hwOk (level : Bool) : (setRst level s).hwOk = s.hwOk := by
  cases level <;> rfl
@[simp] theorem setRst_regs (level : Bool) : (setRst level s).regs = s.regs := by
  cases level <;> rfl
@[simp] theorem setRst_illegal (level : Bool) : (setRst level s).illegal = s.illegal := by
  cases level <;> rfl
@[simp] theorem setRst_res (level : Bool) : (setRst level s).res = s.res := by
  cases level <;> rfl
@[simp] theorem setRst_resAbort (level : Bool) : (setRst level s).resAbort = s.resAbort := by
  cases level <;> rfl
@[simp] theorem setRst_ch (level : Bool) : (setRst level s).ch = s.ch := by
  cases level <;> rfl
@[simp] theorem setRst_chanCount (level : Bool) : (setRst level s).chanCount = s.chanCount := by
  cases level <;> rfl
@[simp] theorem setRst_flags (level : Bool) : (setRst level s).flags = s.flags := by
  cases level <;> rfl
@[simp] theorem setRst_initok (level : Bool) : (setRst level s).initok = s.initok := by
  cases level <;> rfl
@[simp] theorem setRst_sess (level : Bool) : (setRst level s).sess = s.sess := by
  cases level <;> rfl
@[simp] theorem setRst_rx (level : Bool) : (setRst level s).rx = s.rx := by
  cases level <;> rfl
@[simp] theorem setRst_b2 (level : Bool) : (setRst level s).b2 = s.b2 := by
  cases level <;> rfl
@[simp] theorem setRst_b1 (level : Bool) : (setRst level s).b1 = s.b1 := by
  cases level <;> rfl
@[simp] theorem setRst_b0 (level : Bool) : (setRst level s).b0 = s.b0 := by
  cases level <;> rfl
@[simp] theorem setRst_adc (level : Bool) :
    (setRst level s).adc =
      if level = true then s.adc else (peerReset s).adc := by
  cases level <;> rfl
@[simp] theorem setRst_dac (level : Bool) : (setRst level s).dac = s.dac := by
  cases level <;> rfl
@[simp] theorem setRst_trace (level : Bool) : (setRst level s).trace = s.trace ++ [.rst level] := by
  cases level <;> rfl
@[simp] theorem setRst_runFaulted (level : Bool) : (setRst level s).runFaulted = s.runFaulted := by
  cases level <;> rfl
@[simp] theorem setRst_draws (level : Bool) :
    (setRst level s).draws =
      if level = true then s.draws else s.draws + 1 := by
  cases level <;> rfl
@[simp] theorem setRst_inputs (level : Bool) : (setRst level s).inputs = s.inputs := by
  cases level <;> rfl
@[simp] theorem setRst_frames (level : Bool) : (setRst level s).frames = s.frames := by
  cases level <;> rfl

@[simp] theorem takeCondition_cfg (c : Condition) : (takeCondition c s).cfg = s.cfg := by
  unfold takeCondition; dsimp only; split <;> rfl
@[simp] theorem takeCondition_pc (c : Condition) : (takeCondition c s).pc = ⟨.idle, 0, 0⟩ := by
  unfold takeCondition; dsimp only; split <;> rfl
@[simp] theorem takeCondition_polls (c : Condition) : (takeCondition c s).polls = 0 := by
  unfold takeCondition; dsimp only; split <;> rfl
@[simp] theorem takeCondition_done (c : Condition) : (takeCondition c s).done = s.done := by
  unfold takeCondition; dsimp only; split <;> rfl
@[simp] theorem takeCondition_fault (c : Condition) : (takeCondition c s).fault = conditionCode c := by
  unfold takeCondition; dsimp only; split <;> rfl
@[simp] theorem takeCondition_csAdcN (c : Condition) : (takeCondition c s).csAdcN = s.csAdcN := by
  unfold takeCondition; dsimp only; split <;> rfl
@[simp] theorem takeCondition_csDacN (c : Condition) : (takeCondition c s).csDacN = s.csDacN := by
  unfold takeCondition; dsimp only; split <;> rfl
@[simp] theorem takeCondition_rstN (c : Condition) : (takeCondition c s).rstN = s.rstN := by
  unfold takeCondition; dsimp only; split <;> rfl
@[simp] theorem takeCondition_drdyN (c : Condition) : (takeCondition c s).drdyN = s.drdyN := by
  unfold takeCondition; dsimp only; split <;> rfl
@[simp] theorem takeCondition_hwOk (c : Condition) : (takeCondition c s).hwOk = s.hwOk := by
  unfold takeCondition; dsimp only; split <;> rfl
@[simp] theorem takeCondition_regs (c : Condition) : (takeCondition c s).regs = s.regs := by
  unfold takeCondition; dsimp only; split <;> rfl
@[simp] theorem takeCondition_illegal (c : Condition) : (takeCondition c s).illegal = s.illegal := by
  unfold takeCondition; dsimp only; split <;> rfl
@[simp] theorem takeCondition_res (c : Condition) : (takeCondition c s).res = s.res := by
  unfold takeCondition; dsimp only; split <;> rfl
@[simp] theorem takeCondition_resAbort (c : Condition) :
    (takeCondition c s).resAbort =
      if s.pc.op = .scan ∨ s.pc.op = .tick then some s.pc.k else s.resAbort := by
  unfold takeCondition; dsimp only; split <;> rfl
@[simp] theorem takeCondition_ch (c : Condition) : (takeCondition c s).ch = s.ch := by
  unfold takeCondition; dsimp only; split <;> rfl
@[simp] theorem takeCondition_chanCount (c : Condition) : (takeCondition c s).chanCount = s.chanCount := by
  unfold takeCondition; dsimp only; split <;> rfl
@[simp] theorem takeCondition_flags (c : Condition) : (takeCondition c s).flags = setFlag c s.flags := by
  unfold takeCondition; dsimp only; split <;> rfl
@[simp] theorem takeCondition_initok (c : Condition) : (takeCondition c s).initok = s.initok := by
  unfold takeCondition; dsimp only; split <;> rfl
@[simp] theorem takeCondition_sess (c : Condition) :
    (takeCondition c s).sess =
      if s.pc.op = .tick then { s.sess with sched := .stopped, armed := false } else s.sess := by
  unfold takeCondition; dsimp only; split <;> rfl
@[simp] theorem takeCondition_rx (c : Condition) : (takeCondition c s).rx = s.rx := by
  unfold takeCondition; dsimp only; split <;> rfl
@[simp] theorem takeCondition_b2 (c : Condition) : (takeCondition c s).b2 = s.b2 := by
  unfold takeCondition; dsimp only; split <;> rfl
@[simp] theorem takeCondition_b1 (c : Condition) : (takeCondition c s).b1 = s.b1 := by
  unfold takeCondition; dsimp only; split <;> rfl
@[simp] theorem takeCondition_b0 (c : Condition) : (takeCondition c s).b0 = s.b0 := by
  unfold takeCondition; dsimp only; split <;> rfl
@[simp] theorem takeCondition_adc (c : Condition) : (takeCondition c s).adc = s.adc := by
  unfold takeCondition; dsimp only; split <;> rfl
@[simp] theorem takeCondition_dac (c : Condition) : (takeCondition c s).dac = s.dac := by
  unfold takeCondition; dsimp only; split <;> rfl
@[simp] theorem takeCondition_trace (c : Condition) : (takeCondition c s).trace = s.trace := by
  unfold takeCondition; dsimp only; split <;> rfl
@[simp] theorem takeCondition_runFaulted (c : Condition) : (takeCondition c s).runFaulted = s.runFaulted := by
  unfold takeCondition; dsimp only; split <;> rfl
@[simp] theorem takeCondition_draws (c : Condition) : (takeCondition c s).draws = s.draws := by
  unfold takeCondition; dsimp only; split <;> rfl
@[simp] theorem takeCondition_inputs (c : Condition) : (takeCondition c s).inputs = s.inputs := by
  unfold takeCondition; dsimp only; split <;> rfl
@[simp] theorem takeCondition_frames (c : Condition) : (takeCondition c s).frames = s.frames := by
  unfold takeCondition; dsimp only; split <;> rfl

@[simp] theorem cancelSession_cfg : (cancelSession s).cfg = s.cfg := by
  unfold cancelSession; split <;> rfl
@[simp] theorem cancelSession_pc : (cancelSession s).pc = s.pc := by
  unfold cancelSession; split <;> rfl
@[simp] theorem cancelSession_polls : (cancelSession s).polls = s.polls := by
  unfold cancelSession; split <;> rfl
@[simp] theorem cancelSession_done : (cancelSession s).done = s.done := by
  unfold cancelSession; split <;> rfl
@[simp] theorem cancelSession_fault : (cancelSession s).fault = s.fault := by
  unfold cancelSession; split <;> rfl
@[simp] theorem cancelSession_csAdcN : (cancelSession s).csAdcN = s.csAdcN := by
  unfold cancelSession; split <;> rfl
@[simp] theorem cancelSession_csDacN : (cancelSession s).csDacN = s.csDacN := by
  unfold cancelSession; split <;> rfl
@[simp] theorem cancelSession_rstN : (cancelSession s).rstN = s.rstN := by
  unfold cancelSession; split <;> rfl
@[simp] theorem cancelSession_drdyN : (cancelSession s).drdyN = s.drdyN := by
  unfold cancelSession; split <;> rfl
@[simp] theorem cancelSession_hwOk : (cancelSession s).hwOk = s.hwOk := by
  unfold cancelSession; split <;> rfl
@[simp] theorem cancelSession_regs : (cancelSession s).regs = s.regs := by
  unfold cancelSession; split <;> rfl
@[simp] theorem cancelSession_illegal : (cancelSession s).illegal = s.illegal := by
  unfold cancelSession; split <;> rfl
@[simp] theorem cancelSession_res : (cancelSession s).res = s.res := by
  unfold cancelSession; split <;> rfl
@[simp] theorem cancelSession_resAbort : (cancelSession s).resAbort = s.resAbort := by
  unfold cancelSession; split <;> rfl
@[simp] theorem cancelSession_ch : (cancelSession s).ch = s.ch := by
  unfold cancelSession; split <;> rfl
@[simp] theorem cancelSession_chanCount : (cancelSession s).chanCount = s.chanCount := by
  unfold cancelSession; split <;> rfl
@[simp] theorem cancelSession_flags : (cancelSession s).flags = s.flags := by
  unfold cancelSession; split <;> rfl
@[simp] theorem cancelSession_initok : (cancelSession s).initok = s.initok := by
  unfold cancelSession; split <;> rfl
@[simp] theorem cancelSession_sess :
    (cancelSession s).sess =
      if s.sess.sched = .armed ∨ s.sess.sched = .running then { s.sess with sched := .stopped, armed := false }
      else s.sess := by
  unfold cancelSession; split <;> rfl
@[simp] theorem cancelSession_rx : (cancelSession s).rx = s.rx := by
  unfold cancelSession; split <;> rfl
@[simp] theorem cancelSession_b2 : (cancelSession s).b2 = s.b2 := by
  unfold cancelSession; split <;> rfl
@[simp] theorem cancelSession_b1 : (cancelSession s).b1 = s.b1 := by
  unfold cancelSession; split <;> rfl
@[simp] theorem cancelSession_b0 : (cancelSession s).b0 = s.b0 := by
  unfold cancelSession; split <;> rfl
@[simp] theorem cancelSession_adc : (cancelSession s).adc = s.adc := by
  unfold cancelSession; split <;> rfl
@[simp] theorem cancelSession_dac : (cancelSession s).dac = s.dac := by
  unfold cancelSession; split <;> rfl
@[simp] theorem cancelSession_trace : (cancelSession s).trace = s.trace := by
  unfold cancelSession; split <;> rfl
@[simp] theorem cancelSession_runFaulted : (cancelSession s).runFaulted = s.runFaulted := by
  unfold cancelSession; split <;> rfl
@[simp] theorem cancelSession_draws : (cancelSession s).draws = s.draws := by
  unfold cancelSession; split <;> rfl
@[simp] theorem cancelSession_inputs : (cancelSession s).inputs = s.inputs := by
  unfold cancelSession; split <;> rfl
@[simp] theorem cancelSession_frames : (cancelSession s).frames = s.frames := by
  unfold cancelSession; split <;> rfl

@[simp] theorem keepByte_cfg (l : Latch) : (keepByte l s).cfg = s.cfg := by
  cases l <;> rfl
@[simp] theorem keepByte_pc (l : Latch) : (keepByte l s).pc = s.pc := by
  cases l <;> rfl
@[simp] theorem keepByte_polls (l : Latch) : (keepByte l s).polls = s.polls := by
  cases l <;> rfl
@[simp] theorem keepByte_done (l : Latch) : (keepByte l s).done = s.done := by
  cases l <;> rfl
@[simp] theorem keepByte_fault (l : Latch) : (keepByte l s).fault = s.fault := by
  cases l <;> rfl
@[simp] theorem keepByte_csAdcN (l : Latch) : (keepByte l s).csAdcN = s.csAdcN := by
  cases l <;> rfl
@[simp] theorem keepByte_csDacN (l : Latch) : (keepByte l s).csDacN = s.csDacN := by
  cases l <;> rfl
@[simp] theorem keepByte_rstN (l : Latch) : (keepByte l s).rstN = s.rstN := by
  cases l <;> rfl
@[simp] theorem keepByte_drdyN (l : Latch) : (keepByte l s).drdyN = s.drdyN := by
  cases l <;> rfl
@[simp] theorem keepByte_hwOk (l : Latch) : (keepByte l s).hwOk = s.hwOk := by
  cases l <;> rfl
@[simp] theorem keepByte_regs (l : Latch) : (keepByte l s).regs = s.regs := by
  cases l <;> rfl
@[simp] theorem keepByte_illegal (l : Latch) : (keepByte l s).illegal = s.illegal := by
  cases l <;> rfl
@[simp] theorem keepByte_res (l : Latch) : (keepByte l s).res = s.res := by
  cases l <;> rfl
@[simp] theorem keepByte_resAbort (l : Latch) : (keepByte l s).resAbort = s.resAbort := by
  cases l <;> rfl
@[simp] theorem keepByte_ch (l : Latch) : (keepByte l s).ch = s.ch := by
  cases l <;> rfl
@[simp] theorem keepByte_chanCount (l : Latch) : (keepByte l s).chanCount = s.chanCount := by
  cases l <;> rfl
@[simp] theorem keepByte_flags (l : Latch) : (keepByte l s).flags = s.flags := by
  cases l <;> rfl
@[simp] theorem keepByte_initok (l : Latch) : (keepByte l s).initok = s.initok := by
  cases l <;> rfl
@[simp] theorem keepByte_sess (l : Latch) : (keepByte l s).sess = s.sess := by
  cases l <;> rfl
@[simp] theorem keepByte_rx (l : Latch) : (keepByte l s).rx = s.rx := by
  cases l <;> rfl
@[simp] theorem keepByte_b2 (l : Latch) : (keepByte l s).b2 = if l = .b2 then s.rx else s.b2 := by
  cases l <;> rfl
@[simp] theorem keepByte_b1 (l : Latch) : (keepByte l s).b1 = if l = .b1 then s.rx else s.b1 := by
  cases l <;> rfl
@[simp] theorem keepByte_b0 (l : Latch) : (keepByte l s).b0 = if l = .b0 then s.rx else s.b0 := by
  cases l <;> rfl
@[simp] theorem keepByte_adc (l : Latch) : (keepByte l s).adc = s.adc := by
  cases l <;> rfl
@[simp] theorem keepByte_dac (l : Latch) : (keepByte l s).dac = s.dac := by
  cases l <;> rfl
@[simp] theorem keepByte_trace (l : Latch) : (keepByte l s).trace = s.trace := by
  cases l <;> rfl
@[simp] theorem keepByte_runFaulted (l : Latch) : (keepByte l s).runFaulted = s.runFaulted := by
  cases l <;> rfl
@[simp] theorem keepByte_draws (l : Latch) : (keepByte l s).draws = s.draws := by
  cases l <;> rfl
@[simp] theorem keepByte_inputs (l : Latch) : (keepByte l s).inputs = s.inputs := by
  cases l <;> rfl
@[simp] theorem keepByte_frames (l : Latch) : (keepByte l s).frames = s.frames := by
  cases l <;> rfl

@[simp] theorem beginRead_cfg (r : BitVec 4) : (beginRead r s).cfg = s.cfg := by
  unfold beginRead; split <;> rfl
@[simp] theorem beginRead_pc (r : BitVec 4) : (beginRead r s).pc = s.pc := by
  unfold beginRead; split <;> rfl
@[simp] theorem beginRead_polls (r : BitVec 4) : (beginRead r s).polls = s.polls := by
  unfold beginRead; split <;> rfl
@[simp] theorem beginRead_done (r : BitVec 4) : (beginRead r s).done = s.done := by
  unfold beginRead; split <;> rfl
@[simp] theorem beginRead_fault (r : BitVec 4) : (beginRead r s).fault = s.fault := by
  unfold beginRead; split <;> rfl
@[simp] theorem beginRead_csAdcN (r : BitVec 4) : (beginRead r s).csAdcN = s.csAdcN := by
  unfold beginRead; split <;> rfl
@[simp] theorem beginRead_csDacN (r : BitVec 4) : (beginRead r s).csDacN = s.csDacN := by
  unfold beginRead; split <;> rfl
@[simp] theorem beginRead_rstN (r : BitVec 4) : (beginRead r s).rstN = s.rstN := by
  unfold beginRead; split <;> rfl
@[simp] theorem beginRead_drdyN (r : BitVec 4) : (beginRead r s).drdyN = s.drdyN := by
  unfold beginRead; split <;> rfl
@[simp] theorem beginRead_hwOk (r : BitVec 4) : (beginRead r s).hwOk = s.hwOk := by
  unfold beginRead; split <;> rfl
@[simp] theorem beginRead_regs (r : BitVec 4) : (beginRead r s).regs = s.regs := by
  unfold beginRead; split <;> rfl
@[simp] theorem beginRead_illegal (r : BitVec 4) : (beginRead r s).illegal = s.illegal := by
  unfold beginRead; split <;> rfl
@[simp] theorem beginRead_res (r : BitVec 4) : (beginRead r s).res = s.res := by
  unfold beginRead; split <;> rfl
@[simp] theorem beginRead_resAbort (r : BitVec 4) : (beginRead r s).resAbort = s.resAbort := by
  unfold beginRead; split <;> rfl
@[simp] theorem beginRead_ch (r : BitVec 4) : (beginRead r s).ch = s.ch := by
  unfold beginRead; split <;> rfl
@[simp] theorem beginRead_chanCount (r : BitVec 4) : (beginRead r s).chanCount = s.chanCount := by
  unfold beginRead; split <;> rfl
@[simp] theorem beginRead_flags (r : BitVec 4) : (beginRead r s).flags = s.flags := by
  unfold beginRead; split <;> rfl
@[simp] theorem beginRead_initok (r : BitVec 4) : (beginRead r s).initok = s.initok := by
  unfold beginRead; split <;> rfl
@[simp] theorem beginRead_sess (r : BitVec 4) : (beginRead r s).sess = s.sess := by
  unfold beginRead; split <;> rfl
@[simp] theorem beginRead_rx (r : BitVec 4) : (beginRead r s).rx = s.rx := by
  unfold beginRead; split <;> rfl
@[simp] theorem beginRead_b2 (r : BitVec 4) : (beginRead r s).b2 = s.b2 := by
  unfold beginRead; split <;> rfl
@[simp] theorem beginRead_b1 (r : BitVec 4) : (beginRead r s).b1 = s.b1 := by
  unfold beginRead; split <;> rfl
@[simp] theorem beginRead_b0 (r : BitVec 4) : (beginRead r s).b0 = s.b0 := by
  unfold beginRead; split <;> rfl
@[simp] theorem beginRead_adc (r : BitVec 4) :
    (beginRead r s).adc =
      { s.adc with pst := .cnt (if s.drdyN = true then .rNotReady else .r) r } := by
  unfold beginRead; split <;> simp_all
@[simp] theorem beginRead_dac (r : BitVec 4) : (beginRead r s).dac = s.dac := by
  unfold beginRead; split <;> rfl
@[simp] theorem beginRead_trace (r : BitVec 4) : (beginRead r s).trace = s.trace := by
  unfold beginRead; split <;> rfl
@[simp] theorem beginRead_runFaulted (r : BitVec 4) :
    (beginRead r s).runFaulted =
      if s.drdyN = true then true else s.runFaulted := by
  unfold beginRead; split <;> simp_all
@[simp] theorem beginRead_draws (r : BitVec 4) : (beginRead r s).draws = s.draws := by
  unfold beginRead; split <;> rfl
@[simp] theorem beginRead_inputs (r : BitVec 4) : (beginRead r s).inputs = s.inputs := by
  unfold beginRead; split <;> rfl
@[simp] theorem beginRead_frames (r : BitVec 4) : (beginRead r s).frames = s.frames := by
  unfold beginRead; split <;> rfl

@[simp] theorem readExchange_cfg (a : BitVec 4) (m : Nat) : (readExchange a m s).cfg = s.cfg := by
  unfold readExchange; dsimp only; split <;> rfl
@[simp] theorem readExchange_pc (a : BitVec 4) (m : Nat) : (readExchange a m s).pc = s.pc := by
  unfold readExchange; dsimp only; split <;> rfl
@[simp] theorem readExchange_polls (a : BitVec 4) (m : Nat) : (readExchange a m s).polls = s.polls := by
  unfold readExchange; dsimp only; split <;> rfl
@[simp] theorem readExchange_done (a : BitVec 4) (m : Nat) : (readExchange a m s).done = s.done := by
  unfold readExchange; dsimp only; split <;> rfl
@[simp] theorem readExchange_fault (a : BitVec 4) (m : Nat) : (readExchange a m s).fault = s.fault := by
  unfold readExchange; dsimp only; split <;> rfl
@[simp] theorem readExchange_csAdcN (a : BitVec 4) (m : Nat) : (readExchange a m s).csAdcN = s.csAdcN := by
  unfold readExchange; dsimp only; split <;> rfl
@[simp] theorem readExchange_csDacN (a : BitVec 4) (m : Nat) : (readExchange a m s).csDacN = s.csDacN := by
  unfold readExchange; dsimp only; split <;> rfl
@[simp] theorem readExchange_rstN (a : BitVec 4) (m : Nat) : (readExchange a m s).rstN = s.rstN := by
  unfold readExchange; dsimp only; split <;> rfl
@[simp] theorem readExchange_drdyN (a : BitVec 4) (m : Nat) : (readExchange a m s).drdyN = s.drdyN := by
  unfold readExchange; dsimp only; split <;> rfl
@[simp] theorem readExchange_hwOk (a : BitVec 4) (m : Nat) : (readExchange a m s).hwOk = s.hwOk := by
  unfold readExchange; dsimp only; split <;> rfl
@[simp] theorem readExchange_regs (a : BitVec 4) (m : Nat) : (readExchange a m s).regs = s.regs := by
  unfold readExchange; dsimp only; split <;> rfl
@[simp] theorem readExchange_illegal (a : BitVec 4) (m : Nat) : (readExchange a m s).illegal = s.illegal := by
  unfold readExchange; dsimp only; split <;> rfl
@[simp] theorem readExchange_res (a : BitVec 4) (m : Nat) : (readExchange a m s).res = s.res := by
  unfold readExchange; dsimp only; split <;> rfl
@[simp] theorem readExchange_resAbort (a : BitVec 4) (m : Nat) : (readExchange a m s).resAbort = s.resAbort := by
  unfold readExchange; dsimp only; split <;> rfl
@[simp] theorem readExchange_ch (a : BitVec 4) (m : Nat) : (readExchange a m s).ch = s.ch := by
  unfold readExchange; dsimp only; split <;> rfl
@[simp] theorem readExchange_chanCount (a : BitVec 4) (m : Nat) : (readExchange a m s).chanCount = s.chanCount := by
  unfold readExchange; dsimp only; split <;> rfl
@[simp] theorem readExchange_flags (a : BitVec 4) (m : Nat) : (readExchange a m s).flags = s.flags := by
  unfold readExchange; dsimp only; split <;> rfl
@[simp] theorem readExchange_initok (a : BitVec 4) (m : Nat) : (readExchange a m s).initok = s.initok := by
  unfold readExchange; dsimp only; split <;> rfl
@[simp] theorem readExchange_sess (a : BitVec 4) (m : Nat) : (readExchange a m s).sess = s.sess := by
  unfold readExchange; dsimp only; split <;> rfl
@[simp] theorem readExchange_rx (a : BitVec 4) (m : Nat) :
    (readExchange a m s).rx =
      if a.toNat ≤ 0x0A then readValue s.cfg s.adc a.toNat (Config.draw s.draws) else Config.draw s.draws := by
  unfold readExchange; dsimp only; split <;> rfl
@[simp] theorem readExchange_b2 (a : BitVec 4) (m : Nat) : (readExchange a m s).b2 = s.b2 := by
  unfold readExchange; dsimp only; split <;> rfl
@[simp] theorem readExchange_b1 (a : BitVec 4) (m : Nat) : (readExchange a m s).b1 = s.b1 := by
  unfold readExchange; dsimp only; split <;> rfl
@[simp] theorem readExchange_b0 (a : BitVec 4) (m : Nat) : (readExchange a m s).b0 = s.b0 := by
  unfold readExchange; dsimp only; split <;> rfl
@[simp] theorem readExchange_adc (a : BitVec 4) (m : Nat) :
    (readExchange a m s).adc =
      { s.adc with pst := nextData .r a m } := by
  unfold readExchange; dsimp only; split <;> rfl
@[simp] theorem readExchange_dac (a : BitVec 4) (m : Nat) : (readExchange a m s).dac = s.dac := by
  unfold readExchange; dsimp only; split <;> rfl
@[simp] theorem readExchange_trace (a : BitVec 4) (m : Nat) : (readExchange a m s).trace = s.trace := by
  unfold readExchange; dsimp only; split <;> rfl
@[simp] theorem readExchange_runFaulted (a : BitVec 4) (m : Nat) : (readExchange a m s).runFaulted = s.runFaulted := by
  unfold readExchange; dsimp only; split <;> rfl
@[simp] theorem readExchange_draws (a : BitVec 4) (m : Nat) : (readExchange a m s).draws = s.draws + 1 := by
  unfold readExchange; dsimp only; split <;> rfl
@[simp] theorem readExchange_inputs (a : BitVec 4) (m : Nat) : (readExchange a m s).inputs = s.inputs := by
  unfold readExchange; dsimp only; split <;> rfl
@[simp] theorem readExchange_frames (a : BitVec 4) (m : Nat) : (readExchange a m s).frames = s.frames := by
  unfold readExchange; dsimp only; split <;> rfl

@[simp] theorem writeExchange_cfg (a : BitVec 4) (m : Nat) (b : Byte) : (writeExchange a m b s).cfg = s.cfg := rfl
@[simp] theorem writeExchange_pc (a : BitVec 4) (m : Nat) (b : Byte) : (writeExchange a m b s).pc = s.pc := rfl
@[simp] theorem writeExchange_polls (a : BitVec 4) (m : Nat) (b : Byte) : (writeExchange a m b s).polls = s.polls := rfl
@[simp] theorem writeExchange_done (a : BitVec 4) (m : Nat) (b : Byte) : (writeExchange a m b s).done = s.done := rfl
@[simp] theorem writeExchange_fault (a : BitVec 4) (m : Nat) (b : Byte) : (writeExchange a m b s).fault = s.fault := rfl
@[simp] theorem writeExchange_csAdcN (a : BitVec 4) (m : Nat) (b : Byte) :
    (writeExchange a m b s).csAdcN =
      s.csAdcN := rfl
@[simp] theorem writeExchange_csDacN (a : BitVec 4) (m : Nat) (b : Byte) :
    (writeExchange a m b s).csDacN =
      s.csDacN := rfl
@[simp] theorem writeExchange_rstN (a : BitVec 4) (m : Nat) (b : Byte) : (writeExchange a m b s).rstN = s.rstN := rfl
@[simp] theorem writeExchange_drdyN (a : BitVec 4) (m : Nat) (b : Byte) : (writeExchange a m b s).drdyN = s.drdyN := rfl
@[simp] theorem writeExchange_hwOk (a : BitVec 4) (m : Nat) (b : Byte) : (writeExchange a m b s).hwOk = s.hwOk := rfl
@[simp] theorem writeExchange_regs (a : BitVec 4) (m : Nat) (b : Byte) : (writeExchange a m b s).regs = s.regs := rfl
@[simp] theorem writeExchange_illegal (a : BitVec 4) (m : Nat) (b : Byte) :
    (writeExchange a m b s).illegal =
      s.illegal := rfl
@[simp] theorem writeExchange_res (a : BitVec 4) (m : Nat) (b : Byte) : (writeExchange a m b s).res = s.res := rfl
@[simp] theorem writeExchange_resAbort (a : BitVec 4) (m : Nat) (b : Byte) :
    (writeExchange a m b s).resAbort =
      s.resAbort := rfl
@[simp] theorem writeExchange_ch (a : BitVec 4) (m : Nat) (b : Byte) : (writeExchange a m b s).ch = s.ch := rfl
@[simp] theorem writeExchange_chanCount (a : BitVec 4) (m : Nat) (b : Byte) :
    (writeExchange a m b s).chanCount =
      s.chanCount := rfl
@[simp] theorem writeExchange_flags (a : BitVec 4) (m : Nat) (b : Byte) : (writeExchange a m b s).flags = s.flags := rfl
@[simp] theorem writeExchange_initok (a : BitVec 4) (m : Nat) (b : Byte) :
    (writeExchange a m b s).initok =
      s.initok := rfl
@[simp] theorem writeExchange_sess (a : BitVec 4) (m : Nat) (b : Byte) : (writeExchange a m b s).sess = s.sess := rfl
@[simp] theorem writeExchange_rx (a : BitVec 4) (m : Nat) (b : Byte) :
    (writeExchange a m b s).rx =
      Config.draw s.draws := rfl
@[simp] theorem writeExchange_b2 (a : BitVec 4) (m : Nat) (b : Byte) : (writeExchange a m b s).b2 = s.b2 := rfl
@[simp] theorem writeExchange_b1 (a : BitVec 4) (m : Nat) (b : Byte) : (writeExchange a m b s).b1 = s.b1 := rfl
@[simp] theorem writeExchange_b0 (a : BitVec 4) (m : Nat) (b : Byte) : (writeExchange a m b s).b0 = s.b0 := rfl
@[simp] theorem writeExchange_adc (a : BitVec 4) (m : Nat) (b : Byte) :
    (writeExchange a m b s).adc =
      { writeRegister s.cfg s.adc a.toNat b with pst := nextData .w a m } := rfl
@[simp] theorem writeExchange_dac (a : BitVec 4) (m : Nat) (b : Byte) : (writeExchange a m b s).dac = s.dac := rfl
@[simp] theorem writeExchange_trace (a : BitVec 4) (m : Nat) (b : Byte) : (writeExchange a m b s).trace = s.trace := rfl
@[simp] theorem writeExchange_runFaulted (a : BitVec 4) (m : Nat) (b : Byte) :
    (writeExchange a m b s).runFaulted =
      s.runFaulted := rfl
@[simp] theorem writeExchange_draws (a : BitVec 4) (m : Nat) (b : Byte) :
    (writeExchange a m b s).draws =
      s.draws + 1 := rfl
@[simp] theorem writeExchange_inputs (a : BitVec 4) (m : Nat) (b : Byte) :
    (writeExchange a m b s).inputs =
      s.inputs := rfl
@[simp] theorem writeExchange_frames (a : BitVec 4) (m : Nat) (b : Byte) :
    (writeExchange a m b s).frames =
      s.frames := rfl

@[simp] theorem notReadyExchange_cfg (a : BitVec 4) (m : Nat) : (notReadyExchange a m s).cfg = s.cfg := rfl
@[simp] theorem notReadyExchange_pc (a : BitVec 4) (m : Nat) : (notReadyExchange a m s).pc = s.pc := rfl
@[simp] theorem notReadyExchange_polls (a : BitVec 4) (m : Nat) : (notReadyExchange a m s).polls = s.polls := rfl
@[simp] theorem notReadyExchange_done (a : BitVec 4) (m : Nat) : (notReadyExchange a m s).done = s.done := rfl
@[simp] theorem notReadyExchange_fault (a : BitVec 4) (m : Nat) : (notReadyExchange a m s).fault = s.fault := rfl
@[simp] theorem notReadyExchange_csAdcN (a : BitVec 4) (m : Nat) : (notReadyExchange a m s).csAdcN = s.csAdcN := rfl
@[simp] theorem notReadyExchange_csDacN (a : BitVec 4) (m : Nat) : (notReadyExchange a m s).csDacN = s.csDacN := rfl
@[simp] theorem notReadyExchange_rstN (a : BitVec 4) (m : Nat) : (notReadyExchange a m s).rstN = s.rstN := rfl
@[simp] theorem notReadyExchange_drdyN (a : BitVec 4) (m : Nat) : (notReadyExchange a m s).drdyN = s.drdyN := rfl
@[simp] theorem notReadyExchange_hwOk (a : BitVec 4) (m : Nat) : (notReadyExchange a m s).hwOk = s.hwOk := rfl
@[simp] theorem notReadyExchange_regs (a : BitVec 4) (m : Nat) : (notReadyExchange a m s).regs = s.regs := rfl
@[simp] theorem notReadyExchange_illegal (a : BitVec 4) (m : Nat) : (notReadyExchange a m s).illegal = s.illegal := rfl
@[simp] theorem notReadyExchange_res (a : BitVec 4) (m : Nat) : (notReadyExchange a m s).res = s.res := rfl
@[simp] theorem notReadyExchange_resAbort (a : BitVec 4) (m : Nat) :
    (notReadyExchange a m s).resAbort =
      s.resAbort := rfl
@[simp] theorem notReadyExchange_ch (a : BitVec 4) (m : Nat) : (notReadyExchange a m s).ch = s.ch := rfl
@[simp] theorem notReadyExchange_chanCount (a : BitVec 4) (m : Nat) :
    (notReadyExchange a m s).chanCount =
      s.chanCount := rfl
@[simp] theorem notReadyExchange_flags (a : BitVec 4) (m : Nat) : (notReadyExchange a m s).flags = s.flags := rfl
@[simp] theorem notReadyExchange_initok (a : BitVec 4) (m : Nat) : (notReadyExchange a m s).initok = s.initok := rfl
@[simp] theorem notReadyExchange_sess (a : BitVec 4) (m : Nat) : (notReadyExchange a m s).sess = s.sess := rfl
@[simp] theorem notReadyExchange_rx (a : BitVec 4) (m : Nat) : (notReadyExchange a m s).rx = Config.draw s.draws := rfl
@[simp] theorem notReadyExchange_b2 (a : BitVec 4) (m : Nat) : (notReadyExchange a m s).b2 = s.b2 := rfl
@[simp] theorem notReadyExchange_b1 (a : BitVec 4) (m : Nat) : (notReadyExchange a m s).b1 = s.b1 := rfl
@[simp] theorem notReadyExchange_b0 (a : BitVec 4) (m : Nat) : (notReadyExchange a m s).b0 = s.b0 := rfl
@[simp] theorem notReadyExchange_adc (a : BitVec 4) (m : Nat) :
    (notReadyExchange a m s).adc =
      { s.adc with pst := nextData .rNotReady a m } := rfl
@[simp] theorem notReadyExchange_dac (a : BitVec 4) (m : Nat) : (notReadyExchange a m s).dac = s.dac := rfl
@[simp] theorem notReadyExchange_trace (a : BitVec 4) (m : Nat) : (notReadyExchange a m s).trace = s.trace := rfl
@[simp] theorem notReadyExchange_runFaulted (a : BitVec 4) (m : Nat) :
    (notReadyExchange a m s).runFaulted =
      s.runFaulted := rfl
@[simp] theorem notReadyExchange_draws (a : BitVec 4) (m : Nat) : (notReadyExchange a m s).draws = s.draws + 1 := rfl
@[simp] theorem notReadyExchange_inputs (a : BitVec 4) (m : Nat) : (notReadyExchange a m s).inputs = s.inputs := rfl
@[simp] theorem notReadyExchange_frames (a : BitVec 4) (m : Nat) : (notReadyExchange a m s).frames = s.frames := rfl

@[simp] theorem sampleExchange_cfg (j : Nat) : (sampleExchange j s).cfg = s.cfg := rfl
@[simp] theorem sampleExchange_pc (j : Nat) : (sampleExchange j s).pc = s.pc := rfl
@[simp] theorem sampleExchange_polls (j : Nat) : (sampleExchange j s).polls = s.polls := rfl
@[simp] theorem sampleExchange_done (j : Nat) : (sampleExchange j s).done = s.done := rfl
@[simp] theorem sampleExchange_fault (j : Nat) : (sampleExchange j s).fault = s.fault := rfl
@[simp] theorem sampleExchange_csAdcN (j : Nat) : (sampleExchange j s).csAdcN = s.csAdcN := rfl
@[simp] theorem sampleExchange_csDacN (j : Nat) : (sampleExchange j s).csDacN = s.csDacN := rfl
@[simp] theorem sampleExchange_rstN (j : Nat) : (sampleExchange j s).rstN = s.rstN := rfl
@[simp] theorem sampleExchange_drdyN (j : Nat) : (sampleExchange j s).drdyN = s.drdyN := rfl
@[simp] theorem sampleExchange_hwOk (j : Nat) : (sampleExchange j s).hwOk = s.hwOk := rfl
@[simp] theorem sampleExchange_regs (j : Nat) : (sampleExchange j s).regs = s.regs := rfl
@[simp] theorem sampleExchange_illegal (j : Nat) : (sampleExchange j s).illegal = s.illegal := rfl
@[simp] theorem sampleExchange_res (j : Nat) : (sampleExchange j s).res = s.res := rfl
@[simp] theorem sampleExchange_resAbort (j : Nat) : (sampleExchange j s).resAbort = s.resAbort := rfl
@[simp] theorem sampleExchange_ch (j : Nat) : (sampleExchange j s).ch = s.ch := rfl
@[simp] theorem sampleExchange_chanCount (j : Nat) : (sampleExchange j s).chanCount = s.chanCount := rfl
@[simp] theorem sampleExchange_flags (j : Nat) : (sampleExchange j s).flags = s.flags := rfl
@[simp] theorem sampleExchange_initok (j : Nat) : (sampleExchange j s).initok = s.initok := rfl
@[simp] theorem sampleExchange_sess (j : Nat) : (sampleExchange j s).sess = s.sess := rfl
@[simp] theorem sampleExchange_rx (j : Nat) : (sampleExchange j s).rx = sampleByte s.adc.shift j := rfl
@[simp] theorem sampleExchange_b2 (j : Nat) : (sampleExchange j s).b2 = s.b2 := rfl
@[simp] theorem sampleExchange_b1 (j : Nat) : (sampleExchange j s).b1 = s.b1 := rfl
@[simp] theorem sampleExchange_b0 (j : Nat) : (sampleExchange j s).b0 = s.b0 := rfl
@[simp] theorem sampleExchange_adc (j : Nat) :
    (sampleExchange j s).adc =
      { s.adc with pst := if j > 1 then .smp (j - 1) else .cmd } := rfl
@[simp] theorem sampleExchange_dac (j : Nat) : (sampleExchange j s).dac = s.dac := rfl
@[simp] theorem sampleExchange_trace (j : Nat) : (sampleExchange j s).trace = s.trace := rfl
@[simp] theorem sampleExchange_runFaulted (j : Nat) : (sampleExchange j s).runFaulted = s.runFaulted := rfl
@[simp] theorem sampleExchange_draws (j : Nat) : (sampleExchange j s).draws = s.draws := rfl
@[simp] theorem sampleExchange_inputs (j : Nat) : (sampleExchange j s).inputs = s.inputs := rfl
@[simp] theorem sampleExchange_frames (j : Nat) : (sampleExchange j s).frames = s.frames := rfl

end Sys2Proof.Machine
end

