-- ==== Sys2Proof/Laws/Edges.lean ====
section
/-! SUPPORT. What the clock edges that pass during an operation can change: the input lines, the overrun flag and count, the
scheduler state and the timer, and the list of edges; nothing else. -/

namespace Sys2Proof.Machine

/-- Everything an edge while BUSY does (60 R276, R282, R289). -/
theorem busyEdge_eq (e : Edge) (s : State) :
    ∃ flags sess,
      busyEdge e s =
        { s with drdyN := e.drdyN, hwOk := e.hwOk, adc := { s.adc with conv := e.conv }, flags := flags, sess := sess } ∧
      (flags = s.flags ∨ flags = { s.flags with eTick := true }) ∧
      sess.cycle = s.sess.cycle ∧ sess.target = s.sess.target ∧ sess.nout = s.sess.nout ∧ sess.buf = s.sess.buf ∧
      sess.outseq0 = s.sess.outseq0 ∧ sess.outseq1 = s.sess.outseq1 ∧
      ((sess.sched = s.sess.sched ∧ sess.armed = s.sess.armed) ∨
        ((s.sess.sched = .armed ∨ s.sess.sched = .running) ∧ sess.sched = .stopped ∧ sess.armed = false)) := by
  have key : ∀ t : State, t.sess = s.sess → t.flags = s.flags →
      ∃ u : State, cancelSession t = u ∧ u.flags = s.flags ∧ u.sess.cycle = s.sess.cycle ∧
        u.sess.target = s.sess.target ∧ u.sess.nout = s.sess.nout ∧ u.sess.buf = s.sess.buf ∧
        u.sess.outseq0 = s.sess.outseq0 ∧ u.sess.outseq1 = s.sess.outseq1 ∧
        ((u.sess.sched = s.sess.sched ∧ u.sess.armed = s.sess.armed) ∨
          ((s.sess.sched = .armed ∨ s.sess.sched = .running) ∧ u.sess.sched = .stopped ∧ u.sess.armed = false)) := by
    intro t h1 h2
    refine ⟨_, rfl, by simpa using h2, ?_⟩
    by_cases hc : s.sess.sched = .armed ∨ s.sess.sched = .running
    · simp [h1, hc]
    · simp [h1, hc]
  obtain ⟨u, hu, hf, hcy, hta, hno, hbu, h0, h1, hs⟩ := key (setLines e s) rfl rfl
  have hu' : u = { setLines e s with sess := u.sess } := by
    rw [← hu, cancelSession]; split <;> rfl
  unfold busyEdge
  cases hc : offersCancel e
  case true =>
    simp only [if_true, hu]
    split
    · refine ⟨{ s.flags with eTick := true }, (noteOverrun u).sess, ?_, .inr rfl, ?_⟩
      · rw [hu']; rfl
      · simpa using ⟨hcy, hta, hno, hbu, h0, h1, hs⟩
    · exact ⟨s.flags, u.sess, by rw [hu']; rfl, .inl rfl, hcy, hta, hno, hbu, h0, h1, hs⟩
  case false =>
    simp only [Bool.false_eq_true, if_false]
    split
    · exact ⟨{ s.flags with eTick := true }, (noteOverrun s).sess, rfl, .inr rfl, rfl, rfl, rfl, rfl, rfl, rfl,
        .inl ⟨rfl, rfl⟩⟩
    · exact ⟨s.flags, s.sess, rfl, .inl rfl, rfl, rfl, rfl, rfl, rfl, rfl, .inl ⟨rfl, rfl⟩⟩

@[simp] theorem busyEdge_cfg (e : Edge) (s : State) : (busyEdge e s).cfg = s.cfg := by
  obtain ⟨_, _, h, -⟩ := busyEdge_eq e s; rw [h]
@[simp] theorem busyEdge_pc (e : Edge) (s : State) : (busyEdge e s).pc = s.pc := by
  obtain ⟨_, _, h, -⟩ := busyEdge_eq e s; rw [h]
@[simp] theorem busyEdge_polls (e : Edge) (s : State) : (busyEdge e s).polls = s.polls := by
  obtain ⟨_, _, h, -⟩ := busyEdge_eq e s; rw [h]
@[simp] theorem busyEdge_done (e : Edge) (s : State) : (busyEdge e s).done = s.done := by
  obtain ⟨_, _, h, -⟩ := busyEdge_eq e s; rw [h]
@[simp] theorem busyEdge_fault (e : Edge) (s : State) : (busyEdge e s).fault = s.fault := by
  obtain ⟨_, _, h, -⟩ := busyEdge_eq e s; rw [h]
@[simp] theorem busyEdge_csAdcN (e : Edge) (s : State) : (busyEdge e s).csAdcN = s.csAdcN := by
  obtain ⟨_, _, h, -⟩ := busyEdge_eq e s; rw [h]
@[simp] theorem busyEdge_csDacN (e : Edge) (s : State) : (busyEdge e s).csDacN = s.csDacN := by
  obtain ⟨_, _, h, -⟩ := busyEdge_eq e s; rw [h]
@[simp] theorem busyEdge_rstN (e : Edge) (s : State) : (busyEdge e s).rstN = s.rstN := by
  obtain ⟨_, _, h, -⟩ := busyEdge_eq e s; rw [h]
@[simp] theorem busyEdge_regs (e : Edge) (s : State) : (busyEdge e s).regs = s.regs := by
  obtain ⟨_, _, h, -⟩ := busyEdge_eq e s; rw [h]
@[simp] theorem busyEdge_illegal (e : Edge) (s : State) : (busyEdge e s).illegal = s.illegal := by
  obtain ⟨_, _, h, -⟩ := busyEdge_eq e s; rw [h]
@[simp] theorem busyEdge_res (e : Edge) (s : State) : (busyEdge e s).res = s.res := by
  obtain ⟨_, _, h, -⟩ := busyEdge_eq e s; rw [h]
@[simp] theorem busyEdge_resAbort (e : Edge) (s : State) : (busyEdge e s).resAbort = s.resAbort := by
  obtain ⟨_, _, h, -⟩ := busyEdge_eq e s; rw [h]
@[simp] theorem busyEdge_ch (e : Edge) (s : State) : (busyEdge e s).ch = s.ch := by
  obtain ⟨_, _, h, -⟩ := busyEdge_eq e s; rw [h]
@[simp] theorem busyEdge_chanCount (e : Edge) (s : State) : (busyEdge e s).chanCount = s.chanCount := by
  obtain ⟨_, _, h, -⟩ := busyEdge_eq e s; rw [h]
@[simp] theorem busyEdge_initok (e : Edge) (s : State) : (busyEdge e s).initok = s.initok := by
  obtain ⟨_, _, h, -⟩ := busyEdge_eq e s; rw [h]
@[simp] theorem busyEdge_rx (e : Edge) (s : State) : (busyEdge e s).rx = s.rx := by
  obtain ⟨_, _, h, -⟩ := busyEdge_eq e s; rw [h]
@[simp] theorem busyEdge_b2 (e : Edge) (s : State) : (busyEdge e s).b2 = s.b2 := by
  obtain ⟨_, _, h, -⟩ := busyEdge_eq e s; rw [h]
@[simp] theorem busyEdge_b1 (e : Edge) (s : State) : (busyEdge e s).b1 = s.b1 := by
  obtain ⟨_, _, h, -⟩ := busyEdge_eq e s; rw [h]
@[simp] theorem busyEdge_b0 (e : Edge) (s : State) : (busyEdge e s).b0 = s.b0 := by
  obtain ⟨_, _, h, -⟩ := busyEdge_eq e s; rw [h]
@[simp] theorem busyEdge_dac (e : Edge) (s : State) : (busyEdge e s).dac = s.dac := by
  obtain ⟨_, _, h, -⟩ := busyEdge_eq e s; rw [h]
@[simp] theorem busyEdge_trace (e : Edge) (s : State) : (busyEdge e s).trace = s.trace := by
  obtain ⟨_, _, h, -⟩ := busyEdge_eq e s; rw [h]
@[simp] theorem busyEdge_runFaulted (e : Edge) (s : State) : (busyEdge e s).runFaulted = s.runFaulted := by
  obtain ⟨_, _, h, -⟩ := busyEdge_eq e s; rw [h]
@[simp] theorem busyEdge_draws (e : Edge) (s : State) : (busyEdge e s).draws = s.draws := by
  obtain ⟨_, _, h, -⟩ := busyEdge_eq e s; rw [h]
@[simp] theorem busyEdge_frames (e : Edge) (s : State) : (busyEdge e s).frames = s.frames := by
  obtain ⟨_, _, h, -⟩ := busyEdge_eq e s; rw [h]
@[simp] theorem busyEdge_inputs (e : Edge) (s : State) : (busyEdge e s).inputs = s.inputs := by
  obtain ⟨_, _, h, -⟩ := busyEdge_eq e s; rw [h]
@[simp] theorem busyEdge_drdyN (e : Edge) (s : State) : (busyEdge e s).drdyN = e.drdyN := by
  obtain ⟨_, _, h, -⟩ := busyEdge_eq e s; rw [h]
@[simp] theorem busyEdge_hwOk (e : Edge) (s : State) : (busyEdge e s).hwOk = e.hwOk := by
  obtain ⟨_, _, h, -⟩ := busyEdge_eq e s; rw [h]
@[simp] theorem busyEdge_adc (e : Edge) (s : State) : (busyEdge e s).adc = { s.adc with conv := e.conv } := by
  obtain ⟨_, _, h, -⟩ := busyEdge_eq e s; rw [h]

@[simp] theorem absorb_nil (s : State) : absorb [] s = { s with inputs := [] } := rfl

@[simp] theorem absorb_cfg (es : List Edge) (s : State) : (absorb es s).cfg = s.cfg := by
  induction es generalizing s with
  | nil => rfl
  | cons e es ih => simp only [absorb]; split <;> simp [ih]
@[simp] theorem absorb_pc (es : List Edge) (s : State) : (absorb es s).pc = s.pc := by
  induction es generalizing s with
  | nil => rfl
  | cons e es ih => simp only [absorb]; split <;> simp [ih]
@[simp] theorem absorb_polls (es : List Edge) (s : State) : (absorb es s).polls = s.polls := by
  induction es generalizing s with
  | nil => rfl
  | cons e es ih => simp only [absorb]; split <;> simp [ih]
@[simp] theorem absorb_done (es : List Edge) (s : State) : (absorb es s).done = s.done := by
  induction es generalizing s with
  | nil => rfl
  | cons e es ih => simp only [absorb]; split <;> simp [ih]
@[simp] theorem absorb_fault (es : List Edge) (s : State) : (absorb es s).fault = s.fault := by
  induction es generalizing s with
  | nil => rfl
  | cons e es ih => simp only [absorb]; split <;> simp [ih]
@[simp] theorem absorb_csAdcN (es : List Edge) (s : State) : (absorb es s).csAdcN = s.csAdcN := by
  induction es generalizing s with
  | nil => rfl
  | cons e es ih => simp only [absorb]; split <;> simp [ih]
@[simp] theorem absorb_csDacN (es : List Edge) (s : State) : (absorb es s).csDacN = s.csDacN := by
  induction es generalizing s with
  | nil => rfl
  | cons e es ih => simp only [absorb]; split <;> simp [ih]
@[simp] theorem absorb_rstN (es : List Edge) (s : State) : (absorb es s).rstN = s.rstN := by
  induction es generalizing s with
  | nil => rfl
  | cons e es ih => simp only [absorb]; split <;> simp [ih]
@[simp] theorem absorb_regs (es : List Edge) (s : State) : (absorb es s).regs = s.regs := by
  induction es generalizing s with
  | nil => rfl
  | cons e es ih => simp only [absorb]; split <;> simp [ih]
@[simp] theorem absorb_illegal (es : List Edge) (s : State) : (absorb es s).illegal = s.illegal := by
  induction es generalizing s with
  | nil => rfl
  | cons e es ih => simp only [absorb]; split <;> simp [ih]
@[simp] theorem absorb_res (es : List Edge) (s : State) : (absorb es s).res = s.res := by
  induction es generalizing s with
  | nil => rfl
  | cons e es ih => simp only [absorb]; split <;> simp [ih]
@[simp] theorem absorb_resAbort (es : List Edge) (s : State) : (absorb es s).resAbort = s.resAbort := by
  induction es generalizing s with
  | nil => rfl
  | cons e es ih => simp only [absorb]; split <;> simp [ih]
@[simp] theorem absorb_ch (es : List Edge) (s : State) : (absorb es s).ch = s.ch := by
  induction es generalizing s with
  | nil => rfl
  | cons e es ih => simp only [absorb]; split <;> simp [ih]
@[simp] theorem absorb_chanCount (es : List Edge) (s : State) : (absorb es s).chanCount = s.chanCount := by
  induction es generalizing s with
  | nil => rfl
  | cons e es ih => simp only [absorb]; split <;> simp [ih]
@[simp] theorem absorb_initok (es : List Edge) (s : State) : (absorb es s).initok = s.initok := by
  induction es generalizing s with
  | nil => rfl
  | cons e es ih => simp only [absorb]; split <;> simp [ih]
@[simp] theorem absorb_rx (es : List Edge) (s : State) : (absorb es s).rx = s.rx := by
  induction es generalizing s with
  | nil => rfl
  | cons e es ih => simp only [absorb]; split <;> simp [ih]
@[simp] theorem absorb_b2 (es : List Edge) (s : State) : (absorb es s).b2 = s.b2 := by
  induction es generalizing s with
  | nil => rfl
  | cons e es ih => simp only [absorb]; split <;> simp [ih]
@[simp] theorem absorb_b1 (es : List Edge) (s : State) : (absorb es s).b1 = s.b1 := by
  induction es generalizing s with
  | nil => rfl
  | cons e es ih => simp only [absorb]; split <;> simp [ih]
@[simp] theorem absorb_b0 (es : List Edge) (s : State) : (absorb es s).b0 = s.b0 := by
  induction es generalizing s with
  | nil => rfl
  | cons e es ih => simp only [absorb]; split <;> simp [ih]
@[simp] theorem absorb_dac (es : List Edge) (s : State) : (absorb es s).dac = s.dac := by
  induction es generalizing s with
  | nil => rfl
  | cons e es ih => simp only [absorb]; split <;> simp [ih]
@[simp] theorem absorb_trace (es : List Edge) (s : State) : (absorb es s).trace = s.trace := by
  induction es generalizing s with
  | nil => rfl
  | cons e es ih => simp only [absorb]; split <;> simp [ih]
@[simp] theorem absorb_runFaulted (es : List Edge) (s : State) : (absorb es s).runFaulted = s.runFaulted := by
  induction es generalizing s with
  | nil => rfl
  | cons e es ih => simp only [absorb]; split <;> simp [ih]
@[simp] theorem absorb_draws (es : List Edge) (s : State) : (absorb es s).draws = s.draws := by
  induction es generalizing s with
  | nil => rfl
  | cons e es ih => simp only [absorb]; split <;> simp [ih]
@[simp] theorem absorb_frames (es : List Edge) (s : State) : (absorb es s).frames = s.frames := by
  induction es generalizing s with
  | nil => rfl
  | cons e es ih => simp only [absorb]; split <;> simp [ih]

/-- The peer keeps everything but its conversion value while edges pass. -/
theorem absorb_adc (es : List Edge) (s : State) : ∃ c, (absorb es s).adc = { s.adc with conv := c } := by
  induction es generalizing s with
  | nil => exact ⟨s.adc.conv, rfl⟩
  | cons e es ih =>
    simp only [absorb]
    split
    · exact ⟨e.conv, by simp⟩
    · obtain ⟨c, hc⟩ := ih (busyEdge e s)
      exact ⟨c, by simpa using hc⟩

/-- A ready line that every edge leaves low stays low. -/
theorem absorb_drdyN_low (es : List Edge) (s : State) (h : s.drdyN = false) (hes : ∀ e ∈ es, e.drdyN = false) :
    (absorb es s).drdyN = false := by
  induction es generalizing s with
  | nil => exact h
  | cons e es ih =>
    have he := hes e List.mem_cons_self
    simp only [absorb]
    split
    · simpa using he
    · exact ih _ (by simpa using he) fun x hx => hes x (List.mem_cons_of_mem _ hx)

/-- The edges left are the end of the edges there were. -/
theorem absorb_inputs_suffix (es : List Edge) (s : State) : (absorb es s).inputs <:+ es := by
  induction es generalizing s with
  | nil => exact List.nil_suffix
  | cons e es ih =>
    simp only [absorb]
    split
    · exact List.suffix_cons e es
    · exact (ih _).trans (List.suffix_cons e es)

/-- The session while edges pass: counters, buffer and sequences stay; the scheduler stays or is cancelled (60 R289). -/
theorem absorb_sess (es : List Edge) (s : State) :
    (absorb es s).sess.cycle = s.sess.cycle ∧ (absorb es s).sess.target = s.sess.target ∧
      (absorb es s).sess.nout = s.sess.nout ∧ (absorb es s).sess.buf = s.sess.buf ∧
      (absorb es s).sess.outseq0 = s.sess.outseq0 ∧ (absorb es s).sess.outseq1 = s.sess.outseq1 ∧
      (((absorb es s).sess.sched = s.sess.sched ∧ (absorb es s).sess.armed = s.sess.armed) ∨
        ((s.sess.sched = .armed ∨ s.sess.sched = .running) ∧ (absorb es s).sess.sched = .stopped ∧
          (absorb es s).sess.armed = false)) := by
  induction es generalizing s with
  | nil => simp
  | cons e es ih =>
    obtain ⟨f, se, hb, -, h⟩ := busyEdge_eq e s
    simp only [absorb]
    split
    · rw [hb]; exact h
    · have hi := ih (busyEdge e s)
      rw [hb] at hi ⊢
      dsimp only at hi
      obtain ⟨a1, a2, a3, a4, a5, a6, a7⟩ := h
      obtain ⟨b1, b2, b3, b4, b5, b6, b7⟩ := hi
      refine ⟨b1.trans a1, b2.trans a2, b3.trans a3, b4.trans a4, b5.trans a5, b6.trans a6, ?_⟩
      rcases a7 with ⟨x, y⟩ | ⟨x, y, z⟩
      · rw [x, y] at b7; exact b7
      · rcases b7 with ⟨p, q⟩ | ⟨p, q, r⟩
        · exact .inr ⟨x, p.trans y, q.trans z⟩
        · exact .inr ⟨x, q, r⟩

end Sys2Proof.Machine
end

