-- ==== Sys2Proof/Laws/Ops.lean ====
section
/-! SUPPORT. One lemma per shared operation: what it answers, and what it can change. -/

namespace Sys2Proof.Machine

/-! ### Sequencing -/

@[simp] theorem andThen_go (s : State) (f : State → Run) : andThen (.go s) f = f s := rfl
@[simp] theorem andThen_halt (s : State) (f : State → Run) : andThen (.halt s) f = .halt s := rfl
@[simp] theorem andThen_fault (x : Fault) (f : State → Run) : andThen (.fault x) f = .fault x := rfl
@[simp] theorem andThen_refuse (x : Refusal) (f : State → Run) : andThen (.refuse x) f = .refuse x := rfl

@[simp] theorem toOutcome_go (s : State) : toOutcome (.go s) = .next s := rfl
@[simp] theorem toOutcome_halt (s : State) : toOutcome (.halt s) = .next s := rfl
@[simp] theorem toOutcome_fault (x : Fault) : toOutcome (.fault x) = .fault x := rfl
@[simp] theorem toOutcome_refuse (x : Refusal) : toOutcome (.refuse x) = .refused x := rfl

theorem andThen_assoc (r : Run) (f g : State → Run) :
    andThen (andThen r f) g = andThen r (fun s => andThen (f s) g) := by cases r <;> rfl

theorem andThen_eq_go {r : Run} {f : State → Run} {t : State} :
    andThen r f = .go t ↔ ∃ u, r = .go u ∧ f u = .go t := by cases r <;> simp [andThen]

/-- A part that answers a state either went on or stopped there. -/
theorem toOutcome_eq_next {r : Run} {t : State} : toOutcome r = .next t ↔ r = .go t ∨ r = .halt t := by
  cases r <;> simp [toOutcome]

/-- What holds of every state a part can answer. -/
def Run.Answers (r : Run) (P : State → Prop) : Prop :=
  match r with
  | .go s => P s
  | .halt s => P s
  | .fault _ => True
  | .refuse _ => True

@[simp] theorem answers_go (s : State) (P : State → Prop) : (Run.go s).Answers P ↔ P s := Iff.rfl
@[simp] theorem answers_halt (s : State) (P : State → Prop) : (Run.halt s).Answers P ↔ P s := Iff.rfl
@[simp] theorem answers_fault (x : Fault) (P : State → Prop) : (Run.fault x).Answers P := trivial
@[simp] theorem answers_refuse (x : Refusal) (P : State → Prop) : (Run.refuse x).Answers P := trivial

theorem Run.Answers.mono {r : Run} {P Q : State → Prop} (h : r.Answers P) (hPQ : ∀ s, P s → Q s) : r.Answers Q := by
  cases r <;> first | exact hPQ _ h | trivial

/-- Sequencing: the second part starts where the first went on. -/
theorem answers_andThen {r : Run} {f : State → Run} {P : State → Prop} (hr : r.Answers P)
    (hf : ∀ s, P s → (f s).Answers P) : (andThen r f).Answers P := by
  cases r with
  | go s => exact hf s hr
  | halt s => exact hr
  | fault x => trivial
  | refuse x => trivial

theorem toOutcome_next_of_answers {r : Run} {P : State → Prop} (hr : r.Answers P) {t : State}
    (h : toOutcome r = .next t) : P t := by
  cases r <;> simp [toOutcome] at h <;> exact h ▸ hr

/-! ### Offers -/

theorem pureOp_idle {acc : Bool} {f : State → State} {s : State} (h : s.pc.op = .idle) (ha : acc = true) :
    pureOp acc f s = .next (finishOp (f s)) := by simp [pureOp, busy, h, ha]

theorem pureOp_not_accepted {acc : Bool} {f : State → State} {s : State} (h : s.pc.op ≠ .idle ∨ acc = false) :
    pureOp acc f s = .next s := by
  rcases h with h | h <;> simp [pureOp, busy, h]

/-- Everything a pure operation can do. -/
theorem pureOp_next {acc : Bool} {f : State → State} {s t : State} (h : pureOp acc f s = .next t) :
    t = s ∨ (s.pc.op = .idle ∧ acc = true ∧ t = finishOp (f s)) := by
  unfold pureOp at h
  split at h
  · injection h with h; exact .inl h.symm
  · next hb =>
    injection h with h
    simp [busy] at hb
    exact .inr ⟨hb.1, hb.2, h.symm⟩

theorem startBus_busy {op : Op} {s : State} (h : s.pc.op ≠ .idle) : startBus op s = .next s := by
  simp [startBus, busy, h]

theorem startBus_notBooted {op : Op} {s : State} (h : s.pc.op = .idle) (hi : s.initok = false) :
    startBus op s = .refused .notBooted := by simp [startBus, busy, h, hi]

theorem startBus_run {op : Op} {s : State} (h : s.pc.op = .idle) (hi : s.initok = true) :
    startBus op s = toOutcome (continueOp (enterOp op s)) := by simp [startBus, busy, h, hi]

/-! ### The exchanges -/

theorem exchange_adc {s : State} (h1 : s.csAdcN = false) (h2 : s.csDacN = true) (b : Byte) :
    exchange b s = adcExchange b s := by simp [exchange, h1, h2]

theorem exchange_dac {s : State} (h1 : s.csAdcN = true) (h2 : s.csDacN = false) (b : Byte) :
    exchange b s = dacExchange b s := by simp [exchange, h1, h2]

/-- With no chip selected the byte is ignored and a draw comes back (40 R140). -/
theorem exchange_deselected {s : State} (h1 : s.csAdcN = true) (h2 : s.csDacN = true) (b : Byte) :
    exchange b s = .go (drawRx s) := by simp [exchange, h1, h2]

theorem adcExchange_cmd {s : State} (hr : s.rstN = true) (hp : s.adc.pst = .cmd) (b : Byte) :
    adcExchange b s = commandExchange b s := by simp [adcExchange, hr, hp]

theorem adcExchange_cnt {s : State} {rw : Rw} {a : BitVec 4} (hr : s.rstN = true) (hp : s.adc.pst = .cnt rw a)
    (hm : s.adc.mode = .normal) (b : Byte) : adcExchange b s = countExchange rw a b s := by
  simp [adcExchange, hr, hp, hm]

theorem adcExchange_read {s : State} {a : BitVec 4} {m : Nat} (hr : s.rstN = true) (hp : s.adc.pst = .dat .r a m)
    (hm : s.adc.mode = .normal) (b : Byte) : adcExchange b s = .go (readExchange a m s) := by
  simp [adcExchange, hr, hp, hm]

theorem adcExchange_readNotReady {s : State} {a : BitVec 4} {m : Nat} (hr : s.rstN = true)
    (hp : s.adc.pst = .dat .rNotReady a m) (hm : s.adc.mode = .normal) (b : Byte) :
    adcExchange b s = .go (notReadyExchange a m s) := by
  simp [adcExchange, hr, hp, hm]

theorem adcExchange_write {s : State} {a : BitVec 4} {m : Nat} (hr : s.rstN = true) (hp : s.adc.pst = .dat .w a m)
    (hm : s.adc.mode = .normal) (b : Byte) : adcExchange b s = .go (writeExchange a m b s) := by
  simp [adcExchange, hr, hp, hm]

theorem adcExchange_sample {s : State} {j : Nat} (hr : s.rstN = true) (hp : s.adc.pst = .smp j)
    (hm : s.adc.mode = .normal) (b : Byte) : adcExchange b s = .go (sampleExchange j s) := by
  simp [adcExchange, hr, hp, hm]

/-- A command byte in NORMAL mode is what the decode makes of it (40 R141). -/
theorem commandExchange_normal {s : State} {b : Byte} {c : WireCmd} (hm : s.adc.mode = .normal)
    (hc : classify s.cfg.codes b = some c) : commandExchange b s = normalCommand c (drawRx s) := by
  simp only [commandExchange, hm, hc]
  cases c <;> rfl

theorem commandExchange_reserved {s : State} {b : Byte} (hm : s.adc.mode = .normal)
    (hc : classify s.cfg.codes b = none) : commandExchange b s = .refuse .reservedWireByte := by
  simp only [commandExchange, hm, hc]

/-- RESET is accepted in every mode (44 R227). -/
theorem commandExchange_reset {s : State} {b : Byte} (hc : classify s.cfg.codes b = some .reset) :
    commandExchange b s = .go (peerReset (drawRx s)) := by
  simp only [commandExchange, hc]

theorem countExchange_go {s : State} {rw : Rw} {a : BitVec 4} (n : BitVec 4) (h : burstInMap a n = true) :
    countExchange rw a (countByte n) s = .go (setPst (.dat rw a (n.toNat + 1)) (drawRx s)) := by
  simp [countExchange, hiNibble_countByte, loNibble_countByte, h]

/-- An exchange changes the byte returned, the draws, the ready line, the peers' states and the mark of a read while not
ready only. -/
def ExchangeFrame (s t : State) : Prop :=
  ∃ line rx draws adc dac marked,
    t = { s with drdyN := line, rx := rx, draws := draws, adc := adc, dac := dac, runFaulted := marked }

theorem ExchangeFrame.trans {s t u : State} (h1 : ExchangeFrame s t) (h2 : ExchangeFrame t u) : ExchangeFrame s u := by
  obtain ⟨_, _, _, _, _, _, rfl⟩ := h1
  obtain ⟨a, b, c, d, e, f, rfl⟩ := h2
  exact ⟨a, b, c, d, e, f, rfl⟩

theorem normalCommand_frame (c : WireCmd) (s : State) : (normalCommand c s).Answers (ExchangeFrame s) := by
  cases c <;> simp only [normalCommand]
  case rreg r =>
    show ExchangeFrame s (beginRead r s)
    unfold beginRead
    split <;> exact ⟨_, _, _, _, _, _, rfl⟩
  all_goals exact ⟨_, _, _, _, _, _, rfl⟩

theorem commandExchange_frame (b : Byte) (s : State) : (commandExchange b s).Answers (ExchangeFrame s) := by
  have hd : ExchangeFrame s (drawRx s) := ⟨_, _, _, _, _, _, rfl⟩
  unfold commandExchange
  dsimp only
  split <;> first
    | trivial
    | exact hd.trans ⟨_, _, _, _, _, _, rfl⟩
    | exact (normalCommand_frame _ _).mono fun _ h => hd.trans h

theorem adcExchange_frame (b : Byte) (s : State) : (adcExchange b s).Answers (ExchangeFrame s) := by
  unfold adcExchange
  split
  · exact ⟨_, _, _, _, _, _, rfl⟩
  · split
    · exact commandExchange_frame b s
    · trivial
    · trivial
    · unfold countExchange
      split
      · trivial
      · split
        · trivial
        · exact ⟨_, _, _, _, _, _, rfl⟩
    · show ExchangeFrame s (readExchange _ _ s)
      unfold readExchange
      dsimp only
      split <;> exact ⟨_, _, _, _, _, _, rfl⟩
    · exact ⟨_, _, _, _, _, _, rfl⟩
    · exact ⟨_, _, _, _, _, _, rfl⟩
    · exact ⟨_, _, _, _, _, _, rfl⟩

theorem dacExchange_frame (b : Byte) (s : State) : (dacExchange b s).Answers (ExchangeFrame s) := by
  unfold dacExchange
  dsimp only
  split
  · split
    · exact ⟨_, _, _, _, _, _, rfl⟩
    · split
      · exact ⟨_, _, _, _, _, _, rfl⟩
      · trivial
  · exact ⟨_, _, _, _, _, _, rfl⟩
  · exact ⟨_, _, _, _, _, _, rfl⟩
  · trivial

/-- Everything a byte exchange can change, whichever chip is selected. -/
theorem exchange_frame (b : Byte) (s : State) : (exchange b s).Answers (ExchangeFrame s) := by
  unfold exchange
  split
  · exact adcExchange_frame b s
  · exact dacExchange_frame b s
  · exact ⟨_, _, _, _, _, _, rfl⟩
  · trivial

/-- The same for `XFER`, which also adds one entry to the trace (00 R14). -/
def XferFrame (s t : State) : Prop :=
  ∃ line rx draws adc dac marked trace,
    t = { s with drdyN := line, rx := rx, draws := draws, adc := adc, dac := dac, runFaulted := marked, trace := trace } ∧
      s.trace <+: trace

theorem XferFrame.refl (s : State) : XferFrame s s := ⟨_, _, _, _, _, _, _, rfl, List.prefix_refl _⟩

theorem XferFrame.trans {s t u : State} (h1 : XferFrame s t) (h2 : XferFrame t u) : XferFrame s u := by
  obtain ⟨_, _, _, _, _, _, _, rfl, h⟩ := h1
  obtain ⟨a, b, c, d, e, f, g, rfl, h'⟩ := h2
  exact ⟨a, b, c, d, e, f, g, rfl, h.trans h'⟩

theorem xfer_frame (b : Byte) (s : State) : (xfer b s).Answers (XferFrame s) := by
  have h := exchange_frame b s
  unfold xfer
  cases he : exchange b s with
  | go t =>
    rw [he] at h
    obtain ⟨l, rx, dr, adc, dac, m, rfl⟩ := h
    exact ⟨l, rx, dr, adc, dac, m, _, rfl, List.prefix_append _ _⟩
  | halt t =>
    rw [he] at h
    obtain ⟨l, rx, dr, adc, dac, m, rfl⟩ := h
    exact ⟨l, rx, dr, adc, dac, m, s.trace, rfl, List.prefix_refl _⟩
  | fault x => trivial
  | refuse x => trivial

/-! ### Action lists -/

@[simp] theorem runItems_nil (op : Op) (s : State) : runItems op [] s = .go s := rfl

theorem runItems_cons (op : Op) (it : Item) (rest : List Item) (s : State) :
    runItems op (it :: rest) s = andThen (runItem op it s) (runItems op rest) := rfl

theorem runItems_append (op : Op) (l₁ l₂ : List Item) (s : State) :
    runItems op (l₁ ++ l₂) s = andThen (runItems op l₁ s) (runItems op l₂) := by
  induction l₁ generalizing s with
  | nil => rfl
  | cons it l₁ ih =>
    simp only [List.cons_append, runItems_cons, andThen_assoc]
    congr 1
    funext t
    exact ih t

/-- With no edge to come an action finds the state as it is. -/
theorem act_quiet {m : Micro} {s : State} (h : s.inputs = []) : act m s = perform m s := by
  unfold act
  split
  · rfl
  · rw [h, absorb_nil, ← h]

/-- An action but WAITRDY finds what the edges before it left. -/
theorem act_eq {m : Micro} (h : m ≠ .waitRdy) (s : State) : act m s = perform m (absorb s.inputs s) := if_neg h

theorem runItem_quiet {op : Op} {it : Item} {s : State} (h : s.inputs = []) :
    runItem op it s = perform it.act { s with pc := ⟨op, it.k, it.step⟩ } := act_quiet h

@[simp] theorem sendAll_nil (s : State) : sendAll [] s = .go s := rfl

theorem sendAll_cons (b : Byte) (bs : List Byte) (s : State) :
    sendAll (b :: bs) s = andThen (xfer b (absorb s.inputs s)) (sendAll bs) := rfl

theorem sendAll_append (l₁ l₂ : List Byte) (s : State) :
    sendAll (l₁ ++ l₂) s = andThen (sendAll l₁ s) (sendAll l₂) := by
  induction l₁ generalizing s with
  | nil => rfl
  | cons b l₁ ih =>
    simp only [List.cons_append, sendAll_cons, andThen_assoc]
    congr 1
    funext t
    exact ih t

/-- What every action keeps, the list keeps. -/
theorem runItems_answers {P : State → Prop} {op : Op} {items : List Item}
    (h : ∀ it ∈ items, ∀ s, P s → (runItem op it s).Answers P) {s : State} (hs : P s) :
    (runItems op items s).Answers P := by
  induction items generalizing s with
  | nil => exact hs
  | cons it rest ih =>
    exact answers_andThen (h it List.mem_cons_self s hs) fun t ht =>
      ih (fun i hi => h i (List.mem_cons_of_mem _ hi)) ht

/-- An operation begins at the first action of its list. -/
theorem itemsFrom_start (op : Op) (a : Micro) (acts : List Micro) (rest : List Item) :
    itemsFrom ⟨op, 0, 0⟩ (number 0 0 (a :: acts) ++ rest) = number 0 0 (a :: acts) ++ rest := by
  simp [itemsFrom, number]

end Sys2Proof.Machine
end

