-- ==== Sys2Proof/Laws/Store.lean ====
section
/-! SUPPORT. The laws of the index spaces: a read after a write, and the canonical form every operation keeps. -/

namespace Sys2Proof.Machine

variable {α : Type}

theorem storeRead_write_same (m : Store α) (a : Nat) (v : α) : storeRead (storeWrite m a v) a = some v := by
  induction m with
  | nil => simp [storeWrite, storeRead]
  | cons c t ih =>
    obtain ⟨b, u⟩ := c
    simp only [storeWrite]
    split
    · simp [storeRead]
    · split
      · simp [storeRead]
      · next h1 h2 => simp [storeRead, ih, Ne.symm h2]

theorem storeRead_write_other (m : Store α) {a b : Nat} (v : α) (h : b ≠ a) :
    storeRead (storeWrite m a v) b = storeRead m b := by
  induction m with
  | nil => simp [storeWrite, storeRead, h.symm]
  | cons c t ih =>
    obtain ⟨k, u⟩ := c
    simp only [storeWrite]
    split
    · simp [storeRead, h.symm]
    · split
      · next h1 h2 => subst h2; simp [storeRead, h.symm]
      · simp [storeRead, ih]

/-- Reading any entry after a write. -/
theorem storeRead_write (m : Store α) (a b : Nat) (v : α) :
    storeRead (storeWrite m a v) b = if b = a then some v else storeRead m b := by
  split
  · next h => subst h; exact storeRead_write_same m b v
  · next h => exact storeRead_write_other m v h

theorem storeRead_below (m : Store α) (bound a : Nat) :
    storeRead (storeBelow m bound) a = if a < bound then storeRead m a else none := by
  induction m with
  | nil => simp [storeBelow, storeRead]
  | cons c t ih =>
    obtain ⟨k, u⟩ := c
    simp only [storeBelow] at ih ⊢
    rw [List.filter_cons]
    by_cases hk : k < bound
    · by_cases ha : k = a
      · subst ha; simp [hk, storeRead]
      · simp [hk, storeRead, ha, ih]
    · by_cases ha : k = a
      · subst ha; simp [hk, ih]
      · simp [hk, storeRead, ha, ih]

theorem storeWrite_mem {m : Store α} {a : Nat} {v : α} {c : Nat × α} (h : c ∈ storeWrite m a v) :
    c = (a, v) ∨ c ∈ m := by
  induction m with
  | nil => simp [storeWrite] at h; exact .inl h
  | cons d t ih =>
    obtain ⟨k, u⟩ := d
    simp only [storeWrite] at h
    split at h
    · simpa using h
    · split at h
      · rcases List.mem_cons.1 h with h | h
        · exact .inl h
        · exact .inr (List.mem_cons_of_mem _ h)
      · rcases List.mem_cons.1 h with h | h
        · exact .inr (h ▸ List.mem_cons_self)
        · exact (ih h).imp_right (List.mem_cons_of_mem _)

@[simp] theorem storeWf_nil : storeWf ([] : Store α) = true := by simp [storeWf]

/-- A write keeps the canonical form. -/
theorem storeWf_write (m : Store α) (a : Nat) (v : α) (h : storeWf m = true) : storeWf (storeWrite m a v) = true := by
  simp only [storeWf, decide_eq_true_eq] at h ⊢
  induction m with
  | nil => simp [storeWrite]
  | cons c t ih =>
    obtain ⟨k, u⟩ := c
    rw [List.pairwise_cons] at h
    simp only [storeWrite]
    split
    · next hk =>
      refine List.pairwise_cons.2 ⟨fun x hx => ?_, List.pairwise_cons.2 h⟩
      rcases List.mem_cons.1 hx with rfl | hx
      · exact hk
      · exact lt_trans hk (h.1 x hx)
    · split
      · next hk => exact List.pairwise_cons.2 ⟨fun x hx => hk ▸ h.1 x hx, h.2⟩
      · next h1 h2 =>
        refine List.pairwise_cons.2 ⟨fun x hx => ?_, ih h.2⟩
        rcases storeWrite_mem hx with rfl | hx
        · show k < a
          omega
        · exact h.1 x hx

/-- Dropping entries keeps the canonical form. -/
theorem storeWf_below (m : Store α) (bound : Nat) (h : storeWf m = true) : storeWf (storeBelow m bound) = true := by
  rw [storeWf, decide_eq_true_eq] at h ⊢
  exact h.filter _

/-- A register write keeps the register memory canonical and inside the map (10_state.md R47). -/
theorem writeRegister_wf (P : Params) (p : AdcPeer) (a : Nat) (v : Byte) (h : Memory.wf p.mem = true) :
    Memory.wf (writeRegister P p a v).mem = true := by
  unfold writeRegister
  split
  · next ha =>
    simp only [Memory.wf, Bool.and_eq_true, List.all_eq_true, decide_eq_true_eq] at h ⊢
    refine ⟨storeWf_write _ _ _ h.1, fun c hc => ?_⟩
    rcases storeWrite_mem hc with rfl | hc
    · exact ha
    · exact h.2 c hc
  · exact h

/-- A calibration keeps the register memory canonical (44 R220). -/
theorem calibrate_wf (s : State) (h : Memory.wf s.adc.mem = true) : Memory.wf (calibrate s).adc.mem = true := by
  simp only [Memory.wf, calibrate, Bool.and_eq_true, List.all_eq_true, decide_eq_true_eq] at h ⊢
  exact ⟨storeWf_below _ _ h.1, fun c hc => h.2 c (List.mem_filter.1 hc).1⟩

/-- A reset leaves nothing listed (10_state.md R56). -/
theorem peerReset_wf (s : State) : Memory.wf (peerReset s).adc.mem = true := by
  simp [peerReset, Memory.wf]

/-- What register `b` holds after a masked write to register `a` of the map (10_state.md R47). -/
theorem peerRegister_writeRegister (P : Params) (p : AdcPeer) {a : Nat} (b : Nat) (v : Byte) (ha : a ≤ 0x0A) :
    peerRegister (writeRegister P p a v) b =
      if b = a then mixBits (writeMask P a) v (peerRegister p a) else peerRegister p b := by
  simp only [peerRegister, writeRegister, if_pos ha, storeRead_write]
  split <;> simp

theorem mixBits_getLsbD (mask a b : Byte) (i : Nat) :
    (mixBits mask a b).getLsbD i = if mask.getLsbD i then a.getLsbD i else b.getLsbD i && decide (i < 8) := by
  unfold mixBits
  split
  · next h =>
    subst h
    by_cases hi : i < 8
    · have : (0xFF#8).getLsbD i = true := by interval_cases i <;> rfl
      simp [this]
    · simp [hi, BitVec.getLsbD_of_ge _ _ (by omega : 8 ≤ i)]
  · by_cases hi : i < 8
    · rw [BitVec.getLsbD_eq_getElem hi]
      cases hm : mask[i] <;> simp [hm, hi]
    · simp [hi, BitVec.getLsbD_of_ge _ _ (by omega : 8 ≤ i)]

@[simp] theorem mixBits_all (a b : Byte) : mixBits 0xFF#8 a b = a := by simp [mixBits]

/-- The status register reads the identity of the chip in its high nibble (10_state.md R41). -/
theorem hiNibble_readValue_status (P : Params) (p : AdcPeer) (free : Byte) :
    hiNibble (readValue P p 0 free) = P.peerId := by
  simp only [readValue, if_true, hiNibble]
  apply BitVec.eq_of_getLsbD_eq
  intro i hi
  rw [BitVec.getLsbD_extractLsb']
  erw [BitVec.getLsbD_append]
  simp [hi, show ¬ 4 + i < 4 by omega]

/-- A register reads, in the bits of its mask, what is stored (10_state.md R47). -/
theorem readValue_getLsbD (P : Params) (p : AdcPeer) (a : Nat) (free : Byte) {i : Nat} (hi : i < 8)
    (h : (writeMask P a).getLsbD i = true) : (readValue P p a free).getLsbD i = (peerRegister p a).getLsbD i := by
  unfold readValue
  by_cases ha : a = 0
  · subst ha
    have hlow : i < 4 := by
      by_contra hc
      have : (0x0F#8).getLsbD i = false := by interval_cases i <;> first | omega | rfl
      simp [writeMask, this] at h
    have hg : (mixBits (writeMask P 0) (peerRegister p 0) free).getLsbD i = (peerRegister p 0).getLsbD i := by
      rw [mixBits_getLsbD]; simp [h]
    rw [if_pos rfl, BitVec.getLsbD_append]
    simp [hlow, loNibble, hg]
  · rw [if_neg ha, mixBits_getLsbD]
    simp [h]

end Sys2Proof.Machine
end

