-- ==== Sys2Proof/Laws/Frames.lean ====
section
/-! SUPPORT. What running an action list can change: the frame of every bus operation, said once. The parameters, the
channel table, the other data registers, the session's counters, buffer and sequences never change there; flags and the
trace only grow; the canonical form is kept. -/

namespace Sys2Proof.Machine

/-- What stays, or only grows, from `s` to `t` while an action list runs. -/
structure OpFrame (s t : State) : Prop where
  cfg : t.cfg = s.cfg
  ch : t.ch = s.ch
  chanCount : t.chanCount = s.chanCount
  illegal : t.illegal = s.illegal
  frames : t.frames = s.frames
  regs : t.regs = { s.regs with rdata := t.regs.rdata, idnib := t.regs.idnib }
  cycle : t.sess.cycle = s.sess.cycle
  target : t.sess.target = s.sess.target
  nout : t.sess.nout = s.sess.nout
  buf : t.sess.buf = s.sess.buf
  outseq0 : t.sess.outseq0 = s.sess.outseq0
  outseq1 : t.sess.outseq1 = s.sess.outseq1
  sched : (t.sess.sched = s.sess.sched ∧ t.sess.armed = s.sess.armed) ∨ (t.sess.sched = .stopped ∧ t.sess.armed = false)
  eHw : s.flags.eHw = true → t.flags.eHw = true
  eId : s.flags.eId = true → t.flags.eId = true
  eCh : t.flags.eCh = s.flags.eCh
  eRdy : s.flags.eRdy = true → t.flags.eRdy = true
  eTick : s.flags.eTick = true → t.flags.eTick = true
  trace : s.trace <+: t.trace
  marked : s.runFaulted = true → t.runFaulted = true
  memWf : Memory.wf s.adc.mem = true → Memory.wf t.adc.mem = true
  resWf : storeWf s.res = true → storeWf t.res = true

theorem OpFrame.refl (s : State) : OpFrame s s :=
  ⟨rfl, rfl, rfl, rfl, rfl, rfl, rfl, rfl, rfl, rfl, rfl, rfl, .inl ⟨rfl, rfl⟩, id, id, rfl, id, id, List.prefix_refl _,
    id, id, id⟩

theorem OpFrame.trans {s t u : State} (h : OpFrame s t) (k : OpFrame t u) : OpFrame s u where
  cfg := k.cfg.trans h.cfg
  ch := k.ch.trans h.ch
  chanCount := k.chanCount.trans h.chanCount
  illegal := k.illegal.trans h.illegal
  frames := k.frames.trans h.frames
  regs := by rw [k.regs, h.regs]
  cycle := k.cycle.trans h.cycle
  target := k.target.trans h.target
  nout := k.nout.trans h.nout
  buf := k.buf.trans h.buf
  outseq0 := k.outseq0.trans h.outseq0
  outseq1 := k.outseq1.trans h.outseq1
  sched := by
    rcases k.sched with ⟨a, b⟩ | k
    · rcases h.sched with ⟨c, d⟩ | ⟨c, d⟩
      · exact .inl ⟨a.trans c, b.trans d⟩
      · exact .inr ⟨a.trans c, b.trans d⟩
    · exact .inr k
  eHw := k.eHw ∘ h.eHw
  eId := k.eId ∘ h.eId
  eCh := k.eCh.trans h.eCh
  eRdy := k.eRdy ∘ h.eRdy
  eTick := k.eTick ∘ h.eTick
  trace := h.trace.trans k.trace
  marked := k.marked ∘ h.marked
  memWf := k.memWf ∘ h.memWf
  resWf := k.resWf ∘ h.resWf

theorem busyEdge_opFrame (e : Edge) (s : State) : OpFrame s (busyEdge e s) := by
  obtain ⟨f, se, h, hf, h1, h2, h3, h4, h5, h6, h7⟩ := busyEdge_eq e s
  rw [h]
  refine ⟨rfl, rfl, rfl, rfl, rfl, rfl, h1, h2, h3, h4, h5, h6, ?_, ?_, ?_, ?_, ?_, ?_, List.prefix_refl _, id, id, id⟩
  · rcases h7 with h7 | ⟨-, h7⟩
    · exact .inl h7
    · exact .inr h7
  all_goals rcases hf with rfl | rfl <;> simp

theorem absorb_opFrame (es : List Edge) (s : State) : OpFrame s (absorb es s) := by
  induction es generalizing s with
  | nil => exact (OpFrame.refl s).trans ⟨rfl, rfl, rfl, rfl, rfl, rfl, rfl, rfl, rfl, rfl, rfl, rfl, .inl ⟨rfl, rfl⟩, id, id, rfl,
      id, id, List.prefix_refl _, id, id, id⟩
  | cons e es ih =>
    simp only [absorb]
    split
    · exact (busyEdge_opFrame e s).trans ⟨rfl, rfl, rfl, rfl, rfl, rfl, rfl, rfl, rfl, rfl, rfl, rfl, .inl ⟨rfl, rfl⟩, id, id,
        rfl, id, id, List.prefix_refl _, id, id, id⟩
    · exact (busyEdge_opFrame e s).trans (ih _)

/-- A trace entry, and nothing else. -/
theorem logAction_opFrame (a : Action) (s : State) : OpFrame s (logAction a s) :=
  ⟨rfl, rfl, rfl, rfl, rfl, rfl, rfl, rfl, rfl, rfl, rfl, rfl, .inl ⟨rfl, rfl⟩, id, id, rfl, id, id,
    List.prefix_append _ _, id, id, id⟩

theorem takeCondition_opFrame {c : Condition} (hc : c ≠ .illegalChannelSelection) (s : State) :
    OpFrame s (takeCondition c s) := by
  refine ⟨by simp, by simp, by simp, by simp, by simp, by simp, ?_, ?_, ?_, ?_, ?_, ?_, ?_, ?_, ?_, ?_, ?_, ?_, by simp,
    by simp, by simp, by simp⟩
  all_goals try (simp only [takeCondition_sess]; split <;> simp)
  all_goals cases c <;> simp [setFlag] at hc ⊢

theorem setCs_opFrame (dev : Dev) (level : Bool) (s : State) : OpFrame s (setCs dev level s) := by
  cases dev <;> cases level <;>
    exact ⟨rfl, rfl, rfl, rfl, rfl, rfl, rfl, rfl, rfl, rfl, rfl, rfl, .inl ⟨rfl, rfl⟩, id, id, rfl, id, id,
      List.prefix_append _ _, id, id, id⟩

theorem setRst_opFrame (level : Bool) (s : State) : OpFrame s (setRst level s) := by
  cases level
  · exact ⟨rfl, rfl, rfl, rfl, rfl, rfl, rfl, rfl, rfl, rfl, rfl, rfl, .inl ⟨rfl, rfl⟩, id, id, rfl, id, id,
      List.prefix_append _ _, id, fun _ => peerReset_wf { s with rstN := false }, id⟩
  · exact ⟨rfl, rfl, rfl, rfl, rfl, rfl, rfl, rfl, rfl, rfl, rfl, rfl, .inl ⟨rfl, rfl⟩, id, id, rfl, id, id,
      List.prefix_append _ _, id, id, id⟩

theorem configure_opFrame (s : State) : (configure s).Answers (OpFrame s) := by
  unfold configure
  dsimp only
  split
  · exact logAction_opFrame _ s
  · exact (logAction_opFrame _ s).trans (takeCondition_opFrame (by decide) _)

theorem readyNow_opFrame (s : State) : OpFrame s (readyNow s) :=
  ⟨rfl, rfl, rfl, rfl, rfl, rfl, rfl, rfl, rfl, rfl, rfl, rfl, .inl ⟨rfl, rfl⟩, id, id, rfl, id, id,
    List.prefix_append _ _, id, id, id⟩

theorem readyTimeout_opFrame (s : State) : OpFrame s (readyTimeout s) :=
  (logAction_opFrame _ s).trans (takeCondition_opFrame (by decide) _)

/-- The edges used up and the polls counted. -/
theorem inputs_opFrame (s : State) (es : List Edge) (n : Nat) : OpFrame s { s with inputs := es, polls := n } :=
  ⟨rfl, rfl, rfl, rfl, rfl, rfl, rfl, rfl, rfl, rfl, rfl, rfl, .inl ⟨rfl, rfl⟩, id, id, rfl, id, id,
    List.prefix_refl _, id, id, id⟩

theorem waitRdy_opFrame (es : List Edge) (s : State) : (waitRdy es s).Answers (OpFrame s) := by
  induction es generalizing s with
  | nil =>
    have h0 : OpFrame s { s with inputs := [] } := inputs_opFrame s [] s.polls
    simp only [waitRdy]
    split
    · exact h0.trans (readyNow_opFrame _)
    · split
      · exact h0.trans (readyTimeout_opFrame _)
      · exact h0
  | cons e es ih =>
    have hp : ∀ n, OpFrame s { busyEdge e s with inputs := es, polls := n } := fun n =>
      (busyEdge_opFrame e s).trans (inputs_opFrame _ es n)
    have h0 : OpFrame s { busyEdge e s with inputs := es } := hp (busyEdge e s).polls
    simp only [waitRdy]
    split
    · exact (ih _).mono fun t ht => h0.trans ht
    · split
      · exact h0.trans (readyNow_opFrame _)
      · split
        · exact (hp _).trans (readyTimeout_opFrame _)
        · exact (ih _).mono fun t ht => (hp _).trans ht

/-- An exchange never clears the mark of a faulted run and keeps the register memory canonical. -/
def ExchangeKeeps (s t : State) : Prop :=
  (s.runFaulted = true → t.runFaulted = true) ∧ (Memory.wf s.adc.mem = true → Memory.wf t.adc.mem = true)

theorem normalCommand_keeps (c : WireCmd) (s : State) : (normalCommand c s).Answers (ExchangeKeeps s) := by
  cases c <;> simp only [normalCommand]
  case rreg r =>
    show ExchangeKeeps s (beginRead r s)
    unfold beginRead
    split
    · exact ⟨fun _ => rfl, id⟩
    · exact ⟨id, id⟩
  case reset => exact ⟨id, fun _ => peerReset_wf s⟩
  case selfcal | selfocal | selfgcal | sysocal | sysgcal => exact ⟨id, calibrate_wf s⟩
  all_goals exact ⟨id, id⟩

theorem commandExchange_keeps (b : Byte) (s : State) : (commandExchange b s).Answers (ExchangeKeeps s) := by
  unfold commandExchange
  dsimp only
  split <;> first
    | trivial
    | exact ⟨id, fun _ => peerReset_wf (drawRx s)⟩
    | exact ⟨id, id⟩
    | exact (normalCommand_keeps _ (drawRx s)).mono fun _ h => h

theorem adcExchange_keeps (b : Byte) (s : State) : (adcExchange b s).Answers (ExchangeKeeps s) := by
  unfold adcExchange
  split
  · exact ⟨id, id⟩
  · split
    · exact commandExchange_keeps b s
    · trivial
    · trivial
    · unfold countExchange
      split
      · trivial
      · split
        · trivial
        · exact ⟨id, id⟩
    · exact ⟨by simp, by simp⟩
    · exact ⟨id, id⟩
    · exact ⟨by simp, by simpa using writeRegister_wf s.cfg s.adc _ b⟩
    · exact ⟨id, id⟩

theorem dacExchange_keeps (b : Byte) (s : State) : (dacExchange b s).Answers (ExchangeKeeps s) := by
  unfold dacExchange
  dsimp only
  split
  · split
    · exact ⟨id, id⟩
    · split
      · exact ⟨id, id⟩
      · trivial
  · exact ⟨id, id⟩
  · exact ⟨id, id⟩
  · trivial

theorem exchange_keeps (b : Byte) (s : State) : (exchange b s).Answers (ExchangeKeeps s) := by
  unfold exchange
  split
  · exact adcExchange_keeps b s
  · exact dacExchange_keeps b s
  · exact ⟨id, id⟩
  · trivial

theorem xfer_opFrame (b : Byte) (s : State) : (xfer b s).Answers (OpFrame s) := by
  have h := exchange_frame b s
  have hk := exchange_keeps b s
  have key : ∀ t, ExchangeFrame s t → ExchangeKeeps s t → OpFrame s t := by
    rintro t ⟨l, rx, dr, adc, dac, m, rfl⟩ ⟨k1, k2⟩
    exact ⟨rfl, rfl, rfl, rfl, rfl, rfl, rfl, rfl, rfl, rfl, rfl, rfl, .inl ⟨rfl, rfl⟩, id, id, rfl, id, id,
      List.prefix_refl _, k1, k2, id⟩
  unfold xfer
  cases he : exchange b s with
  | go t =>
    rw [he] at h hk
    exact (key t h hk).trans (logAction_opFrame _ t)
  | halt t =>
    rw [he] at h hk
    exact key t h hk
  | fault x => trivial
  | refuse x => trivial

theorem storeIdentity_opFrame (s : State) : OpFrame s (storeIdentity s) :=
  ⟨rfl, rfl, rfl, rfl, rfl, rfl, rfl, rfl, rfl, rfl, rfl, rfl, .inl ⟨rfl, rfl⟩, id, id, rfl, id, id,
    List.prefix_refl _, id, id, id⟩

theorem applyPost_opFrame (p : Post) (s : State) : (applyPost p s).Answers (OpFrame s) := by
  cases p with
  | nothing => exact OpFrame.refl s
  | rdata =>
    exact ⟨rfl, rfl, rfl, rfl, rfl, rfl, rfl, rfl, rfl, rfl, rfl, rfl, .inl ⟨rfl, rfl⟩, id, id, rfl, id, id,
      List.prefix_refl _, id, id, id⟩
  | identity => exact storeIdentity_opFrame s
  | checkIdentity =>
    simp only [applyPost]
    split
    · exact storeIdentity_opFrame s
    · exact (storeIdentity_opFrame s).trans (takeCondition_opFrame (by decide) _)
  | sample k =>
    exact ⟨rfl, rfl, rfl, rfl, rfl, rfl, rfl, rfl, rfl, rfl, rfl, rfl, .inl ⟨rfl, rfl⟩, id, id, rfl, id, id,
      List.prefix_refl _, id, id, storeWf_write _ _ _⟩
  | booted =>
    exact ⟨rfl, rfl, rfl, rfl, rfl, rfl, rfl, rfl, rfl, rfl, rfl, rfl, .inl ⟨rfl, rfl⟩, id, id, rfl, id, id,
      List.prefix_refl _, id, id, id⟩

theorem keepByte_opFrame (l : Latch) (s : State) : OpFrame s (keepByte l s) := by
  cases l <;>
    exact ⟨rfl, rfl, rfl, rfl, rfl, rfl, rfl, rfl, rfl, rfl, rfl, rfl, .inl ⟨rfl, rfl⟩, id, id, rfl, id, id,
      List.prefix_refl _, id, id, id⟩

theorem withChannel_opFrame {f : ChDesc → State → Run} (k : Nat) (s : State)
    (hf : ∀ d, (f d s).Answers (OpFrame s)) : (withChannel k f s).Answers (OpFrame s) := by
  unfold withChannel
  split
  · exact hf _
  · trivial

/-- One action keeps the frame. -/
theorem perform_opFrame (m : Micro) (s : State) : (perform m s).Answers (OpFrame s) := by
  cases m with
  | config => exact configure_opFrame s
  | rst level => exact setRst_opFrame level s
  | delay d => exact logAction_opFrame _ s
  | waitRdy => exact waitRdy_opFrame _ s
  | select dev => exact setCs_opFrame dev false s
  | release dev post =>
    exact (applyPost_opFrame post _).mono fun t ht => (setCs_opFrame dev true s).trans ht
  | send b => exact xfer_opFrame b s
  | sendMux k => exact withChannel_opFrame k s fun d => xfer_opFrame _ s
  | sendGf k => exact withChannel_opFrame k s fun d => xfer_opFrame _ s
  | recv dst =>
    exact answers_andThen (xfer_opFrame _ s) fun t ht => ht.trans (keepByte_opFrame dst t)

/-- An action in its time keeps the frame. -/
theorem act_opFrame (m : Micro) (s : State) : (act m s).Answers (OpFrame s) := by
  unfold act
  split
  · exact perform_opFrame _ _
  · exact (perform_opFrame _ _).mono fun t ht => (absorb_opFrame _ _).trans ht

theorem sendAll_opFrame (bs : List Byte) (s : State) : (sendAll bs s).Answers (OpFrame s) := by
  induction bs generalizing s with
  | nil => exact OpFrame.refl s
  | cons b bs ih => exact answers_andThen (act_opFrame (.send b) s) fun t ht => (ih t).mono fun u hu => ht.trans hu

theorem runItem_opFrame (op : Op) (it : Item) (s : State) : (runItem op it s).Answers (OpFrame s) := by
  have h0 : OpFrame s { s with pc := ⟨op, it.k, it.step⟩ } :=
    ⟨rfl, rfl, rfl, rfl, rfl, rfl, rfl, rfl, rfl, rfl, rfl, rfl, .inl ⟨rfl, rfl⟩, id, id, rfl, id, id,
      List.prefix_refl _, id, id, id⟩
  exact (act_opFrame _ _).mono fun t ht => h0.trans ht

/-- Any part of an operation's action list keeps the frame. -/
theorem runItems_opFrame (op : Op) (items : List Item) (s : State) : (runItems op items s).Answers (OpFrame s) := by
  induction items generalizing s with
  | nil => exact OpFrame.refl s
  | cons it rest ih => exact answers_andThen (runItem_opFrame op it s) fun t ht => (ih t).mono fun u hu => ht.trans hu

theorem enterOp_opFrame (op : Op) (s : State) : OpFrame s (enterOp op s) :=
  ⟨rfl, rfl, rfl, rfl, rfl, rfl, rfl, rfl, rfl, rfl, rfl, rfl, .inl ⟨rfl, rfl⟩, id, id, rfl, id, id,
    List.prefix_refl _, id, id, id⟩

theorem finishOp_opFrame (s : State) : OpFrame s (finishOp s) :=
  ⟨rfl, rfl, rfl, rfl, rfl, rfl, rfl, rfl, rfl, rfl, rfl, rfl, .inl ⟨rfl, rfl⟩, id, id, rfl, id, id,
    List.prefix_refl _, id, id, id⟩

/-- A bus operation but TICK, from wherever its `pc` stands. -/
theorem continueOp_opFrame (s : State) (h : s.pc.op ≠ .tick) : (continueOp s).Answers (OpFrame s) := by
  unfold continueOp
  split
  · exact OpFrame.refl s
  · contradiction
  · exact answers_andThen (runItems_opFrame _ _ s) fun t ht => ht.trans (finishOp_opFrame t)

end Sys2Proof.Machine
end

