-- ==== Sys2Proof/Laws/PerInstr.lean ====
section
/-! SUPPORT. One fact per instruction: under the default opcode bytes the first word of its encoding is the one its row of
spec/opcode_table.json gives, in the bits the row fixes. -/

namespace Sys2Proof.Laws.TableRow

/-- The word the table selects by: the first byte on the bus, the select code, or the pulse. -/
def selector : Encoded → Nat
  | .wire bytes => (bytes.headD 0#8).toNat
  | .dac bytes => (bytes.headD 0#8).toNat
  | .host port => port.cmdOp.toNat
  | .tick => 1

/-- The `match` and `mask` of an instruction's row. -/
def row : Instr → Nat × Nat
  | .wakeup => (0x00, 0xFF)
  | .rdata => (0x01, 0xFF)
  | .rdatac => (0x03, 0xFF)
  | .sdatac => (0x0F, 0xFF)
  | .rreg _ _ => (0x10, 0xF0)
  | .wreg _ _ _ => (0x50, 0xF0)
  | .selfcal => (0xF0, 0xFF)
  | .selfocal => (0xF1, 0xFF)
  | .selfgcal => (0xF2, 0xFF)
  | .sysocal => (0xF3, 0xFF)
  | .sysgcal => (0xF4, 0xFF)
  | .sync => (0xFC, 0xFF)
  | .standby => (0xFD, 0xFF)
  | .reset => (0xFE, 0xFF)
  | .wakeup2 => (0xFF, 0xFF)
  | .dacframe _ _ => (0x30, 0xFB)
  | .rdreg _ => (0x00, 0x1F)
  | .wrreg _ _ => (0x01, 0x1F)
  | .rdid => (0x02, 0x1F)
  | .muxenc _ _ => (0x03, 0x1F)
  | .gainenc _ => (0x04, 0x1F)
  | .gaindec _ => (0x05, 0x1F)
  | .setch _ _ _ _ => (0x06, 0x1F)
  | .setk _ => (0x07, 0x1F)
  | .scan => (0x08, 0x1F)
  | .init => (0x09, 0x1F)
  | .dacwr _ _ => (0x0A, 0x1F)
  | .v2code _ _ => (0x0B, 0x1F)
  | .code2v _ _ => (0x0C, 0x1F)
  | .raw2v _ _ => (0x0D, 0x1F)
  | .ratesel _ => (0x0E, 0x1F)
  | .arm _ _ => (0x0F, 0x1F)
  | .start => (0x10, 0x1F)
  | .cancel => (0x11, 0x1F)
  | .ldout _ _ _ => (0x12, 0x1F)
  | .tick => (0x01, 0x01)

def Statement (i : Instr) : Prop := selector (encode WireCodes.default i) &&& (row i).2 = (row i).1

theorem wakeup : Statement .wakeup := rfl

theorem rdata : Statement .rdata := rfl

theorem rdatac : Statement .rdatac := rfl

theorem sdatac : Statement .sdatac := rfl

theorem rreg (r n : BitVec 4) : Statement (.rreg r n) := by
  simp only [Statement, row, selector, encode, List.headD_cons]
  revert r
  decide

theorem wreg (r n : BitVec 4) (data : List Byte) : Statement (.wreg r n data) := by
  simp only [Statement, row, selector, encode, List.headD_cons]
  revert r
  decide

theorem selfcal : Statement .selfcal := rfl

theorem selfocal : Statement .selfocal := rfl

theorem selfgcal : Statement .selfgcal := rfl

theorem sysocal : Statement .sysocal := rfl

theorem sysgcal : Statement .sysgcal := rfl

theorem sync : Statement .sync := rfl

theorem standby : Statement .standby := rfl

theorem reset : Statement .reset := rfl

theorem wakeup2 : Statement .wakeup2 := rfl

theorem dacframe (c : BitVec 1) (code : BitVec 16) : Statement (.dacframe c code) := by
  simp only [Statement, row, selector, encode, List.headD_cons]
  revert c
  decide

theorem rdreg (id : BitVec 4) : Statement (.rdreg id) := by
  simp [Statement, row, selector, encode, HostPort.ofOp]

theorem wrreg (id : BitVec 4) (value : Byte) : Statement (.wrreg id value) := by
  simp [Statement, row, selector, encode, HostPort.ofOp]

theorem rdid : Statement .rdid := rfl

theorem muxenc (p n : Byte) : Statement (.muxenc p n) := by
  simp [Statement, row, selector, encode, HostPort.ofOp]

theorem gainenc (v : Volt) : Statement (.gainenc v) := by
  simp [Statement, row, selector, encode, HostPort.ofOp]

theorem gaindec (code : BitVec 3) : Statement (.gaindec code) := by
  simp [Statement, row, selector, encode, HostPort.ofOp]

theorem setch (k : Nat) (p n : Byte) (v : Volt) : Statement (.setch k p n v) := by
  simp [Statement, row, selector, encode, HostPort.ofOp]

theorem setk (count : Nat) : Statement (.setk count) := by
  simp [Statement, row, selector, encode, HostPort.ofOp]

theorem scan : Statement .scan := rfl

theorem init : Statement .init := rfl

theorem dacwr (c : BitVec 1) (code : BitVec 16) : Statement (.dacwr c code) := by
  simp [Statement, row, selector, encode, HostPort.ofOp]

theorem v2code (volt ref : Rat) : Statement (.v2code volt ref) := by
  simp [Statement, row, selector, encode, HostPort.ofOp]

theorem code2v (code : BitVec 16) (ref : Rat) : Statement (.code2v code ref) := by
  simp [Statement, row, selector, encode, HostPort.ofOp]

theorem raw2v (raw : Sample) (ref : Rat) : Statement (.raw2v raw ref) := by
  simp [Statement, row, selector, encode, HostPort.ofOp]

theorem ratesel (rate : Rat) : Statement (.ratesel rate) := by
  simp [Statement, row, selector, encode, HostPort.ofOp]

theorem arm (target : Count) (nout : BitVec 2) : Statement (.arm target nout) := by
  simp [Statement, row, selector, encode, HostPort.ofOp]

theorem start : Statement .start := rfl

theorem cancel : Statement .cancel := rfl

theorem ldout (c : BitVec 1) (i : Count) (code : BitVec 16) : Statement (.ldout c i code) := by
  simp [Statement, row, selector, encode, HostPort.ofOp]

theorem tick : Statement .tick := rfl

end Sys2Proof.Laws.TableRow
end

