-- ==== Sys2Proof/Tests/Slice0.lean ====
section
/-! SUPPORT. Tests by hand: words written out from the encoding tables of spec/, single operations with the results of
spec/95_test_vectors.md, and for every statement with hypotheses a state and operands that meet them. -/

open Sys2Proof Sys2Proof.Machine

namespace Sys2Proof.Tests

/-! ### Well-formedness -/

/-- A burst past 0x0A (30 R119) and data bytes that are not one per register (R92) are refused. -/
theorem test_wellFormed :
    Instr.wellFormed (.rreg 9#4 2#4) = false ∧ Instr.wellFormed (.wreg 9#4 2#4 [1#8, 2#8, 3#8]) = false ∧
      Instr.wellFormed (.wreg 1#4 1#4 [0x38#8]) = false ∧ Instr.wellFormed (.wreg 1#4 0#4 [0x38#8, 0x02#8]) = false ∧
      Instr.wellFormed (.rreg 9#4 1#4) = true ∧ Instr.wellFormed (.rreg 0xC#4 0#4) = true ∧
      Instr.wellFormed (.wreg 1#4 1#4 [0x38#8, 0x02#8]) = true := by decide

/-- The default parameters meet R11, R12 and R260. -/
theorem test_default_codes : WireCodes.default.wf = true := by decide
theorem test_default_rates : Params.default.ratesWf = true := by decide +kernel

/-! ### Decoding: words from 30_encoding.md R96, R95, R110 -/

/-- The instruction a frame of these bytes is. -/
def wireIs (bytes : List Byte) (i : Instr) : Bool := decode WireCodes.default (.wire bytes) == .ok i

theorem test_decode_oneByte :
    wireIs [0b00000000#8] .wakeup ∧ wireIs [0b00000001#8, 0xFF#8, 0xFF#8, 0xFF#8] .rdata ∧
      wireIs [0b00000011#8] .rdatac ∧ wireIs [0b00001111#8] .sdatac ∧ wireIs [0b11110000#8] .selfcal ∧
      wireIs [0b11110001#8] .selfocal ∧ wireIs [0b11110010#8] .selfgcal ∧ wireIs [0b11110011#8] .sysocal ∧
      wireIs [0b11110100#8] .sysgcal ∧ wireIs [0b11111100#8] .sync ∧ wireIs [0b11111101#8] .standby ∧
      wireIs [0b11111110#8] .reset ∧ wireIs [0b11111111#8] .wakeup2 := by decide

/-- 95 V7. -/
theorem test_decode_register :
    wireIs [0b00010011#8, 0b00000000#8, 0xFF#8] (.rreg 3#4 0#4) ∧
      wireIs [0b00010000#8, 0b00000010#8, 0xFF#8, 0xFF#8, 0xFF#8] (.rreg 0#4 2#4) ∧
      wireIs [0b01010001#8, 0b00000001#8, 0x38#8, 0x02#8] (.wreg 1#4 1#4 [0x38#8, 0x02#8]) ∧
      wireIs [0b01011100#8, 0b00000000#8, 0x11#8] (.wreg 0xC#4 0#4 [0x11#8]) := by decide

/-- 30 R115, R119; 95 V7. -/
theorem test_decode_rejects :
    decode WireCodes.default (.wire [0x04#8]) = .error .reservedByte ∧
      decode WireCodes.default (.wire [0x51#8, 0x10#8, 0#8]) = .error .reservedCount ∧
      decode WireCodes.default (.wire [0x59#8, 0x02#8, 0#8, 0#8, 0#8]) = .error .burstPastEnd ∧
      decode WireCodes.default (.wire [0x51#8, 0x01#8, 0x38#8]) = .error .truncated ∧
      decode WireCodes.default (.dac [0x31#8, 0#8, 0#8]) = .error .reservedDacCommand := by decide

/-- 95 V11. -/
theorem test_decode_dacframe :
    decode WireCodes.default (.dac [0b00110100#8, 0x12#8, 0x34#8]) = .ok (.dacframe 1#1 0x1234#16) ∧
      decode WireCodes.default (.dac [0b00110000#8, 0xFF#8, 0x01#8]) = .ok (.dacframe 0#1 0xFF01#16) := by decide

/-- What the ports of a host operation ask for; the operands of 95 P1 to P6. -/
theorem test_decode_host :
    decodeHost { HostPort.ofOp 0b00000#5 with id := 1#4 } = .ok (.rdreg 1#4) ∧
      decodeHost { HostPort.ofOp 0b00001#5 with id := 1#4, value := 0x38#8 } = .ok (.wrreg 1#4 0x38#8) ∧
      decodeHost (HostPort.ofOp 0b00010#5) = .ok .rdid ∧
      decodeHost { HostPort.ofOp 0b00011#5 with p := 0x03#8, n := 0xFF#8 } = .ok (.muxenc 0x03#8 0xFF#8) ∧
      decodeHost { HostPort.ofOp 0b00100#5 with v := 0x1000#16 } = .ok (.gainenc 0x1000#16) ∧
      decodeHost { HostPort.ofOp 0b00101#5 with gcode := 2#3 } = .ok (.gaindec 2#3) ∧
      decodeHost { HostPort.ofOp 0b00110#5 with k := 1, p := 0#8, n := 9#8, v := 0x5000#16 } =
        .ok (.setch 1 0#8 9#8 0x5000#16) ∧
      decodeHost { HostPort.ofOp 0b00111#5 with count := 2 } = .ok (.setk 2) ∧
      decodeHost (HostPort.ofOp 0b01000#5) = .ok .scan ∧ decodeHost (HostPort.ofOp 0b01001#5) = .ok .init ∧
      decodeHost { HostPort.ofOp 0b01010#5 with c := 1#1, code := 0x8000#16 } = .ok (.dacwr 1#1 0x8000#16) ∧
      decodeHost { HostPort.ofOp 0b01011#5 with volt := 5 / 2, ref := 5 } = .ok (.v2code (5 / 2) 5) ∧
      decodeHost { HostPort.ofOp 0b01100#5 with code := 0x8000#16, ref := 5 } = .ok (.code2v 0x8000#16 5) ∧
      decodeHost { HostPort.ofOp 0b01101#5 with raw := 1193046#32, ref := 5 } = .ok (.raw2v 1193046#32 5) ∧
      decodeHost { HostPort.ofOp 0b01110#5 with rate := 1200 } = .ok (.ratesel 1200) ∧
      decodeHost { HostPort.ofOp 0b01111#5 with target := 2#32, nout := 1#2 } = .ok (.arm 2#32 1#2) ∧
      decodeHost (HostPort.ofOp 0b10000#5) = .ok .start ∧ decodeHost (HostPort.ofOp 0b10001#5) = .ok .cancel ∧
      decodeHost { HostPort.ofOp 0b10010#5 with c := 0#1, i := 1#32, code := 0x4000#16 } =
        .ok (.ldout 0#1 1#32 0x4000#16) ∧
      decode WireCodes.default .tick = .ok .tick ∧ decodeHost (HostPort.ofOp 0b10011#5) = .error .unassignedOp := by
  refine ⟨rfl, rfl, rfl, rfl, rfl, rfl, rfl, rfl, rfl, rfl, rfl, rfl, rfl, rfl, rfl, rfl, rfl, rfl, rfl, rfl, rfl⟩

/-- Rows of spec/opcode_table.json, one of each kind. -/
theorem test_table_words :
    decodeTableWord 8 0xF0 = some .selfcal ∧ decodeTableWord 8 0x50 = some (.wreg 0#4 0#4 [0#8]) ∧
      decodeTableWord 8 0x34 = some (.dacframe 1#1 0#16) ∧ decodeTableWord 8 0x09 = some .init ∧
      decodeTableWord 1 1 = some .tick ∧ decodeTableWord 8 0x13 = some (.rreg 3#4 0#4) := by decide

/-! ### States -/

def lastOr (o : Host.Outcome State Fault Refusal) (d : State) : State := match o with | .next t => t | _ => d

/-- The operation answered a next state of this property. -/
def after (o : Host.Outcome State Fault Refusal) (p : State → Bool) : Bool := match o with | .next t => p t | _ => false

def faults (o : Host.Outcome State Fault Refusal) (r : Fault) : Bool := match o with | .fault x => x == r | _ => false

def refuses (o : Host.Outcome State Fault Refusal) (r : Refusal) : Bool := match o with | .refused x => x == r | _ => false

theorem next_of_after {o : Host.Outcome State Fault Refusal} {p : State → Bool} (d : State) (h : after o p = true) :
    o = .next (lastOr o d) := by
  cases o <;> simp [after, lastOr] at h ⊢

theorem exists_of_after {o : Host.Outcome State Fault Refusal} {p : State → Bool} (h : after o p = true) :
    ∃ t, o = .next t := by
  cases o <;> simp [after] at h ⊢

/-- An edge with the line ready and nothing offered. -/
def quiet : Edge :=
  { drdyN := false, hwOk := true, conv := 0x800000#24, tick := false, cmd := none, read := none, actDone := true }

/-- Booted, the line ready, registers 0 to 3, 9 and 10 known, two edges to come. -/
def booted : State :=
  { State.reset with
    initok := true, drdyN := false, hwOk := true, inputs := [quiet, { quiet with tick := true }]
    dac := ⟨0#16, 0#16, .start⟩
    adc := { State.reset.adc with
      conv := 0x800000#24
      mem := [(0, 0x06#8), (1, 0x38#8), (2, 0x02#8), (3, 0xF0#8), (9, 0x11#8), (10, 0x5A#8)] } }

/-- A frame of the converter chip is open. -/
def listening : State := { booted with csAdcN := false, inputs := [] }

/-- Two channels, as 95 P3 loads them. -/
def channels : Nat → ChDesc
  | 0 => ⟨0x03#8, 0xFF#8, 0x1000#16, 2#3, 0x38#8⟩
  | _ => ⟨0x00#8, 0x09#8, 0x5000#16, 0#3, 0x08#8⟩

def table : Store ChDesc := [(0, channels 0), (1, channels 1)]

/-- A session in its second and last cycle: two channels, one output. -/
def running : State :=
  { booted with
    ch := table, chanCount := 2
    sess := { sched := .running, armed := true, cycle := 1#32, target := 2#32, overruns := 0#32, nout := 1#2,
              buf := [(0, 1#32), (1, 0xFFFFFFFF#32)], outseq0 := [(0, 0x8000#16), (1, 0x4000#16)], outseq1 := [] } }

/-- A session armed for three cycles and two outputs. -/
def armed : State :=
  { booted with
    sess := { sched := .armed, armed := false, cycle := 0#32, target := 3#32, overruns := 0#32, nout := 2#2, buf := [],
              outseq0 := [], outseq1 := [] } }

/-! ### The pure operations -/

/-- 95 V1, example E1. -/
theorem test_muxenc :
    after (exec (.muxenc 0x03#8 0xFF#8) State.reset) (fun t =>
      t.regs.muxout == ⟨0x38#8, true⟩ && !t.illegal && !t.flags.eCh && t.done) = true := by decide

/-- 95 V2: both pins far outside; and the flag stays when a legal pair follows. -/
theorem test_muxenc_illegal :
    after (exec (.muxenc 0x80#8 0x7F#8) State.reset) (fun t =>
      t.regs.muxout == ⟨0x88#8, true⟩ && t.illegal && t.flags.eCh && t.fault == 0#3 &&
      after (exec (.muxenc 0x07#8 0xFF#8) t) (fun u => u.regs.muxout.value == 0x78#8 && !u.illegal && u.flags.eCh)) =
      true := by decide

/-- 95 V3, at a threshold and one step above it; example E4. -/
theorem test_gainenc :
    after (exec (.gainenc 0x0140#16) State.reset) (fun t => t.regs.gainout == ⟨6#3, true⟩) ∧
      after (exec (.gainenc 0x0141#16) State.reset) (fun t => t.regs.gainout == ⟨5#3, true⟩) ∧
      after (exec (.gainenc 0x1000#16) State.reset) (fun t => t.regs.gainout == ⟨2#3, true⟩) ∧
      after (exec (.gainenc 0x5001#16) State.reset) (fun t => t.regs.gainout == ⟨0#3, true⟩) := by decide

/-- 95 V4. -/
theorem test_gaindec :
    after (exec (.gaindec 6#3) State.reset) (fun t => t.regs.vout == ⟨0x0140#16, true⟩) ∧
      after (exec (.gaindec 7#3) State.reset) (fun t => t.regs.vout == ⟨0x5000#16, true⟩) := by decide

/-- 95 P3: the second descriptor, whose pin 9 is illegal. -/
theorem test_setch :
    after (exec (.setch 1 0x00#8 0x09#8 0x5000#16) State.reset) (fun t =>
      storeRead t.ch 1 == some (channels 1) && t.illegal && t.flags.eCh && t.fault == 0#3) = true := by decide

/-- 95 V12: not accepted while Running; nor past the table (R176). -/
theorem test_setch_refused :
    after (exec (.setch 0 0#8 0#8 0#16) running) (fun t => t == running) ∧
      after (exec (.setch 8 0#8 0#8 0#16) booted) (fun t => t == booted) := by
  constructor <;> simp [exec, execSetch, pureOp, busy, outsideSession, after, running, booted, State.reset, Params.default]

/-- R177: up to NCH_MAX. -/
theorem test_setk :
    after (exec (.setk 8) State.reset) (fun t => t.chanCount == 8 && t.done) ∧
      after (exec (.setk 9) State.reset) (fun t => t.chanCount == 0 && !t.done) := by decide

/-- 95 V9: exact, and the half that goes up. -/
theorem test_v2code :
    after (exec (.v2code 1 5) State.reset) (fun t => t.regs.code16 == ⟨0x3333#16, true⟩) ∧
      after (exec (.v2code (5 / 131072) 5) State.reset) (fun t => t.regs.code16 == ⟨1#16, true⟩) ∧
      after (exec (.v2code (5 * 131069 / 131072) 5) State.reset) (fun t => t.regs.code16 == ⟨65535#16, true⟩) := by
  decide +kernel

/-- 95 V9: both clamps (E9), and a reference that is not positive. -/
theorem test_v2code_clamps :
    after (exec (.v2code 5 5) State.reset) (fun t => t.regs.code16 == ⟨65535#16, true⟩) ∧
      after (exec (.v2code (-1) 5) State.reset) (fun t => t.regs.code16 == ⟨0#16, true⟩) ∧
      after (exec (.v2code 1 0) State.reset) (fun t => !t.done && !t.regs.code16.written) := by
  decide +kernel

/-- 95 V9. -/
theorem test_code2v :
    after (exec (.code2v 0x8000#16 5) State.reset) (fun t => t.regs.volts == ⟨5 / 2, true⟩) ∧
      after (exec (.code2v 0xFFFF#16 5) State.reset) (fun t => t.regs.volts == ⟨327675 / 65536, true⟩) := by
  decide +kernel

/-- 95 V9: the most negative sample and the most positive one (E7). -/
theorem test_raw2v :
    after (exec (.raw2v 0xFF800000#32 5) State.reset) (fun t => t.regs.volts == ⟨-8388608 / 3355443, true⟩) ∧
      after (exec (.raw2v 8388607#32 5) State.reset) (fun t => t.regs.volts == ⟨8388607 / 3355443, true⟩) := by
  decide +kernel

/-- 95 V10: example E12, an exact entry, one above it. -/
theorem test_ratesel :
    after (exec (.ratesel 1200) State.reset) (fun t => t.regs.ratehz == ⟨2000, true⟩ && t.regs.ratecode == ⟨0xB0#8, true⟩) ∧
      after (exec (.ratesel 60) State.reset) (fun t => t.regs.ratehz.value == 60 && t.regs.ratecode.value == 0x72#8) ∧
      after (exec (.ratesel 61) State.reset) (fun t => t.regs.ratehz.value == 100 && t.regs.ratecode.value == 0x82#8) := by
  decide +kernel

/-- 95 V10: below and above the table. -/
theorem test_ratesel_ends :
    after (exec (.ratesel (-5)) State.reset) (fun t => t.regs.ratehz.value == 5 / 2 && t.regs.ratecode.value == 0x03#8) ∧
      after (exec (.ratesel 30001) State.reset) (fun t =>
        t.regs.ratehz.value == 30000 && t.regs.ratecode.value == 0xF0#8) := by
  decide +kernel

/-! ### The session -/

/-- 95 P5. -/
theorem test_arm :
    after (exec (.arm 2#32 1#2) { running with sess := { running.sess with sched := .stopped, armed := false } })
      (fun t => t.sess.target == 2#32 && t.sess.nout == 1#2 && t.sess.cycle == 0#32 && t.sess.buf == [] &&
        t.sess.outseq0 == [] && t.sess.sched == .armed && !t.sess.armed) = true := by decide

/-- R286: not accepted in a session, nor for three outputs. -/
theorem test_arm_refused :
    after (exec (.arm 5#32 1#2) running) (fun t => t.sess == running.sess) ∧
      after (exec (.arm 5#32 3#2) booted) (fun t => t.sess == booted.sess) := by decide

/-- 95 P5; V12: a target of 0 ends at once. -/
theorem test_start :
    after (exec .start armed) (fun t => t.sess.sched == .running && t.sess.armed) ∧
      after (exec .start { armed with sess := { armed.sess with target := 0#32 } })
        (fun t => t.sess.sched == .stopped && !t.sess.armed && t.sess.cycle == 0#32) := by decide

/-- 95 V12, P6. -/
theorem test_cancel :
    after (exec .cancel running) (fun t => t.sess == { running.sess with sched := .stopped, armed := false }) ∧
      after (exec .cancel { running with pc := ⟨.tick, 1, 0⟩ }) (fun t =>
        t.sess.sched == .stopped && t.pc == ⟨.tick, 1, 0⟩) := by decide

/-- R288: the last entry, and the one past it; the channel not configured. -/
theorem test_ldout :
    after (exec (.ldout 1#1 2#32 0x4000#16) armed) (fun t => t.sess.outseq1 == [(2, 0x4000#16)] && t.sess.outseq0 == []) ∧
      after (exec (.ldout 1#1 3#32 0x4000#16) armed) (fun t => t.sess == armed.sess && !t.done) ∧
      after (exec (.ldout 1#1 0#32 0x4000#16) { armed with sess := { armed.sess with nout := 1#2 } }) (fun t =>
        t.sess.outseq1 == []) := by decide

/-! ### The bus operations -/

/-- 95 V6. -/
theorem test_rdreg :
    after (exec (.rdreg 0xA#4) booted) (fun t =>
      t.regs.rdata == ⟨0x5A#8, true⟩ && t.done && t.pc == ⟨.idle, 0, 0⟩ && t.csAdcN && t.trace.length == 6 &&
      t.trace.getLast? == some (.cs .adc true)) = true := by decide

/-- 95 V6: a reserved register, and a read while not ready. -/
theorem test_rdreg_open :
    after (exec (.rdreg 0xC#4) booted) (fun t => t.regs.rdata.written && t.done && !t.runFaulted) ∧
      after (exec (.rdreg 1#4) { booted with inputs := [], drdyN := true }) (fun t =>
        t.regs.rdata.written && t.trace.length == 6 && t.runFaulted && faults (step t) .readWhileNotReady) := by decide

/-- 95 V6. -/
theorem test_wrreg :
    after (exec (.wrreg 2#4 0x07#8) booted) (fun t =>
      storeRead t.adc.mem 2 == some 0x07#8 && storeRead t.adc.mem 1 == some 0x38#8 && t.trace.length == 6 &&
      t.regs == booted.regs && t.done) = true := by decide

/-- 95 V7: nothing is written at a reserved register; 70 R326. -/
theorem test_wrreg_stops :
    after (exec (.wrreg 0xC#4 0x11#8) booted) (fun t => t.adc.mem == booted.adc.mem && t.done) ∧
      refuses (exec (.wrreg 1#4 0x11#8) State.reset) .notBooted := by decide

/-- 95 V6: the frame of RDID is RDREG's, and both registers are written. -/
theorem test_rdid :
    after (exec .rdid booted) (fun t =>
      t.regs.rdata.written && t.regs.idnib.written && t.trace.length == 6 && t.done && !t.flags.eId) = true := by decide

/-- 95 P3: two frames of twenty actions; the last channel's bytes stay in the registers. -/
theorem test_scan :
    after (exec .scan { booted with ch := table, chanCount := 2 }) (fun t =>
      t.res == [(0, 0xFF800000#32), (1, 0xFF800000#32)] && t.trace.length == 40 && storeRead t.adc.mem 1 == some 0x08#8 &&
      storeRead t.adc.mem 2 == some 0x00#8 && t.done && t.fault == 0#3) = true := by decide +kernel

/-- 95 V12: ready for channel 0, then never, `READY_BOUND` = 2. -/
theorem test_scan_timeout :
    after
      (exec .scan
        { booted with
          ch := table, chanCount := 2, cfg := { booted.cfg with readyBound := some 2 }
          inputs := List.replicate 20 quiet ++ [{ quiet with drdyN := true }, { quiet with drdyN := true }] })
      (fun t => t.res == [(0, 0xFF800000#32)] && t.flags.eRdy && t.fault == 4#3 && !t.done && t.trace.length == 21 &&
        t.pc == ⟨.idle, 0, 0⟩ && t.csAdcN) = true := by decide +kernel

/-- 95 V12. -/
theorem test_init_hardware :
    after (exec .init { booted with hwOk := false, inputs := [] }) (fun t =>
      t.flags.eHw && t.fault == 1#3 && !t.initok && !t.done && t.trace.length == 1 && t.rstN) = true := by decide

/-- 95 V12: three polls, `READY_BOUND` = 3. -/
theorem test_init_timeout :
    after
      (exec .init
        { booted with
          cfg := { booted.cfg with readyBound := some 3 }
          inputs := List.replicate 7 quiet ++ List.replicate 3 { quiet with drdyN := true } })
      (fun t => t.flags.eRdy && t.fault == 4#3 && !t.initok && t.csAdcN && t.trace.length == 8 && t.inputs == []) =
      true := by decide +kernel

/-- 95 V11: the low byte equals `DAC_CMD[1]` and is data by position. -/
theorem test_dacwr :
    after (exec (.dacwr 1#1 0x1234#16) booted) (fun t =>
      t.dac == ⟨0#16, 0x1234#16, .start⟩ && t.csAdcN && t.csDacN && t.trace.length == 6 && t.done) = true := by decide

/-- 95 P5, the second cycle: 46 actions, the buffer, the output, the end of the session. -/
theorem test_tick :
    after (exec .tick running) (fun t =>
      t.sess.buf == [(0, 1#32), (1, 0xFFFFFFFF#32), (2, 0xFF800000#32), (3, 0xFF800000#32)] && t.sess.cycle == 2#32 &&
      t.sess.sched == .stopped && !t.sess.armed && t.dac.out0 == 0x4000#16 && t.dac.out1 == 0#16 &&
      t.trace.length == 46 && t.sess.overruns == 1#32 && t.flags.eTick && t.fault == 0#3) = true := by decide +kernel

/-- 95 V12: CANCEL and a tick together; a tick in the middle of a SCAN. -/
theorem test_tick_races :
    after
      (step { running with inputs := [{ quiet with tick := true, cmd := some (HostPort.ofOp 0x11#5) }] })
      (fun t => t.sess.sched == .stopped && t.sess.cycle == 1#32 && t.trace.length == 0) ∧
    after (exec .tick { running with pc := ⟨.scan, 1, 0⟩ }) (fun t =>
      t.flags.eTick && t.sess.overruns == 1#32 && t.pc == ⟨.scan, 1, 0⟩ && t.sess.cycle == 1#32) := by decide

/-! ### The wire commands: 95 V7, V8 -/

theorem test_wakeup :
    after (exec .wakeup listening) (fun t => t.adc == listening.adc) ∧
      after (exec .wakeup { listening with adc := { listening.adc with mode := .stby } }) (fun t =>
        t.adc.mode == .normal) := by decide +kernel

theorem test_rdata :
    after (exec .rdata { listening with adc := { listening.adc with conv := 0x7FFF01#24 } }) (fun t =>
      t.b2 == 0x7F#8 && t.b1 == 0xFF#8 && t.b0 == 0x01#8 && t.adc.pst == .cmd && t.adc.shift == 0x7FFF01#24) = true := by
  decide

theorem test_rdatac :
    after (exec .rdatac listening) (fun t =>
      t.adc.mode == .cont && refuses (exec .wakeup t) .peerInContinuousRead &&
      after (exec .sdatac t) (fun u => u.adc.mode == .normal)) = true := by decide

theorem test_sdatac :
    after (exec .sdatac listening) (fun t => t.adc.mode == .normal) ∧
      refuses (exec .sdatac { listening with adc := { listening.adc with mode := .stby } }) .peerInStandby := by decide

/-- The bytes come back in ascending order. -/
theorem test_rreg :
    after (exec (.rreg 1#4 2#4) listening) (fun t =>
      t.trace.drop 2 == [.xfer 0xFF#8 0x38#8, .xfer 0xFF#8 0x02#8, .xfer 0xFF#8 0xF0#8] && t.adc == listening.adc) =
      true := by decide +kernel

theorem test_wreg :
    after (exec (.wreg 1#4 1#4 [0xAA#8, 0xBB#8]) listening) (fun t =>
      t.adc.mem == [(0, 0x06#8), (1, 0xAA#8), (2, 0xBB#8), (3, 0xF0#8), (9, 0x11#8), (10, 0x5A#8)] &&
      t.adc.pst == .cmd) = true := by decide

/-- What the five calibrations leave listed: registers 0 to 4. -/
theorem test_calibrations :
    ([.selfcal, .selfocal, .selfgcal, .sysocal, .sysgcal] : List Instr).all (fun i =>
      after (exec i listening) (fun t =>
        t.adc.mem == [(0, 0x06#8), (1, 0x38#8), (2, 0x02#8), (3, 0xF0#8)] && t.adc.calEpoch == t.draws &&
        t.adc.epoch == 0)) = true := by decide

theorem test_sync : after (exec .sync listening) (fun t => t.adc == listening.adc) = true := by decide +kernel

theorem test_standby :
    after (exec .standby listening) (fun t => t.adc.mode == .stby && refuses (exec .sync t) .peerInStandby) = true := by
  decide

/-- 44 R211, 10 R49: the conversion value changes between two bytes and between two outside frames. -/
theorem test_rdata_twice :
    after (step
        { booted with
          frames := [⟨.adc, [0x01#8, 0xFF#8, 0xFF#8, 0xFF#8]⟩, ⟨.adc, [0x01#8, 0xFF#8, 0xFF#8, 0xFF#8]⟩]
          inputs := List.replicate 7 quiet ++ [{ quiet with conv := 0x123456#24 }] })
      (fun t => t.b2 == 0x80#8 && t.adc.shift == 0x800000#24 && t.adc.pst == .cmd &&
        after (step t) (fun u => u.b2 == 0x12#8 && u.b1 == 0x34#8 && u.b0 == 0x56#8 && u.csAdcN)) = true := by
  decide +kernel

/-- 44 R220, 40 R148: after a calibration in the same frame a read sees the ready line as the edges leave it. -/
theorem test_selfcal_rreg :
    after (step
        { booted with
          frames := [⟨.adc, [0xF0#8, 0x11#8, 0x00#8, 0xFF#8]⟩]
          inputs := [quiet, quiet, { quiet with drdyN := true }] })
      (fun t => t.runFaulted) = true := by decide +kernel

/-- Accepted in continuous-read mode too (44 R227). -/
theorem test_reset :
    after (exec .reset { listening with adc := { listening.adc with mode := .cont } }) (fun t =>
      t.adc.mode == .normal && t.adc.mem == [] && t.adc.epoch == t.draws) = true := by decide

theorem test_wakeup2 :
    after (exec .wakeup2 { listening with adc := { listening.adc with mode := .stby } }) (fun t =>
      t.adc.mode == .normal) = true := by decide

theorem test_dacframe :
    after (exec (.dacframe 0#1 0xFF01#16) { booted with csDacN := false }) (fun t =>
      t.dac == ⟨0xFF01#16, 0#16, .full⟩ && refuses (exec (.dacframe 0#1 0#16) t) .dacFourthByte) = true := by decide

/-- Examples E5, E6, E16 and 95 V5. -/
theorem test_samples :
    sampleOf (rawOf 0x80#8 0x00#8 0x00#8) = 0xFF800000#32 ∧ sampleOf (rawOf 0x7F#8 0xFF#8 0xFF#8) = 0x007FFFFF#32 ∧
      sampleOf (rawOf 0x12#8 0x34#8 0x56#8) = 0x00123456#32 ∧ sampleOf (rawOf 0x00#8 0xFF#8 0x00#8) = 0x0000FF00#32 := by
  decide

/-! ### Every statement with hypotheses has states that meet them -/

/-- The two wake opcodes on one byte, which R12 allows. -/
def sharedWake : WireCodes := { WireCodes.default with wakeup2 := 0x00#8 }

theorem test_hyp_DecodeOfEncode :
    WireCodes.default.wf = true ∧ Instr.wellFormed (.rreg 9#4 1#4) = true ∧ sharedWake.wf = true ∧
      decode sharedWake (encode sharedWake .wakeup2) = .ok .wakeup := by decide

theorem test_hyp_DecodeAccepts :
    decode WireCodes.default (.wire [0x1A#8, 0x00#8, 0xFF#8]) = .ok (.rreg 0xA#4 0#4) := by decide

/-- `quiet` with an operation offered. -/
def offer (op : BitVec 5) : Edge := { quiet with cmd := some (HostPort.ofOp op) }

theorem test_hyp_StepRunsOffered :
    let s := { booted with inputs := [offer 0x08#5] }
    s.runFaulted = false ∧ s.pc.op = .idle ∧ s.frames = [] ∧ s.inputs = [offer 0x08#5] ∧ (offer 0x08#5).read = none ∧
      (offer 0x08#5).cmd = some (HostPort.ofOp 0x08#5) ∧ decodeHost (HostPort.ofOp 0x08#5) = .ok .scan ∧
      (offer 0x08#5).tick = false := ⟨rfl, rfl, rfl, rfl, rfl, rfl, rfl, rfl⟩

/-- The same with a tick that is not taken: the timer not armed; CANCEL. -/
theorem test_hyp_StepRunsOffered_tick :
    booted.sess.armed = false ∧ decodeHost (HostPort.ofOp 0x11#5) = .ok .cancel ∧
      after (step { booted with inputs := [{ offer 0x07#5 with tick := true }] }) (fun t => t.done) = true ∧
      0x13#5 ≤ (HostPort.ofOp 0x13#5).cmdOp ∧
      after (step { booted with inputs := [offer 0x13#5] }) (fun t => !t.done && t.inputs == []) = true := by decide

/-- Two commands in one frame, no command, an output frame. -/
theorem test_hyp_StepRunsTheWireCommand :
    let s := { booted with frames := [⟨.adc, [0xFC#8, 0x00#8]⟩] }
    s.runFaulted = false ∧ s.pc.op = .idle ∧ FrameHolds s.cfg.codes ⟨.adc, [0xFC#8, 0x00#8]⟩ [.sync, .wakeup] ∧
      FrameHolds s.cfg.codes ⟨.adc, []⟩ [] ∧
      FrameHolds s.cfg.codes ⟨.dac, [0x34#8, 0x12#8, 0x34#8]⟩ [.dacframe 1#1 0x1234#16] ∧
      after (step s) (fun t => t.csAdcN && t.trace.length == 4) = true :=
  ⟨rfl, rfl, ⟨[0x00#8], rfl, [], rfl, rfl⟩, rfl, ⟨_, rfl, rfl⟩, by decide⟩

theorem test_hyp_StepTakesTheTickFirst :
    let e := { offer 0x00#5 with tick := true }
    let s := { running with inputs := [e] }
    s.runFaulted = false ∧ s.pc.op = .idle ∧ s.frames = [] ∧ s.inputs = [e] ∧ e.read = none ∧ e.tick = true ∧
      s.sess.armed = true := ⟨rfl, rfl, rfl, rfl, rfl, rfl, rfl⟩

/-- Held in the WAITRDY of channel 1, of a tick's channel 0, of INIT. -/
theorem test_hyp_UnboundedWaitHolds :
    let held := fun p : Pc =>
      { running with pc := p, inputs := [], drdyN := true, cfg := { running.cfg with readyBound := none } }
    (held ⟨.scan, 1, 0⟩).runFaulted = false ∧ AtWait (held ⟨.scan, 1, 0⟩) ∧ AtWait (held ⟨.tick, 0, 0⟩) ∧
      AtWait (held ⟨.init, 0, 7⟩) ∧ (held ⟨.scan, 1, 0⟩).cfg.readyBound = none := by
  unfold AtWait; decide

theorem test_hyp_HostReadOfUnwritten :
    let e := { quiet with read := some (.res 0) }
    let s := { booted with inputs := [e] }
    s.runFaulted = false ∧ s.pc.op = .idle ∧ s.frames = [] ∧ s.inputs = [e] ∧ e.read = some (.res 0) ∧
      hostRead (.res 0) (setLines e { s with inputs := [] }) = .error .unwrittenRead ∧
      hostRead .eTick (setLines e { s with inputs := [] }) = .ok (.bit false) := by
  refine ⟨rfl, rfl, rfl, rfl, rfl, rfl, rfl⟩

/-- Channel 0 answered before the abort at channel 1; at 1 the read faults although an older entry stands there. -/
theorem test_hyp_HostReadAfterAbort :
    let s := { booted with res := [(0, 0xFF800000#32), (1, 7#32)], resAbort := some 1 }
    hostRead (.res 0) s = .ok (.signed (-8388608)) ∧ hostRead (.res 1) s = .error .unwrittenRead := by decide

/-- 60 R293: the flags and counters the host reads. -/
theorem test_host_reads :
    let s := { running with flags := ⟨false, true, false, true, true⟩ }
    [ReadPort.eHw, .eId, .eCh, .eRdy, .eTick].map (fun p => hostRead p s) =
        [.ok (.bit false), .ok (.bit true), .ok (.bit false), .ok (.bit true), .ok (.bit true)] ∧
      hostRead .cycle s = .ok (.word 1) ∧ hostRead .count s = .ok (.word 2) ∧ hostRead .sched s = .ok (.sched .running) ∧
      hostRead (.buf 1) s = .ok (.signed (-1)) := by decide

/-- The session in its second cycle, a tick at the next edge: what the step invariants ask for. -/
def ticking : State := { running with inputs := [{ quiet with tick := true }] }

theorem test_hyp_StepKeepsStoresCanonical : Canonical ticking ∧ ∃ t, step ticking = .next t := by
  refine ⟨by unfold Canonical; decide, exists_of_after (p := fun t => t.done) ?_⟩
  decide +kernel

theorem test_hyp_StepLeavesNoFrameOpen : NoFrameOpen ticking ∧ ∃ t, step ticking = .next t := by
  refine ⟨by unfold NoFrameOpen AtWait; decide, test_hyp_StepKeepsStoresCanonical.2⟩

theorem test_hyp_StepKeepsSessionSound : SessionSound ticking ∧ ∃ t, step ticking = .next t := by
  refine ⟨by unfold SessionSound; decide, test_hyp_StepKeepsStoresCanonical.2⟩

theorem test_hyp_StepKeepsTableDerived :
    TableDerived { ticking with ch := [(0, channels 0)] } ∧
      ∃ t, step { booted with ch := [(0, channels 0)], inputs := [] } = .next t := by
  refine ⟨fun k d h => ?_, _, rfl⟩
  by_cases hk : 0 = k
  · simp [storeRead, hk] at h
    subst h
    subst hk
    decide
  · simp [storeRead, hk] at h

theorem test_hyp_StepKeepsBufferExact :
    let s := { armed with inputs := [offer 0x10#5] }
    NoFrameOpen s ∧ SessionSound s ∧ SessionBufferExact s ∧ ∃ t, step s = .next t := by
  refine ⟨by unfold NoFrameOpen AtWait; decide, by unfold SessionSound; decide, fun _ i => ?_,
    exists_of_after (p := fun t => t.done) (by decide)⟩
  simp [armed, booted, State.reset, storeRead]

/-- The step that ends the session. -/
theorem test_hyp_SessionEnds :
    NoFrameOpen ticking ∧ SessionSound ticking ∧ SessionBufferExact ticking ∧ ticking.sess.sched = .running ∧
      (∀ e ∈ ticking.inputs, offersCancel e = false) ∧
      after (step ticking) (fun t => t.sess.sched == .stopped && t.fault == 0#3) = true := by
  refine ⟨by unfold NoFrameOpen AtWait; decide, by unfold SessionSound; decide, fun _ i => ?_, rfl, by decide,
    by decide +kernel⟩
  simp only [ticking, running, storeRead]
  rcases i with _ | _ | i <;> simp

theorem test_hyp_StepOnlyGrowsTheRecord : ∃ t, step ticking = .next t := test_hyp_StepKeepsStoresCanonical.2

theorem test_hyp_StateIsWritten :
    (∃ t, exec (.setk 3) booted = .next t) ∧
      let s := { running with pc := ⟨.scan, 1, 0⟩ }
      s.pc.op ≠ .idle ∧ ∃ t, step s = .next t :=
  ⟨⟨_, rfl⟩, by decide, exists_of_after (p := fun t => t.done) (by decide +kernel)⟩

theorem test_hyp_BusyRefuses :
    { booted with pc := ⟨.scan, 0, 0⟩ }.pc.op ≠ .idle ∧ decodeHost (HostPort.ofOp 0x09#5) = .ok .init ∧
      Instr.init ≠ .cancel := by decide

theorem test_hyp_UnbootedRefused :
    let s := { running with initok := false }
    s.pc.op = .idle ∧ s.initok = false ∧ s.sess.armed = true := by decide

/-- The handler idle, which every pure operation asks for. -/
theorem test_hyp_idle : State.reset.pc.op = .idle ∧ booted.pc.op = .idle ∧ armed.pc.op = .idle := by decide

theorem test_hyp_GainRoundTrip :
    let t := lastOr (exec (.gaindec 7#3) booted) booted
    booted.pc.op = .idle ∧ exec (.gaindec 7#3) booted = .next t ∧ (∃ u, exec (.gainenc t.regs.vout.value) t = .next u) ∧
      (0x5000#16 : Volt) ≤ 0x5000#16 ∧ ∃ t', exec (.gainenc 0x5000#16) booted = .next t' ∧
        ∃ u', exec (.gaindec t'.regs.gainout.value) t' = .next u' :=
  ⟨rfl, rfl, ⟨_, rfl⟩, by decide, _, rfl, _, rfl⟩

/-- Both cases, at the edge of the table. -/
theorem test_hyp_Setch :
    (booted.sess.sched = .idle ∧ 7 < booted.cfg.nchMax) ∧ ¬8 < booted.cfg.nchMax ∧ running.sess.sched = .running := by
  decide

/-- The three cases of the scaled voltage at their boundaries, and the reference that is not positive. -/
theorem test_hyp_V2code :
    (0 : Rat) < 5 ∧ 65536 * (0 : Rat) / 5 < 1 / 2 ∧ (1 : Rat) / 2 ≤ 65536 * (5 / 131072) / 5 ∧
      65536 * (5 / 131072 : Rat) / 5 < 65535 - 1 / 2 ∧ (65535 : Rat) - 1 / 2 ≤ 65536 * (5 * 131069 / 131072) / 5 ∧
      (0 : Rat) ≤ 0 := by norm_num

theorem test_hyp_Conversions : (0 : Rat) < 5 ∧ (0 : Rat) ≤ 0 ∧ (-1 : Rat) ≤ 0 := by norm_num

theorem test_hyp_Ratesel : booted.pc.op = .idle ∧ booted.cfg.ratesWf = true := ⟨rfl, test_default_rates⟩

theorem test_hyp_Ldout :
    armed.pc.op = .idle ∧
      (armed.sess.sched = .armed ∧ (1#1 : BitVec 1).toNat < armed.sess.nout.toNat ∧ 2#32 < armed.sess.target) ∧
      ¬3#32 < armed.sess.target := by decide

/-- The line ready now and at both edges to come. -/
theorem test_hyp_Rdreg : Booted booted ∧ booted.cfg.codes.wf = true ∧ StaysReady booted := by
  refine ⟨by unfold Booted NoFrameOpen AtWait; decide, by decide, by unfold StaysReady; decide⟩

theorem test_hyp_ReadAfterWrite :
    let t := lastOr (exec (.wrreg 2#4 0x07#8) booted) booted
    let u := lastOr (exec (.rdreg 2#4) t) t
    exec (.wrreg 2#4 0x07#8) booted = .next t ∧ exec (.rdreg 2#4) t = .next u ∧ u.runFaulted = false ∧
      booted.cfg.peerId = booted.cfg.chipId :=
  ⟨next_of_after booted (p := fun t => t.done) (by decide),
    next_of_after _ (p := fun t => t.regs.rdata.value == 0x07#8) (by decide), by decide, rfl⟩

theorem test_hyp_ReadWhileNotReady :
    let s := { listening with drdyN := true, inputs := [{ quiet with drdyN := true }] }
    let u := { booted with drdyN := true, inputs := [{ quiet with drdyN := true, tick := true }] }
    AdcListening s ∧ s.cfg.codes.wf = true ∧ StaysNotReady s ∧ burstInMap 9#4 1#4 = true ∧ Booted u ∧ StaysNotReady u ∧
      { booted with runFaulted := true }.runFaulted = true := by
  unfold AdcListening Booted NoFrameOpen AtWait StaysNotReady
  decide

/-- Two channels loaded, and no channel at all; and a scan that finishes after a poll that saw the line not ready. -/
theorem test_hyp_Scan :
    let s := { booted with ch := table, chanCount := 2 }
    Booted s ∧ StaysReady s ∧ (∀ k, k < s.chanCount → storeRead s.ch k = some (channels k)) ∧ booted.chanCount = 0 ∧
      after (exec .scan { s with inputs := [{ quiet with drdyN := true }, quiet] }) (fun t => t.done) = true := by
  refine ⟨by unfold Booted NoFrameOpen AtWait; decide, by unfold StaysReady; decide, by decide, rfl, by decide +kernel⟩

theorem test_hyp_Timeouts :
    let s := { running with inputs := [], drdyN := true, cfg := { running.cfg with readyBound := some 2 } }
    Booted s ∧ s.inputs = [] ∧ s.drdyN = true ∧ s.cfg.readyBound = some 2 ∧ 0 < s.chanCount ∧ s.sess.armed = true := by
  refine ⟨by unfold Booted NoFrameOpen AtWait; decide, rfl, rfl, rfl, by decide, rfl⟩

/-- A poll before the bound is used up and the poll that uses it up, an edge without a poll between them. -/
theorem test_hyp_Polls :
    let wait := [{ quiet with drdyN := true }, { quiet with actDone := false }]
    (∀ x ∈ wait, x.actDone = true → x.drdyN = true) ∧ quiet.actDone = true ∧ quiet.drdyN = false ∧ 0 + actionsOf wait < 2 ∧
      { quiet with drdyN := true }.actDone = true ∧ some 2 = some (0 + actionsOf wait + 1) := by decide

/-- Channel 0 ready, channel 1 not ready at two polls; INIT not ready at three (95 V12). -/
theorem test_hyp_TimeoutsLater :
    let late := { quiet with drdyN := true }
    let s := { running with
      cfg := { running.cfg with readyBound := some 2 }
      inputs := List.replicate 20 quiet ++ [late, { quiet with actDone := false }, late] ++ [quiet] }
    let u := { State.reset with
      cfg := { State.reset.cfg with readyBound := some 3 }
      inputs := List.replicate 7 quiet ++ [late, late, late] ++ [] }
    Booted s ∧ s.cfg.codes.wf = true ∧ 1 < s.chanCount ∧ (∀ j, j < 1 → storeRead s.ch j = some (channels j)) ∧
      ReadyActions (20 * 1) (List.replicate 20 quiet) ∧ NotReadyPolls 2 [late, { quiet with actDone := false }, late] ∧
      s.sess.armed = true ∧ NoFrameOpen u ∧ u.sess.sched = .idle ∧ ReadyActions 7 (List.replicate 7 quiet) ∧
      (∀ e ∈ List.replicate 7 quiet, e.hwOk = true) ∧ NotReadyPolls 3 [late, late, late] :=
  ⟨by unfold Booted NoFrameOpen AtWait; decide, by decide, by decide, by decide, by unfold ReadyActions; decide,
    ⟨by decide, by decide, [_, _], _, rfl, rfl⟩, rfl, by unfold NoFrameOpen AtWait; decide, rfl, by unfold ReadyActions; decide,
    by decide, ⟨by decide, by decide, [_, _], _, rfl, rfl⟩⟩

/-- Channel 1 never written. -/
theorem test_hyp_ScanOfUnwrittenChannel :
    let s := { booted with ch := [(0, channels 0)], chanCount := 2 }
    Booted s ∧ s.cfg.codes.wf = true ∧ StaysReady s ∧ 1 < s.chanCount ∧
      (∀ j, j < 1 → (storeRead s.ch j).isSome = true) ∧ storeRead s.ch 1 = none := by
  refine ⟨by unfold Booted NoFrameOpen AtWait; decide, by decide, by unfold StaysReady; decide, by decide, by decide, rfl⟩

theorem test_hyp_Init :
    let s := { State.reset with drdyN := false, hwOk := true, inputs := List.replicate 5 quiet }
    s.pc.op = .idle ∧ NoFrameOpen s ∧ s.cfg.codes.wf = true ∧ s.sess.sched = .idle ∧ s.hwOk = true ∧
      (∀ e ∈ s.inputs, e.hwOk = true) ∧ ReadyAfterPulse s ∧ s.cfg.peerId = s.cfg.chipId := by
  refine ⟨rfl, by unfold NoFrameOpen AtWait; decide, by decide, rfl, rfl, by decide,
    ⟨by decide, List.replicate 4 quiet, quiet, [], rfl, by decide⟩, rfl⟩

/-- The transport down, now and at the edges to come; the chip of another identity. -/
theorem test_hyp_InitAborts :
    let s := { State.reset with hwOk := false, inputs := [{ quiet with hwOk := false }] }
    let u := { State.reset with
      hwOk := true, inputs := List.replicate 6 quiet, cfg := { State.reset.cfg with peerId := 5#4 } }
    s.pc.op = .idle ∧ s.sess.sched = .idle ∧ s.hwOk = false ∧ (∀ e ∈ s.inputs, e.hwOk = false) ∧ u.pc.op = .idle ∧
      NoFrameOpen u ∧ u.cfg.codes.wf = true ∧ u.sess.sched = .idle ∧ u.hwOk = true ∧ (∀ e ∈ u.inputs, e.hwOk = true) ∧
      ReadyAfterPulse u ∧ u.cfg.peerId ≠ u.cfg.chipId := by
  refine ⟨rfl, rfl, rfl, by decide, rfl, by unfold NoFrameOpen AtWait; decide, by decide, rfl, rfl, by decide,
    ⟨by decide, List.replicate 4 quiet, quiet, [quiet], rfl, by decide⟩, by decide⟩

theorem test_hyp_Dacwr : Booted booted ∧ booted.cfg.codes.wf = true := ⟨test_hyp_Rdreg.1, test_hyp_Rdreg.2.1⟩

theorem test_hyp_Tick :
    Booted running ∧ SessionSound running ∧ running.cfg.codes.wf = true ∧ StaysReady running ∧
      running.sess.armed = true ∧ (∀ k, k < running.chanCount → storeRead running.ch k = some (channels k)) ∧
      ∀ c, c < running.sess.nout.toNat → storeRead (outSeq running c) running.sess.cycle.toNat = some 0x4000#16 := by
  refine ⟨by unfold Booted NoFrameOpen AtWait; decide, by unfold SessionSound; decide, by decide,
    by unfold StaysReady; decide, by decide, by decide, by decide⟩

theorem test_hyp_TickWhileBusy :
    let s := { running with pc := ⟨.rdid, 0, 0⟩ }
    s.pc.op ≠ .idle ∧ s.sess.armed = true ∧ booted.sess.armed = false := by decide

/-- The second output never loaded. -/
theorem test_hyp_TickWithUnloadedOutput :
    let s := { running with sess := { running.sess with nout := 2#2 } }
    Booted s ∧ SessionSound s ∧ s.cfg.codes.wf = true ∧ StaysReady s ∧ s.sess.armed = true ∧
      (∀ k, k < s.chanCount → (storeRead s.ch k).isSome = true) ∧ 1 < s.sess.nout.toNat ∧
      (∀ d, d < 1 → (storeRead (outSeq s d) s.sess.cycle.toNat).isSome = true) ∧
      storeRead (outSeq s 1) s.sess.cycle.toNat = none := by
  refine ⟨by unfold Booted NoFrameOpen AtWait; decide, by unfold SessionSound; decide, by decide,
    by unfold StaysReady; decide, rfl, by decide, by decide, by decide, rfl⟩

/-- The descriptor of channel 1 never written. -/
theorem test_hyp_TickWithUnwrittenChannel :
    let s := { running with ch := [(0, channels 0)] }
    Booted s ∧ SessionSound s ∧ s.cfg.codes.wf = true ∧ StaysReady s ∧ s.sess.armed = true ∧ 1 < s.chanCount ∧
      (∀ j, j < 1 → (storeRead s.ch j).isSome = true) ∧ storeRead s.ch 1 = none := by
  refine ⟨by unfold Booted NoFrameOpen AtWait; decide, by unfold SessionSound; decide, by decide,
    by unfold StaysReady; decide, rfl, by decide, by decide, rfl⟩

theorem test_hyp_Wire :
    AdcListening listening ∧ listening.cfg.codes.wf = true ∧ StaysReady listening ∧ burstInMap 9#4 1#4 = true ∧
      [1#8, 2#8].length = (1#4 : BitVec 4).toNat + 1 := by
  unfold AdcListening StaysReady
  decide

/-- A WREG cut after its first data byte, an RDATA after its opcode, a RREG after its count. -/
theorem test_hyp_FrameEndingEarly :
    let s := { booted with frames := [⟨.adc, [0x51#8, 0x01#8, 0xAA#8]⟩] }
    s.runFaulted = false ∧ s.pc.op = .idle ∧ NoFrameOpen s ∧ s.adc.mode = .normal ∧ s.cfg.codes.wf = true ∧
      Instr.wellFormed (.wreg 1#4 1#4 [0xAA#8, 0xBB#8]) = true ∧
      encode s.cfg.codes (.wreg 1#4 1#4 [0xAA#8, 0xBB#8]) = .wire [0x51#8, 0x01#8, 0xAA#8, 0xBB#8] ∧
      s.frames = [⟨.adc, [0x51#8, 0x01#8, 0xAA#8, 0xBB#8].take 3⟩] ∧
      encode s.cfg.codes .rdata = .wire [0x01#8, 0xFF#8, 0xFF#8, 0xFF#8] ∧
      encode s.cfg.codes (.rreg 1#4 0#4) = .wire [0x11#8, 0x00#8, 0xFF#8] := by
  unfold NoFrameOpen AtWait
  decide

/-- 20 R72, 93 U15: the byte sent is written, the one not sent is not, and the chip awaits a command. -/
theorem test_frame_ends_early :
    after (step { booted with frames := [⟨.adc, [0x51#8, 0x01#8, 0xAA#8]⟩] }) (fun t =>
      t.adc.mem == [(0, 0x06#8), (1, 0xAA#8), (2, 0x02#8), (3, 0xF0#8), (9, 0x11#8), (10, 0x5A#8)] &&
      t.adc.pst == .cmd && t.csAdcN) = true := by decide +kernel

/-- The three modes. -/
theorem test_hyp_WireModes :
    let s := fun m => { listening with adc := { listening.adc with mode := m } }
    (s .cont).csAdcN = false ∧ (s .cont).csDacN = true ∧ (s .cont).rstN = true ∧ (s .cont).adc.pst = .cmd ∧
      (s .cont).adc.mode = .cont ∧ (s .stby).adc.mode = .stby ∧ (s .normal).adc.mode = .normal ∧
      classify WireCodes.default 0x02#8 = none ∧ (2#4 : BitVec 4) ≠ 0#4 ∧ 0x0A < (9#4 : BitVec 4).toNat + 2 ∧
      hiNibble 0x10#8 ≠ 0#4 ∧ hiNibble 0x02#8 = 0#4 ∧ loNibble 0x02#8 ≠ 0#4 ∧
      { listening.adc with pst := .cnt .w 9#4 }.pst = .cnt .w 9#4 := by decide

theorem test_hyp_Dacframe :
    let s := { booted with csDacN := false }
    s.csAdcN = true ∧ s.csDacN = false ∧ s.dac.pst = .start ∧ s.cfg.codes.wf = true ∧ 0x31#8 ≠ s.cfg.codes.dacCmd0 ∧
      0x31#8 ≠ s.cfg.codes.dacCmd1 ∧
      after (exec (.dacframe 0#1 0#16) s) (fun t => t.dac.pst == .full && !t.csDacN) = true := by decide

theorem test_hyp_Deselected :
    booted.csAdcN = true ∧ booted.csDacN = true ∧ encode booted.cfg.codes .rdata = .wire [0x01#8, 0xFF#8, 0xFF#8, 0xFF#8] := by
  decide

end Sys2Proof.Tests
end

/-! The record of a run (00_scope.md R14, R16, R21; 10_state.md R33): the parameters, the trace and the five condition
flags. Every part of a step keeps the first, extends the second and clears none of the third. -/

namespace Sys2Proof.Machine

/-! ### The tick's own parts (60_exceptions.md R291) -/

/-- Storing the vector changes the session's buffer and nothing else. -/
theorem storeVector_frame (js : List Nat) (s : State) :
    (storeVector js s).Answers fun t => ∃ buf, t = { s with sess := { s.sess with buf := buf } } := by
  induction js generalizing s with
  | nil => exact ⟨s.sess.buf, rfl⟩
  | cons j js ih =>
    simp only [storeVector]
    split
    · split
      · exact (ih _).mono fun _ ⟨buf, h⟩ => ⟨buf, h⟩
      · trivial
    · trivial

/-- The outputs of a tick are action lists, so they keep the frame of one. -/
theorem runOutputs_opFrame (first : Nat) (cs : List Nat) (s : State) :
    (runOutputs first cs s).Answers (OpFrame s) := by
  induction cs generalizing s with
  | nil => exact OpFrame.refl s
  | cons c cs ih =>
    simp only [runOutputs]
    split
    · trivial
    · exact answers_andThen (runItems_opFrame _ _ s) fun t ht => (ih t).mono fun _ hu => ht.trans hu

/-! ### What the record is, and the updates that leave it alone -/

/-- From `s` to `t` no parameter changed, no trace entry was lost and no condition flag was cleared. -/
structure RecordGrows (s t : State) : Prop where
  cfg : t.cfg = s.cfg
  trace : s.trace <+: t.trace
  eHw : s.flags.eHw = true → t.flags.eHw = true
  eId : s.flags.eId = true → t.flags.eId = true
  eCh : s.flags.eCh = true → t.flags.eCh = true
  eRdy : s.flags.eRdy = true → t.flags.eRdy = true
  eTick : s.flags.eTick = true → t.flags.eTick = true

theorem RecordGrows.of_same {s t : State} (hcfg : t.cfg = s.cfg) (htrace : t.trace = s.trace)
    (hflags : t.flags = s.flags) : RecordGrows s t := by
  constructor <;> simp [hcfg, htrace, hflags]

theorem RecordGrows.refl (s : State) : RecordGrows s s := .of_same rfl rfl rfl

theorem RecordGrows.trans {s t u : State} (h : RecordGrows s t) (k : RecordGrows t u) : RecordGrows s u where
  cfg := k.cfg.trans h.cfg
  trace := h.trace.trans k.trace
  eHw := k.eHw ∘ h.eHw
  eId := k.eId ∘ h.eId
  eCh := k.eCh ∘ h.eCh
  eRdy := k.eRdy ∘ h.eRdy
  eTick := k.eTick ∘ h.eTick

/-- Whatever keeps the frame of an action list lets the record grow only. -/
theorem OpFrame.recordGrows {s t : State} (h : OpFrame s t) : RecordGrows s t where
  cfg := h.cfg
  trace := h.trace
  eHw := h.eHw
  eId := h.eId
  eCh := fun hs => h.eCh.trans hs
  eRdy := h.eRdy
  eTick := h.eTick

/-- Sequencing of two parts that each let the record grow. -/
theorem recordGrows_andThen {s : State} {r : Run} {f : State → Run} (hr : r.Answers (RecordGrows s))
    (hf : ∀ t, (f t).Answers (RecordGrows t)) : (andThen r f).Answers (RecordGrows s) :=
  answers_andThen hr fun t ht => (hf t).mono fun _ hu => ht.trans hu

theorem setLines_recordGrows (e : Edge) (s : State) : RecordGrows s (setLines e s) := .of_same rfl rfl rfl

theorem cancelSession_recordGrows (s : State) : RecordGrows s (cancelSession s) :=
  .of_same (by simp) (by simp) (by simp)

theorem noteOverrun_recordGrows (s : State) : RecordGrows s (noteOverrun s) := by
  constructor <;> simp

/-- A clamped pin sets E_CH, a pair in range leaves the flags (42 R171). -/
theorem RecordGrows.noteIllegal {s t : State} (h : RecordGrows s t) (p n : Byte) :
    RecordGrows s (noteIllegal p n t) := by
  refine h.trans ?_
  cases hpins : pairIllegal p n with
  | true => constructor <;> simp [hpins]
  | false => exact .of_same rfl rfl (by simp [hpins])

/-! ### The operations -/

theorem act_recordGrows (m : Micro) (s : State) : (act m s).Answers (RecordGrows s) :=
  (act_opFrame m s).mono fun _ => OpFrame.recordGrows

theorem sendAll_recordGrows (bs : List Byte) (s : State) : (sendAll bs s).Answers (RecordGrows s) :=
  (sendAll_opFrame bs s).mono fun _ => OpFrame.recordGrows

theorem runItems_recordGrows (op : Op) (items : List Item) (s : State) :
    (runItems op items s).Answers (RecordGrows s) :=
  (runItems_opFrame op items s).mono fun _ => OpFrame.recordGrows

theorem tickDone_recordGrows (s : State) : (tickDone s).Answers (RecordGrows s) := by
  simp only [tickDone, finished]
  split <;> exact .of_same rfl rfl rfl

theorem tickOutputs_recordGrows (first : Nat) (s : State) : (tickOutputs first s).Answers (RecordGrows s) :=
  recordGrows_andThen ((runOutputs_opFrame _ _ s).mono fun _ => OpFrame.recordGrows) tickDone_recordGrows

theorem storeVector_recordGrows (js : List Nat) (s : State) : (storeVector js s).Answers (RecordGrows s) :=
  (storeVector_frame js s).mono fun _ ⟨_, h⟩ => h ▸ .of_same rfl rfl rfl

theorem continueTick_recordGrows (s : State) : (continueTick s).Answers (RecordGrows s) := by
  unfold continueTick
  split
  · exact recordGrows_andThen (runItems_recordGrows _ _ s) fun t =>
      recordGrows_andThen (storeVector_recordGrows _ t) (tickOutputs_recordGrows 0)
  · exact tickOutputs_recordGrows _ s

/-- The operation in progress, the tick included. -/
theorem continueOp_recordGrows (s : State) : (continueOp s).Answers (RecordGrows s) := by
  by_cases h : s.pc.op = .tick
  · simpa only [continueOp, h] using continueTick_recordGrows s
  · exact (continueOp_opFrame s h).mono fun _ => OpFrame.recordGrows

theorem startBus_recordGrows {op : Op} {s t : State} (h : startBus op s = .next t) : RecordGrows s t := by
  unfold startBus at h
  split at h
  · cases h
    exact .refl s
  · split at h
    · cases h
    · exact (enterOp_opFrame op s).recordGrows.trans (toOutcome_next_of_answers (continueOp_recordGrows _) h)

/-- A pure operation lets the record grow when what it writes does: not accepted it writes nothing, and finishing leaves
the record alone. -/
theorem pureOp_recordGrows {acc : Bool} {f : State → State} {s t : State} (h : pureOp acc f s = .next t)
    (hf : RecordGrows s (f s)) : RecordGrows s t := by
  rcases pureOp_next h with rfl | ⟨-, -, rfl⟩
  · exact .refl t
  · exact hf.trans (finishOp_opFrame (f s)).recordGrows

theorem execInit_recordGrows {s t : State} (h : execInit s = .next t) : RecordGrows s t := by
  unfold execInit at h
  split at h
  · cases h
    exact .refl s
  · have hoff : RecordGrows s { s with initok := false } := .of_same rfl rfl rfl
    exact hoff.trans ((enterOp_opFrame .init _).recordGrows.trans
      (toOutcome_next_of_answers (continueOp_recordGrows _) h))

theorem execTick_recordGrows {s t : State} (h : execTick s = .next t) : RecordGrows s t := by
  unfold execTick at h
  split at h
  · cases h
    exact .refl s
  · split at h
    · cases h
      exact noteOverrun_recordGrows s
    · exact startBus_recordGrows h

/-- The five actions of the wire command RDATA (30 R94). -/
theorem execRdata_recordGrows {s t : State} (h : execRdata s = .next t) : RecordGrows s t := by
  refine toOutcome_next_of_answers ?_ h
  refine recordGrows_andThen (act_recordGrows _ s) fun t₁ => ?_
  refine recordGrows_andThen (act_recordGrows _ t₁) fun t₂ => ?_
  refine recordGrows_andThen (act_recordGrows _ t₂) fun t₃ => ?_
  exact recordGrows_andThen (act_recordGrows _ t₃) (act_recordGrows _)

/-- Every instruction, by the shape of its meaning: the exchange of its bytes, a bus operation, or a pure operation. -/
theorem exec_recordGrows {i : Instr} {s t : State} (h : exec i s = .next t) : RecordGrows s t := by
  cases i
  case wakeup | rdatac | sdatac | selfcal | selfocal | selfgcal | sysocal | sysgcal | sync | standby | reset | wakeup2 =>
    exact toOutcome_next_of_answers (act_recordGrows (.send _) s) h
  case rreg | wreg | dacframe => exact toOutcome_next_of_answers (sendAll_recordGrows _ s) h
  case rdata => exact execRdata_recordGrows h
  case rdreg | wrreg | rdid | scan | dacwr => exact startBus_recordGrows h
  case init => exact execInit_recordGrows h
  case tick => exact execTick_recordGrows h
  case cancel =>
    cases h
    exact cancelSession_recordGrows s
  case muxenc p n | setch _ p n _ =>
    unfold exec at h
    refine pureOp_recordGrows h (RecordGrows.noteIllegal ?_ p n)
    exact .of_same rfl rfl rfl
  case gainenc | gaindec | setk | v2code | code2v | raw2v | ratesel | arm | start | ldout =>
    unfold exec at h
    exact pureOp_recordGrows h (.of_same rfl rfl rfl)

/-! ### Outside frames and edges (log 13; 60_exceptions.md R282) -/

/-- What holds of an outcome's next state holds of it as a part of a frame. -/
theorem answers_ofOutcome {o : Host.Outcome State Fault Refusal} {P : State → Prop} (h : ∀ t, o = .next t → P t) :
    (ofOutcome o).Answers P := by
  cases o with
  | next t => exact h t rfl
  | fault x => trivial
  | refused x => trivial

theorem runCommands_recordGrows (n : Nat) (bytes : List Byte) (s : State) :
    (runCommands n bytes s).Answers (RecordGrows s) := by
  induction n generalizing bytes s with
  | zero => exact sendAll_recordGrows bytes s
  | succ n ih =>
    cases bytes with
    | nil => exact RecordGrows.refl s
    | cons b bs =>
      simp only [runCommands]
      split
      · exact recordGrows_andThen (answers_ofOutcome fun _ => exec_recordGrows) fun t => ih _ t
      · exact sendAll_recordGrows _ s

theorem runDacBytes_recordGrows (bytes : List Byte) (s : State) : (runDacBytes bytes s).Answers (RecordGrows s) := by
  unfold runDacBytes
  split
  · exact recordGrows_andThen (answers_ofOutcome fun _ => exec_recordGrows) (sendAll_recordGrows _)
  · exact sendAll_recordGrows bytes s

theorem runFrame_recordGrows (f : BusFrame) (s : State) : (runFrame f s).Answers (RecordGrows s) := by
  unfold runFrame
  refine recordGrows_andThen (act_recordGrows _ s) fun t => recordGrows_andThen ?_ (act_recordGrows _)
  cases f.dev with
  | adc => exact runCommands_recordGrows _ _ t
  | dac => exact runDacBytes_recordGrows _ t

/-- An idle edge that answers moved the lines, then ran CANCEL, the tick, the host's operation, or nothing. -/
theorem idleEdge_next {e : Edge} {s t : State} (h : idleEdge e s = .next t) :
    exec .cancel (setLines e s) = .next t ∨ exec .tick (setLines e s) = .next t ∨
      (∃ port i, e.cmd = some port ∧ decodeHost port = .ok i ∧ exec i (setLines e s) = .next t) ∨
      t = setLines e s := by
  unfold idleEdge at h
  dsimp only at h
  split at h
  · cases h
  · split at h
    · exact .inl h
    · split at h
      · exact .inr (.inl h)
      · split at h
        · next i hcmd =>
          obtain ⟨port, hport, hi⟩ := Option.map_eq_some_iff.1 hcmd
          exact .inr (.inr (.inl ⟨port, i, hport, hi, h⟩))
        · cases h
          exact .inr (.inr (.inr rfl))

theorem idleEdge_recordGrows {e : Edge} {s t : State} (h : idleEdge e s = .next t) : RecordGrows s t := by
  have hlines := setLines_recordGrows e s
  rcases idleEdge_next h with hi | hi | ⟨_, _, -, -, hi⟩ | rfl
  · exact hlines.trans (exec_recordGrows hi)
  · exact hlines.trans (exec_recordGrows hi)
  · exact hlines.trans (exec_recordGrows hi)
  · exact hlines

/-- A step that answers went on with the operation in progress, or ran the next outside frame, or took the next edge, or
found nothing offered. -/
theorem step_next {s t : State} (h : step s = .next t) :
    s.runFaulted = false ∧
      ((s.pc.op ≠ .idle ∧ toOutcome (continueOp s) = .next t) ∨
        (s.pc.op = .idle ∧ ∃ f fs, s.frames = f :: fs ∧ toOutcome (runFrame f { s with frames := fs }) = .next t) ∨
        (s.pc.op = .idle ∧ s.frames = [] ∧ ∃ e es, s.inputs = e :: es ∧ idleEdge e { s with inputs := es } = .next t) ∨
        (s.pc.op = .idle ∧ s.frames = [] ∧ s.inputs = [] ∧ t = s)) := by
  unfold step nextStep at h
  split at h
  · cases h
  · next hmark =>
    refine ⟨by simpa using hmark, ?_⟩
    split at h
    · next hbusy => exact .inl ⟨by simpa [busy] using hbusy, h⟩
    · next hbusy =>
      have hidle : s.pc.op = .idle := by simpa [busy] using hbusy
      refine .inr ?_
      split at h
      · next f fs hframes => exact .inl ⟨hidle, f, fs, hframes, h⟩
      · next e es hframes hinputs => exact .inr (.inl ⟨hidle, hframes, e, es, hinputs, h⟩)
      · next hframes hinputs =>
        cases h
        exact .inr (.inr ⟨hidle, hframes, hinputs, rfl⟩)

theorem step_recordGrows {s t : State} (h : step s = .next t) : RecordGrows s t := by
  obtain ⟨-, ⟨-, hop⟩ | ⟨-, f, fs, -, hframe⟩ | ⟨-, -, e, es, -, hedge⟩ | ⟨-, -, -, rfl⟩⟩ := step_next h
  · exact toOutcome_next_of_answers (continueOp_recordGrows s) hop
  · have htaken : RecordGrows s { s with frames := fs } := .of_same rfl rfl rfl
    exact htaken.trans (toOutcome_next_of_answers (runFrame_recordGrows f _) hframe)
  · have htaken : RecordGrows s { s with inputs := es } := .of_same rfl rfl rfl
    exact htaken.trans (idleEdge_recordGrows hedge)
  · exact .refl t

/-- Settles O17: every step is made of parts that let the record grow only. -/
theorem stepOnlyGrowsTheRecord : Obligations.StepOnlyGrowsTheRecord := by
  intro s t h
  obtain ⟨hcfg, htrace, hHw, hId, hCh, hRdy, hTick⟩ := step_recordGrows h
  exact ⟨hcfg, htrace, hHw, hId, hCh, hRdy, hTick⟩

end Sys2Proof.Machine

/-! The state after block reset (10_state.md R55, R56) and the host's reads (R32, R196, R339). -/

namespace Sys2Proof.Machine

/-! ### After reset -/

/-- An index space nothing was written to holds no entry (20_memory.md R60). -/
@[simp] theorem storeRead_nil {α : Type} (a : Nat) : storeRead ([] : Store α) a = none := rfl

/-- Settles O10: every clause is a field of `State.reset`; an unlisted entry holds nothing. -/
theorem resetState : Obligations.ResetState := by
  simp [Obligations.ResetState, State.reset, unwritten]

theorem reset_canonical : Canonical State.reset := by
  simp [Canonical, State.reset, Memory.wf]

theorem reset_noFrameOpen : NoFrameOpen State.reset :=
  ⟨rfl, rfl, rfl, rfl, rfl, .inl rfl⟩

theorem reset_sessionSound : SessionSound State.reset := by
  simp [SessionSound, State.reset]

theorem reset_tableDerived : TableDerived State.reset := by
  intro k d hd
  cases hd

/-- After reset there is no session and no tick. -/
theorem reset_sessionBufferExact : SessionBufferExact State.reset := by
  rintro (h | h | h) <;> cases h

/-- Settles O11: the base case of the invariants. -/
theorem resetIsSafe : Obligations.ResetIsSafe :=
  ⟨reset_canonical, reset_noFrameOpen, reset_sessionSound, reset_tableDerived, reset_sessionBufferExact⟩

/-! ### The host's reads -/

@[simp] theorem readReg_unwritten {α : Type} (zero : α) (f : α → ReadValue) :
    readReg (unwritten zero) f = .error .unwrittenRead := rfl

@[simp] theorem readEntry_nil {α : Type} (a : Nat) (f : α → ReadValue) :
    readEntry [] a f = .error .unwrittenRead := rfl

theorem readEntry_some {α : Type} {m : Store α} {a : Nat} {v : α} {f : α → ReadValue} (h : storeRead m a = some v) :
    readEntry m a f = .ok (f v) := by
  simp [readEntry, h]

/-- With a channel of an abort remembered, exactly the entries before it are results (43 R196; log 18). -/
theorem resReadable_abort {s : State} {k : Nat} (h : s.resAbort = some k) (j : Nat) :
    resReadable s j = decide (j < k) := by
  simp [resReadable, h]

theorem hostRead_res_readable {s : State} {j : Nat} (h : resReadable s j = true) :
    hostRead (.res j) s = readEntry s.res j fun v => .signed v.toInt := by
  simp [hostRead, h]

theorem hostRead_res_unreadable {s : State} {j : Nat} (h : resReadable s j = false) :
    hostRead (.res j) s = .error .unwrittenRead := by
  simp [hostRead, h]

/-- After reset no data register holds a value (R32, R55). -/
theorem hostRead_reset_dataReg :
    ∀ port ∈ [ReadPort.rdata, .idnib, .muxout, .gainout, .vout, .code16, .ratecode, .ratehz, .volts],
      hostRead port State.reset = .error .unwrittenRead := by
  simp [hostRead, State.reset]

/-- After reset no result, buffer entry or descriptor holds a value (R55). -/
theorem hostRead_reset_entry (i : Nat) :
    hostRead (.res i) State.reset = .error .unwrittenRead ∧ hostRead (.buf i) State.reset = .error .unwrittenRead ∧
      hostRead (.ch i) State.reset = .error .unwrittenRead := by
  simp [hostRead, State.reset, resReadable]

/-- An idle block with no outside frame takes the next edge. -/
theorem step_idleEdge {s : State} {e : Edge} {es : List Edge} (hrun : s.runFaulted = false) (hidle : s.pc.op = .idle)
    (hframes : s.frames = []) (hinputs : s.inputs = e :: es) : step s = idleEdge e { s with inputs := es } := by
  simp [step, nextStep, busy, hrun, hidle, hframes, hinputs]

/-- A read that finds no value stops the machine before anything else the edge offers (log 27). -/
theorem idleEdge_read_fault {e : Edge} {s : State} {port : ReadPort} {r : Fault} (hread : e.read = some port)
    (h : hostRead port (setLines e s) = .error r) : idleEdge e s = .fault r := by
  simp [idleEdge, hread, h]

/-- An answered read leaves the edge what it would be without it. -/
theorem idleEdge_read_answered {e : Edge} {s : State} {port : ReadPort} {v : ReadValue} (hread : e.read = some port)
    (h : hostRead port (setLines e s) = .ok v) : idleEdge e s = idleEdge { e with read := none } s := by
  have hlines : setLines { e with read := none } s = setLines e s := rfl
  have hcancel : offersCancel { e with read := none } = offersCancel e := rfl
  simp [idleEdge, hread, h, hlines, hcancel]

/-- Settles O9: the read is looked at first at an idle edge, and finds no value where nothing was written or the latest
scan aborted. -/
theorem hostReadOfUnwrittenFaults : Obligations.HostReadOfUnwrittenFaults := by
  refine ⟨?_, hostRead_reset_dataReg, hostRead_reset_entry, ?_⟩
  · intro s e es port hrun hidle hframes hinputs hread
    rw [step_idleEdge hrun hidle hframes hinputs]
    refine ⟨fun r => idleEdge_read_fault hread, fun v hv => ?_⟩
    rw [idleEdge_read_answered hread hv]
    exact (step_idleEdge (s := { s with inputs := { e with read := none } :: es }) hrun hidle hframes rfl).symm
  · intro s k j habort
    have hreadable := resReadable_abort habort j
    refine ⟨fun hkj => hostRead_res_unreadable (by simp [hreadable, hkj]), fun v hjk hv => ?_⟩
    rw [hostRead_res_readable (by simp [hreadable, hjk])]
    exact readEntry_some hv

end Sys2Proof.Machine

/-! Who may write what (10_state.md R27 to R36): the parts of the state that have named writers, and for every operation
the parts it may write. Every action of an operation, and every edge that passes during it, stays within them. -/

namespace Sys2Proof.Machine

/-! ### The parts of the state -/

/-- The registers, flags and session fields each of which is written only by the operations named for it. -/
inductive StatePart where
  | rdata | idnib | muxout | gainout | vout | code16 | ratecode | ratehz | volts
  | res | ch | chanCount | initok | illegal
  | eHw | eId | eCh | eRdy | eTick
  | overruns | target | nout | outseq0 | outseq1 | buf | cycle | sched | armed

/-- The part is in `t` what it was in `s`. -/
def StatePart.Kept (s t : State) : StatePart → Prop
  | .rdata => t.regs.rdata = s.regs.rdata
  | .idnib => t.regs.idnib = s.regs.idnib
  | .muxout => t.regs.muxout = s.regs.muxout
  | .gainout => t.regs.gainout = s.regs.gainout
  | .vout => t.regs.vout = s.regs.vout
  | .code16 => t.regs.code16 = s.regs.code16
  | .ratecode => t.regs.ratecode = s.regs.ratecode
  | .ratehz => t.regs.ratehz = s.regs.ratehz
  | .volts => t.regs.volts = s.regs.volts
  | .res => t.res = s.res
  | .ch => t.ch = s.ch
  | .chanCount => t.chanCount = s.chanCount
  | .initok => t.initok = s.initok
  | .illegal => t.illegal = s.illegal
  | .eHw => t.flags.eHw = s.flags.eHw
  | .eId => t.flags.eId = s.flags.eId
  | .eCh => t.flags.eCh = s.flags.eCh
  | .eRdy => t.flags.eRdy = s.flags.eRdy
  | .eTick => t.flags.eTick = s.flags.eTick
  | .overruns => t.sess.overruns = s.sess.overruns
  | .target => t.sess.target = s.sess.target
  | .nout => t.sess.nout = s.sess.nout
  | .outseq0 => t.sess.outseq0 = s.sess.outseq0
  | .outseq1 => t.sess.outseq1 = s.sess.outseq1
  | .buf => t.sess.buf = s.sess.buf
  | .cycle => t.sess.cycle = s.sess.cycle
  | .sched => t.sess.sched = s.sess.sched
  | .armed => t.sess.armed = s.sess.armed

theorem StatePart.Kept.trans {p : StatePart} {s t u : State} (h : p.Kept s t) (k : p.Kept t u) : p.Kept s u := by
  cases p <;> exact Eq.trans k h

/-- Whatever is not in `W` is in `t` what it was in `s`. -/
def ChangesOnly (W : StatePart → Prop) (s t : State) : Prop := ∀ p : StatePart, W p ∨ p.Kept s t

section
variable {W W' : StatePart → Prop} {s t u : State}

/-- An update of other fields of the state. -/
theorem ChangesOnly.of_same (hregs : t.regs = s.regs) (hres : t.res = s.res) (hch : t.ch = s.ch)
    (hcount : t.chanCount = s.chanCount) (hinit : t.initok = s.initok) (hill : t.illegal = s.illegal)
    (hflags : t.flags = s.flags) (hsess : t.sess = s.sess) : ChangesOnly W s t := by
  intro p
  right
  cases p <;> simp only [StatePart.Kept, *]

theorem ChangesOnly.refl (s : State) : ChangesOnly W s s := .of_same rfl rfl rfl rfl rfl rfl rfl rfl

theorem ChangesOnly.trans (h : ChangesOnly W s t) (k : ChangesOnly W t u) : ChangesOnly W s u := by
  intro p
  rcases h p with hp | hp
  · exact .inl hp
  · exact (k p).imp_right hp.trans

theorem ChangesOnly.mono (h : ChangesOnly W s t) (hW : ∀ p, W p → W' p) : ChangesOnly W' s t := fun p =>
  (h p).imp_left (hW p)

end

/-! ### The parts each operation and each instruction may write -/

/-- What the operation `op` may write while the edges `es` pass (10_state.md R27, R28, R33, R34, R36; 45 R240). -/
def OpWrites (op : Op) (es : List Edge) : StatePart → Prop
  | .rdata => (∃ id, op = .rdreg id) ∨ op = .rdid ∨ op = .init
  | .idnib => op = .rdid ∨ op = .init
  | .res => op = .scan ∨ op = .tick
  | .initok | .eHw | .eId => op = .init
  | .eRdy => op = .scan ∨ op = .tick ∨ op = .init
  | .eTick | .overruns => ∃ e ∈ es, e.tick = true
  | .buf | .cycle => op = .tick
  | .sched | .armed => op = .tick ∨ ∃ e ∈ es, offersCancel e = true
  | .muxout | .gainout | .vout | .code16 | .ratecode | .ratehz | .volts | .ch | .chanCount | .illegal | .eCh | .target
  | .nout | .outseq0 | .outseq1 => False

/-- What the instruction `i` may write while the edges `es` pass. -/
def InstrWrites (i : Instr) (es : List Edge) : StatePart → Prop
  | .rdata => (∃ id, i = .rdreg id) ∨ i = .rdid ∨ i = .init
  | .idnib => i = .rdid ∨ i = .init
  | .muxout => ∃ p n, i = .muxenc p n
  | .gainout => ∃ v, i = .gainenc v
  | .vout => ∃ c, i = .gaindec c
  | .code16 => ∃ v r, i = .v2code v r
  | .ratecode | .ratehz => ∃ r, i = .ratesel r
  | .volts => (∃ c r, i = .code2v c r) ∨ ∃ w r, i = .raw2v w r
  | .res => i = .scan ∨ i = .tick
  | .ch => ∃ k p n v, i = .setch k p n v
  | .chanCount => ∃ c, i = .setk c
  | .initok | .eHw | .eId => i = .init
  | .illegal | .eCh => (∃ p n, i = .muxenc p n) ∨ ∃ k p n v, i = .setch k p n v
  | .eRdy => i = .scan ∨ i = .tick ∨ i = .init
  | .eTick | .overruns => i = .tick ∨ ∃ e ∈ es, e.tick = true
  | .target | .nout => ∃ g n, i = .arm g n
  | .outseq0 | .outseq1 => (∃ g n, i = .arm g n) ∨ ∃ c j v, i = .ldout c j v
  | .buf | .cycle => i = .tick ∨ ∃ g n, i = .arm g n
  | .sched => (∃ g n, i = .arm g n) ∨ i = .start ∨ i = .cancel ∨ i = .tick ∨ ∃ e ∈ es, offersCancel e = true
  | .armed => i = .start ∨ i = .cancel ∨ i = .tick ∨ ∃ e ∈ es, offersCancel e = true

/-- The instruction runs as the operation `op`: a wire command as none (`.idle`). -/
def RunsAs (i : Instr) : Op → Prop
  | .idle => True
  | .rdreg id => i = .rdreg id
  | .wrreg id value => i = .wrreg id value
  | .rdid => i = .rdid
  | .scan => i = .scan
  | .init => i = .init
  | .dacwr c code => i = .dacwr c code
  | .tick => i = .tick

/-- An instruction may write what its operation may. -/
theorem OpWrites.instrWrites {i : Instr} {op : Op} {es : List Edge} {p : StatePart} (hi : RunsAs i op)
    (h : OpWrites op es p) : InstrWrites i es p := by
  cases p
  case rdata =>
    rcases h with ⟨id, rfl⟩ | rfl | rfl
    · exact .inl ⟨id, hi⟩
    · exact .inr (.inl hi)
    · exact .inr (.inr hi)
  case idnib | res =>
    rcases h with rfl | rfl
    · exact .inl hi
    · exact .inr hi
  case eRdy =>
    rcases h with rfl | rfl | rfl
    · exact .inl hi
    · exact .inr (.inl hi)
    · exact .inr (.inr hi)
  case initok | eHw | eId =>
    subst h
    exact hi
  case buf | cycle =>
    subst h
    exact .inl hi
  case eTick | overruns => exact .inr h
  case sched =>
    rcases h with rfl | hcancel
    · exact .inr (.inr (.inr (.inl hi)))
    · exact .inr (.inr (.inr (.inr hcancel)))
  case armed =>
    rcases h with rfl | hcancel
    · exact .inr (.inr (.inl hi))
    · exact .inr (.inr (.inr hcancel))
  all_goals exact h.elim

/-! ### The shared operations -/

section
variable {W : StatePart → Prop} {op : Op} {es : List Edge}

theorem stopSession_changesOnly (hsched : W .sched) (harmed : W .armed) (s : State) :
    ChangesOnly W s (stopSession s) := by
  intro p
  cases p <;> simp [StatePart.Kept, hsched, harmed]

theorem cancelSession_changesOnly (hsched : W .sched) (harmed : W .armed) (s : State) :
    ChangesOnly W s (cancelSession s) := by
  unfold cancelSession
  split
  · exact stopSession_changesOnly hsched harmed s
  · exact .refl s

theorem noteOverrun_changesOnly (htick : W .eTick) (hover : W .overruns) (s : State) :
    ChangesOnly W s (noteOverrun s) := by
  intro p
  cases p <;> simp [StatePart.Kept, htick, hover]

theorem setLines_changesOnly (e : Edge) (s : State) : ChangesOnly W s (setLines e s) :=
  .of_same rfl rfl rfl rfl rfl rfl rfl rfl

/-- ILLEGAL is written, and E_CH with it when a pin is clamped (42 R171). -/
theorem noteIllegal_changesOnly (hillegal : W .illegal) (hflag : W .eCh) (p n : Byte) (s : State) :
    ChangesOnly W s (noteIllegal p n s) := by
  intro part
  cases hpins : pairIllegal p n <;> cases part <;> simp [StatePart.Kept, hillegal, hflag, hpins]

/-- The flag of a condition (60 R270). -/
def Condition.part : Condition → StatePart
  | .hardwareUnavailable => .eHw
  | .chipIdentityMismatch => .eId
  | .illegalChannelSelection => .eCh
  | .readyTimeout => .eRdy
  | .tickOverrun => .eTick

/-- Taking a condition sets its flag, and inside a tick stops the session (60 R292). -/
theorem takeCondition_changesOnly {c : Condition} {s : State} (hflag : W c.part)
    (htick : s.pc.op = .tick → W .sched ∧ W .armed) : ChangesOnly W s (takeCondition c s) := by
  intro p
  cases p
  case eHw | eId | eCh | eRdy | eTick => cases c <;> simp_all [StatePart.Kept, Condition.part, setFlag]
  all_goals by_cases h : s.pc.op = .tick <;> simp_all [StatePart.Kept]

/-- An edge of `es` during an operation writes what `OpWrites` allows every operation (60 R276, R282, R289). -/
theorem busyEdge_changesOnly {e : Edge} (he : e ∈ es) (s : State) :
    ChangesOnly (OpWrites op es) s (busyEdge e s) := by
  have hcancel : ∀ t, offersCancel e = true → ChangesOnly (OpWrites op es) t (cancelSession t) := fun t h =>
    cancelSession_changesOnly (.inr ⟨e, he, h⟩) (.inr ⟨e, he, h⟩) t
  have htick : ∀ t, e.tick = true → ChangesOnly (OpWrites op es) t (noteOverrun t) := fun t h =>
    noteOverrun_changesOnly ⟨e, he, h⟩ ⟨e, he, h⟩ t
  unfold busyEdge
  dsimp only
  refine (setLines_changesOnly e s).trans ?_
  cases hc : offersCancel e with
  | true =>
    refine (hcancel _ hc).trans ?_
    rw [if_pos rfl]
    split
    · next h => exact htick _ (Bool.and_eq_true_iff.1 h).1
    · exact .refl _
  | false =>
    rw [if_neg Bool.false_ne_true]
    split
    · next h => exact htick _ (Bool.and_eq_true_iff.1 h).1
    · exact .refl _

/-! ### The operation in progress -/

/-- From `s` to `t` nothing was written but what `op` may write while the edges `es` pass, and the edges still to come are
some of these. -/
structure Within (op : Op) (es : List Edge) (s t : State) : Prop where
  changes : ChangesOnly (OpWrites op es) s t
  inputs : t.inputs ⊆ es

variable {s t u : State}

theorem Within.start (op : Op) (s : State) : Within op s.inputs s s := ⟨.refl s, List.Subset.refl _⟩

/-- A further part that takes no edge. -/
theorem Within.step (h : Within op es s t) (hu : ChangesOnly (OpWrites op es) t u) (hin : u.inputs = t.inputs) :
    Within op es s u :=
  ⟨h.changes.trans hu, hin ▸ h.inputs⟩

theorem busyEdge_within {e : Edge} {rest : List Edge} (h : Within op es s t) (hes : e :: rest ⊆ es) :
    Within op es s { busyEdge e t with inputs := rest } where
  changes := (h.changes.trans (busyEdge_changesOnly (hes List.mem_cons_self) t)).trans
    (.of_same rfl rfl rfl rfl rfl rfl rfl rfl)
  inputs := fun _ hx => hes (List.mem_cons_of_mem _ hx)

theorem absorb_within {left : List Edge} (h : Within op es s t) (hes : left ⊆ es) :
    Within op es s (absorb left t) := by
  induction left generalizing t with
  | nil => exact ⟨h.changes.trans (.of_same rfl rfl rfl rfl rfl rfl rfl rfl), hes⟩
  | cons e rest ih =>
    have hrest : rest ⊆ es := fun _ hx => hes (List.mem_cons_of_mem _ hx)
    simp only [absorb]
    split
    · exact busyEdge_within h hes
    · refine ih ⟨h.changes.trans (busyEdge_changesOnly (hes List.mem_cons_self) t), ?_⟩ hrest
      simpa using h.inputs

theorem takeCondition_within {c : Condition} (h : Within op es s t) (hflag : OpWrites op es c.part)
    (hpc : t.pc.op = op) : Within op es s (takeCondition c t) :=
  h.step (takeCondition_changesOnly hflag fun htick => ⟨.inl (hpc ▸ htick), .inl (hpc ▸ htick)⟩) (by simp)

theorem logAction_within (h : Within op es s t) (a : Action) : Within op es s (logAction a t) :=
  h.step (.of_same rfl rfl rfl rfl rfl rfl rfl rfl) rfl

theorem xfer_within (h : Within op es s t) (b : Byte) : (xfer b t).Answers (Within op es s) :=
  (xfer_frame b t).mono fun u hu => by
    obtain ⟨_, _, _, _, _, _, _, rfl, -⟩ := hu
    exact h.step (.of_same rfl rfl rfl rfl rfl rfl rfl rfl) rfl

/-- A WAITRDY writes E_RDY when it times out (60 R274), and its edges pass. -/
theorem waitRdy_within {left : List Edge} (h : Within op es s t) (hes : left ⊆ es) (hpc : t.pc.op = op)
    (hrdy : OpWrites op es .eRdy) : (waitRdy left t).Answers (Within op es s) := by
  have hready : ∀ {v : State}, Within op es s v → Within op es s (readyNow v) := fun hv =>
    hv.step (.of_same rfl rfl rfl rfl rfl rfl rfl rfl) rfl
  have htimeout : ∀ {v : State}, Within op es s v → v.pc.op = op → Within op es s (readyTimeout v) := fun hv hop =>
    takeCondition_within (logAction_within hv .waitRdy) hrdy hop
  induction left generalizing t with
  | nil =>
    have h0 : Within op es s { t with inputs := [] } := absorb_within h (List.nil_subset es)
    simp only [waitRdy]
    split
    · exact hready h0
    · split
      · exact htimeout h0 hpc
      · exact h0
  | cons e rest ih =>
    have hrest : rest ⊆ es := fun _ hx => hes (List.mem_cons_of_mem _ hx)
    have he : Within op es s { busyEdge e t with inputs := rest } := busyEdge_within h hes
    have hpolled : ∀ n, Within op es s { busyEdge e t with inputs := rest, polls := n } := fun n =>
      he.step (.of_same rfl rfl rfl rfl rfl rfl rfl rfl) rfl
    have hop : (busyEdge e t).pc.op = op := by simpa using hpc
    simp only [waitRdy]
    split
    · exact ih he hrest hop
    · split
      · exact hready he
      · split
        · exact htimeout (hpolled _) hop
        · exact ih (hpolled _) hrest hop

/-- What an action itself writes of the parts, edges and the end of a session aside. -/
def Micro.writes : Micro → List StatePart
  | .config => [.eHw]
  | .waitRdy => [.eRdy]
  | .release _ .rdata => [.rdata]
  | .release _ .identity => [.rdata, .idnib]
  | .release _ .checkIdentity => [.rdata, .idnib, .eId]
  | .release _ (.sample _) => [.res]
  | .release _ .booted => [.initok]
  | .release _ .nothing | .rst _ | .delay _ | .select _ | .send _ | .sendMux _ | .sendGf _ | .recv _ => []

/-- The operation may write what the actions write. -/
def Fits (op : Op) (es : List Edge) (acts : List Micro) : Prop := ∀ m ∈ acts, ∀ p ∈ m.writes, OpWrites op es p

theorem storeIdentity_within (h : Within op es s t) (hrdata : OpWrites op es .rdata)
    (hidnib : OpWrites op es .idnib) : Within op es s (storeIdentity t) := by
  refine h.step (fun p => ?_) rfl
  cases p <;> simp [StatePart.Kept, hrdata, hidnib]

theorem applyPost_within {dev : Dev} {post : Post} (h : Within op es s t)
    (hm : ∀ p ∈ (Micro.release dev post).writes, OpWrites op es p)
    (hpc : (Micro.release dev post).writes ≠ [] → t.pc.op = op) : (applyPost post t).Answers (Within op es s) := by
  cases post <;> simp only [Micro.writes, List.forall_mem_cons] at hm
  case nothing => exact h
  case rdata =>
    refine h.step (fun p => ?_) rfl
    cases p <;> simp [StatePart.Kept, hm.1]
  case identity =>
    obtain ⟨hrdata, hidnib, -⟩ := hm
    exact storeIdentity_within h hrdata hidnib
  case checkIdentity =>
    obtain ⟨hrdata, hidnib, hid, -⟩ := hm
    have hstored := storeIdentity_within h hrdata hidnib
    simp only [applyPost]
    split
    · exact hstored
    · exact takeCondition_within hstored hid (hpc (by simp [Micro.writes]))
  case sample =>
    refine h.step (fun p => ?_) rfl
    cases p <;> simp [StatePart.Kept, hm.1]
  case booted =>
    refine h.step (fun p => ?_) rfl
    cases p <;> simp [StatePart.Kept, hm.1]

theorem withChannel_within {f : ChDesc → State → Run} {k : Nat} (hf : ∀ d, (f d t).Answers (Within op es s)) :
    (withChannel k f t).Answers (Within op es s) := by
  unfold withChannel
  split
  · exact hf _
  · trivial

/-- One action of an operation that may write what the action writes; an action that can abort stands in the operation. -/
theorem perform_within {m : Micro} (h : Within op es s t) (hm : ∀ p ∈ m.writes, OpWrites op es p)
    (hpc : m.writes ≠ [] → t.pc.op = op) : (perform m t).Answers (Within op es s) := by
  cases m with
  | config =>
    have hlogged := logAction_within h (.config t.cfg.bus)
    simp only [perform, configure]
    split
    · exact hlogged
    · exact takeCondition_within hlogged (hm _ (by simp [Micro.writes, Condition.part])) (hpc (by simp [Micro.writes]))
  | rst level =>
    cases level <;> exact h.step (.of_same rfl rfl rfl rfl rfl rfl rfl rfl) rfl
  | delay d => exact logAction_within h _
  | waitRdy => exact waitRdy_within h h.inputs (hpc (by simp [Micro.writes])) (hm _ (by simp [Micro.writes]))
  | select dev =>
    cases dev <;> exact h.step (.of_same rfl rfl rfl rfl rfl rfl rfl rfl) rfl
  | release dev post =>
    have hcs : Within op es s (setCs dev true t) := by
      cases dev <;> exact h.step (.of_same rfl rfl rfl rfl rfl rfl rfl rfl) rfl
    exact applyPost_within hcs hm (by simpa using hpc)
  | send b => exact xfer_within h b
  | sendMux k => exact withChannel_within fun d => xfer_within h _
  | sendGf k => exact withChannel_within fun d => xfer_within h _
  | recv dst =>
    refine answers_andThen (xfer_within h _) fun u hu => ?_
    exact hu.step (.of_same (by simp) (by simp) (by simp) (by simp) (by simp) (by simp) (by simp) (by simp)) (by simp)

theorem act_within {m : Micro} (h : Within op es s t) (hm : ∀ p ∈ m.writes, OpWrites op es p)
    (hpc : m.writes ≠ [] → t.pc.op = op) : (act m t).Answers (Within op es s) := by
  unfold act
  split
  · exact perform_within h hm hpc
  · exact perform_within (absorb_within h h.inputs) hm (by simpa using hpc)

/-- An action that writes none of the parts does not ask which operation it stands in. -/
theorem act_silent_within {m : Micro} (h : Within op es s t) (hm : m.writes = []) :
    (act m t).Answers (Within op es s) :=
  act_within h (by simp [hm]) (absurd hm)

theorem runItems_within {items : List Item} (h : Within op es s t) (hfits : Fits op es (items.map Item.act)) :
    (runItems op items t).Answers (Within op es s) := by
  refine runItems_answers (fun it hit u hu => ?_) h
  have hat : Within op es s { u with pc := ⟨op, it.k, it.step⟩ } :=
    hu.step (.of_same rfl rfl rfl rfl rfl rfl rfl rfl) rfl
  exact act_within hat (hfits _ (List.mem_map_of_mem hit)) fun _ => rfl

theorem sendAll_within {bs : List Byte} (h : Within op es s t) : (sendAll bs t).Answers (Within op es s) := by
  induction bs generalizing t with
  | nil => exact h
  | cons b bs ih => exact answers_andThen (act_silent_within h rfl) fun u hu => ih hu

/-! ### The action lists of the operations -/

theorem number_map_act (k first : Nat) (acts : List Micro) : (number k first acts).map Item.act = acts := by
  simp [number, Function.comp_def]

theorem Fits.append {l₁ l₂ : List Micro} (h₁ : Fits op es l₁) (h₂ : Fits op es l₂) : Fits op es (l₁ ++ l₂) :=
  List.forall_mem_append.2 ⟨h₁, h₂⟩

theorem Fits.sublist {items part : List Item} (h : Fits op es (items.map Item.act)) (hp : part.Sublist items) :
    Fits op es (part.map Item.act) := fun m hm => h m ((hp.map Item.act).subset hm)

/-- A register read writes what its last action does (40 R130, R132; 45 R240). -/
theorem readActs_fits {P : Params} {id : BitVec 4} {post : Post}
    (h : ∀ p ∈ (Micro.release .adc post).writes, OpWrites op es p) : Fits op es (readActs P id post) := by
  simp only [Fits, readActs, List.forall_mem_cons]
  simpa [Micro.writes] using h

theorem writeActs_fits (P : Params) (id : BitVec 4) (v : Byte) : Fits op es (writeActs P id v) := by
  simp [Fits, writeActs, Micro.writes]

theorem dacActs_fits (P : Params) (c : BitVec 1) (code : BitVec 16) : Fits op es (dacActs P c code) := by
  simp [Fits, dacActs, Micro.writes]

/-- A channel of a scan writes its result, and E_RDY when it times out (43 R185). -/
theorem channelActs_fits (P : Params) (k : Nat) (hres : OpWrites op es .res) (hrdy : OpWrites op es .eRdy) :
    Fits op es (channelActs P k) := by
  simp [Fits, channelActs, Micro.writes, hres, hrdy]

theorem scanItems_fits (P : Params) (count : Nat) (hres : OpWrites op es .res) (hrdy : OpWrites op es .eRdy) :
    Fits op es ((scanItems P count).map Item.act) := by
  intro m hm
  simp only [scanItems, List.map_flatMap, number_map_act, List.mem_flatMap] at hm
  obtain ⟨k, -, hm⟩ := hm
  exact channelActs_fits P k hres hrdy m hm

theorem initActs_fits (P : Params) : Fits .init es (initActs P) := by
  have hstart : Fits .init es initStartActs := by simp [Fits, initStartActs, Micro.writes, OpWrites]
  have hread : Fits .init es (readActs P 0x0#4 .checkIdentity) := readActs_fits (by simp [Micro.writes, OpWrites])
  have hcommand : ∀ b, Fits .init es (commandActs b .tCMD) := by simp [Fits, commandActs, Micro.writes]
  have hblock : Fits .init es (initBlockActs P) := by simp [Fits, initBlockActs, Micro.writes, OpWrites]
  exact (((hstart.append hread).append (hcommand _)).append (hcommand _)).append hblock

/-- Every operation's list writes what the operation may write. -/
theorem opItems_fits (P : Params) (count : Nat) (op : Op) : Fits op es ((opItems P count op).map Item.act) := by
  cases op <;> simp only [opItems, number_map_act]
  case idle => simp [Fits]
  case rdreg id => exact readActs_fits (by simp [Micro.writes, OpWrites])
  case wrreg id v => exact writeActs_fits P id v
  case rdid => exact readActs_fits (by simp [Micro.writes, OpWrites])
  case scan => exact scanItems_fits P count (.inl rfl) (.inl rfl)
  case init => exact initActs_fits P
  case dacwr c code => exact dacActs_fits P c code
  case tick => exact scanItems_fits P count (.inr rfl) (.inr (.inl rfl))

/-! ### The tick -/

theorem storeVector_within {js : List Nat} (h : Within .tick es s t) :
    (storeVector js t).Answers (Within .tick es s) :=
  (storeVector_frame js t).mono fun u hu => by
    obtain ⟨buf, rfl⟩ := hu
    refine h.step (fun p => ?_) rfl
    cases p <;> simp [StatePart.Kept, OpWrites]

theorem runOutputs_within {first : Nat} {cs : List Nat} (h : Within .tick es s t) :
    (runOutputs first cs t).Answers (Within .tick es s) := by
  induction cs generalizing t with
  | nil => exact h
  | cons c cs ih =>
    simp only [runOutputs]
    split
    · trivial
    · refine answers_andThen (runItems_within h (Fits.sublist ?_ List.filter_sublist)) fun u hu => ih hu
      rw [number_map_act]
      exact dacActs_fits _ _ _

theorem tickDone_within (h : Within .tick es s t) : (tickDone t).Answers (Within .tick es s) := by
  have hcount : Within .tick es s { t with sess := { t.sess with cycle := t.sess.cycle + 1#32 } } := by
    refine h.step (fun p => ?_) rfl
    cases p <;> simp [StatePart.Kept, OpWrites]
  have hfinish : ∀ {v : State}, Within .tick es s v → Within .tick es s (finishOp v) := fun hv =>
    hv.step (.of_same rfl rfl rfl rfl rfl rfl rfl rfl) rfl
  simp only [tickDone, finished]
  split
  · exact hfinish (hcount.step (stopSession_changesOnly (.inl rfl) (.inl rfl) _) rfl)
  · exact hfinish hcount

theorem tickOutputs_within {first : Nat} (h : Within .tick es s t) :
    (tickOutputs first t).Answers (Within .tick es s) :=
  answers_andThen (runOutputs_within h) fun _ => tickDone_within

theorem continueTick_within (h : Within .tick es s t) : (continueTick t).Answers (Within .tick es s) := by
  unfold continueTick
  split
  · refine answers_andThen (runItems_within h ?_) fun u hu => ?_
    · exact (opItems_fits t.cfg t.chanCount .tick).sublist (List.dropWhile_sublist _)
    · exact answers_andThen (storeVector_within hu) fun v hv => tickOutputs_within hv
  · exact tickOutputs_within h

/-- The operation in progress, the tick included, writes only what it may. -/
theorem continueOp_within (s : State) : (continueOp s).Answers (Within s.pc.op s.inputs s) := by
  have h := Within.start s.pc.op s
  unfold continueOp
  split
  · exact h
  · next htick =>
    rw [htick] at h ⊢
    exact continueTick_within h
  · refine answers_andThen (runItems_within h ?_) fun t ht => ht.step (.of_same rfl rfl rfl rfl rfl rfl rfl rfl) rfl
    exact (opItems_fits s.cfg s.chanCount s.pc.op).sublist (List.dropWhile_sublist _)

end

/-! ### The instructions -/

section
variable {i : Instr} {op : Op} {s t : State}

/-- A part that runs as `op` writes what the instruction may. -/
theorem Within.instr {es : List Edge} (h : Within op es s t) (hi : RunsAs i op) :
    ChangesOnly (InstrWrites i es) s t :=
  h.changes.mono fun _ => OpWrites.instrWrites hi

/-- An accepted operation that is entered and run. -/
theorem enterOp_run_changesOnly (h : toOutcome (continueOp (enterOp op s)) = .next t) (hi : RunsAs i op) :
    ChangesOnly (InstrWrites i s.inputs) s t := by
  have henter : ChangesOnly (InstrWrites i s.inputs) s (enterOp op s) := .of_same rfl rfl rfl rfl rfl rfl rfl rfl
  have hrun : Within op s.inputs (enterOp op s) t := toOutcome_next_of_answers (continueOp_within (enterOp op s)) h
  exact henter.trans (hrun.instr hi)

theorem startBus_changesOnly (h : startBus op s = .next t) (hi : RunsAs i op) :
    ChangesOnly (InstrWrites i s.inputs) s t := by
  unfold startBus at h
  split at h
  · cases h
    exact .refl s
  · split at h
    · cases h
    · exact enterOp_run_changesOnly h hi

theorem execInit_changesOnly (h : execInit s = .next t) : ChangesOnly (InstrWrites .init s.inputs) s t := by
  unfold execInit at h
  split at h
  · cases h
    exact .refl s
  · have hoff : ChangesOnly (InstrWrites .init s.inputs) s { s with initok := false } := by
      intro p
      cases p <;> simp [StatePart.Kept, InstrWrites]
    exact hoff.trans (enterOp_run_changesOnly h rfl)

theorem execTick_changesOnly (h : execTick s = .next t) : ChangesOnly (InstrWrites .tick s.inputs) s t := by
  unfold execTick at h
  split at h
  · cases h
    exact .refl s
  · split at h
    · cases h
      exact noteOverrun_changesOnly (.inl rfl) (.inl rfl) s
    · exact startBus_changesOnly h rfl

/-- A wire command of one byte is not an operation of the handler. -/
theorem act_send_changesOnly {b : Byte} (h : toOutcome (act (.send b) s) = .next t) :
    ChangesOnly (InstrWrites i s.inputs) s t :=
  Within.instr (op := .idle) (toOutcome_next_of_answers (act_silent_within (Within.start .idle s) rfl) h) trivial

theorem sendAll_changesOnly {bs : List Byte} (h : toOutcome (sendAll bs s) = .next t) :
    ChangesOnly (InstrWrites i s.inputs) s t :=
  Within.instr (op := .idle) (toOutcome_next_of_answers (sendAll_within (Within.start .idle s)) h) trivial

theorem execRdata_changesOnly (h : execRdata s = .next t) : ChangesOnly (InstrWrites i s.inputs) s t := by
  refine Within.instr (op := .idle) (toOutcome_next_of_answers ?_ h) trivial
  refine answers_andThen (act_silent_within (Within.start .idle s) rfl) fun _ h₁ => ?_
  refine answers_andThen (act_silent_within h₁ rfl) fun _ h₂ => ?_
  refine answers_andThen (act_silent_within h₂ rfl) fun _ h₃ => ?_
  exact answers_andThen (act_silent_within h₃ rfl) fun _ h₄ => act_silent_within h₄ rfl

/-- A pure operation writes what its result says, or nothing when it is not accepted (30 R111). -/
theorem pureOp_changesOnly {acc : Bool} {f : State → State} {W : StatePart → Prop} (h : pureOp acc f s = .next t)
    (hf : ChangesOnly W s (f s)) : ChangesOnly W s t := by
  rcases pureOp_next h with rfl | ⟨-, -, rfl⟩
  · exact .refl t
  · exact hf.trans (.of_same rfl rfl rfl rfl rfl rfl rfl rfl)

/-- Every instruction writes only what it may. -/
theorem exec_changesOnly (h : exec i s = .next t) : ChangesOnly (InstrWrites i s.inputs) s t := by
  cases i
  case wakeup | rdatac | sdatac | selfcal | selfocal | selfgcal | sysocal | sysgcal | sync | standby | reset | wakeup2 =>
    exact act_send_changesOnly h
  case rreg | wreg | dacframe => exact sendAll_changesOnly h
  case rdata => exact execRdata_changesOnly h
  case rdreg | wrreg | rdid | scan | dacwr => exact startBus_changesOnly h rfl
  case init => exact execInit_changesOnly h
  case tick => exact execTick_changesOnly h
  case cancel =>
    cases h
    exact cancelSession_changesOnly (by simp [InstrWrites]) (by simp [InstrWrites]) s
  case muxenc p n | setch k p n v =>
    unfold exec at h
    refine pureOp_changesOnly h (ChangesOnly.trans (fun part => ?_) (noteIllegal_changesOnly ?_ ?_ p n _))
    · cases part <;> simp [StatePart.Kept, InstrWrites]
    · simp [InstrWrites]
    · simp [InstrWrites]
  case gainenc | gaindec | setk | v2code | code2v | raw2v | ratesel | arm =>
    unfold exec at h
    refine pureOp_changesOnly h fun part => ?_
    cases part <;> simp [StatePart.Kept, InstrWrites]
  case start =>
    unfold exec at h
    refine pureOp_changesOnly h fun part => ?_
    by_cases htarget : s.sess.target = 0#32 <;> cases part <;> simp [StatePart.Kept, InstrWrites, htarget]
  case ldout c j v =>
    unfold exec at h
    refine pureOp_changesOnly h fun part => ?_
    by_cases hc : c = 0#1 <;> cases part <;> simp [StatePart.Kept, InstrWrites, hc]

end

/-! ### The statement -/

theorem DataRegs.eq_of_others {a b : DataRegs} (hmux : a.muxout = b.muxout) (hgain : a.gainout = b.gainout)
    (hvout : a.vout = b.vout) (hcode : a.code16 = b.code16) (hratecode : a.ratecode = b.ratecode)
    (hratehz : a.ratehz = b.ratehz) (hvolts : a.volts = b.volts) :
    a = { b with rdata := a.rdata, idnib := a.idnib } := by
  rw [← hmux, ← hgain, ← hvout, ← hcode, ← hratecode, ← hratehz, ← hvolts]

/-- A step that goes on with an operation writes only what the operation may. -/
theorem step_busy_changesOnly {s t : State} (hbusy : s.pc.op ≠ .idle) (h : step s = .next t) :
    ChangesOnly (OpWrites s.pc.op s.inputs) s t := by
  obtain ⟨-, ⟨-, hop⟩ | ⟨hidle, -⟩ | ⟨hidle, -⟩ | ⟨hidle, -⟩⟩ := step_next h
  · exact (toOutcome_next_of_answers (continueOp_within s) hop).changes
  all_goals exact absurd hidle hbusy

/-- Settles O18: part by part, from what an instruction and what an operation in progress may write. -/
theorem stateIsWrittenOnlyByItsOperations : Obligations.StateIsWrittenOnlyByItsOperations := by
  refine ⟨fun i s t h => ?_, fun s t hbusy h => ?_⟩
  · have hw (p : StatePart) (hp : ¬ p.Kept s t) : InstrWrites i s.inputs p := (exec_changesOnly h p).resolve_right hp
    exact ⟨hw .rdata, hw .idnib, hw .muxout, hw .gainout, hw .vout, hw .code16, hw .ratecode, hw .ratehz, hw .volts,
      hw .res, hw .ch, hw .chanCount, hw .initok, hw .illegal, hw .eHw, hw .eId, hw .eCh, hw .eRdy, hw .eTick,
      hw .overruns, hw .target, hw .nout, hw .outseq0, hw .outseq1, hw .buf, hw .cycle, hw .sched, hw .armed⟩
  · have hc := step_busy_changesOnly hbusy h
    have hw (p : StatePart) (hp : ¬ p.Kept s t) : OpWrites s.pc.op s.inputs p := (hc p).resolve_right hp
    have hkept (p : StatePart) (hp : ¬ OpWrites s.pc.op s.inputs p) : p.Kept s t := (hc p).resolve_left hp
    have hregs : t.regs = { s.regs with rdata := t.regs.rdata, idnib := t.regs.idnib } :=
      DataRegs.eq_of_others (hkept .muxout id) (hkept .gainout id) (hkept .vout id) (hkept .code16 id)
        (hkept .ratecode id) (hkept .ratehz id) (hkept .volts id)
    exact ⟨hw .rdata, hw .idnib, hregs, hw .res, hkept .ch id, hkept .chanCount id, hkept .illegal id, hw .initok,
      hw .eHw, hw .eId, hkept .eCh id, hw .eRdy, hw .eTick, hw .overruns, hkept .target id, hkept .nout id,
      hkept .outseq0 id, hkept .outseq1 id, hw .buf, hw .cycle, hw .sched, hw .armed⟩

end Sys2Proof.Machine

/-! What every part of a step keeps, every step keeps: the induction over a step packaged once, and the channel table
(10_state.md R28), the first invariant it gives. -/

namespace Sys2Proof.Machine

section
variable {P : State → Prop} {s : State}

theorem sendAll_keeps (hact : ∀ m s, P s → (act m s).Answers P) {bs : List Byte} (hs : P s) :
    (sendAll bs s).Answers P := by
  induction bs generalizing s with
  | nil => exact hs
  | cons b bs ih => exact answers_andThen (hact _ s hs) fun t ht => ih ht

theorem runCommands_keeps (hact : ∀ m s, P s → (act m s).Answers P) (hexec : ∀ i s t, P s → exec i s = .next t → P t)
    {n : Nat} {bytes : List Byte} (hs : P s) : (runCommands n bytes s).Answers P := by
  induction n generalizing bytes s with
  | zero => exact sendAll_keeps hact hs
  | succ n ih =>
    cases bytes with
    | nil => exact hs
    | cons b bs =>
      simp only [runCommands]
      split
      · exact answers_andThen (answers_ofOutcome fun t => hexec _ s t hs) fun t ht => ih ht
      · exact sendAll_keeps hact hs

theorem runDacBytes_keeps (hact : ∀ m s, P s → (act m s).Answers P) (hexec : ∀ i s t, P s → exec i s = .next t → P t)
    {bytes : List Byte} (hs : P s) : (runDacBytes bytes s).Answers P := by
  unfold runDacBytes
  split
  · exact answers_andThen (answers_ofOutcome fun t => hexec _ s t hs) fun t ht => sendAll_keeps hact ht
  · exact sendAll_keeps hact hs

/-- An outside frame is made of actions and instructions (log 13). -/
theorem runFrame_keeps (hact : ∀ m s, P s → (act m s).Answers P) (hexec : ∀ i s t, P s → exec i s = .next t → P t)
    {f : BusFrame} (hs : P s) : (runFrame f s).Answers P := by
  unfold runFrame
  refine answers_andThen (hact _ s hs) fun t ht => answers_andThen ?_ fun u hu => hact _ u hu
  cases f.dev with
  | adc => exact runCommands_keeps hact hexec ht
  | dac => exact runDacBytes_keeps hact hexec ht

/-- An idle edge moves the lines and runs an instruction at most. -/
theorem idleEdge_keeps (hexec : ∀ i s t, P s → exec i s = .next t → P t) (hlines : ∀ e s, P s → P (setLines e s))
    {e : Edge} {t : State} (hs : P s) (h : idleEdge e s = .next t) : P t := by
  have hl := hlines e s hs
  rcases idleEdge_next h with hi | hi | ⟨_, _, -, -, hi⟩ | rfl
  · exact hexec _ _ t hl hi
  · exact hexec _ _ t hl hi
  · exact hexec _ _ t hl hi
  · exact hl

/-- What every action, every instruction, the operation in progress and the lines keep, and what does not speak of the
edges and frames to come, every step keeps. -/
theorem step_keeps (hact : ∀ m s, P s → (act m s).Answers P) (hexec : ∀ i s t, P s → exec i s = .next t → P t)
    (hop : ∀ s, P s → (continueOp s).Answers P) (hlines : ∀ e s, P s → P (setLines e s))
    (htaken : ∀ s es fs, P s → P { s with inputs := es, frames := fs }) {t : State} (hs : P s)
    (h : step s = .next t) : P t := by
  obtain ⟨-, ⟨-, hrun⟩ | ⟨-, f, fs, -, hframe⟩ | ⟨-, -, e, es, -, hedge⟩ | ⟨-, -, -, rfl⟩⟩ := step_next h
  · exact toOutcome_next_of_answers (hop s hs) hrun
  · exact toOutcome_next_of_answers (runFrame_keeps hact hexec (htaken s s.inputs fs hs)) hframe
  · exact idleEdge_keeps hexec hlines (htaken s es s.frames hs) hedge
  · exact hs

end

/-! ### The channel table -/

/-- What holds of every state a part can answer, for two properties at once. -/
theorem Run.Answers.and {r : Run} {P Q : State → Prop} (h : r.Answers P) (k : r.Answers Q) :
    r.Answers fun s => P s ∧ Q s := by
  cases r with
  | go s => exact ⟨h, k⟩
  | halt s => exact ⟨h, k⟩
  | fault x => trivial
  | refuse x => trivial

theorem TableDerived.of_same {s t : State} (h : TableDerived s) (hcfg : t.cfg = s.cfg) (hch : t.ch = s.ch) :
    TableDerived t := by
  simpa only [TableDerived, hcfg, hch] using h

/-- The descriptor SETCH stores carries the two derived fields (42 R176). -/
theorem TableDerived.storeWrite {s t : State} (h : TableDerived s) {k : Nat} (hk : k < s.cfg.nchMax) (p n : Byte)
    (v : Volt) (hcfg : t.cfg = s.cfg) (hch : t.ch = storeWrite s.ch k (descriptor p n v)) : TableDerived t := by
  intro j d hd
  rw [hch, storeRead_write] at hd
  rw [hcfg]
  split at hd
  · next hj =>
    cases hd
    exact ⟨hj ▸ hk, rfl, rfl⟩
  · exact h j d hd

theorem execSetch_tableDerived {k : Nat} {p n : Byte} {v : Volt} {s t : State} (hs : TableDerived s)
    (h : exec (.setch k p n v) s = .next t) : TableDerived t := by
  rcases pureOp_next (show execSetch k p n v s = .next t from h) with rfl | ⟨-, hacc, rfl⟩
  · exact hs
  · have hk : k < s.cfg.nchMax := by simpa using (Bool.and_eq_true_iff.1 hacc).2
    exact hs.storeWrite hk p n v rfl rfl

/-- SETCH is the only instruction that writes the table (`exec_changesOnly`). -/
theorem exec_tableDerived {i : Instr} {s t : State} (hs : TableDerived s) (h : exec i s = .next t) :
    TableDerived t := by
  rcases exec_changesOnly h .ch with ⟨k, p, n, v, rfl⟩ | hch
  · exact execSetch_tableDerived hs h
  · exact hs.of_same (exec_recordGrows h).cfg hch

theorem continueOp_tableDerived {s : State} (hs : TableDerived s) : (continueOp s).Answers TableDerived :=
  ((continueOp_within s).and (continueOp_recordGrows s)).mono fun _ ⟨hwithin, hgrows⟩ =>
    hs.of_same hgrows.cfg ((hwithin.changes .ch).resolve_left id)

/-- Settles O15: only SETCH writes the table, and it derives the two fields. -/
theorem stepKeepsTableDerived : Obligations.StepKeepsTableDerived := fun _ _ =>
  step_keeps (fun m s hs => (act_opFrame m s).mono fun _ ht => hs.of_same ht.cfg ht.ch)
    (fun _ _ _ => exec_tableDerived) (fun _ => continueOp_tableDerived) (fun _ _ hs => hs.of_same rfl rfl)
    (fun _ _ _ hs => hs.of_same rfl rfl)

end Sys2Proof.Machine

/-! The canonical form of the index spaces and of the register memory (20_memory.md R60, R65): the stores stay in it
whichever part of a step runs. -/

namespace Sys2Proof.Machine

section
variable {s t : State}

/-- What an action list may change keeps the canonical form: CH, BUF and OUTSEQ are not written, REG and RES stay
canonical. -/
theorem Canonical.of_opFrame (hs : Canonical s) (h : OpFrame s t) : Canonical t := by
  obtain ⟨hmem, hres, hch, hbuf, hout0, hout1⟩ := hs
  exact ⟨h.memWf hmem, h.resWf hres, h.ch ▸ hch, h.buf ▸ hbuf, h.outseq0 ▸ hout0, h.outseq1 ▸ hout1⟩

/-- A new session whose three stores are canonical. -/
theorem Canonical.withSess (hs : Canonical s) {x : Session} (hbuf : storeWf x.buf = true)
    (hout0 : storeWf x.outseq0 = true) (hout1 : storeWf x.outseq1 = true) : Canonical { s with sess := x } := by
  obtain ⟨hmem, hres, hch, -⟩ := hs
  exact ⟨hmem, hres, hch, hbuf, hout0, hout1⟩

theorem act_canonical (m : Micro) (s : State) (hs : Canonical s) : (act m s).Answers Canonical :=
  (act_opFrame m s).mono fun _ => hs.of_opFrame

/-! ### The operation in progress -/

/-- The vector is stored entry by entry (60 R291 step 2). -/
theorem storeVector_canonical {js : List Nat} (hs : Canonical s) : (storeVector js s).Answers Canonical := by
  induction js generalizing s with
  | nil => exact hs
  | cons j js ih =>
    simp only [storeVector]
    split
    · split
      · have ⟨_, _, _, hbuf, hout0, hout1⟩ := hs
        exact ih (hs.withSess (storeWf_write _ _ _ hbuf) hout0 hout1)
      · trivial
    · trivial

/-- Counting the cycle and stopping the session write no store. -/
theorem tickDone_canonical (hs : Canonical s) : (tickDone s).Answers Canonical := by
  simp only [tickDone, finished]
  split <;> exact hs

theorem tickOutputs_canonical {first : Nat} (hs : Canonical s) : (tickOutputs first s).Answers Canonical :=
  answers_andThen ((runOutputs_opFrame _ _ s).mono fun _ => hs.of_opFrame) fun _ => tickDone_canonical

theorem continueTick_canonical (hs : Canonical s) : (continueTick s).Answers Canonical := by
  unfold continueTick
  split
  · refine answers_andThen ((runItems_opFrame _ _ s).mono fun _ => hs.of_opFrame) fun t ht => ?_
    exact answers_andThen (storeVector_canonical ht) fun u => tickOutputs_canonical
  · exact tickOutputs_canonical hs

/-- The operation in progress, the tick included. -/
theorem continueOp_canonical (hs : Canonical s) : (continueOp s).Answers Canonical := by
  by_cases h : s.pc.op = .tick
  · simpa only [continueOp, h] using continueTick_canonical hs
  · exact (continueOp_opFrame s h).mono fun _ => hs.of_opFrame

/-! ### The instructions -/

theorem enterOp_run_canonical {op : Op} (hs : Canonical s) (h : toOutcome (continueOp (enterOp op s)) = .next t) :
    Canonical t :=
  toOutcome_next_of_answers (continueOp_canonical (hs.of_opFrame (enterOp_opFrame op s))) h

theorem startBus_canonical {op : Op} (hs : Canonical s) (h : startBus op s = .next t) : Canonical t := by
  unfold startBus at h
  split at h
  · cases h
    exact hs
  · split at h
    · cases h
    · exact enterOp_run_canonical hs h

theorem execInit_canonical (hs : Canonical s) (h : execInit s = .next t) : Canonical t := by
  unfold execInit at h
  split at h
  · cases h
    exact hs
  · exact enterOp_run_canonical (s := { s with initok := false }) hs h

theorem execTick_canonical (hs : Canonical s) (h : execTick s = .next t) : Canonical t := by
  unfold execTick at h
  split at h
  · cases h
    exact hs
  · split at h
    · cases h
      exact hs
    · exact startBus_canonical hs h

/-- The five actions of the wire command RDATA (30 R94). -/
theorem execRdata_canonical (hs : Canonical s) (h : execRdata s = .next t) : Canonical t := by
  refine toOutcome_next_of_answers ?_ h
  refine answers_andThen (act_canonical _ s hs) fun t₁ h₁ => ?_
  refine answers_andThen (act_canonical _ t₁ h₁) fun t₂ h₂ => ?_
  refine answers_andThen (act_canonical _ t₂ h₂) fun t₃ h₃ => ?_
  exact answers_andThen (act_canonical _ t₃ h₃) (act_canonical _)

theorem cancelSession_canonical (hs : Canonical s) : Canonical (cancelSession s) := by
  unfold cancelSession
  split <;> exact hs

/-- A pure operation keeps the canonical form when what it writes does; finishing writes no store. -/
theorem pureOp_canonical {acc : Bool} {f : State → State} (hs : Canonical s) (h : pureOp acc f s = .next t)
    (hf : Canonical (f s)) : Canonical t := by
  rcases pureOp_next h with rfl | ⟨-, -, rfl⟩
  · exact hs
  · exact hf

/-- SETCH writes one entry of CH (42 R176). -/
theorem execSetch_canonical {k : Nat} {p n : Byte} {v : Volt} (hs : Canonical s)
    (h : execSetch k p n v s = .next t) : Canonical t := by
  refine pureOp_canonical hs h ?_
  obtain ⟨hmem, hres, hch, hsess⟩ := hs
  exact ⟨hmem, hres, storeWf_write _ _ _ hch, hsess⟩

/-- ARM leaves each of the session's stores as it is or empties it (60 R286). -/
theorem execArm_canonical {target : Count} {nout : BitVec 2} (hs : Canonical s)
    (h : execArm target nout s = .next t) : Canonical t := by
  refine pureOp_canonical hs h ?_
  have ⟨_, _, _, _, hout0, hout1⟩ := hs
  refine hs.withSess storeWf_nil ?_ ?_
  · show storeWf (if 0 < nout.toNat then [] else s.sess.outseq0) = true
    split
    · exact storeWf_nil
    · exact hout0
  · show storeWf (if 1 < nout.toNat then [] else s.sess.outseq1) = true
    split
    · exact storeWf_nil
    · exact hout1

/-- START writes the scheduler's state and the timer only (60 R287). -/
theorem execStart_canonical (hs : Canonical s) (h : execStart s = .next t) : Canonical t := by
  refine pureOp_canonical hs h ?_
  dsimp only
  split <;> exact hs

/-- LDOUT writes one entry of one output sequence (60 R288). -/
theorem execLdout_canonical {c : BitVec 1} {i : Count} {code : BitVec 16} (hs : Canonical s)
    (h : execLdout c i code s = .next t) : Canonical t := by
  refine pureOp_canonical hs h ?_
  have ⟨_, _, _, hbuf, hout0, hout1⟩ := hs
  dsimp only
  split
  · exact hs.withSess hbuf (storeWf_write _ _ _ hout0) hout1
  · exact hs.withSess hbuf hout0 (storeWf_write _ _ _ hout1)

/-- Every instruction, by the shape of its meaning: the exchange of its bytes, a bus operation, or a pure operation. -/
theorem exec_canonical {i : Instr} (hs : Canonical s) (h : exec i s = .next t) : Canonical t := by
  cases i
  case wakeup | rdatac | sdatac | selfcal | selfocal | selfgcal | sysocal | sysgcal | sync | standby | reset | wakeup2 =>
    exact toOutcome_next_of_answers (act_canonical (.send _) s hs) h
  case rreg | wreg | dacframe => exact toOutcome_next_of_answers (sendAll_keeps act_canonical hs) h
  case rdata => exact execRdata_canonical hs h
  case rdreg | wrreg | rdid | scan | dacwr => exact startBus_canonical hs h
  case init => exact execInit_canonical hs h
  case tick => exact execTick_canonical hs h
  case cancel =>
    cases h
    exact cancelSession_canonical hs
  case setch => exact execSetch_canonical hs h
  case arm => exact execArm_canonical hs h
  case start => exact execStart_canonical hs h
  case ldout => exact execLdout_canonical hs h
  case muxenc | gainenc | gaindec | setk | v2code | code2v | raw2v | ratesel =>
    unfold exec at h
    exact pureOp_canonical hs h hs

end

/-- Settles O12: every action, every instruction and the operation in progress keep the canonical form. -/
theorem stepKeepsStoresCanonical : Obligations.StepKeepsStoresCanonical := fun _ _ =>
  step_keeps act_canonical (fun _ _ _ => exec_canonical) (fun _ => continueOp_canonical) (fun _ _ hs => hs)
    (fun _ _ _ hs => hs)

end Sys2Proof.Machine

/-! Words and instructions (30_encoding.md): the decoder takes back what the assembly of R91 to R110 makes, and accepts
nothing else of a command than R92 and R119 allow. -/

namespace Sys2Proof

variable {C : WireCodes}

/-- An accepted word stays accepted under a map, and only an accepted one becomes accepted. -/
theorem except_map_eq_ok {ε α β : Type} {x : Except ε α} {f : α → β} {b : β} :
    x.map f = .ok b ↔ ∃ a, x = .ok a ∧ f a = b := by
  cases x <;> simp [Except.map]

/-! ### Register commands (R92, R119) -/

/-- The count byte and one data byte per register are read as they were written. -/
theorem decodeRegister_countByte {r n : BitVec 4} {data : List Byte} (hburst : burstInMap r n = true)
    (hlen : data.length = n.toNat + 1) :
    decodeRegister r (countByte n :: data) = .ok (n, data, []) := by
  simp [decodeRegister, hiNibble_countByte, loNibble_countByte, hburst, ← hlen]

/-- What the register decode accepts: a burst inside the map, one data byte per register, and the rest after them. -/
theorem decodeRegister_ok {r n : BitVec 4} {bytes data rest : List Byte}
    (h : decodeRegister r bytes = .ok (n, data, rest)) :
    burstInMap r n = true ∧ data.length = n.toNat + 1 ∧ ∃ cb, bytes = cb :: (data ++ rest) := by
  cases bytes with
  | nil => cases h
  | cons cb tail =>
    simp only [decodeRegister] at h
    split at h
    · cases h
    · split at h
      · cases h
      · next hburst =>
        split at h
        · cases h
        · next hlen =>
          cases h
          refine ⟨by simpa using hburst, ?_, cb, by rw [List.take_append_drop]⟩
          rw [List.length_take]
          omega

/-! ### Wire commands (R91 to R94, 40_register_access.md R141) -/

theorem decodeWire_rreg (h : C.wf = true) {r n : BitVec 4} {data : List Byte} (hburst : burstInMap r n = true)
    (hlen : data.length = n.toNat + 1) :
    decodeWire C (commandByte C.rreg r :: countByte n :: data) = .ok (.rreg r n, []) := by
  simp [decodeWire, classify_rreg C h, decodeRegister_countByte hburst hlen, Except.map]

theorem decodeWire_wreg (h : C.wf = true) {r n : BitVec 4} {data : List Byte} (hburst : burstInMap r n = true)
    (hlen : data.length = n.toNat + 1) :
    decodeWire C (commandByte C.wreg r :: countByte n :: data) = .ok (.wreg r n data, []) := by
  simp [decodeWire, classify_wreg C h, decodeRegister_countByte hburst hlen, Except.map]

/-- The instruction of a register command is the register decode's answer, put into the constructor of the command. -/
theorem decodeRegister_map_ok {r : BitVec 4} {bytes rest : List Byte} {i : Instr}
    {make : BitVec 4 → List Byte → Instr}
    (h : (decodeRegister r bytes).map (fun x => (make x.1 x.2.1, x.2.2)) = .ok (i, rest)) :
    ∃ n data, i = make n data ∧ burstInMap r n = true ∧ data.length = n.toNat + 1 ∧ rest <:+ bytes := by
  obtain ⟨⟨n, data, rest⟩, hreg, heq⟩ := except_map_eq_ok.1 h
  cases heq
  obtain ⟨hburst, hlen, cb, rfl⟩ := decodeRegister_ok hreg
  exact ⟨n, data, rfl, hburst, hlen, (List.suffix_append data rest).trans (List.suffix_cons cb _)⟩

/-- What the wire decode accepts is a well-formed command of at least one byte, and leaves the end of the frame. -/
theorem decodeWire_ok {bytes rest : List Byte} {i : Instr} (h : decodeWire C bytes = .ok (i, rest)) :
    i.wellFormed = true ∧ ∃ b tail, bytes = b :: tail ∧ rest <:+ tail := by
  cases bytes with
  | nil => cases h
  | cons b tail =>
    suffices hcmd : i.wellFormed = true ∧ rest <:+ tail from ⟨hcmd.1, b, tail, rfl, hcmd.2⟩
    simp only [decodeWire] at h
    cases hc : classify C b with
    | none =>
      rw [hc] at h
      cases h
    | some c =>
      rw [hc] at h
      cases c
      case rreg r =>
        obtain ⟨n, data, rfl, hburst, -, hrest⟩ := decodeRegister_map_ok (make := fun n _ => .rreg r n) h
        exact ⟨hburst, hrest⟩
      case wreg r =>
        obtain ⟨n, data, rfl, hburst, hlen, hrest⟩ := decodeRegister_map_ok (make := .wreg r) h
        exact ⟨by simp [Instr.wellFormed, hburst, hlen], hrest⟩
      case rdata =>
        dsimp only at h
        split at h
        · cases h
        · cases h
          exact ⟨rfl, List.drop_suffix 3 tail⟩
      all_goals
        cases h
        exact ⟨rfl, List.suffix_rfl⟩

/-! ### Output frames (R95, R103) -/

theorem decodeDac_dacCommand (h : C.wf = true) (c : BitVec 1) (code : BitVec 16) :
    decodeDac C [dacCommand C c, code.extractLsb' 8 8, code.extractLsb' 0 8] = .ok (.dacframe c code, []) := by
  have hcode := code_bytes code
  obtain rfl | rfl := BitVec.eq_zero_or_eq_one c
  · simp [decodeDac, dacCommand, hcode]
  · simp [decodeDac, dacCommand, (WireCodes.wf_dacCmd h).symm, hcode]

/-- An output frame that is accepted is a DACFRAME, which every pair of operands makes well-formed. -/
theorem decodeDac_ok {bytes rest : List Byte} {i : Instr} (h : decodeDac C bytes = .ok (i, rest)) :
    ∃ c code, i = .dacframe c code := by
  unfold decodeDac at h
  split at h
  · split at h
    · cases h
      exact ⟨_, _, rfl⟩
    · split at h
      · cases h
        exact ⟨_, _, rfl⟩
      · cases h
  · cases h

/-! ### Host operations (R110, R121) -/

/-- The instructions that a select code asks for (R110). -/
def Instr.isHostOp : Instr → Bool
  | .rdreg _ | .wrreg _ _ | .rdid | .muxenc _ _ | .gainenc _ | .gaindec _ | .setch _ _ _ _ | .setk _ | .scan | .init
  | .dacwr _ _ | .v2code _ _ | .code2v _ _ | .raw2v _ _ | .ratesel _ | .arm _ _ | .start | .cancel | .ldout _ _ _ => true
  | _ => false

theorem decodeHost_isHostOp {h : HostPort} {i : Instr} (hi : decodeHost h = .ok i) : i.isHostOp = true := by
  unfold decodeHost at hi
  split at hi <;> cases hi <;> rfl

theorem Instr.isHostOp_wellFormed {i : Instr} (h : i.isHostOp = true) : i.wellFormed = true := by
  cases i
  case rreg | wreg => cases h
  all_goals rfl

theorem decodeHost_cancel {h : HostPort} (hop : h.cmdOp = 0x11#5) : decodeHost h = .ok .cancel := by
  simp [decodeHost, hop]

/-- Select codes from 0x13 on are unassigned (R121). -/
theorem decodeHost_unassigned {h : HostPort} (hop : 0x13#5 ≤ h.cmdOp) : decodeHost h = .error .unassignedOp := by
  have hle : 0x13 ≤ h.cmdOp.toNat := hop
  unfold decodeHost
  split
  any_goals omega
  rfl

/-! ### The round trip -/

/-- Every instruction but the second wake opcode decodes to itself, whatever valuation meets R12. -/
theorem decode_encode (h : C.wf = true) {i : Instr} (hwf : i.wellFormed = true) (hi : i ≠ .wakeup2) :
    decode C (encode C i) = .ok i := by
  obtain ⟨hrdata, hwakeup, hrdatac, hsdatac, hselfcal, hselfocal, hselfgcal, hsysocal, hsysgcal, hsync, hstandby, hreset,
    -⟩ := classify_eq h
  cases i
  case wakeup | rdata | rdatac | sdatac | selfcal | selfocal | selfgcal | sysocal | sysgcal | sync | standby | reset =>
    simp [encode, decode, decodeWire, Except.map, *]
  case wakeup2 => exact absurd rfl hi
  case rreg r n =>
    have hwire := decodeWire_rreg h (data := List.replicate (n.toNat + 1) C.filler) hwf List.length_replicate
    simp only [encode, decode, hwire, Except.map]
  case wreg r n data =>
    obtain ⟨hburst, hlen⟩ : burstInMap r n = true ∧ data.length = n.toNat + 1 := by
      simpa [Instr.wellFormed] using hwf
    simp only [encode, decode, decodeWire_wreg h hburst hlen, Except.map]
  case dacframe c code => simp only [encode, decode, decodeDac_dacCommand h, Except.map]
  all_goals rfl

theorem decode_encode_wakeup2 (h : C.wf = true) :
    decode C (encode C .wakeup2) = .ok (if C.wakeup2 = C.wakeup then .wakeup else .wakeup2) := by
  split
  · next heq =>
    have hsame : encode C .wakeup2 = encode C .wakeup := by simp only [encode, heq]
    rw [hsame]
    exact decode_encode h rfl (by decide)
  · next hne =>
    obtain ⟨-, -, -, -, -, -, -, -, -, -, -, -, hwakeup2⟩ := classify_eq h
    simp [encode, decode, decodeWire, Except.map, hwakeup2 hne]

/-- Settles O1: the second wake opcode apart, every instruction is read back as itself. -/
theorem decodeOfEncodeIsTheInstruction : Obligations.DecodeOfEncodeIsTheInstruction := by
  intro C i h hwf
  by_cases hi : i = .wakeup2
  · subst hi
    simpa using decode_encode_wakeup2 h
  · simpa [hi] using decode_encode h hwf hi

/-- Settles O2, by the form of the words. -/
theorem decodeAcceptsOnlyWellFormed : Obligations.DecodeAcceptsOnlyWellFormed := by
  intro C e i h
  cases e with
  | wire bytes =>
    obtain ⟨x, hx, rfl⟩ := except_map_eq_ok.1 h
    exact (decodeWire_ok hx).1
  | dac bytes =>
    obtain ⟨x, hx, rfl⟩ := except_map_eq_ok.1 h
    obtain ⟨c, code, hframe⟩ := decodeDac_ok hx
    rw [hframe]
    rfl
  | host port => exact Instr.isHostOp_wellFormed (decodeHost_isHostOp h)
  | tick =>
    cases h
    rfl

/-- Settles O3: closed words under the default bytes, evaluated. -/
theorem sampleWordsDecode : Obligations.SampleWordsDecode := by
  unfold Obligations.SampleWordsDecode
  decide

end Sys2Proof

/-! What one clock edge does while an operation is in progress, and what the next step runs: the operation offered at an
idle edge, or the commands of an outside frame (30_encoding.md R90, R110, R111; 60_exceptions.md R276, R282). -/

namespace Sys2Proof.Machine

variable {s : State} {e : Edge} {h : HostPort}

/-! ### An edge during an operation (R276, R282, R289) -/

/-- A CANCEL of a session stops it, and takes the tick of its own edge with it (log 35). -/
theorem busyEdge_cancel (hcancel : offersCancel e = true) (hsess : s.sess.sched = .armed ∨ s.sess.sched = .running) :
    busyEdge e s = stopSession (setLines e s) := by
  simp [busyEdge, cancelSession, hcancel, hsess]

/-- Where no session is cancelled, a tick of the armed timer is an overrun, and nothing else is taken. -/
theorem busyEdge_no_cancel
    (hnone : ¬(offersCancel e = true ∧ (s.sess.sched = .armed ∨ s.sess.sched = .running))) :
    busyEdge e s =
      if e.tick = true ∧ s.sess.armed = true then noteOverrun (setLines e s) else setLines e s := by
  have hkept : (if offersCancel e then cancelSession (setLines e s) else setLines e s) = setLines e s := by
    split
    · next hcancel => exact if_neg fun hsess => hnone ⟨hcancel, hsess⟩
    · rfl
  simp [busyEdge, hkept]

/-- Settles O7: a session is cancelled, or else a tick of the armed timer counted, or else only the lines move. -/
theorem edgeDuringAnOperation : Obligations.EdgeDuringAnOperation := by
  intro s e
  by_cases hcancel : offersCancel e = true ∧ (s.sess.sched = .armed ∨ s.sess.sched = .running)
  · rw [busyEdge_cancel hcancel.1 hcancel.2]
    simp [hcancel, stopSession, setLines]
  · rw [busyEdge_no_cancel hcancel]
    by_cases htick : e.tick = true ∧ s.sess.armed = true
    · simp [hcancel, htick, noteOverrun, setLines, setFlag]
    · simp [hcancel, htick, setLines]

/-! ### An operation offered while one is in progress (R111, R26) -/

theorem execInit_busy (hbusy : s.pc.op ≠ .idle) : execInit s = .next s := by
  simp [execInit, busy, hbusy]

/-- Settles O19: a bus operation is not accepted while BUSY, nor is a pure one. -/
theorem busyRefusesNewOperations : Obligations.BusyRefusesNewOperations := by
  intro i s h hbusy hdecode hne
  have hhost := decodeHost_isHostOp hdecode
  cases i
  case cancel => exact absurd rfl hne
  case rdreg | wrreg | rdid | scan | dacwr => exact startBus_busy hbusy
  case init => exact execInit_busy hbusy
  case muxenc | gainenc | gaindec | setch | setk | v2code | code2v | raw2v | ratesel | arm | start | ldout =>
    unfold exec
    exact pureOp_not_accepted (.inl hbusy)
  all_goals cases hhost

/-! ### An operation offered at an idle edge (R110, R121, R282) -/

theorem offersCancel_iff (hcmd : e.cmd = some h) : offersCancel e = true ↔ h.cmdOp = 0x11#5 := by
  simp [offersCancel, hcmd]

/-- No read and no tick with it, the operation the ports ask for is executed. -/
theorem idleEdge_decoded {i : Instr} (hread : e.read = none) (hcmd : e.cmd = some h) (hi : decodeHost h = .ok i)
    (htick : e.tick = false ∨ s.sess.armed = false ∨ h.cmdOp = 0x11#5) : idleEdge e s = exec i (setLines e s) := by
  have hcancel := offersCancel_iff hcmd
  by_cases hop : h.cmdOp = 0x11#5
  · obtain rfl : Instr.cancel = i := Except.ok.inj ((decodeHost_cancel hop).symm.trans hi)
    simp [idleEdge, hread, hcancel, hop]
  · rcases htick with htick | harmed | hop'
    · simp [idleEdge, hread, hcancel, hop, hcmd, hi, htick]
    · simp [idleEdge, hread, hcancel, hop, hcmd, hi, harmed]
    · exact absurd hop' hop

theorem unassigned_ne_cancel (hop : 0x13#5 ≤ h.cmdOp) : h.cmdOp ≠ 0x11#5 := by
  bv_omega

/-- An unassigned select code is never accepted: only the lines move. -/
theorem idleEdge_unassigned (hread : e.read = none) (hcmd : e.cmd = some h) (hop : 0x13#5 ≤ h.cmdOp)
    (htick : e.tick = false ∨ s.sess.armed = false) : idleEdge e s = .next (setLines e s) := by
  have hcancel := offersCancel_iff hcmd
  have hnocancel := unassigned_ne_cancel hop
  have hrejected := decodeHost_unassigned hop
  rcases htick with htick | harmed
  · simp [idleEdge, hread, hcancel, hnocancel, hcmd, hrejected, htick]
  · simp [idleEdge, hread, hcancel, hnocancel, hcmd, hrejected, harmed]

/-- Settles O4: the step takes the idle edge, whose select code asks for one operation or is unassigned. -/
theorem stepRunsTheOfferedOperation : Obligations.StepRunsTheOfferedOperation := by
  intro s e es h hrun hidle hframes hinputs hread hcmd htick
  rw [step_idleEdge hrun hidle hframes hinputs]
  exact ⟨fun i hi => idleEdge_decoded hread hcmd hi htick,
    fun hop => idleEdge_unassigned hread hcmd hop (htick.imp_right (Or.resolve_right · (unassigned_ne_cancel hop)))⟩

/-! ### An outside frame (R90, R95; log 13) -/

/-- Whole commands in a frame are executed one after the other, and the parameters they are decoded under stay. -/
theorem runCommands_commandsOf {is : List Instr} {bytes : List Byte} {n : Nat} {s : State}
    (hholds : CommandsOf s.cfg.codes bytes is) (hn : bytes.length ≤ n) :
    runCommands n bytes s = ofOutcome (execAll is s) := by
  induction is generalizing bytes n s with
  | nil =>
    obtain rfl : bytes = [] := hholds
    cases n <;> rfl
  | cons i is ih =>
    obtain ⟨rest, hfirst, hrest⟩ := hholds
    obtain ⟨-, b, tail, rfl, hsuffix⟩ := decodeWire_ok hfirst
    obtain ⟨n, rfl⟩ : ∃ m, n = m + 1 := Nat.exists_eq_add_one.2 ((Nat.succ_pos _).trans_le hn)
    have hshort : rest.length ≤ n := hsuffix.length_le.trans (by simpa using hn)
    simp only [runCommands, hfirst, execAll]
    cases hexec : exec i s with
    | next t =>
      have hcfg : t.cfg = s.cfg := (exec_recordGrows hexec).cfg
      exact ih (hcfg ▸ hrest) hshort
    | fault r => rfl
    | refused r => rfl

/-- A whole output frame is its one instruction. -/
theorem runDacBytes_whole {bytes : List Byte} {i : Instr} {s : State}
    (hwhole : decodeDac s.cfg.codes bytes = .ok (i, [])) : runDacBytes bytes s = ofOutcome (execAll [i] s) := by
  simp only [runDacBytes, hwhole, execAll]
  cases exec i s <;> rfl

theorem act_select (dev : Dev) (s : State) : act (.select dev) s = .go (setCs dev false (absorb s.inputs s)) := rfl

theorem act_release_nothing (dev : Dev) (s : State) :
    act (.release dev .nothing) s = .go (setCs dev true (absorb s.inputs s)) := rfl

/-- A frame of whole commands is these commands between the two edges of its select. -/
theorem runFrame_holds {f : BusFrame} {is : List Instr} {s : State} (hholds : FrameHolds s.cfg.codes f is) :
    runFrame f s =
      andThen (ofOutcome (execAll is (setCs f.dev false (absorb s.inputs s)))) (act (.release f.dev .nothing)) := by
  obtain ⟨dev, bytes⟩ := f
  have hcodes : (setCs dev false (absorb s.inputs s)).cfg.codes = s.cfg.codes := by simp
  cases dev with
  | adc =>
    have hrun := runCommands_commandsOf (hcodes ▸ hholds) le_rfl
    simp only [runFrame, act_select, andThen_go, hrun]
  | dac =>
    obtain ⟨i, rfl, hwhole⟩ := hholds
    have hrun := runDacBytes_whole (hcodes ▸ hwhole)
    simp only [runFrame, act_select, andThen_go, hrun]

/-- An idle block takes an outside frame before the next edge. -/
theorem step_runFrame {f : BusFrame} {fs : List BusFrame} (hrun : s.runFaulted = false) (hidle : s.pc.op = .idle)
    (hframes : s.frames = f :: fs) : step s = toOutcome (runFrame f { s with frames := fs }) := by
  simp [step, nextStep, busy, hrun, hidle, hframes]

/-- Settles O5: the step runs the frame, and what stops one of its commands stops the step. -/
theorem stepRunsTheWireCommand : Obligations.StepRunsTheWireCommand := by
  intro s f fs is hrun hidle hframes hholds
  rw [step_runFrame hrun hidle hframes, runFrame_holds (s := { s with frames := fs }) hholds]
  cases execAll is (setCs f.dev false (absorb s.inputs { s with frames := fs })) with
  | next t => simp only [ofOutcome, andThen_go, act_release_nothing, toOutcome_go]
  | fault r => rfl
  | refused r => rfl

end Sys2Proof.Machine

/-! Between steps no frame is open (10_state.md R22, 40_register_access.md R134, 60_exceptions.md R277,
70_reset_and_hazards.md R336): the phases of the bus, which action takes which phase to which, and the action lists, each
of which opens and closes its own frames. -/

namespace Sys2Proof.Machine

/-! ### Where a part ends -/

/-- What holds of the state a part goes on in, and what of the state it stops in. -/
def Run.Ends (r : Run) (P Q : State → Prop) : Prop :=
  match r with
  | .go s => P s
  | .halt s => Q s
  | .fault _ => True
  | .refuse _ => True

section
variable {r : Run} {P P' Q Q' : State → Prop}

theorem Run.Ends.mono (h : r.Ends P Q) (hP : ∀ s, P s → P' s) (hQ : ∀ s, Q s → Q' s) : r.Ends P' Q' := by
  cases r with
  | go s => exact hP s h
  | halt s => exact hQ s h
  | fault x => trivial
  | refuse x => trivial

theorem Run.Ends.answers (h : r.Ends P P) : r.Answers P := by
  cases r <;> exact h

/-- A part that never stops early goes on in what it answers. -/
theorem Run.Answers.ends (h : r.Answers P) (hstop : ∀ s, r ≠ .halt s) : r.Ends P Q := by
  cases r with
  | go s => exact h
  | halt s => exact absurd rfl (hstop s)
  | fault x => trivial
  | refuse x => trivial

theorem ends_andThen {f : State → Run} (hr : r.Ends P Q) (hf : ∀ s, P s → (f s).Ends P' Q) :
    (andThen r f).Ends P' Q := by
  cases r with
  | go s => exact hf s hr
  | halt s => exact hr
  | fault x => trivial
  | refuse x => trivial

theorem andThen_go_right (r : Run) : andThen r .go = r := by
  cases r <;> rfl

/-- An instruction inside a frame stops the frame's run only with a fault or a refusal. -/
theorem ends_ofOutcome {o : Host.Outcome State Fault Refusal} (h : ∀ t, o = .next t → P t) :
    (ofOutcome o).Ends P Q :=
  (answers_ofOutcome h).ends fun _ => by cases o <;> nofun

end

/-! ### The exchanges never stop early, and touch the chip they go to only -/

theorem normalCommand_ne_halt (c : WireCmd) (s t : State) : normalCommand c s ≠ .halt t := by
  cases c <;> nofun

theorem commandExchange_ne_halt (b : Byte) (s t : State) : commandExchange b s ≠ .halt t := by
  unfold commandExchange
  dsimp only
  split
  case h_2 => exact normalCommand_ne_halt _ _ t
  all_goals nofun

theorem adcExchange_ne_halt (b : Byte) (s t : State) : adcExchange b s ≠ .halt t := by
  unfold adcExchange
  split
  · nofun
  · split
    case h_1 => exact commandExchange_ne_halt b s t
    case h_4 =>
      unfold countExchange
      split
      · nofun
      · split <;> nofun
    all_goals nofun

theorem dacExchange_ne_halt (b : Byte) (s t : State) : dacExchange b s ≠ .halt t := by
  unfold dacExchange
  dsimp only
  split
  case h_1 =>
    split
    · nofun
    · split <;> nofun
  all_goals nofun

theorem exchange_ne_halt (b : Byte) (s t : State) : exchange b s ≠ .halt t := by
  unfold exchange
  split
  · exact adcExchange_ne_halt b s t
  · exact dacExchange_ne_halt b s t
  · nofun
  · nofun

theorem xfer_ne_halt (b : Byte) (s t : State) : xfer b s ≠ .halt t := by
  unfold xfer
  cases h : exchange b s with
  | halt u => exact absurd h (exchange_ne_halt b s u)
  | go u => nofun
  | fault x => nofun
  | refuse x => nofun

theorem normalCommand_dac (c : WireCmd) (s : State) : (normalCommand c s).Answers fun t => t.dac = s.dac := by
  cases c
  case rreg r => exact beginRead_dac s r
  all_goals rfl

theorem commandExchange_dac (b : Byte) (s : State) : (commandExchange b s).Answers fun t => t.dac = s.dac := by
  unfold commandExchange
  dsimp only
  split
  case h_2 => exact normalCommand_dac _ (drawRx s)
  all_goals trivial

/-- A byte to the converter chip leaves the output chip alone. -/
theorem adcExchange_dac (b : Byte) (s : State) : (adcExchange b s).Answers fun t => t.dac = s.dac := by
  unfold adcExchange
  split
  · rfl
  · split
    case h_1 => exact commandExchange_dac b s
    case h_4 =>
      unfold countExchange
      split
      · trivial
      · split
        · trivial
        · rfl
    case h_5 a m _ _ => exact readExchange_dac s a m
    all_goals trivial

/-- A byte to the output chip leaves the converter chip alone. -/
theorem dacExchange_adc (b : Byte) (s : State) : (dacExchange b s).Answers fun t => t.adc = s.adc := by
  unfold dacExchange
  dsimp only
  split
  case h_1 =>
    split
    · rfl
    · split
      · rfl
      · trivial
  all_goals trivial

/-! ### The phases of the bus -/

/-- No frame open, the frame of one chip open, or the reset line low between frames (45 R242). -/
inductive BusPhase where
  | closed
  | frame (dev : Dev)
  | reset
  deriving DecidableEq

/-- The lines and the two chips' places are those of the phase. -/
def AtPhase : BusPhase → State → Prop
  | .closed, s => s.csAdcN = true ∧ s.csDacN = true ∧ s.rstN = true ∧ s.adc.pst = .cmd ∧ s.dac.pst = .start
  | .frame .adc, s => s.csAdcN = false ∧ s.csDacN = true ∧ s.rstN = true ∧ s.dac.pst = .start
  | .frame .dac, s => s.csAdcN = true ∧ s.csDacN = false ∧ s.rstN = true ∧ s.adc.pst = .cmd
  | .reset, s => s.csAdcN = true ∧ s.csDacN = true ∧ s.rstN = false ∧ s.adc.pst = .cmd ∧ s.dac.pst = .start

theorem noFrameOpen_iff {s : State} : NoFrameOpen s ↔ AtPhase .closed s ∧ (s.pc.op = .idle ∨ AtWait s) := by
  simp only [NoFrameOpen, AtPhase]
  tauto

/-- A phase speaks of the select and reset lines and of the places of the two chips only. -/
theorem AtPhase.of_same {p : BusPhase} {s t : State} (h : AtPhase p s) (hadcN : t.csAdcN = s.csAdcN)
    (hdacN : t.csDacN = s.csDacN) (hrst : t.rstN = s.rstN) (hadc : t.adc.pst = s.adc.pst)
    (hdac : t.dac.pst = s.dac.pst) : AtPhase p t := by
  cases p with
  | frame dev => cases dev <;> simpa only [AtPhase, hadcN, hdacN, hrst, hadc, hdac] using h
  | closed | reset => simpa only [AtPhase, hadcN, hdacN, hrst, hadc, hdac] using h

theorem absorb_pst (es : List Edge) (s : State) : (absorb es s).adc.pst = s.adc.pst := by
  obtain ⟨c, hc⟩ := absorb_adc es s
  rw [hc]

theorem absorb_atPhase {p : BusPhase} {s : State} (h : AtPhase p s) (es : List Edge) : AtPhase p (absorb es s) :=
  h.of_same (by simp) (by simp) (by simp) (absorb_pst es s) (by simp)

/-- The phase after an action, none where the action has no place. -/
def Micro.phase : Micro → BusPhase → Option BusPhase
  | .delay _, p => some p
  | .config, .closed => some .closed
  | .waitRdy, .closed => some .closed
  | .rst true, .closed => some .closed
  | .rst true, .reset => some .closed
  | .rst false, .closed => some .reset
  | .select dev, .closed => some (.frame dev)
  | .release dev _, .frame dev' => if dev = dev' then some .closed else none
  | .send _, .frame dev => some (.frame dev)
  | .sendMux _, .frame dev => some (.frame dev)
  | .sendGf _, .frame dev => some (.frame dev)
  | .recv _, .frame dev => some (.frame dev)
  | _, _ => none

/-- An exchange in an open frame stays in it. -/
theorem xfer_atPhase {dev : Dev} {s : State} (h : AtPhase (.frame dev) s) (b : Byte) :
    (xfer b s).Ends (fun t => AtPhase (.frame dev) t ∧ t.pc = s.pc) fun _ => False := by
  have hchip : (xfer b s).Answers fun t =>
      (dev = .adc → t.dac = s.dac) ∧ (dev = .dac → t.adc = s.adc) := by
    cases dev with
    | adc =>
      obtain ⟨hadcN, hdacN, -⟩ := h
      have hdac := adcExchange_dac b s
      rw [← exchange_adc hadcN hdacN] at hdac
      exact answers_andThen (hdac.mono fun t ht => ⟨fun _ => ht, nofun⟩) fun _ ht => ht
    | dac =>
      obtain ⟨hadcN, hdacN, -⟩ := h
      have hadc := dacExchange_adc b s
      rw [← exchange_dac hadcN hdacN] at hadc
      exact answers_andThen (hadc.mono fun t ht => ⟨nofun, fun _ => ht⟩) fun _ ht => ht
  refine ((hchip.and (xfer_frame b s)).mono fun t ⟨hkept, hframe⟩ => ?_).ends (xfer_ne_halt b s)
  obtain ⟨_, _, _, _, _, _, _, rfl, -⟩ := hframe
  obtain ⟨hdac, hadc⟩ := hkept
  refine ⟨?_, rfl⟩
  cases dev with
  | adc =>
    obtain ⟨hadcN, hdacN, hrst, hstart⟩ := h
    exact ⟨hadcN, hdacN, hrst, (congrArg DacPeer.pst (hdac rfl)).trans hstart⟩
  | dac =>
    obtain ⟨hadcN, hdacN, hrst, hcmd⟩ := h
    exact ⟨hadcN, hdacN, hrst, (congrArg AdcPeer.pst (hadc rfl)).trans hcmd⟩

theorem withChannel_atPhase {dev : Dev} {s : State} (h : AtPhase (.frame dev) s) (k : Nat) (f : ChDesc → Byte) :
    (withChannel k (fun d => xfer (f d)) s).Ends (fun t => AtPhase (.frame dev) t ∧ t.pc = s.pc) fun _ => False := by
  unfold withChannel
  split
  · exact xfer_atPhase h _
  · trivial

/-! ### One action -/

/-- Where a part may stop early: no frame open, the operation over, or held where it stood in a WAITRDY. -/
def StopsClosed (m : Micro) (s t : State) : Prop :=
  AtPhase .closed t ∧ (t.pc.op = .idle ∨ (m = .waitRdy ∧ t.pc = s.pc))

theorem takeCondition_stopsClosed {s t : State} (h : AtPhase .closed t) (c : Condition) (m : Micro) :
    StopsClosed m s (takeCondition c t) :=
  ⟨h.of_same (by simp) (by simp) (by simp) (by simp) (by simp), .inl (by simp)⟩

theorem readyTimeout_stopsClosed {s t : State} (h : AtPhase .closed t) (m : Micro) :
    StopsClosed m s (readyTimeout t) :=
  takeCondition_stopsClosed (t := logAction .waitRdy t) h .readyTimeout m

theorem waitRdy_atPhase {s : State} (h : AtPhase .closed s) (es : List Edge) :
    (waitRdy es s).Ends (AtPhase .closed) (StopsClosed .waitRdy s) := by
  induction es generalizing s with
  | nil =>
    simp only [waitRdy]
    split
    · exact h
    · split
      · exact readyTimeout_stopsClosed (t := { s with inputs := [] }) h _
      · exact ⟨h, .inr ⟨rfl, rfl⟩⟩
  | cons e es ih =>
    have he : ∀ n, AtPhase .closed { busyEdge e s with inputs := es, polls := n } := fun n =>
      h.of_same (by simp) (by simp) (by simp) (by simp) (by simp)
    have hrest : ∀ n, (waitRdy es { busyEdge e s with inputs := es, polls := n }).Ends (AtPhase .closed)
        (StopsClosed .waitRdy s) := fun n => (ih (he n)).mono (fun _ => id) fun t ht => by
      simpa only [StopsClosed, busyEdge_pc] using ht
    simp only [waitRdy]
    split
    · exact hrest (busyEdge e s).polls
    · split
      · exact he 0
      · split
        · exact readyTimeout_stopsClosed (he _) _
        · exact hrest _

theorem setCs_high_atPhase {dev : Dev} {s : State} (h : AtPhase (.frame dev) s) :
    AtPhase .closed (setCs dev true s) := by
  cases dev <;> simp_all [AtPhase]

theorem applyPost_atPhase {s : State} (h : AtPhase .closed s) (m : Micro) (u : State) (post : Post) :
    (applyPost post s).Ends (AtPhase .closed) (StopsClosed m u) := by
  cases post with
  | checkIdentity =>
    simp only [applyPost]
    split
    · exact h
    · exact takeCondition_stopsClosed (t := storeIdentity s) h _ _
  | nothing | rdata | identity | sample | booted => exact h

/-- An action with a place in the phase leads to the next one. -/
theorem perform_atPhase {m : Micro} {p q : BusPhase} {s : State} (hm : m.phase p = some q) (h : AtPhase p s) :
    (perform m s).Ends (AtPhase q) (StopsClosed m s) := by
  have hsent : ∀ {dev : Dev} {r : Run},
      r.Ends (fun t => AtPhase (.frame dev) t ∧ t.pc = s.pc) (fun _ => False) →
        r.Ends (AtPhase (.frame dev)) (StopsClosed m s) := fun hr => hr.mono (fun _ ht => ht.1) fun _ => False.elim
  unfold Micro.phase at hm
  split at hm
  case h_1 =>
    cases hm
    exact h.of_same rfl rfl rfl rfl rfl
  case h_2 =>
    cases hm
    simp only [perform, configure]
    split
    · exact h
    · exact takeCondition_stopsClosed (t := logAction _ s) h _ _
  case h_3 =>
    cases hm
    exact waitRdy_atPhase h _
  case h_4 | h_5 | h_6 =>
    cases hm
    simp_all [perform, AtPhase, Run.Ends]
  case h_7 dev =>
    cases hm
    cases dev <;> simp_all [perform, AtPhase, Run.Ends]
  case h_8 dev post dev' =>
    split at hm
    · next hdev =>
      cases hm
      subst hdev
      exact applyPost_atPhase (setCs_high_atPhase h) _ s post
    · cases hm
  case h_9 b dev =>
    cases hm
    exact hsent (xfer_atPhase h b)
  case h_10 k dev =>
    cases hm
    exact hsent (withChannel_atPhase h k _)
  case h_11 k dev =>
    cases hm
    exact hsent (withChannel_atPhase h k _)
  case h_12 dst dev =>
    cases hm
    refine hsent (ends_andThen (xfer_atPhase h _) fun t ht => ?_)
    exact ⟨ht.1.of_same (by simp) (by simp) (by simp) (by simp) (by simp), by simpa using ht.2⟩
  case h_13 => cases hm

theorem act_atPhase {m : Micro} {p q : BusPhase} {s : State} (hm : m.phase p = some q) (h : AtPhase p s) :
    (act m s).Ends (AtPhase q) (StopsClosed m s) := by
  unfold act
  split
  · exact perform_atPhase hm h
  · refine (perform_atPhase hm (absorb_atPhase h s.inputs)).mono (fun _ => id) fun t ht => ?_
    simpa only [StopsClosed, absorb_pc] using ht

/-! ### Action lists -/

/-- The phase after a list of actions. -/
def phaseAfter (p : BusPhase) (acts : List Micro) : Option BusPhase := acts.foldlM (fun q m => m.phase q) p

theorem phaseAfter_cons {p q : BusPhase} {m : Micro} {acts : List Micro} :
    phaseAfter p (m :: acts) = some q ↔ ∃ r, m.phase p = some r ∧ phaseAfter r acts = some q := by
  simp [phaseAfter, List.foldlM_cons, Option.bind_eq_some_iff]

theorem phaseAfter_append {p q : BusPhase} {l₁ l₂ : List Micro} :
    phaseAfter p (l₁ ++ l₂) = some q ↔ ∃ r, phaseAfter p l₁ = some r ∧ phaseAfter r l₂ = some q := by
  simp [phaseAfter, List.foldlM_append, Option.bind_eq_some_iff]

/-- The list closes every frame it opens. -/
def Bracketed (acts : List Micro) : Prop := phaseAfter .closed acts = some .closed

theorem Bracketed.append {l₁ l₂ : List Micro} (h₁ : Bracketed l₁) (h₂ : Bracketed l₂) : Bracketed (l₁ ++ l₂) :=
  phaseAfter_append.2 ⟨_, h₁, h₂⟩

theorem Bracketed.flatMap {α : Type} {f : α → List Micro} {l : List α} (h : ∀ x ∈ l, Bracketed (f x)) :
    Bracketed (l.flatMap f) := by
  induction l with
  | nil => rfl
  | cons x l ih => exact (h x List.mem_cons_self).append (ih fun y hy => h y (List.mem_cons_of_mem _ hy))

/-- A WAITRDY has its place between frames only, so what begins with it in a bracketed list is bracketed. -/
theorem Bracketed.from_waitRdy {l₁ l₂ : List Micro} (h : Bracketed (l₁ ++ .waitRdy :: l₂)) :
    Bracketed (.waitRdy :: l₂) := by
  obtain ⟨p, -, hp⟩ := phaseAfter_append.1 h
  obtain ⟨q, hq, -⟩ := phaseAfter_cons.1 hp
  cases p with
  | closed => exact hp
  | frame dev => cases hq
  | reset => cases hq

theorem readActs_bracketed (P : Params) (id : BitVec 4) (post : Post) : Bracketed (readActs P id post) := rfl

theorem writeActs_bracketed (P : Params) (id : BitVec 4) (v : Byte) : Bracketed (writeActs P id v) := rfl

theorem dacActs_bracketed (P : Params) (c : BitVec 1) (code : BitVec 16) : Bracketed (dacActs P c code) := rfl

theorem channelActs_bracketed (P : Params) (k : Nat) : Bracketed (channelActs P k) := rfl

theorem initActs_bracketed (P : Params) : Bracketed (initActs P) := rfl

theorem scanItems_bracketed (P : Params) (count : Nat) : Bracketed ((scanItems P count).map Item.act) := by
  simp only [scanItems, List.map_flatMap, number_map_act]
  exact .flatMap fun k _ => channelActs_bracketed P k

/-! ### Where the WAITRDYs stand -/

/-- A WAITRDY of the operation stands where an operation may be held. -/
def Item.HoldsAt (op : Op) (count : Nat) (it : Item) : Prop :=
  it.act = .waitRdy →
    ((op = .scan ∨ op = .tick) ∧ it.k < count ∧ it.step = 0) ∨ (op = .init ∧ it.k = 0 ∧ it.step = 7)

theorem channelActs_waitRdy (P : Params) (k : Nat) :
    ∀ it ∈ number k 0 (channelActs P k), it.k = k ∧ (it.act = .waitRdy ↔ it.step = 0) := by
  simp [number, channelActs]

/-- The WAITRDY of a channel is its action 0 (43 R185). -/
theorem scanItems_waitRdy {P : Params} {count : Nat} {it : Item} (h : it ∈ scanItems P count) :
    it.k < count ∧ (it.act = .waitRdy ↔ it.step = 0) := by
  obtain ⟨k, hk, hit⟩ := List.mem_flatMap.1 h
  obtain ⟨rfl, hwait⟩ := channelActs_waitRdy P k it hit
  exact ⟨List.mem_range.1 hk, hwait⟩

/-- The WAITRDY of INIT is its action 7 (45 R240). -/
theorem initActs_waitRdy (P : Params) :
    ∀ it ∈ number 0 0 (initActs P), it.k = 0 ∧ (it.act = .waitRdy ↔ it.step = 7) := by
  simp [number, initActs, initStartActs, readActs, commandActs, initBlockActs]

/-- The other operations wait for nothing. -/
theorem opItems_holdsAt (P : Params) (count : Nat) (op : Op) : ∀ it ∈ opItems P count op, it.HoldsAt op count := by
  intro it hit hwait
  cases op
  case scan | tick =>
    obtain ⟨hk, hstep⟩ := scanItems_waitRdy hit
    exact .inl ⟨by simp, hk, hstep.1 hwait⟩
  case init =>
    obtain ⟨hk, hstep⟩ := initActs_waitRdy P it hit
    exact .inr ⟨rfl, hk, hstep.1 hwait⟩
  case idle => cases hit
  all_goals
    have hact := List.mem_map_of_mem (f := Item.act) hit
    simp [opItems, number_map_act, readActs, writeActs, dacActs, hwait] at hact

/-! ### Running an action list -/

theorem opItems_bracketed (P : Params) (count : Nat) (op : Op) : Bracketed ((opItems P count op).map Item.act) := by
  cases op <;> simp only [opItems, number_map_act]
  case idle => rfl
  case scan | tick => exact scanItems_bracketed P count
  case init => exact initActs_bracketed P
  all_goals rfl

theorem runItem_atPhase {op : Op} {it : Item} {p q : BusPhase} {s : State} (hm : it.act.phase p = some q)
    (h : AtPhase p s) (hhold : it.HoldsAt op s.chanCount) :
    (runItem op it s).Ends (fun t => AtPhase q t ∧ t.chanCount = s.chanCount) NoFrameOpen := by
  have hrun := act_atPhase (s := { s with pc := ⟨op, it.k, it.step⟩ }) hm (h.of_same rfl rfl rfl rfl rfl)
  have hframe := act_opFrame it.act { s with pc := ⟨op, it.k, it.step⟩ }
  unfold runItem
  cases hr : act it.act { s with pc := ⟨op, it.k, it.step⟩ } with
  | go t =>
    rw [hr] at hrun hframe
    exact ⟨hrun, hframe.chanCount⟩
  | halt t =>
    rw [hr] at hrun hframe
    obtain ⟨hclosed, hpc⟩ := hrun
    refine noFrameOpen_iff.2 ⟨hclosed, hpc.imp_right fun ⟨hwait, hpc⟩ => ?_⟩
    have hcount : t.chanCount = s.chanCount := hframe.chanCount
    simpa only [AtWait, hpc, hcount] using hhold hwait
  | fault x => trivial
  | refuse x => trivial

/-- A list that fits the phase leads to its last phase, and stops with no frame open. -/
theorem runItems_atPhase {op : Op} {items : List Item} {p q : BusPhase} {s : State}
    (hitems : phaseAfter p (items.map Item.act) = some q) (h : AtPhase p s)
    (hhold : ∀ it ∈ items, it.HoldsAt op s.chanCount) : (runItems op items s).Ends (AtPhase q) NoFrameOpen := by
  induction items generalizing p s with
  | nil =>
    cases hitems
    exact h
  | cons it rest ih =>
    obtain ⟨r, hit, hrest⟩ := phaseAfter_cons.1 hitems
    refine ends_andThen (runItem_atPhase hit h (hhold it List.mem_cons_self)) fun t ⟨ht, hcount⟩ => ?_
    exact ih hrest ht fun x hx => hcount ▸ hhold x (List.mem_cons_of_mem _ hx)

/-- The part of a bracketed list from a WAITRDY on is bracketed. -/
theorem itemsFrom_bracketed {pc : Pc} {items : List Item} (h : Bracketed (items.map Item.act))
    (hwait : ∀ it ∈ items, it.step = pc.step → it.act = .waitRdy) : Bracketed ((itemsFrom pc items).map Item.act) := by
  have hsplit := List.takeWhile_append_dropWhile (p := fun it : Item => !(it.k == pc.k && it.step == pc.step)) (l := items)
  rw [← hsplit, List.map_append] at h
  unfold itemsFrom
  cases hdrop : items.dropWhile fun it => !(it.k == pc.k && it.step == pc.step) with
  | nil => rfl
  | cons it rest =>
    have hat := List.head?_dropWhile_not (fun it : Item => !(it.k == pc.k && it.step == pc.step)) items
    have hmem : it ∈ items := (List.dropWhile_sublist _).subset (hdrop ▸ List.mem_cons_self)
    rw [hdrop] at h hat
    have hact : it.act = .waitRdy := hwait it hmem (by simp at hat; exact hat.2)
    rw [List.map_cons, hact] at h ⊢
    exact h.from_waitRdy

/-! ### The operation in progress -/

/-- An operation begins, or goes on from a WAITRDY. -/
def StartsOrWaits (s : State) : Prop := (s.pc.k = 0 ∧ s.pc.step = 0) ∨ AtWait s

/-- Every operation's list has its action 0 of channel 0 first. -/
theorem opItems_head {P : Params} {count : Nat} {op : Op} {it : Item} (h : (opItems P count op).head? = some it) :
    it.k = 0 ∧ it.step = 0 := by
  cases op
  case idle => cases h
  case scan | tick =>
    cases count with
    | zero => cases h
    | succ n =>
      simp only [opItems, scanItems, List.range_succ_eq_map, List.flatMap_cons] at h
      cases h
      exact ⟨rfl, rfl⟩
  all_goals
    cases h
    exact ⟨rfl, rfl⟩

theorem itemsFrom_zero {pc : Pc} {items : List Item} (hk : pc.k = 0) (hstep : pc.step = 0)
    (hhead : ∀ it, items.head? = some it → it.k = 0 ∧ it.step = 0) : itemsFrom pc items = items := by
  cases items with
  | nil => rfl
  | cons it rest =>
    obtain ⟨h1, h2⟩ := hhead it rfl
    simp [itemsFrom, hk, hstep, h1, h2]

/-- What is left of an operation that begins or goes on from a WAITRDY opens and closes its own frames. -/
theorem itemsFrom_opItems_bracketed {s : State} (h : StartsOrWaits s) :
    Bracketed ((itemsFrom s.pc (opItems s.cfg s.chanCount s.pc.op)).map Item.act) := by
  have hall := opItems_bracketed s.cfg s.chanCount s.pc.op
  rcases h with ⟨hk, hstep⟩ | ⟨hop, -, hstep⟩ | ⟨hop, -, hstep⟩
  · rwa [itemsFrom_zero hk hstep fun it => opItems_head]
  · have hscan : opItems s.cfg s.chanCount s.pc.op = scanItems s.cfg s.chanCount := by
      rcases hop with hop | hop <;> rw [hop] <;> rfl
    rw [hscan] at hall ⊢
    exact itemsFrom_bracketed hall fun it hit hat => (scanItems_waitRdy hit).2.2 (hat.trans hstep)
  · rw [hop] at hall ⊢
    exact itemsFrom_bracketed hall fun it hit hat => (initActs_waitRdy s.cfg it hit).2.2 (hat.trans hstep)

/-- The actions left of an operation, run with no frame open, close the frames they open. -/
theorem runItemsFrom_atPhase {s : State} (h : AtPhase .closed s) (hpc : StartsOrWaits s) :
    (runItems s.pc.op (itemsFrom s.pc (opItems s.cfg s.chanCount s.pc.op)) s).Ends (AtPhase .closed) NoFrameOpen :=
  runItems_atPhase (itemsFrom_opItems_bracketed hpc) h fun it hit =>
    opItems_holdsAt s.cfg s.chanCount s.pc.op it ((List.dropWhile_sublist _).subset hit)

theorem storeVector_atPhase {js : List Nat} {s : State} {Q : State → Prop} (h : AtPhase .closed s) :
    (storeVector js s).Ends (AtPhase .closed) Q := by
  induction js generalizing s with
  | nil => exact h
  | cons j js ih =>
    simp only [storeVector]
    split
    · split
      · exact ih h
      · trivial
    · trivial

/-- Each output of a tick is a frame of its own (60 R291 step 3). -/
theorem runOutputs_atPhase {cs : List Nat} {s : State} (h : AtPhase .closed s) :
    (runOutputs 0 cs s).Ends (AtPhase .closed) NoFrameOpen := by
  induction cs generalizing s with
  | nil => exact h
  | cons c cs ih =>
    simp only [runOutputs]
    split
    · trivial
    · next code _ =>
      refine ends_andThen (runItems_atPhase ?_ h fun it hit hwait => ?_) fun t ht => ih ht
      · simpa [number_map_act] using show phaseAfter _ _ = _ from dacActs_bracketed s.cfg _ code
      · have hact := List.mem_map_of_mem (f := Item.act) (List.mem_filter.1 hit).1
        simp [number_map_act, dacActs, hwait] at hact

theorem tickDone_noFrameOpen {s : State} (h : AtPhase .closed s) : (tickDone s).Ends NoFrameOpen NoFrameOpen := by
  simp only [tickDone, finished]
  split <;> exact noFrameOpen_iff.2 ⟨h, .inl rfl⟩

theorem tickOutputs_noFrameOpen {s : State} (h : AtPhase .closed s) :
    (tickOutputs 0 s).Ends NoFrameOpen NoFrameOpen :=
  ends_andThen (runOutputs_atPhase h) fun _ => tickDone_noFrameOpen

theorem continueTick_noFrameOpen {s : State} (htick : s.pc.op = .tick) (h : AtPhase .closed s)
    (hpc : StartsOrWaits s) : (continueTick s).Ends NoFrameOpen NoFrameOpen := by
  have hscan := runItemsFrom_atPhase h hpc
  rw [htick] at hscan
  unfold continueTick
  split
  · refine ends_andThen hscan fun t ht => ?_
    exact ends_andThen (storeVector_atPhase ht) fun u => tickOutputs_noFrameOpen
  · next hk =>
    have hstep : s.pc.step = 0 := by
      rcases hpc with ⟨-, hstep⟩ | ⟨-, -, hstep⟩ | ⟨hinit, -⟩
      · exact hstep
      · exact hstep
      · simp [htick] at hinit
    exact hstep ▸ tickOutputs_noFrameOpen h

/-- The operation in progress ends, aborts or is held with no frame open. -/
theorem continueOp_noFrameOpen {s : State} (h : AtPhase .closed s) (hpc : StartsOrWaits s) :
    (continueOp s).Answers NoFrameOpen := by
  refine Run.Ends.answers ?_
  unfold continueOp
  split
  · next hidle => exact noFrameOpen_iff.2 ⟨h, .inl hidle⟩
  · next htick => exact continueTick_noFrameOpen htick h hpc
  · exact ends_andThen (runItemsFrom_atPhase h hpc) fun t ht => noFrameOpen_iff.2 ⟨ht, .inl rfl⟩

/-! ### The instructions of the host -/

section
variable {s t : State}

theorem enterOp_run_noFrameOpen {op : Op} (hs : AtPhase .closed s)
    (h : toOutcome (continueOp (enterOp op s)) = .next t) : NoFrameOpen t :=
  toOutcome_next_of_answers (continueOp_noFrameOpen (s := enterOp op s) hs (.inl ⟨rfl, rfl⟩)) h

theorem NoFrameOpen.closed (h : NoFrameOpen s) : AtPhase .closed s := (noFrameOpen_iff.1 h).1

theorem startBus_noFrameOpen {op : Op} (hs : NoFrameOpen s) (h : startBus op s = .next t) : NoFrameOpen t := by
  unfold startBus at h
  split at h
  · cases h
    exact hs
  · split at h
    · cases h
    · exact enterOp_run_noFrameOpen hs.closed h

theorem execInit_noFrameOpen (hs : NoFrameOpen s) (h : execInit s = .next t) : NoFrameOpen t := by
  unfold execInit at h
  split at h
  · cases h
    exact hs
  · exact enterOp_run_noFrameOpen (s := { s with initok := false }) hs.closed h

theorem execTick_noFrameOpen (hs : NoFrameOpen s) (h : execTick s = .next t) : NoFrameOpen t := by
  unfold execTick at h
  split at h
  · cases h
    exact hs
  · split at h
    · cases h
      exact hs
    · exact startBus_noFrameOpen hs h

theorem pureOp_noFrameOpen {acc : Bool} {f : State → State} (hs : NoFrameOpen s) (h : pureOp acc f s = .next t)
    (hf : AtPhase .closed (f s)) : NoFrameOpen t := by
  rcases pureOp_next h with rfl | ⟨-, -, rfl⟩
  · exact hs
  · exact noFrameOpen_iff.2 ⟨hf, .inl rfl⟩

theorem cancelSession_noFrameOpen (hs : NoFrameOpen s) : NoFrameOpen (cancelSession s) := by
  unfold cancelSession
  split <;> exact hs

/-- What the host offers or the timer raises, by the shape of its meaning: a bus operation or a pure operation. -/
theorem exec_noFrameOpen {i : Instr} (hi : i.isHostOp = true ∨ i = .tick) (hs : NoFrameOpen s)
    (h : exec i s = .next t) : NoFrameOpen t := by
  cases i
  case rdreg | wrreg | rdid | scan | dacwr => exact startBus_noFrameOpen hs h
  case init => exact execInit_noFrameOpen hs h
  case tick => exact execTick_noFrameOpen hs h
  case cancel =>
    cases h
    exact cancelSession_noFrameOpen hs
  case muxenc | gainenc | gaindec | setch | setk | v2code | code2v | raw2v | ratesel | arm | start | ldout =>
    unfold exec at h
    refine pureOp_noFrameOpen hs h ?_
    exact hs.closed.of_same rfl rfl rfl rfl rfl
  all_goals rcases hi with hi | hi <;> cases hi

end

/-! ### Outside frames (log 13) -/

/-- The actions of a list in their time, outside an operation. -/
def actAll : List Micro → State → Run
  | [], s => .go s
  | m :: ms, s => andThen (act m s) (actAll ms)

theorem sendAll_eq_actAll (bs : List Byte) : sendAll bs = actAll (bs.map .send) := by
  funext s
  induction bs generalizing s with
  | nil => rfl
  | cons b bs ih =>
    simp only [sendAll, List.map_cons, actAll]
    congr 1
    funext t
    exact ih t

/-- What an instruction that is sent in a frame does there: the exchange of its bytes, RDATA with its delay and latches
(44 R211). -/
def frameActs (C : WireCodes) (i : Instr) : List Micro :=
  match i, encode C i with
  | .rdata, _ => [.send C.rdata, .delay .tDATA, .recv .b2, .recv .b1, .recv .b0]
  | _, .wire bytes => bytes.map .send
  | _, .dac bytes => bytes.map .send
  | _, _ => []

/-- An instruction of neither the host nor the timer is its actions in the frame. -/
theorem exec_eq_actAll {i : Instr} (hhost : i.isHostOp = false) (htick : i ≠ .tick) (s : State) :
    exec i s = toOutcome (actAll (frameActs s.cfg.codes i) s) := by
  have hone : ∀ b, act (.send b) s = actAll [.send b] s := fun b => (andThen_go_right _).symm
  cases i
  case wakeup | rdatac | sdatac | selfcal | selfocal | selfgcal | sysocal | sysgcal | sync | standby | reset | wakeup2 =>
    exact congrArg toOutcome (hone _)
  case rreg | wreg | dacframe => exact congrArg toOutcome (congrFun (sendAll_eq_actAll _) s)
  case rdata =>
    simp only [exec, execRdata, frameActs, actAll, andThen_go_right]
  case tick => exact absurd rfl htick
  all_goals cases hhost

/-- What may happen while a frame stays open. -/
def Micro.inFrame : Micro → Prop
  | .send _ | .recv _ | .delay _ => True
  | _ => False

theorem frameActs_inFrame (C : WireCodes) (i : Instr) : ∀ m ∈ frameActs C i, m.inFrame := by
  have hsends : ∀ bytes : List Byte, ∀ m ∈ bytes.map Micro.send, m.inFrame := fun bytes m hm => by
    obtain ⟨b, -, rfl⟩ := List.mem_map.1 hm
    trivial
  unfold frameActs
  split
  · simp [Micro.inFrame]
  · exact hsends _
  · exact hsends _
  · nofun

/-- A frame is open and the sequencer idle: what holds between the commands of an outside frame. -/
def FrameOpen (dev : Dev) (s : State) : Prop := AtPhase (.frame dev) s ∧ s.pc.op = .idle

theorem act_frameOpen {dev : Dev} {m : Micro} {s : State} (hm : m.inFrame) (h : FrameOpen dev s) :
    (act m s).Ends (FrameOpen dev) fun _ => False := by
  obtain ⟨hphase, hidle⟩ := h
  have habsorbed := absorb_atPhase hphase s.inputs
  have hpc : (absorb s.inputs s).pc.op = .idle := by simpa using hidle
  have hsent : ∀ b, (xfer b (absorb s.inputs s)).Ends (FrameOpen dev) fun _ => False := fun b =>
    (xfer_atPhase habsorbed b).mono (fun t ⟨ht, htpc⟩ => ⟨ht, htpc ▸ hpc⟩) fun _ => id
  cases m
  case send b => exact hsent b
  case delay d => exact ⟨habsorbed.of_same rfl rfl rfl rfl rfl, hpc⟩
  case recv dst =>
    refine ends_andThen (hsent _) fun t ⟨ht, htpc⟩ => ?_
    exact ⟨ht.of_same (by simp) (by simp) (by simp) (by simp) (by simp), by simpa using htpc⟩
  all_goals cases hm

theorem actAll_frameOpen {dev : Dev} {ms : List Micro} {s : State} (hms : ∀ m ∈ ms, m.inFrame)
    (h : FrameOpen dev s) : (actAll ms s).Ends (FrameOpen dev) fun _ => False := by
  induction ms generalizing s with
  | nil => exact h
  | cons m ms ih =>
    refine ends_andThen (act_frameOpen (hms m List.mem_cons_self) h) fun t ht => ?_
    exact ih (fun x hx => hms x (List.mem_cons_of_mem _ hx)) ht

theorem sendAll_frameOpen {dev : Dev} (bs : List Byte) {s : State} (h : FrameOpen dev s) :
    (sendAll bs s).Ends (FrameOpen dev) fun _ => False := by
  rw [sendAll_eq_actAll]
  refine actAll_frameOpen (fun m hm => ?_) h
  obtain ⟨b, -, rfl⟩ := List.mem_map.1 hm
  trivial

theorem exec_frameOpen {dev : Dev} {i : Instr} {s t : State} (hhost : i.isHostOp = false) (htick : i ≠ .tick)
    (hs : FrameOpen dev s) (h : exec i s = .next t) : FrameOpen dev t := by
  rw [exec_eq_actAll hhost htick] at h
  have hends := actAll_frameOpen (frameActs_inFrame s.cfg.codes i) hs
  exact toOutcome_next_of_answers (hends.mono (fun _ => id) fun _ => False.elim).answers h

/-- What stands in a frame of the converter chip is neither the host's nor the timer's. -/
theorem decodeWire_notHost {C : WireCodes} {bytes rest : List Byte} {i : Instr}
    (h : decodeWire C bytes = .ok (i, rest)) : i.isHostOp = false ∧ i ≠ .tick := by
  cases bytes with
  | nil => cases h
  | cons b tail =>
    simp only [decodeWire] at h
    split at h
    · cases h
    · obtain ⟨n, data, rfl, -⟩ := decodeRegister_map_ok (make := fun n _ => .rreg _ n) h
      exact ⟨rfl, nofun⟩
    · obtain ⟨n, data, rfl, -⟩ := decodeRegister_map_ok (make := .wreg _) h
      exact ⟨rfl, nofun⟩
    · split at h
      · cases h
      · cases h
        exact ⟨rfl, nofun⟩
    all_goals
      cases h
      exact ⟨rfl, nofun⟩

theorem runCommands_frameOpen {n : Nat} {bytes : List Byte} {s : State} (h : FrameOpen .adc s) :
    (runCommands n bytes s).Ends (FrameOpen .adc) fun _ => False := by
  induction n generalizing bytes s with
  | zero => exact sendAll_frameOpen bytes h
  | succ n ih =>
    cases bytes with
    | nil => exact h
    | cons b bs =>
      simp only [runCommands]
      split
      · next i rest hi =>
        obtain ⟨hhost, htick⟩ := decodeWire_notHost hi
        exact ends_andThen (ends_ofOutcome fun t => exec_frameOpen hhost htick h) fun t ht => ih ht
      · exact sendAll_frameOpen _ h

theorem runDacBytes_frameOpen {bytes : List Byte} {s : State} (h : FrameOpen .dac s) :
    (runDacBytes bytes s).Ends (FrameOpen .dac) fun _ => False := by
  unfold runDacBytes
  split
  · next i rest hi =>
    obtain ⟨c, code, rfl⟩ := decodeDac_ok hi
    exact ends_andThen (ends_ofOutcome fun t => exec_frameOpen rfl nofun h) fun t ht => sendAll_frameOpen rest ht
  · exact sendAll_frameOpen bytes h

/-- An outside frame is closed again, and takes the sequencer nowhere. -/
theorem runFrame_noFrameOpen {f : BusFrame} {s : State} (h : AtPhase .closed s) (hidle : s.pc.op = .idle) :
    (runFrame f s).Answers NoFrameOpen := by
  obtain ⟨dev, bytes⟩ := f
  have hopen : FrameOpen dev (setCs dev false (absorb s.inputs s)) :=
    ⟨perform_atPhase (m := .select dev) rfl (absorb_atPhase h s.inputs), by simpa using hidle⟩
  have hclose : ∀ t, FrameOpen dev t → (act (.release dev .nothing) t).Ends NoFrameOpen NoFrameOpen :=
    fun t ⟨ht, htpc⟩ => noFrameOpen_iff.2 ⟨setCs_high_atPhase (absorb_atPhase ht t.inputs), .inl (by simpa using htpc)⟩
  refine Run.Ends.answers ?_
  simp only [runFrame, act_select, andThen_go]
  cases dev with
  | adc => exact ends_andThen ((runCommands_frameOpen hopen).mono (fun _ => id) fun _ => False.elim) hclose
  | dac => exact ends_andThen ((runDacBytes_frameOpen hopen).mono (fun _ => id) fun _ => False.elim) hclose

/-! ### The step -/

theorem idleEdge_noFrameOpen {e : Edge} {s t : State} (hs : NoFrameOpen s) (h : idleEdge e s = .next t) :
    NoFrameOpen t := by
  have hlines : NoFrameOpen (setLines e s) := hs
  rcases idleEdge_next h with hi | hi | ⟨_, _, -, hport, hi⟩ | rfl
  · exact exec_noFrameOpen (.inl rfl) hlines hi
  · exact exec_noFrameOpen (.inr rfl) hlines hi
  · exact exec_noFrameOpen (.inl (decodeHost_isHostOp hport)) hlines hi
  · exact hlines

/-- Settles O13: the operation in progress, an outside frame and an idle edge each leave no frame open. -/
theorem stepLeavesNoFrameOpen : Obligations.StepLeavesNoFrameOpen := by
  intro s t hs h
  obtain ⟨hclosed, hpc⟩ := noFrameOpen_iff.1 hs
  obtain ⟨-, ⟨hbusy, hop⟩ | ⟨hidle, f, fs, -, hframe⟩ | ⟨-, -, e, es, -, hedge⟩ | ⟨-, -, -, rfl⟩⟩ := step_next h
  · exact toOutcome_next_of_answers (continueOp_noFrameOpen hclosed (.inr (hpc.resolve_left hbusy))) hop
  · exact toOutcome_next_of_answers (runFrame_noFrameOpen (s := { s with frames := fs }) hclosed hidle) hframe
  · exact idleEdge_noFrameOpen (s := { s with inputs := es }) hs hedge
  · exact hs

end Sys2Proof.Machine

/-! What passes while bytes are exchanged: clock edges, the bytes that come back, the draws and the trace
(10_state.md R49; 60_exceptions.md R276, R289). `Passed u t` is a preorder, and every effect that neither asks for these
nor touches them carries it along. -/

namespace Sys2Proof.Machine

/-! ### The trace -/

section
variable {s t u : State} {l l' : List Action}

theorem TraceGrew.of_eq {k : List Action} (h : t.trace = s.trace ++ k) (hk : k.map sent = l.map sent) :
    TraceGrew s t l := ⟨k, h, hk⟩

theorem TraceGrew.trans (h : TraceGrew s t l) (k : TraceGrew t u l') : TraceGrew s u (l ++ l') := by
  obtain ⟨a, ha, hl⟩ := h
  obtain ⟨b, hb, hl'⟩ := k
  exact ⟨a ++ b, by rw [hb, ha, List.append_assoc], by simp [hl, hl']⟩

end

/-! ### Edges and noise -/

section
variable {s t u v : State}

theorem KeptOrCancelled.trans (h : KeptOrCancelled s t) (k : KeptOrCancelled t u) : KeptOrCancelled s u := by
  rcases h with ⟨hsched, harmed⟩ | ⟨hin, hstopped, hdisarmed⟩
  · simpa only [KeptOrCancelled, hsched, harmed] using k
  · rcases k with ⟨ksched, karmed⟩ | ⟨-, kstopped, kdisarmed⟩
    · exact .inr ⟨hin, ksched.trans hstopped, karmed.trans hdisarmed⟩
    · exact .inr ⟨hin, kstopped, kdisarmed⟩

theorem Passed.refl (s : State) : Passed s s := ⟨rfl, .inl ⟨rfl, rfl⟩, fun _ => rfl⟩

theorem Passed.trans (h : Passed s t) (k : Passed t u) : Passed s u := by
  obtain ⟨hamid, hkept, hquiet⟩ := h
  obtain ⟨kamid, kkept, kquiet⟩ := k
  refine ⟨?_, hkept.trans kkept, fun hin => ?_⟩
  · calc u = amid t u := kamid
      _ = amid (amid s t) u := by rw [← hamid]
      _ = amid s u := rfl
  · have ht := hquiet hin
    have htin : t.inputs = [] := by rw [ht]; exact hin
    calc u = { t with rx := u.rx, draws := u.draws, trace := u.trace } := kquiet htin
      _ = { s with rx := u.rx, draws := u.draws, trace := u.trace } := by rw [ht]

/-- The byte returned, the draws and the trace are free. -/
theorem Passed.noise (h : Passed s t) (rx : Byte) (draws : Nat) (trace : List Action) :
    Passed s { t with rx := rx, draws := draws, trace := trace } := by
  obtain ⟨hamid, hkept, hquiet⟩ := h
  refine ⟨?_, hkept, fun hin => ?_⟩
  · exact congrArg (fun x : State => { x with rx := rx, draws := draws, trace := trace }) hamid
  · exact congrArg (fun x : State => { x with rx := rx, draws := draws, trace := trace }) (hquiet hin)

theorem Passed.logged (h : Passed s t) (a : Action) : Passed s (logAction a t) := h.noise _ _ _

/-- An effect that what passes meanwhile neither feeds nor is changed by. -/
structure EdgeFree (f : State → State) : Prop where
  amid : ∀ u t, f (amid u t) = amid (f u) (f t)
  quiet : ∀ u t : State, f { u with rx := t.rx, draws := t.draws, trace := t.trace } =
    { f u with rx := (f t).rx, draws := (f t).draws, trace := (f t).trace }
  sess : ∀ u, (f u).sess = u.sess
  inputs : ∀ u, (f u).inputs = u.inputs

/-- An effect on both sides. -/
theorem Passed.map {f : State → State} (h : Passed s t) (hf : EdgeFree f) : Passed (f s) (f t) := by
  obtain ⟨hamid, hkept, hquiet⟩ := h
  refine ⟨?_, ?_, fun hin => ?_⟩
  · exact (congrArg f hamid).trans (hf.amid s t)
  · simpa only [KeptOrCancelled, hf.sess] using hkept
  · exact (congrArg f (hquiet (hf.inputs s ▸ hin))).trans (hf.quiet s t)

/-- One effect after another. -/
theorem Passed.then {f : State → State} (h : Passed s t) (hf : EdgeFree f) (k : Passed (f t) u) : Passed (f s) u :=
  (h.map hf).trans k

/-- A field that no edge changes. -/
theorem Passed.kept {α : Type} {g : State → α} (h : Passed s t) (hg : ∀ u t, g (amid u t) = g u) : g t = g s := by
  rw [h.1, hg]

theorem Passed.cfg (h : Passed s t) : t.cfg = s.cfg := h.kept fun _ _ => rfl
theorem Passed.csAdcN (h : Passed s t) : t.csAdcN = s.csAdcN := h.kept fun _ _ => rfl
theorem Passed.csDacN (h : Passed s t) : t.csDacN = s.csDacN := h.kept fun _ _ => rfl
theorem Passed.rstN (h : Passed s t) : t.rstN = s.rstN := h.kept fun _ _ => rfl
theorem Passed.runFaulted (h : Passed s t) : t.runFaulted = s.runFaulted := h.kept fun _ _ => rfl
theorem Passed.mem (h : Passed s t) : t.adc.mem = s.adc.mem := h.kept (g := fun x => x.adc.mem) fun _ _ => rfl
theorem Passed.pst (h : Passed s t) : t.adc.pst = s.adc.pst := h.kept (g := fun x => x.adc.pst) fun _ _ => rfl
theorem Passed.mode (h : Passed s t) : t.adc.mode = s.adc.mode := h.kept (g := fun x => x.adc.mode) fun _ _ => rfl
theorem Passed.shift (h : Passed s t) : t.adc.shift = s.adc.shift := h.kept (g := fun x => x.adc.shift) fun _ _ => rfl
theorem Passed.b2 (h : Passed s t) : t.b2 = s.b2 := h.kept fun _ _ => rfl
theorem Passed.b1 (h : Passed s t) : t.b1 = s.b1 := h.kept fun _ _ => rfl
theorem Passed.b0 (h : Passed s t) : t.b0 = s.b0 := h.kept fun _ _ => rfl

/-- The registers are what they were: only the conversion value changes with the edges. -/
theorem Passed.peerRegister (h : Passed s t) (a : Nat) : peerRegister t.adc a = peerRegister s.adc a :=
  h.kept (g := fun x => Machine.peerRegister x.adc a) fun _ _ => rfl

theorem Passed.readValue (h : Passed s t) (a : Nat) (free : Byte) :
    readValue t.cfg t.adc a free = readValue s.cfg s.adc a free :=
  h.kept (g := fun x => Machine.readValue x.cfg x.adc a free) fun _ _ => rfl

end

/-! ### The edges before an action -/

theorem busyEdge_amid (e : Edge) (s : State) : busyEdge e s = amid s (busyEdge e s) := by
  obtain ⟨flags, sess, h, hflags, hcycle, htarget, hnout, hbuf, hout0, hout1, -⟩ := busyEdge_eq e s
  have hsess : sess = { s.sess with sched := sess.sched, armed := sess.armed, overruns := sess.overruns } := by
    simp only [← hcycle, ← htarget, ← hnout, ← hbuf, ← hout0, ← hout1]
  have hf : flags = { s.flags with eTick := flags.eTick } := by rcases hflags with rfl | rfl <;> rfl
  rw [h]
  simp only [amid, ← hsess, ← hf]

theorem busyEdge_kept (e : Edge) (s : State) : KeptOrCancelled s (busyEdge e s) := by
  obtain ⟨flags, sess, h, -, -, -, -, -, -, -, hsched⟩ := busyEdge_eq e s
  rw [h]
  exact hsched

theorem absorb_amid (es : List Edge) (s : State) :
    absorb es s = amid s (absorb es s) ∧ KeptOrCancelled s (absorb es s) := by
  induction es generalizing s with
  | nil => exact ⟨rfl, .inl ⟨rfl, rfl⟩⟩
  | cons e es ih =>
    have he := busyEdge_amid e s
    simp only [absorb]
    split
    · exact ⟨congrArg (fun x : State => { x with inputs := es }) he, busyEdge_kept e s⟩
    · obtain ⟨hamid, hkept⟩ := ih (busyEdge e s)
      refine ⟨?_, (busyEdge_kept e s).trans hkept⟩
      calc absorb es (busyEdge e s) = amid (busyEdge e s) (absorb es (busyEdge e s)) := hamid
        _ = amid (amid s (busyEdge e s)) (absorb es (busyEdge e s)) := by rw [← he]
        _ = amid s (absorb es (busyEdge e s)) := rfl

theorem absorb_passed (s : State) : Passed s (absorb s.inputs s) := by
  obtain ⟨hamid, hkept⟩ := absorb_amid s.inputs s
  refine ⟨hamid, hkept, fun hin => ?_⟩
  rw [hin, absorb_nil, ← hin]

theorem absorb_staysReady {s : State} (h : StaysReady s) : StaysReady (absorb s.inputs s) :=
  ⟨absorb_drdyN_low _ s h.1 h.2, fun e he => h.2 e ((absorb_inputs_suffix _ s).subset he)⟩

/-- A line that every edge leaves high stays high. -/
theorem absorb_drdyN_high {es : List Edge} {s : State} (h : s.drdyN = true) (hes : ∀ e ∈ es, e.drdyN = true) :
    (absorb es s).drdyN = true := by
  induction es generalizing s with
  | nil => exact h
  | cons e es ih =>
    have he : (busyEdge e s).drdyN = true := (busyEdge_drdyN e s).trans (hes e List.mem_cons_self)
    simp only [absorb]
    split
    · exact he
    · exact ih he fun x hx => hes x (List.mem_cons_of_mem _ hx)

theorem absorb_staysNotReady {s : State} (h : StaysNotReady s) : StaysNotReady (absorb s.inputs s) :=
  ⟨absorb_drdyN_high h.1 h.2, fun e he => h.2 e ((absorb_inputs_suffix _ s).subset he)⟩

/-! ### Effects that edges leave alone -/

/-- An effect on the converter chip that does not ask for the conversion value. -/
theorem EdgeFree.onAdc {g : AdcPeer → AdcPeer} (hg : ∀ p c, g { p with conv := c } = { g p with conv := c }) :
    EdgeFree fun s => { s with adc := g s.adc } where
  amid u t := by
    have hconv : t.adc.conv = (g t.adc).conv := by
      have h := congrArg AdcPeer.conv (hg t.adc t.adc.conv)
      exact h.symm
    have hadc : g { u.adc with conv := t.adc.conv } = { g u.adc with conv := (g t.adc).conv } :=
      (hg u.adc t.adc.conv).trans (by rw [hconv])
    exact congrArg (fun p => { Machine.amid u t with adc := p }) hadc
  quiet _ _ := rfl
  sess _ := rfl
  inputs _ := rfl

end Sys2Proof.Machine

/-! The bytes of a register command, one at a time (40_register_access.md R141 to R148): what each does to the converter
chip, whatever edges pass before it. -/

namespace Sys2Proof.Machine

/-- The converter chip listens in an open frame, in NORMAL mode, at the place `p` of a command; `AdcListening` is this at
its start. -/
def AdcAt (p : Pst) (s : State) : Prop :=
  s.csAdcN = false ∧ s.csDacN = true ∧ s.rstN = true ∧ s.adc.pst = p ∧ s.adc.mode = .normal

/-- The byte goes out with the effect `u`, and what came back stands in the trace. -/
structure Sends (b : Byte) (s u t : State) : Prop where
  run : act (.send b) s = .go t
  passed : Passed u t
  trace : t.trace = s.trace ++ [.xfer b t.rx]

section
variable {b : Byte} {p : Pst} {s t u : State}

theorem AdcAt.passed (h : AdcAt p s) (k : Passed s t) : AdcAt p t := by
  simpa only [AdcAt, k.csAdcN, k.csDacN, k.rstN, k.pst, k.mode] using h

theorem AdcAt.pst_eq (h : AdcAt p s) : s.adc.pst = p := h.2.2.2.1

theorem AdcAt.exchange (h : AdcAt p s) (b : Byte) : exchange b s = adcExchange b s := exchange_adc h.1 h.2.1 b

/-- What the chip makes of the byte after the edges, as an effect on the state before them. -/
theorem sends_of_exchange {f : State → State} (hf : EdgeFree f)
    (hx : exchange b (absorb s.inputs s) = .go t)
    (ht : t = { f (absorb s.inputs s) with rx := t.rx, draws := t.draws, trace := s.trace }) :
    Sends b s (f s) (logAction (.xfer b t.rx) t) where
  run := by simp only [act_eq (m := .send b) nofun, perform, xfer, hx, andThen_go]
  passed := by
    refine Passed.logged ?_ _
    rw [ht]
    exact ((absorb_passed s).map hf).noise _ _ _
  trace := by
    have htrace : t.trace = s.trace := by rw [ht]
    simp [htrace]

/-! ### The command byte -/

/-- A read begun while the line is high marks the run (R148). -/
def Rw.marks : Rw → Bool
  | .rNotReady => true
  | .r | .w => false

/-- The command byte of a register read or write (R97). -/
def registerCommand (C : WireCodes) (read : Bool) (r : BitVec 4) : Byte :=
  commandByte (if read then C.rreg else C.wreg) r

/-- How a register command can begin: a write as itself, a read by the line at its command byte (R142, R148). -/
def Begins (read : Bool) (s : State) (rw : Rw) : Prop :=
  if read then (rw = .r ∧ ¬ StaysNotReady s) ∨ (rw = .rNotReady ∧ ¬ StaysReady s) else rw = .w

/-- The mark of the read and the chip's place after a byte of a register command. -/
def registerStage (mark : Bool) (p : Pst) (s : State) : State :=
  { s with runFaulted := mark || s.runFaulted, adc := { s.adc with pst := p } }

theorem registerStage_edgeFree (mark : Bool) (p : Pst) : EdgeFree (registerStage mark p) :=
  ⟨fun _ _ => rfl, fun _ _ => rfl, fun _ => rfl, fun _ => rfl⟩

theorem AdcAt.registerStage (h : AdcAt p s) (mark : Bool) (q : Pst) : AdcAt q (registerStage mark q s) := by
  obtain ⟨hadcN, hdacN, hrst, -, hmode⟩ := h
  exact ⟨hadcN, hdacN, hrst, rfl, hmode⟩

theorem classify_registerCommand {C : WireCodes} (hC : C.wf = true) (read : Bool) (r : BitVec 4) :
    classify C (registerCommand C read r) = some (if read then .rreg r else .wreg r) := by
  cases read
  · exact classify_wreg C hC r
  · exact classify_rreg C hC r

theorem send_registerCommand (h : AdcAt .cmd s) (hC : s.cfg.codes.wf = true) (read : Bool) (r : BitVec 4) :
    ∃ rw t, Begins read s rw ∧
      Sends (registerCommand s.cfg.codes read r) s (registerStage rw.marks (.cnt rw r) s) t := by
  have hat := h.passed (absorb_passed s)
  have ⟨_, _, hrst, hcmd, hmode⟩ := hat
  have hcodes : (absorb s.inputs s).cfg.codes = s.cfg.codes := by simp
  have hx : exchange (registerCommand s.cfg.codes read r) (absorb s.inputs s) =
      normalCommand (if read then .rreg r else .wreg r) (drawRx (absorb s.inputs s)) := by
    rw [hat.exchange, adcExchange_cmd hrst hcmd]
    exact commandExchange_normal hmode (hcodes ▸ classify_registerCommand hC read r)
  have htrace : (absorb s.inputs s).trace = s.trace := absorb_trace _ s
  cases read with
  | false =>
    exact ⟨.w, _, rfl, sends_of_exchange (registerStage_edgeFree _ _) hx (by rw [← htrace]; rfl)⟩
  | true =>
    cases hline : (absorb s.inputs s).drdyN with
    | false =>
      have hbegin : beginRead r (drawRx (absorb s.inputs s)) = setPst (.cnt .r r) (drawRx (absorb s.inputs s)) := by
        simp [beginRead, hline]
      refine ⟨.r, _, .inl ⟨rfl, fun hhigh => ?_⟩,
        sends_of_exchange (registerStage_edgeFree _ _) (hx.trans (congrArg Run.go hbegin)) (by rw [← htrace]; rfl)⟩
      exact absurd (absorb_staysNotReady hhigh).1 (by simp [hline])
    | true =>
      have hbegin : beginRead r (drawRx (absorb s.inputs s)) =
          setPst (.cnt .rNotReady r) { drawRx (absorb s.inputs s) with runFaulted := true } := by
        simp [beginRead, hline]
      refine ⟨.rNotReady, _, .inr ⟨rfl, fun hlow => ?_⟩,
        sends_of_exchange (registerStage_edgeFree _ _) (hx.trans (congrArg Run.go hbegin)) (by rw [← htrace]; rfl)⟩
      exact absurd (absorb_staysReady hlow).1 (by simp [hline])

/-! ### The count byte and the data bytes -/

theorem send_count {rw : Rw} {r n : BitVec 4} (h : AdcAt (.cnt rw r) s) (hburst : burstInMap r n = true) :
    ∃ t, Sends (countByte n) s (registerStage false (.dat rw r (n.toNat + 1)) s) t := by
  have hat := h.passed (absorb_passed s)
  have ⟨_, _, hrst, hcnt, hmode⟩ := hat
  have hx : exchange (countByte n) (absorb s.inputs s) =
      .go (setPst (.dat rw r (n.toNat + 1)) (drawRx (absorb s.inputs s))) := by
    rw [hat.exchange, adcExchange_cnt hrst hcnt hmode, countExchange_go n hburst]
  exact ⟨_, sends_of_exchange (registerStage_edgeFree _ _) hx (by rw [← absorb_trace s.inputs s]; rfl)⟩

/-- A byte read from address `a`: the register, through its mask; at an address with no register anything (R145, R66). -/
def ReadsAs (s : State) (a : Nat) (v : Byte) : Prop := a ≤ 0x0A → ∃ free, v = readValue s.cfg s.adc a free

/-- A data byte of a read, the line ready or not when it began (R145, R148). -/
theorem send_readData {rw : Rw} {a : BitVec 4} {m : Nat} (hrw : rw ≠ .w) (h : AdcAt (.dat rw a m) s) (b : Byte) :
    ∃ t, Sends b s (registerStage false (nextData rw a m) s) t ∧ (rw = .r → ReadsAs s a.toNat t.rx) := by
  have hpassed := absorb_passed s
  have hat := h.passed hpassed
  have ⟨_, _, hrst, hdat, hmode⟩ := hat
  have htrace := absorb_trace s.inputs s
  cases rw with
  | w => exact absurd rfl hrw
  | r =>
    have hx : exchange b (absorb s.inputs s) = .go (readExchange a m (absorb s.inputs s)) := by
      rw [hat.exchange, adcExchange_read hrst hdat hmode]
    refine ⟨_, sends_of_exchange (registerStage_edgeFree _ _) hx ?_, fun _ ha => ⟨Config.draw s.draws, ?_⟩⟩
    · rw [← htrace]
      unfold readExchange
      dsimp only
      split <;> rfl
    · rw [← hpassed.readValue]
      simp [logAction, ha]
  | rNotReady =>
    have hx : exchange b (absorb s.inputs s) = .go (notReadyExchange a m (absorb s.inputs s)) := by
      rw [hat.exchange, adcExchange_readNotReady hrst hdat hmode]
    exact ⟨_, sends_of_exchange (registerStage_edgeFree _ _) hx (by rw [← htrace]; rfl), nofun⟩

theorem writeRegister_conv (P : Params) (p : AdcPeer) (a : Nat) (v : Byte) (c : BitVec 24) :
    writeRegister P { p with conv := c } a v = { writeRegister P p a v with conv := c } := by
  unfold writeRegister
  split <;> rfl

/-- A data byte of a write (R146). -/
theorem send_writeData {a : BitVec 4} {m : Nat} (h : AdcAt (.dat .w a m) s) (b : Byte) :
    ∃ t, Sends b s { s with adc := { writeRegister s.cfg s.adc a.toNat b with pst := nextData .w a m } } t := by
  have hat := h.passed (absorb_passed s)
  have ⟨_, _, hrst, hdat, hmode⟩ := hat
  have hx : exchange b (absorb s.inputs s) = .go (writeExchange a m b (absorb s.inputs s)) := by
    rw [hat.exchange, adcExchange_write hrst hdat hmode]
  have hfree : EdgeFree fun x : State =>
      { x with adc := { writeRegister s.cfg x.adc a.toNat b with pst := nextData .w a m } } :=
    EdgeFree.onAdc (g := fun p => { writeRegister s.cfg p a.toNat b with pst := nextData .w a m }) fun p c => by
      rw [writeRegister_conv]
  exact ⟨_, sends_of_exchange hfree hx (by rw [← absorb_trace s.inputs s, ← absorb_cfg s.inputs s]; rfl)⟩

end

end Sys2Proof.Machine

/-! The wire commands RREG and WREG (40_register_access.md R142 to R148). -/

namespace Sys2Proof.Machine

section
variable {b : Byte} {s t u : State}

theorem Sends.sendAll_cons (h : Sends b s u t) (bs : List Byte) : sendAll (b :: bs) s = sendAll bs t := by
  simp only [sendAll, h.run, andThen_go]

theorem Begins.ne_write {rw : Rw} (h : Begins true s rw) : rw ≠ .w := by
  obtain ⟨rfl, -⟩ | ⟨rfl, -⟩ : (rw = .r ∧ _) ∨ (rw = .rNotReady ∧ _) := h <;> nofun

theorem Begins.of_staysReady {rw : Rw} (h : Begins true s rw) (hready : StaysReady s) : rw = .r :=
  Or.elim (show (rw = .r ∧ _) ∨ (rw = .rNotReady ∧ _) from h) And.left fun hn => absurd hready hn.2

theorem Begins.of_staysNotReady {rw : Rw} (h : Begins true s rw) (hready : StaysNotReady s) : rw = .rNotReady :=
  Or.elim (show (rw = .r ∧ _) ∨ (rw = .rNotReady ∧ _) from h) (fun hn => absurd hready hn.2) And.left

/-- With no mark and the chip's place as it is nothing changes. -/
theorem registerStage_self {p : Pst} (h : AdcAt p s) : registerStage false p s = s := by
  simp only [registerStage, ← h.pst_eq, Bool.false_or]

/-! ### The data bytes -/

/-- The chip's place with `m` data bytes to come. -/
def dataPst (rw : Rw) (a : BitVec 4) (m : Nat) : Pst := if m = 0 then .cmd else .dat rw a m

theorem nextData_succ (rw : Rw) (a : BitVec 4) (m : Nat) : nextData rw a (m + 1) = dataPst rw (a + 1#4) m := by
  cases m <;> simp [nextData, dataPst]

theorem addr_succ {a : BitVec 4} (h : a.toNat + 1 < 16) : (a + 1#4).toNat = a.toNat + 1 := by
  rw [BitVec.toNat_add]
  exact Nat.mod_eq_of_lt h

/-- The registers are the same before and after a byte that writes none. -/
theorem ReadsAs.before {a : Nat} {v : Byte} {mark : Bool} {q : Pst} (hv : ReadsAs t a v)
    (h : Passed (registerStage mark q s) t) : ReadsAs s a v := fun ha => by
  obtain ⟨free, hfree⟩ := hv ha
  exact ⟨free, hfree.trans (h.readValue a free)⟩

/-- The bytes of a read come back in ascending order (R145). -/
theorem sendAll_fillers {rw : Rw} (hrw : rw ≠ .w) (b : Byte) {k m : Nat} {a : BitVec 4}
    (h : AdcAt (dataPst rw a m) s) (hk : k ≤ m) :
    ∃ (vs : List Byte) (a' : BitVec 4) (t : State), sendAll (List.replicate k b) s = .go t ∧ vs.length = k ∧
      Passed (registerStage false (dataPst rw a' (m - k)) s) t ∧ t.trace = s.trace ++ vs.map (.xfer b) ∧
      (rw = .r → ∀ j v, vs[j]? = some v → ReadsAs s (a.toNat + j) v) := by
  induction k generalizing a m s with
  | zero =>
    exact ⟨[], a, s, rfl, rfl, by rw [Nat.sub_zero, registerStage_self h]; exact .refl s, by simp, by simp⟩
  | succ k ih =>
    obtain ⟨m, rfl⟩ : ∃ m', m = m' + 1 := ⟨m - 1, by omega⟩
    obtain ⟨t₁, hsent, hread⟩ := send_readData hrw h b
    rw [nextData_succ] at hsent
    obtain ⟨vs, a', t, hrun, hlen, hpassed, htrace, hvals⟩ :=
      ih ((h.registerStage false _).passed hsent.passed) (by omega)
    refine ⟨t₁.rx :: vs, a', t, ?_, by simp [hlen], ?_, ?_, fun hr j v hj => ?_⟩
    · rw [List.replicate_succ, hsent.sendAll_cons, hrun]
    · rw [Nat.succ_sub_succ]
      exact hsent.passed.then (registerStage_edgeFree _ _) hpassed
    · simp [htrace, hsent.trace]
    · cases j with
      | zero =>
        cases hj
        exact hread hr
      | succ j =>
        intro hmap
        have hv := (hvals hr j v hj).before hsent.passed
        rw [addr_succ (by omega), Nat.add_right_comm] at hv
        exact hv hmap

/-- From `p` to `p'` the bytes were written into ascending registers from `a`, through their masks, and no other register
changed (R143, R146). -/
def WroteFrom (P : Params) (p p' : AdcPeer) (a : Nat) (data : List Byte) : Prop :=
  (∀ j v, data[j]? = some v → a + j ≤ 0x0A →
    TookMasked (writeMask P (a + j)) v (peerRegister p (a + j)) (peerRegister p' (a + j))) ∧
  ∀ x, x < a ∨ a + data.length ≤ x ∨ 0x0A < x → peerRegister p' x = peerRegister p x

theorem tookMasked_mixBits (mask v old : Byte) : TookMasked mask v old (mixBits mask v old) := fun i hi => by
  simp only [mixBits_getLsbD, hi, decide_true, Bool.and_true]

theorem WroteFrom.nil (P : Params) (p : AdcPeer) (a : Nat) : WroteFrom P p p a [] := ⟨nofun, fun _ _ => rfl⟩

theorem WroteFrom.one (P : Params) (p : AdcPeer) (a : Nat) (v : Byte) :
    WroteFrom P p (writeRegister P p a v) a [v] := by
  refine ⟨fun j w hj hmap => ?_, fun x hx => ?_⟩
  · obtain ⟨rfl, rfl⟩ : j = 0 ∧ w = v := by cases j <;> simp_all
    rw [Nat.add_zero] at hmap ⊢
    rw [peerRegister_writeRegister P p _ _ hmap, if_pos rfl]
    exact tookMasked_mixBits _ _ _
  · by_cases ha : a ≤ 0x0A
    · rw [peerRegister_writeRegister P p x v ha, if_neg]
      simp only [List.length_singleton] at hx
      omega
    · rw [writeRegister, if_neg ha]

theorem WroteFrom.cons {P : Params} {p p₁ p' : AdcPeer} {a : Nat} {v : Byte} {data : List Byte}
    (h : WroteFrom P p p₁ a [v]) (k : WroteFrom P p₁ p' (a + 1) data) : WroteFrom P p p' a (v :: data) := by
  obtain ⟨htook, hkept⟩ := h
  obtain ⟨ktook, kkept⟩ := k
  refine ⟨fun j w hj hmap => ?_, fun x hx => ?_⟩
  · cases j with
    | zero =>
      rw [kkept (a + 0) (.inl (Nat.lt_succ_self a))]
      exact htook 0 w hj hmap
    | succ j =>
      have hw := ktook j w hj (by omega)
      rw [show a + 1 + j = a + (j + 1) by omega, hkept (a + (j + 1)) (.inr (.inl (by simp)))] at hw
      exact hw
  · simp only [List.length_cons] at hx
    rw [kkept x (by omega), hkept x (by simp only [List.length_singleton]; omega)]

/-- What was written does not depend on the conversion value or the chip's place. -/
theorem WroteFrom.congr {P : Params} {p q p' q' : AdcPeer} {a : Nat} {data : List Byte} (h : WroteFrom P p p' a data)
    (hp : ∀ x, peerRegister q x = peerRegister p x) (hp' : ∀ x, peerRegister q' x = peerRegister p' x) :
    WroteFrom P q q' a data := by
  simpa only [WroteFrom, hp, hp'] using h

/-- The state with other register contents and the chip at another place. -/
def withRegisters (mem : Memory) (p : Pst) (s : State) : State := { s with adc := { s.adc with mem := mem, pst := p } }

theorem withRegisters_edgeFree (mem : Memory) (p : Pst) : EdgeFree (withRegisters mem p) :=
  ⟨fun _ _ => rfl, fun _ _ => rfl, fun _ => rfl, fun _ => rfl⟩

theorem writeRegister_eq (P : Params) (p : AdcPeer) (a : Nat) (v : Byte) :
    writeRegister P p a v = { p with mem := (writeRegister P p a v).mem } := by
  unfold writeRegister
  split <;> rfl

/-- A data byte of a write, as what it makes of the registers. -/
theorem send_writeByte {a : BitVec 4} {m : Nat} (h : AdcAt (dataPst .w a (m + 1)) s) (b : Byte) :
    ∃ t, Sends b s (withRegisters t.adc.mem (dataPst .w (a + 1#4) m) s) t ∧
      t.adc.mem = (writeRegister s.cfg s.adc a.toNat b).mem ∧ WroteFrom s.cfg s.adc t.adc a.toNat [b] := by
  obtain ⟨t, hsent⟩ := send_writeData h b
  rw [writeRegister_eq, nextData_succ] at hsent
  have hmem : t.adc.mem = (writeRegister s.cfg s.adc a.toNat b).mem := hsent.passed.mem
  refine ⟨t, hmem ▸ hsent, hmem, (WroteFrom.one s.cfg s.adc a.toNat b).congr (fun _ => rfl) fun x => ?_⟩
  rw [hsent.passed.peerRegister, writeRegister_eq s.cfg s.adc a.toNat b]
  rfl

theorem AdcAt.withRegisters {p : Pst} (h : AdcAt p s) (mem : Memory) (q : Pst) : AdcAt q (withRegisters mem q s) := by
  obtain ⟨hadcN, hdacN, hrst, -, hmode⟩ := h
  exact ⟨hadcN, hdacN, hrst, rfl, hmode⟩

/-- The bytes of a write go into ascending registers (R146). -/
theorem sendAll_data {m : Nat} {a : BitVec 4} {data : List Byte} (h : AdcAt (dataPst .w a m) s)
    (hdata : data.length ≤ m) (hmap : a.toNat + data.length ≤ 16) :
    ∃ a' t, sendAll data s = .go t ∧
      Passed (withRegisters t.adc.mem (dataPst .w a' (m - data.length)) s) t ∧
      TraceGrew s t (data.map (.xfer · 0#8)) ∧ WroteFrom s.cfg s.adc t.adc a.toNat data := by
  induction data generalizing a m s with
  | nil =>
    have hstage : withRegisters s.adc.mem (dataPst .w a m) s = s := by simp only [withRegisters, ← h.pst_eq]
    exact ⟨a, s, rfl, by rw [List.length_nil, Nat.sub_zero, hstage]; exact .refl s, ⟨[], by simp, rfl⟩, .nil _ _ _⟩
  | cons b data ih =>
    rw [List.length_cons] at hdata hmap ⊢
    obtain ⟨m, rfl⟩ : ∃ m', m = m' + 1 := ⟨m - 1, by omega⟩
    obtain ⟨t₁, hsent, -, hwrote⟩ := send_writeByte h b
    have haddr : data ≠ [] → (a + 1#4).toNat = a.toNat + 1 := fun hne =>
      addr_succ (by have := List.length_pos_iff.2 hne; omega)
    have hroom : (a + 1#4).toNat + data.length ≤ 16 := by
      by_cases hne : data = []
      · have := (a + 1#4).isLt
        simp only [hne, List.length_nil]
        omega
      · rw [haddr hne]
        omega
    obtain ⟨a', t, hrun, hpassed, htrace, hrest⟩ :=
      ih ((h.withRegisters _ _).passed hsent.passed) (by omega) hroom
    refine ⟨a', t, ?_, ?_, ?_, ?_⟩
    · rw [hsent.sendAll_cons, hrun]
    · rw [Nat.succ_sub_succ]
      exact hsent.passed.then (withRegisters_edgeFree _ _) hpassed
    · exact (TraceGrew.of_eq (l := [.xfer b 0#8]) hsent.trace rfl).trans htrace
    · refine hwrote.cons ?_
      rw [hsent.passed.cfg] at hrest
      by_cases hne : data = []
      · subst hne
        cases hrun
        exact .nil _ _ _
      · rw [← haddr hne]
        exact hrest

/-! ### Whole commands -/

/-- The command and count bytes of a register command (R142, R143). -/
theorem sendAll_registerHead (h : AdcAt .cmd s) (hC : s.cfg.codes.wf = true) (read : Bool) {r n : BitVec 4}
    (hburst : burstInMap r n = true) :
    ∃ rw d1 d2 t, Begins read s rw ∧ Passed (registerStage rw.marks (dataPst rw r (n.toNat + 1)) s) t ∧
      t.trace = s.trace ++ [.xfer (registerCommand s.cfg.codes read r) d1, .xfer (countByte n) d2] ∧
      ∀ bs, sendAll (registerCommand s.cfg.codes read r :: countByte n :: bs) s = sendAll bs t := by
  obtain ⟨rw, t₁, hbegins, hcmd⟩ := send_registerCommand h hC read r
  obtain ⟨t₂, hcnt⟩ := send_count ((h.registerStage _ _).passed hcmd.passed) hburst
  refine ⟨rw, t₁.rx, t₂.rx, t₂, hbegins, ?_, by simp [hcnt.trace, hcmd.trace], fun bs => ?_⟩
  · exact hcmd.passed.then (registerStage_edgeFree _ _) hcnt.passed
  · rw [hcmd.sendAll_cons, hcnt.sendAll_cons]

/-- A wire read of `n + 1` registers, the line ready or not (R142, R145, R148). -/
theorem exec_rreg {r n : BitVec 4} (h : AdcListening s) (hC : s.cfg.codes.wf = true) (hburst : burstInMap r n = true) :
    ∃ (rw : Rw) (d1 d2 : Byte) (vs : List Byte) (t : State), Begins true s rw ∧ exec (.rreg r n) s = .next t ∧
      vs.length = n.toNat + 1 ∧ Passed (registerStage rw.marks .cmd s) t ∧
      t.trace = s.trace ++ .xfer (s.cfg.codes.rreg ||| r.setWidth 8) d1 :: .xfer (n.setWidth 8) d2 ::
        vs.map (fun v => .xfer s.cfg.codes.filler v) ∧
      (rw = .r → ∀ j v, vs[j]? = some v → ReadsAs s (r.toNat + j) v) := by
  obtain ⟨rw, d1, d2, t₁, hbegins, hhead, htrace₁, hrun₁⟩ := sendAll_registerHead h hC true hburst
  obtain ⟨vs, a', t, hrun, hlen, hpassed, htrace, hvals⟩ :=
    sendAll_fillers hbegins.ne_write s.cfg.codes.filler ((AdcAt.registerStage h _ _).passed hhead) le_rfl
  rw [Nat.sub_self] at hpassed
  refine ⟨rw, d1, d2, vs, t, hbegins, ?_, hlen, hhead.then (registerStage_edgeFree _ _) hpassed, ?_, fun hr j v hj => ?_⟩
  · show toOutcome (sendAll (registerCommand s.cfg.codes true r :: _) s) = _
    rw [hrun₁, hrun, toOutcome_go]
  · simp only [htrace, htrace₁, List.append_assoc]
    rfl
  · exact (hvals hr j v hj).before hhead

/-- Settles O55: the bytes of the read come back one by one, each the register at its place. -/
theorem rregReturnsTheRegisters : Obligations.RregReturnsTheRegisters := by
  intro r n s h hC hready hburst
  obtain ⟨rw, d1, d2, vs, t, hbegins, hexec, hlen, hpassed, htrace, hvals⟩ := exec_rreg h hC hburst
  obtain rfl := hbegins.of_staysReady hready
  refine ⟨d1, d2, vs, t, hexec, hlen, ?_, htrace, fun j v hj hmap i hi hmask => ?_, fun v hr hv => ?_⟩
  · rwa [Rw.marks, registerStage_self h] at hpassed
  · obtain ⟨free, rfl⟩ := hvals rfl j v hj hmap
    exact readValue_getLsbD _ _ _ _ hi hmask
  · subst hr
    obtain ⟨free, rfl⟩ := hvals rfl 0 v hv (Nat.zero_le _)
    exact hiNibble_readValue_status _ _ _

/-- A whole burst ends below address 16, a reserved id included (R66, R119). -/
theorem burstInMap_room {r n : BitVec 4} (h : burstInMap r n = true) : r.toNat + (n.toNat + 1) ≤ 16 := by
  have hr := r.isLt
  simp only [burstInMap, Bool.or_eq_true, beq_iff_eq, decide_eq_true_eq] at h
  rcases h with rfl | h
  · simpa using hr
  · omega

/-- Settles O56: the bytes of the write go one by one into the registers at their places. -/
theorem wregWritesTheRegisters : Obligations.WregWritesTheRegisters := by
  intro r n data s h hC hburst hlen
  obtain ⟨rw, d1, d2, t₁, rfl, hhead, htrace₁, hrun₁⟩ := sendAll_registerHead h hC false hburst
  obtain ⟨a', t, hrun, hpassed, htrace, hwrote⟩ :=
    sendAll_data ((AdcAt.registerStage h _ _).passed hhead) hlen.le (hlen ▸ burstInMap_room hburst)
  have hwhole : Passed (withRegisters t.adc.mem .cmd s) t := by
    rw [hlen, Nat.sub_self] at hpassed
    exact hhead.then (withRegisters_edgeFree _ _) hpassed
  obtain ⟨htook, hkept⟩ : WroteFrom s.cfg s.adc t.adc r.toNat data :=
    hhead.cfg ▸ hwrote.congr (fun x => (hhead.peerRegister x).symm) fun _ => rfl
  refine ⟨t, ?_, ?_, ?_, htook, fun a ha => hkept a (by omega)⟩
  · show toOutcome (sendAll (registerCommand s.cfg.codes false r :: countByte n :: data) s) = _
    rw [hrun₁, hrun, toOutcome_go]
  · rwa [withRegisters, ← AdcAt.pst_eq h] at hwhole
  · exact (TraceGrew.of_eq htrace₁ rfl).trans htrace

end

end Sys2Proof.Machine

/-! Frames that end before their command does (40_register_access.md R140, 20_memory.md R72, 44_wire_commands.md R211). -/

namespace Sys2Proof.Machine

section
variable {s t u : State}

/-! ### A read, however much of it is sent -/

/-- What a read can leave behind: the mark of the run, the chip's copy of the sample and its place. -/
def readStage (marked : Bool) (shift : BitVec 24) (p : Pst) (s : State) : State :=
  { s with runFaulted := marked, adc := { s.adc with shift := shift, pst := p } }

theorem readStage_edgeFree (marked : Bool) (shift : BitVec 24) (p : Pst) : EdgeFree (readStage marked shift p) :=
  ⟨fun _ _ => rfl, fun _ _ => rfl, fun _ => rfl, fun _ => rfl⟩

/-- From `s` to `t` bytes of a read were exchanged. -/
def PassedReading (s t : State) : Prop := ∃ p, Passed (readStage t.runFaulted t.adc.shift p s) t

theorem PassedReading.refl (s : State) : PassedReading s s := ⟨s.adc.pst, .refl s⟩

theorem PassedReading.trans (h : PassedReading s t) (k : PassedReading t u) : PassedReading s u := by
  obtain ⟨p, hp⟩ := h
  obtain ⟨q, hq⟩ := k
  exact ⟨q, hp.then (readStage_edgeFree _ _ _) hq⟩

theorem PassedReading.of_stage {mark : Bool} {p : Pst} (h : Passed (registerStage mark p s) t) : PassedReading s t := by
  refine ⟨p, ?_⟩
  rw [h.runFaulted, h.shift]
  exact h

/-- The opcode of RDATA copies the conversion value (R211). -/
theorem send_rdata (h : AdcAt .cmd s) (hC : s.cfg.codes.wf = true) :
    ∃ shift t, Sends s.cfg.codes.rdata s (readStage s.runFaulted shift (.smp 3) s) t := by
  have hat := h.passed (absorb_passed s)
  have ⟨_, _, hrst, hcmd, hmode⟩ := hat
  have hcodes : (absorb s.inputs s).cfg.codes = s.cfg.codes := by simp
  have hx : exchange s.cfg.codes.rdata (absorb s.inputs s) = normalCommand .rdata (drawRx (absorb s.inputs s)) := by
    rw [hat.exchange, adcExchange_cmd hrst hcmd]
    exact commandExchange_normal hmode (hcodes ▸ (classify_eq hC).1)
  refine ⟨(absorb s.inputs s).adc.conv, _, sends_of_exchange (readStage_edgeFree _ _ _) hx ?_⟩
  rw [← absorb_trace s.inputs s, ← absorb_runFaulted s.inputs s]
  rfl

/-- A sample byte changes the chip's place only (R147). -/
theorem send_sample {j : Nat} (h : AdcAt (.smp j) s) (b : Byte) :
    ∃ t, Sends b s (registerStage false (if j > 1 then .smp (j - 1) else .cmd) s) t := by
  have hat := h.passed (absorb_passed s)
  have ⟨_, _, hrst, hsmp, hmode⟩ := hat
  have hx : exchange b (absorb s.inputs s) = .go (sampleExchange j (absorb s.inputs s)) := by
    rw [hat.exchange, adcExchange_sample hrst hsmp hmode]
  exact ⟨_, sends_of_exchange (registerStage_edgeFree _ _) hx (by rw [← absorb_trace s.inputs s]; rfl)⟩

/-- Fewer bytes than the sample has leave it in hand. -/
theorem sendAll_samples (b : Byte) {k j : Nat} (h : AdcAt (.smp j) s) (hk : k < j) :
    ∃ t, sendAll (List.replicate k b) s = .go t ∧ PassedReading s t ∧
      TraceGrew s t ((List.replicate k b).map (.xfer · 0#8)) := by
  induction k generalizing j s with
  | zero => exact ⟨s, rfl, .refl s, [], by simp, rfl⟩
  | succ k ih =>
    obtain ⟨t₁, hsent⟩ := send_sample h b
    rw [if_pos (by omega)] at hsent
    obtain ⟨t, hrun, hread, htrace⟩ := ih ((h.registerStage false _).passed hsent.passed) (by omega)
    refine ⟨t, ?_, (PassedReading.of_stage hsent.passed).trans hread, ?_⟩
    · rw [List.replicate_succ, hsent.sendAll_cons, hrun]
    · exact (TraceGrew.of_eq (l := [.xfer b 0#8]) hsent.trace rfl).trans htrace

/-- RDATA cut short. -/
theorem sendAll_rdata_cut (h : AdcAt .cmd s) (hC : s.cfg.codes.wf = true) (b : Byte) {m : Nat} (hm : m < 4) :
    ∃ t, sendAll ((s.cfg.codes.rdata :: List.replicate 3 b).take m) s = .go t ∧ PassedReading s t ∧
      TraceGrew s t (((s.cfg.codes.rdata :: List.replicate 3 b).take m).map (.xfer · 0#8)) := by
  cases m with
  | zero => exact ⟨s, rfl, .refl s, [], by simp, rfl⟩
  | succ m =>
    obtain ⟨shift, t₁, hsent⟩ := send_rdata h hC
    have hopcode : PassedReading s t₁ := ⟨.smp 3, by rw [hsent.passed.runFaulted, hsent.passed.shift]; exact hsent.passed⟩
    have hat : AdcAt (.smp 3) t₁ := by
      obtain ⟨hadcN, hdacN, hrst, -, hmode⟩ := h
      exact AdcAt.passed (s := readStage s.runFaulted shift (.smp 3) s) ⟨hadcN, hdacN, hrst, rfl, hmode⟩ hsent.passed
    obtain ⟨t, hrun, hread, htrace⟩ := sendAll_samples b hat (show m < 3 by omega)
    rw [List.take_succ_cons, List.take_replicate, min_eq_left (by omega)]
    refine ⟨t, ?_, hopcode.trans hread, ?_⟩
    · rw [hsent.sendAll_cons, hrun]
    · exact (TraceGrew.of_eq (l := [.xfer s.cfg.codes.rdata 0#8]) hsent.trace rfl).trans htrace

/-- RREG cut short. -/
theorem sendAll_rreg_cut {r n : BitVec 4} (h : AdcAt .cmd s) (hC : s.cfg.codes.wf = true)
    (hburst : burstInMap r n = true) {bytes : List Byte}
    (hbytes : bytes = registerCommand s.cfg.codes true r :: countByte n ::
      List.replicate (n.toNat + 1) s.cfg.codes.filler) {m : Nat} (hm : m < bytes.length) :
    ∃ t, sendAll (bytes.take m) s = .go t ∧ PassedReading s t ∧
      TraceGrew s t ((bytes.take m).map (.xfer · 0#8)) := by
  subst hbytes
  rcases m with _ | _ | m
  · exact ⟨s, rfl, .refl s, [], by simp, rfl⟩
  · obtain ⟨rw, t, -, hsent⟩ := send_registerCommand h hC true r
    exact ⟨t, hsent.sendAll_cons [], .of_stage hsent.passed, .of_eq hsent.trace rfl⟩
  · obtain ⟨rw, d1, d2, t₁, hbegins, hhead, htrace₁, hrun₁⟩ := sendAll_registerHead h hC true hburst
    simp only [List.length_cons, List.length_replicate] at hm
    obtain ⟨vs, a', t, hrun, hlen, hpassed, htrace, -⟩ :=
      sendAll_fillers hbegins.ne_write s.cfg.codes.filler (k := m) ((h.registerStage _ _).passed hhead) (by omega)
    rw [List.take_succ_cons, List.take_succ_cons, List.take_replicate, min_eq_left (by omega)]
    refine ⟨t, by rw [hrun₁, hrun], (PassedReading.of_stage hhead).trans (.of_stage hpassed), ?_⟩
    refine (TraceGrew.of_eq (l := [_, _]) htrace₁ rfl).trans (.of_eq htrace ?_)
    simp [Function.comp_def, sent, List.map_const', hlen]

/-- WREG cut short: the data bytes sent are written. -/
theorem sendAll_wreg_cut {r n : BitVec 4} (h : AdcAt .cmd s) (hC : s.cfg.codes.wf = true)
    (hburst : burstInMap r n = true) {data : List Byte} (hlen : data.length = n.toNat + 1) (m : Nat) :
    ∃ p t, sendAll ((registerCommand s.cfg.codes false r :: countByte n :: data).take m) s = .go t ∧
      Passed (withRegisters t.adc.mem p s) t ∧
      TraceGrew s t (((registerCommand s.cfg.codes false r :: countByte n :: data).take m).map (.xfer · 0#8)) ∧
      WroteFrom s.cfg s.adc t.adc r.toNat (data.take (m - 2)) := by
  rcases m with _ | _ | m
  · exact ⟨s.adc.pst, s, rfl, .refl s, ⟨[], by simp, rfl⟩, .nil _ _ _⟩
  · obtain ⟨rw, t, rfl, hsent⟩ := send_registerCommand h hC false r
    refine ⟨.cnt .w r, t, hsent.sendAll_cons [], ?_, .of_eq hsent.trace rfl, ?_⟩
    · rw [hsent.passed.mem]
      exact hsent.passed
    · exact (WroteFrom.nil s.cfg s.adc r.toNat).congr (fun _ => rfl) hsent.passed.peerRegister
  · obtain ⟨rw, d1, d2, t₁, rfl, hhead, htrace₁, hrun₁⟩ := sendAll_registerHead h hC false hburst
    have hcut : (data.take m).length ≤ n.toNat + 1 := hlen ▸ List.length_take_le' m data
    have hroom := burstInMap_room hburst
    obtain ⟨a', t, hrun, hpassed, htrace, hwrote⟩ :=
      sendAll_data ((h.registerStage _ _).passed hhead) hcut (by omega)
    refine ⟨_, t, ?_, hhead.then (withRegisters_edgeFree _ _) hpassed, ?_, ?_⟩
    · rw [List.take_succ_cons, List.take_succ_cons, hrun₁, hrun]
    · exact (TraceGrew.of_eq (l := [_, _]) htrace₁ rfl).trans htrace
    · exact hhead.cfg ▸ hwrote.congr (fun x => (hhead.peerRegister x).symm) fun _ => rfl

/-! ### The frame around it -/

theorem runCommands_undecoded {n : Nat} {bytes : List Byte} {e : DecodeError}
    (h : decodeWire s.cfg.codes bytes = .error e) : runCommands n bytes s = sendAll bytes s := by
  cases n with
  | zero => rfl
  | succ n =>
    cases bytes with
    | nil => rfl
    | cons b bs => simp only [runCommands, h]

theorem decodeRegister_cut {r n : BitVec 4} (hburst : burstInMap r n = true) (data : List Byte) {k : Nat}
    (hk : k < n.toNat + 2) : decodeRegister r ((countByte n :: data).take k) = .error .truncated := by
  cases k with
  | zero => rfl
  | succ k =>
    have hshort : (data.take k).length < n.toNat + 1 := (List.length_take_le k data).trans_lt (by omega)
    rw [List.take_succ_cons, decodeRegister, hiNibble_countByte, loNibble_countByte, hburst, if_neg (by simp),
      if_neg (by simp), if_pos hshort]

theorem decodeWire_register_cut {C : WireCodes} (hC : C.wf = true) (read : Bool) {r n : BitVec 4}
    (hburst : burstInMap r n = true) (data : List Byte) {m : Nat} (hm : m < n.toNat + 3) :
    decodeWire C ((registerCommand C read r :: countByte n :: data).take m) = .error .truncated := by
  cases m with
  | zero => rfl
  | succ m =>
    rw [List.take_succ_cons, decodeWire, classify_registerCommand hC]
    cases read <;> simp [decodeRegister_cut hburst data (show m < n.toNat + 2 by omega), Except.map]

theorem decodeWire_rdata_cut {C : WireCodes} (hC : C.wf = true) (b : Byte) {m : Nat} (hm : m < 4) :
    decodeWire C ((C.rdata :: List.replicate 3 b).take m) = .error .truncated := by
  cases m with
  | zero => rfl
  | succ m =>
    have hshort : m < 3 := by omega
    simp [decodeWire, (classify_eq hC).1, hshort]

/-- The select of the converter chip falls. -/
def openFrame (s : State) : State := { s with csAdcN := false }

/-- The select of the converter chip rises, and the chip is at the start of a command (R140). -/
def closeFrame (s : State) : State := { s with csAdcN := true, adc := { s.adc with pst := .cmd } }

theorem openFrame_edgeFree : EdgeFree openFrame := ⟨fun _ _ => rfl, fun _ _ => rfl, fun _ => rfl, fun _ => rfl⟩

theorem closeFrame_edgeFree : EdgeFree closeFrame := ⟨fun _ _ => rfl, fun _ _ => rfl, fun _ => rfl, fun _ => rfl⟩

theorem select_passed (s : State) : Passed (openFrame s) (setCs .adc false (absorb s.inputs s)) :=
  ((absorb_passed s).map openFrame_edgeFree).logged _

theorem release_passed (s : State) : Passed (closeFrame s) (setCs .adc true (absorb s.inputs s)) :=
  ((absorb_passed s).map closeFrame_edgeFree).logged _

theorem openFrame_adcAt (h : AtPhase .closed s) (hmode : s.adc.mode = .normal) : AdcAt .cmd (openFrame s) := by
  obtain ⟨-, hdacN, hrst, hcmd, -⟩ := h
  exact ⟨rfl, hdacN, hrst, hcmd, hmode⟩

/-- Of a read in a frame nothing stays but the mark and the copy of the sample. -/
theorem closeFrame_readStage (h : AtPhase .closed s) (marked : Bool) (shift : BitVec 24) (p : Pst) :
    closeFrame (readStage marked shift p (openFrame s)) =
      { s with runFaulted := marked, adc := { s.adc with shift := shift } } := by
  obtain ⟨hadcN, -, -, hcmd, -⟩ := h
  simp only [closeFrame, readStage, openFrame, ← hadcN, ← hcmd]

/-- Of a write in a frame nothing stays but the registers. -/
theorem closeFrame_withRegisters (h : AtPhase .closed s) (mem : Memory) (p : Pst) :
    closeFrame (withRegisters mem p (openFrame s)) = { s with adc := { s.adc with mem := mem } } := by
  obtain ⟨hadcN, -, -, hcmd, -⟩ := h
  simp only [closeFrame, withRegisters, openFrame, ← hadcN, ← hcmd]

/-- An outside frame whose bytes make no command: the select falls, the bytes pass, the select rises (log 13). -/
theorem step_undecodedFrame {fs : List BusFrame} {bytes : List Byte} {e : DecodeError} (hrun : s.runFaulted = false)
    (hidle : s.pc.op = .idle) (hopen : AtPhase .closed s) (hmode : s.adc.mode = .normal)
    (hframes : s.frames = ⟨.adc, bytes⟩ :: fs) (hcut : decodeWire s.cfg.codes bytes = .error e) :
    ∃ t₀, AdcAt .cmd t₀ ∧ Passed (openFrame { s with frames := fs }) t₀ ∧ TraceGrew s t₀ [.cs .adc false] ∧
      ∀ t₁, sendAll bytes t₀ = .go t₁ → ∃ t, step s = .next t ∧ Passed (closeFrame t₁) t ∧
        TraceGrew t₁ t [.cs .adc true] := by
  have hsel := select_passed { s with frames := fs }
  have hat : AdcAt .cmd (openFrame { s with frames := fs }) := openFrame_adcAt (s := { s with frames := fs }) hopen hmode
  refine ⟨_, hat.passed hsel, hsel, .of_eq (by simp) rfl, fun t₁ hsent => ?_⟩
  refine ⟨_, ?_, release_passed t₁, .of_eq (by simp) rfl⟩
  rw [step_runFrame hrun hidle hframes]
  simp only [runFrame, act_select, andThen_go]
  rw [runCommands_undecoded (by simpa using hcut), hsent]
  rfl

/-- A frame with the beginning of a read. -/
theorem step_cutRead {fs : List BusFrame} {bytes : List Byte} {e : DecodeError} (hrun : s.runFaulted = false)
    (hidle : s.pc.op = .idle) (hopen : AtPhase .closed s) (hmode : s.adc.mode = .normal)
    (hframes : s.frames = ⟨.adc, bytes⟩ :: fs) (hcut : decodeWire s.cfg.codes bytes = .error e)
    (hbytes : ∀ t₀ : State, AdcAt .cmd t₀ → t₀.cfg = s.cfg →
      ∃ t₁, sendAll bytes t₀ = .go t₁ ∧ PassedReading t₀ t₁ ∧ TraceGrew t₀ t₁ (bytes.map (.xfer · 0#8))) :
    ∃ t, step s = .next t ∧
      Passed { s with frames := fs, runFaulted := t.runFaulted, adc := { s.adc with shift := t.adc.shift } } t ∧
      t.adc.pst = .cmd ∧
      TraceGrew s t (.cs .adc false :: bytes.map (fun b => .xfer b 0#8) ++ [.cs .adc true]) := by
  obtain ⟨t₀, hat, hsel, htrace₀, hrest⟩ := step_undecodedFrame hrun hidle hopen hmode hframes hcut
  obtain ⟨t₁, hsent, ⟨p, hread⟩, htrace₁⟩ := hbytes t₀ hat hsel.cfg
  obtain ⟨t, hstep, hrel, htrace₂⟩ := hrest t₁ hsent
  refine ⟨t, hstep, ?_, hrel.pst, (htrace₀.trans htrace₁).trans htrace₂⟩
  rw [hrel.runFaulted, hrel.shift]
  have hall := (hsel.then (readStage_edgeFree _ _ _) hread).then closeFrame_edgeFree hrel
  rwa [closeFrame_readStage (s := { s with frames := fs }) hopen] at hall

/-- A frame with the beginning of a write. -/
theorem step_cutWrite {fs : List BusFrame} {r n : BitVec 4} {data : List Byte} {m : Nat} (hrun : s.runFaulted = false)
    (hidle : s.pc.op = .idle) (hopen : AtPhase .closed s) (hmode : s.adc.mode = .normal) (hC : s.cfg.codes.wf = true)
    (hburst : burstInMap r n = true) (hlen : data.length = n.toNat + 1) (hm : m < n.toNat + 3)
    {bytes : List Byte} (hbytes : bytes = (registerCommand s.cfg.codes false r :: countByte n :: data).take m)
    (hframes : s.frames = ⟨.adc, bytes⟩ :: fs) :
    ∃ t, step s = .next t ∧ Passed { s with frames := fs, adc := { s.adc with mem := t.adc.mem } } t ∧
      t.adc.pst = .cmd ∧
      TraceGrew s t (.cs .adc false :: bytes.map (fun b => .xfer b 0#8) ++ [.cs .adc true]) ∧
      WroteFrom s.cfg s.adc t.adc r.toNat (data.take (m - 2)) := by
  subst hbytes
  have hcut := decodeWire_register_cut hC false hburst data hm
  obtain ⟨t₀, hat, hsel, htrace₀, hrest⟩ := step_undecodedFrame hrun hidle hopen hmode hframes hcut
  have hcfg : t₀.cfg = s.cfg := hsel.cfg
  obtain ⟨p, t₁, hsent, hwritten, htrace₁, hwrote⟩ := sendAll_wreg_cut hat (hcfg ▸ hC) hburst hlen m
  rw [hcfg] at hsent htrace₁ hwrote
  obtain ⟨t, hstep, hrel, htrace₂⟩ := hrest t₁ hsent
  refine ⟨t, hstep, ?_, hrel.pst, (htrace₀.trans htrace₁).trans htrace₂, ?_⟩
  · rw [hrel.mem]
    have hall := (hsel.then (withRegisters_edgeFree _ _) hwritten).then closeFrame_edgeFree hrel
    rwa [closeFrame_withRegisters (s := { s with frames := fs }) hopen] at hall
  · exact hwrote.congr (fun x => (hsel.peerRegister x).symm) hrel.peerRegister

/-- Settles O60: the bytes sent have their effect, and the select's rise ends the rest. -/
theorem frameEndingEarlyKeepsWhatWasSent : Obligations.FrameEndingEarlyKeepsWhatWasSent := by
  intro s fs words i m hrun hidle hopen hmode hC hwf hwords hm hframes
  refine ⟨?_, ?_⟩
  · rintro r n data rfl
    cases hwords
    simp only [Instr.wellFormed, Bool.and_eq_true, beq_iff_eq] at hwf
    obtain ⟨hburst, hlen⟩ := hwf
    have hcut : m < n.toNat + 3 := hm.trans_eq (by simp [hlen])
    obtain ⟨t, hstep, hpassed, hcmd, htrace, htook, hkept⟩ :=
      step_cutWrite hrun hidle hopen.closed hmode hC hburst hlen hcut rfl hframes
    refine ⟨t, hstep, hpassed, hcmd, htrace, fun j v hj hsent hmap => ?_, fun a ha => hkept a ?_⟩
    · exact htook j v (by rw [List.getElem?_take, if_pos (by omega), hj]) hmap
    · rw [List.length_take]
      omega
  · rintro (⟨r, n, rfl⟩ | rfl)
    · cases hwords
      have hcut : m < n.toNat + 3 := hm.trans_eq (by simp)
      exact step_cutRead hrun hidle hopen.closed hmode hframes
        (decodeWire_register_cut hC true hwf (List.replicate (n.toNat + 1) s.cfg.codes.filler) hcut)
        fun t₀ hat hcfg => hcfg ▸ sendAll_rreg_cut hat (hcfg ▸ hC) hwf rfl (hcfg ▸ hm)
    · cases hwords
      exact step_cutRead hrun hidle hopen.closed hmode hframes (decodeWire_rdata_cut hC s.cfg.codes.filler hm)
        fun t₀ hat hcfg => hcfg ▸ sendAll_rdata_cut hat (hcfg ▸ hC) s.cfg.codes.filler hm

end

end Sys2Proof.Machine

/-! The register operations of the host (40_register_access.md R130 to R135, R148): the six actions of RDREG, WRREG and
RDID. -/

namespace Sys2Proof.Machine

section
variable {s t u : State} {op : Op}

theorem EdgeFree.comp {f g : State → State} (hf : EdgeFree f) (hg : EdgeFree g) : EdgeFree fun s => f (g s) where
  amid u t := by rw [hg.amid, hf.amid]
  quiet u t := by rw [hg.quiet, hf.quiet]
  sess u := by rw [hf.sess, hg.sess]
  inputs u := by rw [hf.inputs, hg.inputs]

/-- The program counter stands at a step of the operation. -/
def atStep (op : Op) (n : Nat) (s : State) : State := { s with pc := ⟨op, 0, n⟩ }

theorem atStep_edgeFree (op : Op) (n : Nat) : EdgeFree (atStep op n) :=
  ⟨fun _ _ => rfl, fun _ _ => rfl, fun _ => rfl, fun _ => rfl⟩

/-- The actions of an operation, one by one. -/
theorem runItems_number_cons {n : Nat} {m : Micro} (acts : List Micro) (h : act m (atStep op n s) = .go t) :
    runItems op (number 0 n (m :: acts)) s = runItems op (number 0 (n + 1) acts) t := by
  show andThen (act m (atStep op n s)) _ = _
  rw [h]
  rfl

theorem AdcAt.atStep {p : Pst} (h : AdcAt p s) (op : Op) (n : Nat) : AdcAt p (atStep op n s) := h

theorem act_delay (d : DelayName) (s : State) : act (.delay d) s = .go (delay d (absorb s.inputs s)) := rfl

theorem act_recv (dst : Latch) (s : State) :
    act (.recv dst) s = andThen (act (.send s.cfg.codes.filler) s) fun t => .go (keepByte dst t) := by
  rw [act_eq (m := .recv dst) nofun, act_eq (m := .send _) nofun, ← absorb_cfg s.inputs s]
  rfl

/-- The byte that `rx` keeps is the one that comes back for FILLER. -/
theorem act_recv_rx (s : State) : act (.recv .rx) s = act (.send s.cfg.codes.filler) s :=
  (act_recv .rx s).trans (andThen_go_right _)

theorem Begins.before {read : Bool} {rw : Rw} (h : Begins read t rw) (hready : StaysReady s → StaysReady t)
    (hnot : StaysNotReady s → StaysNotReady t) : Begins read s rw := by
  cases read with
  | false => exact h
  | true =>
    exact Or.imp (And.imp_right fun hn hs => hn (hnot hs)) (And.imp_right fun hn hs => hn (hready hs))
      (show (rw = .r ∧ _) ∨ (rw = .rNotReady ∧ _) from h)

/-- The first four actions of a register operation: the select, the command and count bytes, the delay. -/
theorem runItems_registerHead (hclosed : AtPhase .closed s) (hmode : s.adc.mode = .normal) (hC : s.cfg.codes.wf = true)
    (op : Op) (read : Bool) (id : BitVec 4) :
    ∃ rw t, Begins read s rw ∧
      Passed (atStep op 3 (registerStage rw.marks (dataPst rw id 1) (openFrame s))) t ∧
      TraceGrew s t [.cs .adc false, .xfer (registerCommand s.cfg.codes read id) 0#8, .xfer 0x00#8 0#8, .delay .tIB] ∧
      ∀ acts, runItems op (number 0 0 (.select .adc :: .send (registerCommand s.cfg.codes read id) ::
        .send (countByte 0#4) :: .delay .tIB :: acts)) s = runItems op (number 0 4 acts) t := by
  obtain ⟨t₁, hrun₁, hsel, hinputs, hline, htrace₁⟩ : ∃ t₁, act (.select .adc) (atStep op 0 s) = .go t₁ ∧
      Passed (openFrame (atStep op 0 s)) t₁ ∧ t₁.inputs = (absorb s.inputs (atStep op 0 s)).inputs ∧
      t₁.drdyN = (absorb s.inputs (atStep op 0 s)).drdyN ∧ t₁.trace = s.trace ++ [.cs .adc false] :=
    ⟨_, act_select .adc _, select_passed (atStep op 0 s), rfl, rfl, by simp [atStep]⟩
  have hat : AdcAt .cmd t₁ := (openFrame_adcAt (s := atStep op 0 s) hclosed hmode).passed hsel
  have hcfg : t₁.cfg = s.cfg := hsel.cfg
  obtain ⟨rw, t₂, hbegins, hcmd⟩ := send_registerCommand (s := atStep op 1 t₁) hat (hcfg ▸ hC) read id
  rw [show (atStep op 1 t₁).cfg = s.cfg from hcfg] at hcmd
  have hat₂ : AdcAt (.cnt rw id) t₂ := AdcAt.passed (AdcAt.registerStage (s := atStep op 1 t₁) hat _ _) hcmd.passed
  obtain ⟨t₃, hcnt⟩ := send_count (s := atStep op 2 t₂) (n := 0#4) hat₂ rfl
  have hdelay := (absorb_passed (atStep op 3 t₃)).logged (.delay .tIB)
  refine ⟨rw, delay .tIB (absorb (atStep op 3 t₃).inputs (atStep op 3 t₃)), hbegins.before ?_ ?_, ?_, ?_, fun acts => ?_⟩
  · simpa only [StaysReady, atStep, hinputs, hline] using absorb_staysReady (s := atStep op 0 s)
  · simpa only [StaysNotReady, atStep, hinputs, hline] using absorb_staysNotReady (s := atStep op 0 s)
  · exact ((hsel.then ((registerStage_edgeFree _ _).comp (atStep_edgeFree op 1)) hcmd.passed).then
      ((registerStage_edgeFree _ _).comp (atStep_edgeFree op 2)) hcnt.passed).then (atStep_edgeFree op 3) hdelay
  · refine TraceGrew.of_eq (k := [.cs .adc false, .xfer _ t₂.rx, .xfer (countByte 0#4) t₃.rx, .delay .tIB]) ?_ rfl
    simp [delay, hcnt.trace, hcmd.trace, htrace₁, atStep]
  · rw [runItems_number_cons _ hrun₁, runItems_number_cons _ hcmd.run, runItems_number_cons _ hcnt.run,
      runItems_number_cons _ (act_delay .tIB _)]

/-- The data registers after an operation. -/
def withRegs (r : DataRegs → DataRegs) (s : State) : State := { s with regs := r s.regs }

theorem withRegs_edgeFree (r : DataRegs → DataRegs) : EdgeFree (withRegs r) :=
  ⟨fun _ _ => rfl, fun _ _ => rfl, fun _ => rfl, fun _ => rfl⟩

/-- The last action of a register operation: the select rises, and the registers of the host take what came back. -/
theorem runItems_release {post : Post} {r : Byte → DataRegs → DataRegs}
    (hpost : ∀ x, applyPost post x = .go (withRegs (r x.rx) x)) (n : Nat) (s : State) :
    ∃ t, runItems op (number 0 n [.release .adc post]) s = .go t ∧
      Passed (withRegs (r s.rx) (closeFrame (atStep op n s))) t ∧ t.trace = s.trace ++ [.cs .adc true] := by
  refine ⟨withRegs (r s.rx) (setCs .adc true (absorb s.inputs (atStep op n s))), ?_,
    (release_passed (atStep op n s)).map (withRegs_edgeFree _), by simp [withRegs, atStep]⟩
  show andThen (applyPost post (setCs .adc true (absorb s.inputs (atStep op n s)))) Run.go = _
  rw [hpost, andThen_go]
  simp [atStep]

theorem finishOp_edgeFree : EdgeFree finishOp := ⟨fun _ _ => rfl, fun _ _ => rfl, fun _ => rfl, fun _ => rfl⟩

/-- The six actions of a register read. -/
theorem runItems_readActs (hclosed : AtPhase .closed s) (hmode : s.adc.mode = .normal) (hC : s.cfg.codes.wf = true)
    (op : Op) (id : BitVec 4) {post : Post} {r : Byte → DataRegs → DataRegs}
    (hpost : ∀ x, applyPost post x = .go (withRegs (r x.rx) x)) :
    ∃ rw v t, Begins true s rw ∧ runItems op (number 0 0 (readActs s.cfg id post)) s = .go t ∧
      Passed (withRegs (r v) (closeFrame (atStep op 5 (registerStage rw.marks .cmd (openFrame s))))) t ∧
      TraceGrew s t [.cs .adc false, .xfer (registerCommand s.cfg.codes true id) 0#8, .xfer 0x00#8 0#8, .delay .tIB,
        .xfer s.cfg.codes.filler 0#8, .cs .adc true] ∧
      (rw = .r → ReadsAs s id.toNat v) := by
  obtain ⟨rw, t₄, hbegins, hhead, htrace₄, hrun₄⟩ := runItems_registerHead hclosed hmode hC op true id
  have hat := ((((openFrame_adcAt hclosed hmode).registerStage rw.marks (dataPst rw id 1)).atStep op 3).passed
    hhead).atStep op 4
  have hcfg : t₄.cfg = s.cfg := hhead.cfg
  obtain ⟨t₅, hdata, hvalue⟩ := send_readData hbegins.ne_write hat s.cfg.codes.filler
  rw [nextData_succ] at hdata
  have hrecv : act (.recv .rx) (atStep op 4 t₄) = .go t₅ := by
    rw [act_recv_rx, show (atStep op 4 t₄).cfg = s.cfg from hcfg]
    exact hdata.run
  have hread := hhead.then ((registerStage_edgeFree false .cmd).comp (atStep_edgeFree op 4)) hdata.passed
  obtain ⟨t, hrun, hclose, htrace⟩ := runItems_release hpost 5 t₅
  refine ⟨rw, t₅.rx, t, hbegins, ?_, ?_, ?_, fun hr ha => ?_⟩
  · show runItems op (number 0 0 (_ :: .send (registerCommand s.cfg.codes true id) :: _ :: _ :: _)) s = _
    rw [hrun₄, runItems_number_cons _ hrecv, hrun]
  · exact hread.then ((withRegs_edgeFree _).comp (closeFrame_edgeFree.comp (atStep_edgeFree op 5))) hclose
  · refine htrace₄.trans (.of_eq (k := [.xfer s.cfg.codes.filler t₅.rx, .cs .adc true]) ?_ rfl)
    simp [htrace, hdata.trace, atStep]
  · obtain ⟨free, hfree⟩ := hvalue hr ha
    exact ⟨free, hfree.trans (hhead.readValue _ _)⟩

/-- The six actions of a register write. -/
theorem runItems_writeActs (hclosed : AtPhase .closed s) (hmode : s.adc.mode = .normal) (hC : s.cfg.codes.wf = true)
    (op : Op) (id : BitVec 4) (value : Byte) :
    ∃ t, runItems op (number 0 0 (writeActs s.cfg id value)) s = .go t ∧
      Passed (closeFrame (atStep op 5 (withRegisters t.adc.mem .cmd (openFrame s)))) t ∧
      TraceGrew s t [.cs .adc false, .xfer (registerCommand s.cfg.codes false id) 0#8, .xfer 0x00#8 0#8, .delay .tIB,
        .xfer value 0#8, .cs .adc true] ∧
      WroteFrom s.cfg s.adc t.adc id.toNat [value] ∧ (0x0A < id.toNat → t.adc.mem = s.adc.mem) := by
  obtain ⟨rw, t₄, rfl, hhead, htrace₄, hrun₄⟩ := runItems_registerHead hclosed hmode hC op false id
  have hat := ((((openFrame_adcAt hclosed hmode).registerStage false (dataPst .w id 1)).atStep op 3).passed
    hhead).atStep op 4
  obtain ⟨t₅, hdata, hmem, hwrote⟩ := send_writeByte hat value
  have hwrite := hhead.then ((withRegisters_edgeFree t₅.adc.mem .cmd).comp (atStep_edgeFree op 4)) hdata.passed
  obtain ⟨t, hrun, hclose, htrace⟩ := runItems_release (r := fun _ x => x) (post := .nothing) (fun _ => rfl) 5 t₅
  have hkept : t.adc.mem = t₅.adc.mem := hclose.mem
  refine ⟨t, ?_, ?_, ?_, ?_, fun hreserved => ?_⟩
  · show runItems op (number 0 0 (_ :: .send (registerCommand s.cfg.codes false id) :: _ :: _ :: _)) s = _
    rw [hrun₄, runItems_number_cons _ hdata.run, hrun]
  · rw [hkept]
    exact hwrite.then (closeFrame_edgeFree.comp (atStep_edgeFree op 5)) hclose
  · refine htrace₄.trans (.of_eq (k := [.xfer value t₅.rx, .cs .adc true]) ?_ rfl)
    simp [htrace, hdata.trace, atStep]
  · rw [show (atStep op 4 t₄).cfg = s.cfg from hhead.cfg] at hwrote
    exact hwrote.congr (fun a => (hhead.peerRegister a).symm) fun a => hclose.peerRegister a
  · rw [hkept, hmem, writeRegister, if_neg (by omega)]
    exact hhead.mem

/-! ### The operations -/

/-- An operation whose actions all go on finishes. -/
theorem startBus_ran {acts : List Micro} (hbooted : Booted s) (hidle : op ≠ .idle) (htick : op ≠ .tick)
    (hitems : opItems s.cfg s.chanCount op = number 0 0 acts)
    (hrun : runItems op (number 0 0 acts) (enterOp op s) = .go t) : startBus op s = .next (finishOp t) := by
  have hall : itemsFrom (enterOp op s).pc (opItems s.cfg s.chanCount op) = opItems s.cfg s.chanCount op :=
    itemsFrom_zero rfl rfl fun _ => opItems_head
  have hop : continueOp (enterOp op s) =
      andThen (runItems op (itemsFrom (enterOp op s).pc (opItems s.cfg s.chanCount op)) (enterOp op s)) finished := by
    cases op
    case idle => exact absurd rfl hidle
    case tick => exact absurd rfl htick
    all_goals rfl
  obtain ⟨hnotBusy, hinit, -⟩ := hbooted
  rw [startBus_run hnotBusy hinit, hop, hall, hitems, hrun]
  rfl

theorem finished_of_passed (h : Passed u t)
    (hu : finishOp u = { s with pc := ⟨.idle, 0, 0⟩, polls := 0, done := true, fault := 0#3 }) :
    Finished s (finishOp t) := by
  have hfin := h.map finishOp_edgeFree
  rw [hu] at hfin
  exact ⟨hfin.1, hfin.2.1⟩

/-- An operation that is a register read, RDREG or RDID (R130, R132). -/
theorem startBus_read {id : BitVec 4} {post : Post} {r : Byte → DataRegs → DataRegs} (hbooted : Booted s)
    (hC : s.cfg.codes.wf = true) (hitems : opItems s.cfg s.chanCount op = number 0 0 (readActs s.cfg id post))
    (hidle : op ≠ .idle) (htick : op ≠ .tick) (hscan : op ≠ .scan)
    (hpost : ∀ x, applyPost post x = .go (withRegs (r x.rx) x)) :
    ∃ rw v t, Begins true s rw ∧ startBus op s = .next t ∧
      Finished { s with runFaulted := rw.marks || s.runFaulted, regs := r v s.regs } t ∧
      TraceGrew s t [.cs .adc false, .xfer (registerCommand s.cfg.codes true id) 0#8, .xfer 0x00#8 0#8, .delay .tIB,
        .xfer s.cfg.codes.filler 0#8, .cs .adc true] ∧
      (rw = .r → ReadsAs s id.toNat v) := by
  have ⟨_, _, hopen, hmode⟩ := hbooted
  obtain ⟨rw, v, t, hbegins, hrun, hpassed, htrace, hvalue⟩ :=
    runItems_readActs (s := enterOp op s) hopen.closed hmode hC op id hpost
  refine ⟨rw, v, finishOp t, hbegins, startBus_ran hbooted hidle htick hitems hrun, ?_, htrace, hvalue⟩
  refine finished_of_passed hpassed ?_
  obtain ⟨hadcN, -, -, hcmd, -⟩ := hopen.closed
  simp only [finishOp, withRegs, closeFrame, atStep, registerStage, openFrame, enterOp, ← hadcN, ← hcmd, hscan, htick,
    or_self, if_false]

/-- RDREG, the line ready or not at its command byte (R130, R148). -/
theorem exec_rdreg (hbooted : Booted s) (hC : s.cfg.codes.wf = true) (id : BitVec 4) :
    ∃ rw v t, Begins true s rw ∧ exec (.rdreg id) s = .next t ∧
      Finished { s with runFaulted := rw.marks || s.runFaulted, regs := { s.regs with rdata := ⟨v, true⟩ } } t ∧
      TraceGrew s t [.cs .adc false, .xfer (s.cfg.codes.rreg ||| id.setWidth 8) 0#8, .xfer 0x00#8 0#8, .delay .tIB,
        .xfer s.cfg.codes.filler 0#8, .cs .adc true] ∧
      (rw = .r → ReadsAs s id.toNat v) :=
  startBus_read (op := .rdreg id) (post := .rdata) (r := fun v x => { x with rdata := ⟨v, true⟩ }) hbooted hC rfl nofun
    nofun nofun fun _ => rfl

/-- RDID is the read of the status register (R132). -/
theorem exec_rdid (hbooted : Booted s) (hC : s.cfg.codes.wf = true) :
    ∃ rw v t, Begins true s rw ∧ exec .rdid s = .next t ∧
      Finished { s with runFaulted := rw.marks || s.runFaulted,
                        regs := { s.regs with rdata := ⟨v, true⟩, idnib := ⟨hiNibble v, true⟩ } } t ∧
      TraceGrew s t [.cs .adc false, .xfer s.cfg.codes.rreg 0#8, .xfer 0x00#8 0#8, .delay .tIB,
        .xfer s.cfg.codes.filler 0#8, .cs .adc true] ∧
      (rw = .r → ReadsAs s 0 v) := by
  have hcommand : registerCommand s.cfg.codes true 0x0#4 = s.cfg.codes.rreg := BitVec.or_zero
  have h := startBus_read (op := .rdid) (post := .identity) (id := 0x0#4)
    (r := fun v x => { x with rdata := ⟨v, true⟩, idnib := ⟨hiNibble v, true⟩ }) hbooted hC rfl nofun nofun nofun
    fun _ => rfl
  rwa [hcommand] at h

/-- WRREG (R131); the ready line plays no part. -/
theorem exec_wrreg (hbooted : Booted s) (hC : s.cfg.codes.wf = true) (id : BitVec 4) (value : Byte) :
    ∃ t, exec (.wrreg id value) s = .next t ∧ Finished { s with adc := { s.adc with mem := t.adc.mem } } t ∧
      TraceGrew s t [.cs .adc false, .xfer (s.cfg.codes.wreg ||| id.setWidth 8) 0#8, .xfer 0x00#8 0#8, .delay .tIB,
        .xfer value 0#8, .cs .adc true] ∧
      WroteFrom s.cfg s.adc t.adc id.toNat [value] ∧ (0x0A < id.toNat → t.adc.mem = s.adc.mem) := by
  have ⟨_, _, hopen, hmode⟩ := hbooted
  obtain ⟨t, hrun, hpassed, htrace, hwrote, hreserved⟩ :=
    runItems_writeActs (s := enterOp (.wrreg id value) s) hopen.closed hmode hC (.wrreg id value) id value
  refine ⟨finishOp t, startBus_ran hbooted nofun nofun rfl hrun, finished_of_passed hpassed ?_, htrace, hwrote, hreserved⟩
  obtain ⟨hadcN, -, -, hcmd, -⟩ := hopen.closed
  simp [finishOp, closeFrame, atStep, withRegisters, openFrame, enterOp, ← hadcN, ← hcmd]

/-- Settles O35: the read with the line ready. -/
theorem rdregReturnsTheRegister : Obligations.RdregReturnsTheRegister := by
  intro id s hbooted hC hready
  obtain ⟨rw, v, t, hbegins, hexec, hfinished, htrace, hvalue⟩ := exec_rdreg hbooted hC id
  obtain rfl := hbegins.of_staysReady hready
  refine ⟨v, t, hexec, hfinished, htrace, fun hmap i hi hmask => ?_, fun hid => ?_⟩
  · obtain ⟨free, rfl⟩ := hvalue rfl hmap
    exact readValue_getLsbD _ _ _ _ hi hmask
  · subst hid
    obtain ⟨free, rfl⟩ := hvalue rfl (Nat.zero_le _)
    exact hiNibble_readValue_status _ _ _

/-- Settles O36: the data byte goes through the mask of its register. -/
theorem wrregWritesTheRegister : Obligations.WrregWritesTheRegister := by
  intro id value s hbooted hC
  obtain ⟨t, hexec, hfinished, htrace, ⟨htook, hkept⟩, hreserved⟩ := exec_wrreg hbooted hC id value
  refine ⟨t.adc.mem, t, hexec, hfinished, htrace, htook 0 value rfl, fun a ha => hkept a ?_, hreserved⟩
  rw [List.length_singleton]
  omega

/-- Settles O37: the upper nibble of the status register is the chip's identity. -/
theorem rdidReturnsTheIdentity : Obligations.RdidReturnsTheIdentity := by
  intro s hbooted hC hready
  obtain ⟨rw, v, t, hbegins, hexec, hfinished, htrace, hvalue⟩ := exec_rdid hbooted hC
  obtain rfl := hbegins.of_staysReady hready
  have hidentity : hiNibble v = s.cfg.peerId := by
    obtain ⟨free, rfl⟩ := hvalue rfl (Nat.zero_le _)
    exact hiNibble_readValue_status _ _ _
  exact ⟨v, t, hexec, hidentity ▸ hfinished, hidentity, htrace⟩

theorem Finished.cfg (h : Finished u t) : t.cfg = u.cfg := by rw [h.1]; rfl

theorem Finished.booted (h : Finished u t) (hu : Booted u) : Booted t := by
  obtain ⟨-, hinit, ⟨hadcN, hdacN, hrst, hcmd, hstart, -⟩, hmode⟩ := hu
  rw [h.1]
  exact ⟨rfl, hinit, ⟨hadcN, hdacN, hrst, hcmd, hstart, .inl rfl⟩, hmode⟩

theorem Begins.of_unmarked {rw : Rw} (h : Begins true s rw) (hmarks : rw.marks = false) : rw = .r := by
  cases rw with
  | r => rfl
  | w => exact absurd rfl h.ne_write
  | rNotReady => cases hmarks

/-- Settles O38: the read comes from a state the write left, and a run that is not marked read with the line ready. -/
theorem readAfterWriteReturnsTheValue : Obligations.ReadAfterWriteReturnsTheValue := by
  intro a v s t u hbooted hC hmap hwrite hread hunmarked
  obtain ⟨t', hwrite', hwritten, -, ⟨htook, -⟩, -⟩ := exec_wrreg hbooted hC a v
  obtain rfl : t' = t := by simpa [hwrite] using hwrite'.symm
  have hcfg : t'.cfg = s.cfg := hwritten.cfg
  obtain ⟨rw, w, u', hbegins, hread', hfinished, -, hvalue⟩ := exec_rdreg (hwritten.booted hbooted) (hcfg ▸ hC) a
  obtain rfl : u' = u := by simpa [hread] using hread'.symm
  have hmarks : (rw.marks || t'.runFaulted) = false := by
    rw [hfinished.1] at hunmarked
    exact hunmarked
  have hrw := hbegins.of_unmarked (Bool.or_eq_false_iff.1 hmarks).1
  obtain ⟨free, hw⟩ := hvalue hrw hmap
  have hrdata : u'.regs.rdata.value = readValue s.cfg t'.adc a.toNat free := by
    rw [hfinished.1, ← hcfg]
    exact hw
  rw [hrdata]
  refine ⟨fun i hi hmask => ?_, fun ha hid => ?_⟩
  · rw [readValue_getLsbD _ _ _ _ hi hmask]
    exact (htook 0 v rfl hmap i hi).trans (if_pos hmask)
  · subst ha
    rw [← hid]
    exact hiNibble_readValue_status _ _ _

/-- Settles O39: the read with the line high at its command byte. -/
theorem readWhileNotReadyIsMarked : Obligations.ReadWhileNotReadyIsMarked := by
  refine ⟨fun s r n h hC hnot hburst => ?_, fun s hbooted hC hnot => ⟨fun id => ?_, ?_⟩, fun s h => ?_⟩
  · obtain ⟨rw, d1, d2, vs, t, hbegins, hexec, hlen, hpassed, htrace, -⟩ := exec_rreg h hC hburst
    obtain rfl := hbegins.of_staysNotReady hnot
    have hstage : registerStage true .cmd s = { s with runFaulted := true } := by
      simp only [registerStage, ← AdcAt.pst_eq h, Bool.true_or]
    exact ⟨d1, d2, vs, t, hexec, hlen, hstage ▸ hpassed, htrace⟩
  · obtain ⟨rw, v, t, hbegins, hexec, hfinished, htrace, -⟩ := exec_rdreg hbooted hC id
    obtain rfl := hbegins.of_staysNotReady hnot
    exact ⟨v, t, hexec, hfinished, htrace⟩
  · obtain ⟨rw, v, t, hbegins, hexec, hfinished, htrace, -⟩ := exec_rdid hbooted hC
    obtain rfl := hbegins.of_staysNotReady hnot
    exact ⟨v, t, hexec, hfinished, htrace⟩
  · simp [step, nextStep, h]

end

end Sys2Proof.Machine

/-! While no chip is selected the bus says nothing to either (40_register_access.md R140). -/

namespace Sys2Proof.Machine

section
variable {s t u : State}

/-- The bytes RDATA keeps. -/
def withLatches (b2 b1 b0 : Byte) (s : State) : State := { s with b2 := b2, b1 := b1, b0 := b0 }

theorem withLatches_edgeFree (b2 b1 b0 : Byte) : EdgeFree (withLatches b2 b1 b0) :=
  ⟨fun _ _ => rfl, fun _ _ => rfl, fun _ => rfl, fun _ => rfl⟩

/-- From `s` to `t` bytes were exchanged that no chip listened to. -/
def PassedUnheard (s t : State) : Prop := Passed (withLatches t.b2 t.b1 t.b0 s) t

theorem PassedUnheard.of_passed (h : Passed s t) : PassedUnheard s t := by
  rw [PassedUnheard, h.b2, h.b1, h.b0]
  exact h

theorem PassedUnheard.trans (h : PassedUnheard s t) (k : PassedUnheard t u) : PassedUnheard s u :=
  (show Passed (withLatches t.b2 t.b1 t.b0 s) t from h).then (withLatches_edgeFree u.b2 u.b1 u.b0) k

/-- A byte that no chip listens to. -/
theorem send_deselected (hadcN : s.csAdcN = true) (hdacN : s.csDacN = true) (b : Byte) : ∃ t, Sends b s s t :=
  ⟨_, sends_of_exchange (f := fun x => x) ⟨fun _ _ => rfl, fun _ _ => rfl, fun _ => rfl, fun _ => rfl⟩
    (exchange_deselected (by simpa using hadcN) (by simpa using hdacN) b) (by rw [← absorb_trace s.inputs s]; rfl)⟩

theorem keepByte_unheard (dst : Latch) (h : Passed s t) : PassedUnheard s (keepByte dst t) := by
  refine (PassedUnheard.of_passed h).trans ?_
  cases dst <;> exact Passed.refl _

/-- What goes on in a frame, with no frame open. -/
theorem act_deselected {m : Micro} (hm : m.inFrame) (hadcN : s.csAdcN = true) (hdacN : s.csDacN = true) :
    ∃ t, act m s = .go t ∧ PassedUnheard s t ∧ ((∀ dst, m ≠ .recv dst) → Passed s t) := by
  cases m
  case send b =>
    obtain ⟨t, hsent⟩ := send_deselected hadcN hdacN b
    exact ⟨t, hsent.run, .of_passed hsent.passed, fun _ => hsent.passed⟩
  case delay d =>
    have hpassed := (absorb_passed s).logged (.delay d)
    exact ⟨_, act_delay d s, .of_passed hpassed, fun _ => hpassed⟩
  case recv dst =>
    obtain ⟨t, hsent⟩ := send_deselected hadcN hdacN s.cfg.codes.filler
    refine ⟨keepByte dst t, ?_, keepByte_unheard dst hsent.passed, fun h => absurd rfl (h dst)⟩
    rw [act_recv, hsent.run, andThen_go]
  all_goals cases hm

theorem actAll_deselected {ms : List Micro} (hms : ∀ m ∈ ms, m.inFrame) (hadcN : s.csAdcN = true)
    (hdacN : s.csDacN = true) :
    ∃ t, actAll ms s = .go t ∧ PassedUnheard s t ∧ ((∀ m ∈ ms, ∀ dst, m ≠ .recv dst) → Passed s t) := by
  induction ms generalizing s with
  | nil => exact ⟨s, rfl, .of_passed (.refl s), fun _ => .refl s⟩
  | cons m ms ih =>
    obtain ⟨t₁, hact, hone, hquiet₁⟩ := act_deselected (hms m List.mem_cons_self) hadcN hdacN
    obtain ⟨t, hrun, hrest, hquiet⟩ := ih (s := t₁) (fun x hx => hms x (List.mem_cons_of_mem _ hx))
      (hone.csAdcN.trans hadcN) (hone.csDacN.trans hdacN)
    refine ⟨t, by rw [actAll, hact, andThen_go, hrun], hone.trans hrest, fun hno => ?_⟩
    exact (hquiet₁ (hno m List.mem_cons_self)).trans (hquiet fun x hx => hno x (List.mem_cons_of_mem _ hx))

/-- What is encoded for the wire is neither the host's nor the timer's. -/
theorem encode_wire_notHost {C : WireCodes} {i : Instr} {bytes : List Byte} (h : encode C i = .wire bytes) :
    i.isHostOp = false ∧ i ≠ .tick := by
  cases i
  case wakeup | rdata | rdatac | sdatac | rreg | wreg | selfcal | selfocal | selfgcal | sysocal | sysgcal | sync |
      standby | reset | wakeup2 => exact ⟨rfl, nofun⟩
  all_goals cases h

/-- Every wire command but RDATA keeps no byte that comes back. -/
theorem frameActs_noRecv {C : WireCodes} {i : Instr} {bytes : List Byte} (h : encode C i = .wire bytes)
    (hi : i ≠ .rdata) : ∀ m ∈ frameActs C i, ∀ dst, m ≠ .recv dst := by
  have hacts : frameActs C i = bytes.map .send := by
    cases i
    case rdata => exact absurd rfl hi
    case wakeup | rdatac | sdatac | rreg | wreg | selfcal | selfocal | selfgcal | sysocal | sysgcal | sync | standby |
        reset | wakeup2 =>
      cases h
      rfl
    all_goals cases h
  rw [hacts]
  intro m hm dst
  obtain ⟨b, -, rfl⟩ := List.mem_map.1 hm
  nofun

/-- Settles O58: no chip hears the bytes; RDATA alone keeps what comes back. -/
theorem deselectedChipsIgnoreTheBus : Obligations.DeselectedChipsIgnoreTheBus := by
  intro s i bytes hadcN hdacN hwire
  obtain ⟨hhost, htick⟩ := encode_wire_notHost hwire
  obtain ⟨t, hrun, hunheard, hquiet⟩ := actAll_deselected (frameActs_inFrame s.cfg.codes i) hadcN hdacN
  refine ⟨t, by rw [exec_eq_actAll hhost htick, hrun, toOutcome_go], hunheard, fun hi => ?_⟩
  have hpassed := hquiet (frameActs_noRecv hwire hi)
  exact ⟨hpassed.b2, hpassed.b1, hpassed.b0⟩

end

end Sys2Proof.Machine

/-! The range and gain codec (41_range_gain_codec.md R160 to R163): the code of a request is the last entry of the table
whose threshold, 0x5000 / 2 ^ code in UQ4.12, is not below it. -/

namespace Sys2Proof.Machine

section
variable {v : Volt} {c : BitVec 3} {s t : State}

/-! ### The table -/

/-- R160, R162. -/
theorem gainVolt_toNat (c : BitVec 3) :
    (gainVolt c).toNat = if c.toNat ≤ 6 then 0x5000 / 2 ^ c.toNat else 0x5000 := by
  revert c
  decide

theorem gainVolt_tabulated (hc : c.toNat ≤ 6) : (gainVolt c).toNat = 0x5000 / 2 ^ c.toNat := by
  rw [gainVolt_toNat, if_pos hc]

theorem gainCode_gainVolt (c : BitVec 3) : gainCode (gainVolt c) = if c = 7#3 then 0#3 else c := by
  revert c
  decide

theorem threshold_antitone {c d : Nat} (h : d ≤ c) : 0x5000 / 2 ^ c ≤ 0x5000 / 2 ^ d :=
  Nat.div_le_div_left (Nat.pow_le_pow_right Nat.two_pos h) (Nat.two_pow_pos d)

/-! ### The code of a request -/

/-- The table read from its tightest entry: a later entry overrides (R161). -/
theorem gainCode_eq (v : Volt) :
    gainCode v =
      if v.toNat ≤ 0x0140 then 6#3 else if v.toNat ≤ 0x0280 then 5#3 else if v.toNat ≤ 0x0500 then 4#3
      else if v.toNat ≤ 0x0A00 then 3#3 else if v.toNat ≤ 0x1400 then 2#3 else if v.toNat ≤ 0x2800 then 1#3
      else 0#3 := by
  simp [gainCode, rangeTable, BitVec.le_def]

theorem gainCode_le (v : Volt) : (gainCode v).toNat ≤ 6 := by
  rw [gainCode_eq]
  split_ifs <;> decide

theorem gainCode_above (hv : 0x5000 < v.toNat) : gainCode v = 0#3 := by
  rw [gainCode_eq]
  iterate 6 rw [if_neg (by omega)]

/-- The threshold of the code is not below the request, and the next tighter one is. -/
theorem gainCode_brackets (hv : v.toNat ≤ 0x5000) :
    v.toNat ≤ 0x5000 / 2 ^ (gainCode v).toNat ∧
      ((gainCode v).toNat < 6 → 0x5000 / 2 ^ ((gainCode v).toNat + 1) < v.toNat) := by
  rw [gainCode_eq]
  split_ifs <;> simp <;> omega

/-- The codes whose thresholds are adequate are those up to the code of the request. -/
theorem le_threshold_iff_le_gainCode (hv : v.toNat ≤ 0x5000) {d : Nat} (hd : d ≤ 6) :
    v.toNat ≤ 0x5000 / 2 ^ d ↔ d ≤ (gainCode v).toNat := by
  obtain ⟨hadequate, htightest⟩ := gainCode_brackets hv
  refine ⟨fun h => ?_, fun h => hadequate.trans (threshold_antitone h)⟩
  by_contra hlt
  have hnext : (gainCode v).toNat + 1 ≤ d := by omega
  exact absurd ((htightest (by omega)).trans_le h) (threshold_antitone hnext).not_gt

/-- The code of a threshold has that threshold (R163). -/
theorem gainVolt_gainCode_eq_iff (hv : v.toNat ≤ 0x5000) :
    gainVolt (gainCode v) = v ↔ ∃ d : Nat, d ≤ 6 ∧ v.toNat = 0x5000 / 2 ^ d := by
  have hvolt := gainVolt_tabulated (gainCode_le v)
  constructor
  · intro h
    exact ⟨_, gainCode_le v, (congrArg BitVec.toNat h).symm.trans hvolt⟩
  · rintro ⟨d, hd, hthreshold⟩
    have hle := (le_threshold_iff_le_gainCode hv hd).1 hthreshold.le
    refine BitVec.eq_of_toNat_eq (hvolt.trans (le_antisymm ?_ (gainCode_brackets hv).1))
    exact (threshold_antitone hle).trans hthreshold.ge

/-! ### The operations -/

/-- GAINENC at an idle handler (R161). -/
theorem exec_gainenc (hidle : s.pc.op = .idle) (v : Volt) :
    exec (.gainenc v) s = .next (finishOp { s with regs := { s.regs with gainout := written (gainCode v) } }) := by
  unfold exec
  exact pureOp_idle hidle rfl

/-- GAINDEC at an idle handler (R162). -/
theorem exec_gaindec (hidle : s.pc.op = .idle) (c : BitVec 3) :
    exec (.gaindec c) s = .next (finishOp { s with regs := { s.regs with vout := written (gainVolt c) } }) := by
  unfold exec
  exact pureOp_idle hidle rfl

theorem gainenc_notAcceptedWhileBusy (v : Volt) : NotAcceptedWhileBusy (.gainenc v) := by
  intro s hbusy
  unfold exec
  exact pureOp_not_accepted (.inl hbusy)

theorem gaindec_notAcceptedWhileBusy (c : BitVec 3) : NotAcceptedWhileBusy (.gaindec c) := by
  intro s hbusy
  unfold exec
  exact pureOp_not_accepted (.inl hbusy)

theorem exec_gainenc_next (hidle : s.pc.op = .idle) (h : exec (.gainenc v) s = .next t) :
    t.pc.op = .idle ∧ t.regs.gainout.value = gainCode v := by
  rw [exec_gainenc hidle] at h
  cases h
  exact ⟨rfl, rfl⟩

theorem exec_gaindec_next (hidle : s.pc.op = .idle) (h : exec (.gaindec c) s = .next t) :
    t.pc.op = .idle ∧ t.regs.vout.value = gainVolt c := by
  rw [exec_gaindec hidle] at h
  cases h
  exact ⟨rfl, rfl⟩

end

/-- Settles O22: the adequate codes are those up to the code of the request. -/
theorem gainencChoosesTheTightestRange : Obligations.GainencChoosesTheTightestRange := by
  refine ⟨fun h hop => by simp [decodeHost, hop], fun v => ⟨gainenc_notAcceptedWhileBusy v, ?_⟩⟩
  intro s hidle
  refine ⟨gainCode v, exec_gainenc hidle v, gainCode_le v, fun hv => ⟨(gainCode_brackets hv).1, ?_⟩, gainCode_above⟩
  exact fun d hd => (le_threshold_iff_le_gainCode hv hd).1

/-- Settles O23: the table entry by entry (R160). -/
theorem gaindecLooksUpTheRange : Obligations.GaindecLooksUpTheRange := by
  refine ⟨fun h hop => by simp [decodeHost, hop], fun c => ⟨gaindec_notAcceptedWhileBusy c, ?_⟩⟩
  exact fun s hidle => ⟨gainVolt c, exec_gaindec hidle c, gainVolt_toNat c⟩

/-- Settles O24: each operation leaves the handler idle for the other, and the two functions are inverse on the table. -/
theorem gainRoundTrip : Obligations.GainRoundTrip := by
  constructor
  · intro c s t u hidle hdec henc
    obtain ⟨hidle', hvout⟩ := exec_gaindec_next hidle hdec
    obtain ⟨-, hgainout⟩ := exec_gainenc_next hidle' henc
    rw [hgainout, hvout, gainCode_gainVolt]
  · intro v s t u hidle hv henc hdec
    obtain ⟨hidle', hgainout⟩ := exec_gainenc_next hidle henc
    obtain ⟨-, hvout⟩ := exec_gaindec_next hidle' hdec
    rw [hvout, hgainout]
    refine ⟨?_, gainVolt_gainCode_eq_iff hv⟩
    rw [BitVec.le_def, gainVolt_tabulated (gainCode_le v)]
    exact (gainCode_brackets hv).1

end Sys2Proof.Machine

/-! The multiplexer codec and the channel table (42_mux_codec.md R170, R171, R176, R177): the nibbles of the multiplexer
byte are the selectors of its two pins, and the three operations finish in the step that accepts them. -/

namespace Sys2Proof.Machine

section
variable {s : State}

/-! ### The multiplexer byte (R170, R171) -/

theorem hiNibble_muxByte (p n : Byte) : hiNibble (muxByte p n) = pinSel p :=
  BitVec.extractLsb'_append_eq_left

theorem loNibble_muxByte (p n : Byte) : loNibble (muxByte p n) = pinSel n :=
  BitVec.extractLsb'_append_eq_right

/-- A pin's selector is its number, 8 for the common reference (R170). -/
theorem pinSel_toNat (x : Byte) : ((pinSel x).toNat : Int) = if 0 ≤ x.toInt ∧ x.toInt ≤ 7 then x.toInt else 8 := by
  unfold pinSel
  split
  · next hpin =>
    have hint : x.toInt = x.toNat := BitVec.toInt_eq_toNat_of_msb (by simp [BitVec.msb_eq_toInt, hpin.1])
    have hfits : x.toNat % 2 ^ 4 = x.toNat := Nat.mod_eq_of_lt (by omega)
    rw [BitVec.toNat_setWidth, hfits, hint]
  · rfl

/-! ### Pins out of range (R170, R273) -/

/-- A pin is illegal outside [−1, 7]; −1 is the common reference and is legal (R170). -/
theorem pairIllegal_iff (p n : Byte) :
    pairIllegal p n = true ↔ p.toInt < -1 ∨ 7 < p.toInt ∨ n.toInt < -1 ∨ 7 < n.toInt := by
  simp [pairIllegal, pinIllegal, or_assoc]

/-- E_CH is sticky: a legal pair leaves it as it was (R171). -/
theorem noteIllegal_eq (p n : Byte) (s : State) :
    noteIllegal p n s =
      { s with
        illegal := pairIllegal p n
        flags := { s.flags with eCh := s.flags.eCh || pairIllegal p n } } := by
  cases hpair : pairIllegal p n <;> simp [noteIllegal, hpair, setFlag]

/-! ### The operations -/

/-- What the host can ask for, other than CANCEL, is not accepted while BUSY (R111). -/
theorem notAcceptedWhileBusy_of_decodeHost {i : Instr} {h : HostPort} (hi : decodeHost h = .ok i) (hne : i ≠ .cancel) :
    NotAcceptedWhileBusy i :=
  fun s hbusy => busyRefusesNewOperations i s h hbusy hi hne

theorem outsideSession_iff : outsideSession s = true ↔ s.sess.sched = .idle ∨ s.sess.sched = .stopped :=
  decide_eq_true_iff

/-- Offered to an idle handler, a pure operation turns on its own condition alone (R111). -/
theorem pureOp_of_idle (hidle : s.pc.op = .idle) (acc : Bool) (f : State → State) :
    pureOp acc f s = if acc = true then .next (finishOp (f s)) else .next s := by
  split
  · next hacc => exact pureOp_idle hidle hacc
  · next hrej => exact pureOp_not_accepted (.inr (Bool.eq_false_of_not_eq_true hrej))

/-- MUXENC at an idle handler (R171). -/
theorem exec_muxenc (hidle : s.pc.op = .idle) (p n : Byte) :
    exec (.muxenc p n) s =
      .next (finishOp (noteIllegal p n { s with regs := { s.regs with muxout := written (muxByte p n) } })) := by
  unfold exec
  exact pureOp_idle hidle rfl

/-- SETCH at an idle handler (R176, R78). -/
theorem exec_setch (hidle : s.pc.op = .idle) (k : Nat) (p n : Byte) (v : Volt) :
    exec (.setch k p n v) s =
      if outsideSession s = true ∧ k < s.cfg.nchMax then
        .next (finishOp (noteIllegal p n { s with ch := storeWrite s.ch k (descriptor p n v) }))
      else .next s := by
  change execSetch k p n v s = _
  rw [execSetch, pureOp_of_idle hidle]
  simp only [Bool.and_eq_true, decide_eq_true_eq]

/-- SETK at an idle handler (R177, R78). -/
theorem exec_setk (hidle : s.pc.op = .idle) (count : Nat) :
    exec (.setk count) s =
      if outsideSession s = true ∧ count ≤ s.cfg.nchMax then .next (finishOp { s with chanCount := count })
      else .next s := by
  change execSetk count s = _
  rw [execSetk, pureOp_of_idle hidle]
  simp only [Bool.and_eq_true, decide_eq_true_eq]

end

/-- Settles O21: the two nibbles are the selectors of the pins, and ILLEGAL is added to E_CH. -/
theorem muxencEncodesThePins : Obligations.MuxencEncodesThePins := by
  have hoffered : OfferedAs 0x03#5 (fun h => .muxenc h.p h.n) := fun h hop => by simp [decodeHost, hop]
  refine ⟨hoffered, fun p n => ⟨?_, fun s hidle => ⟨muxByte p n, pairIllegal p n, ?_, ?_, ?_, pairIllegal_iff p n⟩⟩⟩
  · exact notAcceptedWhileBusy_of_decodeHost (hoffered { HostPort.ofOp 0x03#5 with p, n } rfl) nofun
  · rw [exec_muxenc hidle, noteIllegal_eq]
    rfl
  · rw [hiNibble_muxByte, pinSel_toNat]
  · rw [loNibble_muxByte, pinSel_toNat]

/-- Settles O25: one entry of CH is written, with the derived fields of `descriptor`. -/
theorem setchStoresTheDescriptor : Obligations.SetchStoresTheDescriptor := by
  have hoffered : OfferedAs 0x06#5 (fun h => .setch h.k h.p h.n h.v) := fun h hop => by simp [decodeHost, hop]
  refine ⟨hoffered, fun k p n v => ⟨?_, fun s hidle => ?_⟩⟩
  · exact notAcceptedWhileBusy_of_decodeHost (hoffered { HostPort.ofOp 0x06#5 with k, p, n, v } rfl) nofun
  rw [← outsideSession_iff, exec_setch hidle]
  constructor
  · intro hacc
    refine ⟨storeWrite s.ch k (descriptor p n v), ?_, fun j => storeRead_write s.ch k j _⟩
    rw [if_pos hacc, noteIllegal_eq]
    rfl
  · exact fun hrej => if_neg hrej

/-- Settles O26: accepted, the operation finishes with the new count and nothing else. -/
theorem setkSetsTheChannelCount : Obligations.SetkSetsTheChannelCount := by
  have hoffered : OfferedAs 0x07#5 (fun h => .setk h.count) := fun h hop => by simp [decodeHost, hop]
  refine ⟨hoffered, fun count => ⟨?_, fun s hidle => ?_⟩⟩
  · exact notAcceptedWhileBusy_of_decodeHost (hoffered { HostPort.ofOp 0x07#5 with count } rfl) nofun
  rw [exec_setk hidle]
  simp only [outsideSession_iff]
  rfl

end Sys2Proof.Machine

/-! WAITRDY (43_scan_engine.md R183; 70_reset_and_hazards.md R333): how its polls count, where it stands in an operation,
and how it holds one. -/

namespace Sys2Proof.Machine

section
variable {s : State} {wait post : List Edge} {e : Edge}

/-! ### Polls -/

/-- The edges still to come and the polls counted. -/
def withEdges (es : List Edge) (n : Nat) (s : State) : State := { s with inputs := es, polls := n }

@[simp] theorem withEdges_polls (es : List Edge) (n : Nat) (s : State) : (withEdges es n s).polls = n := rfl

@[simp] theorem withEdges_cfg (es : List Edge) (n : Nat) (s : State) : (withEdges es n s).cfg = s.cfg := rfl

/-- An edge asks for neither. -/
theorem busyEdge_withEdges (e : Edge) (es : List Edge) (n : Nat) (s : State) :
    busyEdge e (withEdges es n s) = withEdges es n (busyEdge e s) := by
  rw [edgeDuringAnOperation, edgeDuringAnOperation s]
  rfl

theorem passEdges_withEdges (l es : List Edge) (n : Nat) (s : State) :
    passEdges l (withEdges es n s) = withEdges es n (passEdges l s) := by
  induction l generalizing s with
  | nil => rfl
  | cons e l ih => exact (congrArg (passEdges l) (busyEdge_withEdges e es n s)).trans (ih (busyEdge e s))

theorem actionsOf_cons (e : Edge) (es : List Edge) :
    actionsOf (e :: es) = (if e.actDone then 1 else 0) + actionsOf es := by
  cases he : e.actDone <;> simp [actionsOf, he, Nat.add_comm]

/-- A WAITRDY takes the edges it is given. -/
theorem waitRdy_withEdges_polls (l es : List Edge) (s : State) :
    waitRdy l (withEdges es s.polls s) = waitRdy l s := by
  cases l with
  | nil => rfl
  | cons e l =>
    simp only [waitRdy, busyEdge_withEdges, withEdges_polls, withEdges_cfg, busyEdge_polls]
    rfl

/-- One edge of a WAITRDY: no poll while the transport is not free; else the line ends the wait, the bound does, or the
poll is counted. -/
theorem waitRdy_cons (e : Edge) (es : List Edge) (s : State) :
    waitRdy (e :: es) s =
      if e.actDone = false then waitRdy es (withEdges es s.polls (busyEdge e s))
      else if e.drdyN = false then .go (readyNow (withEdges es s.polls (busyEdge e s)))
      else if s.cfg.readyBound = some (s.polls + 1) then
        .halt (readyTimeout (withEdges es (s.polls + 1) (busyEdge e s)))
      else waitRdy es (withEdges es (s.polls + 1) (busyEdge e s)) := by
  rw [← busyEdge_polls e s, ← busyEdge_cfg e s, ← busyEdge_drdyN e s]
  rfl

/-- With no edge to come the line stays as it is: ready it ends the wait, not ready it times out under a bound and holds
under none (70 R333). -/
theorem waitRdy_nil (h : s.inputs = []) :
    waitRdy [] s =
      if s.drdyN = false then .go (readyNow s) else if s.cfg.readyBound.isSome then .halt (readyTimeout s)
      else .halt s := by
  have hs : { s with inputs := [] } = s := by rw [← h]
  simp only [waitRdy, hs]

/-- Polls that see the line not ready and do not use up the bound are counted, and nothing else comes of them. -/
theorem waitRdy_append (hwait : ∀ x ∈ wait, x.actDone = true → x.drdyN = true)
    (hbound : ∀ n, s.cfg.readyBound = some n → s.polls + actionsOf wait < n) (rest : List Edge) :
    waitRdy (wait ++ rest) s = waitRdy rest (withEdges rest (s.polls + actionsOf wait) (passEdges wait s)) := by
  induction wait generalizing s with
  | nil => exact (waitRdy_withEdges_polls rest rest s).symm
  | cons e wait ih =>
    obtain ⟨he, hwait⟩ := List.forall_mem_cons.1 hwait
    show waitRdy (e :: (wait ++ rest)) s = waitRdy rest (withEdges rest _ (passEdges wait (busyEdge e s)))
    rw [waitRdy_cons]
    rw [actionsOf_cons] at hbound ⊢
    cases hdone : e.actDone with
    | false =>
      rw [hdone] at hbound
      simp only [Bool.false_eq_true, if_false, if_true, Nat.zero_add] at hbound ⊢
      rw [ih hwait (by simpa using hbound), passEdges_withEdges, withEdges_polls]
      rfl
    | true =>
      rw [hdone] at hbound
      simp only [if_true] at hbound
      have hfree : s.cfg.readyBound ≠ some (s.polls + 1) := fun h => by
        have := hbound _ h
        omega
      simp only [he hdone, hfree, if_true, if_false, Bool.true_eq_false]
      rw [ih hwait fun n hn => ?_, passEdges_withEdges, withEdges_polls, Nat.add_assoc]
      · rfl
      · have := hbound n (by simpa using hn)
        rw [withEdges_polls]
        omega

theorem passEdges_concat (wait : List Edge) (e : Edge) (s : State) :
    passEdges (wait ++ [e]) s = busyEdge e (passEdges wait s) := List.foldl_append

theorem passEdges_cfg (l : List Edge) (s : State) : (passEdges l s).cfg = s.cfg := by
  induction l generalizing s with
  | nil => rfl
  | cons e l ih => exact (ih (busyEdge e s)).trans (busyEdge_cfg e s)

/-- The first poll that sees the line ready, the bound not used up before, ends the wait. -/
theorem waitRdy_ready (hwait : ∀ x ∈ wait, x.actDone = true → x.drdyN = true) (hdone : e.actDone = true)
    (hline : e.drdyN = false) (hbound : ∀ n, s.cfg.readyBound = some n → s.polls + actionsOf wait < n) :
    waitRdy (wait ++ e :: post) s = .go (readyNow { passEdges (wait ++ [e]) s with inputs := post }) := by
  rw [waitRdy_append hwait hbound, waitRdy_cons, passEdges_concat]
  simp only [hdone, hline, Bool.true_eq_false, if_false, if_true, busyEdge_withEdges]
  rfl

/-- The poll that uses up the bound with the line not ready times out. -/
theorem waitRdy_timeout (hwait : ∀ x ∈ wait, x.actDone = true → x.drdyN = true) (hdone : e.actDone = true)
    (hline : e.drdyN = true) (hbound : s.cfg.readyBound = some (s.polls + actionsOf wait + 1)) :
    waitRdy (wait ++ e :: post) s =
      .halt (readyTimeout { passEdges (wait ++ [e]) s with inputs := post, polls := s.polls + actionsOf wait + 1 }) := by
  have hnot : ∀ n, s.cfg.readyBound = some n → s.polls + actionsOf wait < n := fun n hn => by
    rw [hbound, Option.some.injEq] at hn
    omega
  rw [waitRdy_append hwait hnot, waitRdy_cons, passEdges_concat]
  simp only [hdone, hline, Bool.true_eq_false, if_false, if_true, busyEdge_withEdges, withEdges_cfg, withEdges_polls,
    passEdges_cfg, hbound]
  rfl

/-! ### Where an operation is held -/

/-- The rest of an operation whose program counter stands at a WAITRDY begins with it. -/
theorem itemsFrom_waitRdy {pc : Pc} {items : List Item} (hmem : ⟨pc.k, pc.step, .waitRdy⟩ ∈ items)
    (hwait : ∀ it ∈ items, it.step = pc.step → it.act = .waitRdy) :
    ∃ rest, itemsFrom pc items = ⟨pc.k, pc.step, .waitRdy⟩ :: rest := by
  unfold itemsFrom
  have hat := List.head?_dropWhile_not (fun it : Item => !(it.k == pc.k && it.step == pc.step)) items
  cases hdrop : items.dropWhile fun it => !(it.k == pc.k && it.step == pc.step) with
  | nil =>
    have := List.dropWhile_eq_nil_iff.1 hdrop _ hmem
    simp at this
  | cons it rest =>
    rw [hdrop] at hat
    have hin : it ∈ items := (List.dropWhile_sublist _).subset (hdrop ▸ List.mem_cons_self)
    obtain ⟨k, step, act⟩ := it
    obtain ⟨rfl, rfl⟩ : k = pc.k ∧ step = pc.step := by simpa using hat
    obtain rfl : act = .waitRdy := hwait _ hin rfl
    exact ⟨rest, rfl⟩

/-- A channel's first action is its WAITRDY, after those of the channels before it (R180, R185). -/
theorem scanItems_split (P : Params) {k count : Nat} (hk : k < count) :
    ∃ rest, scanItems P count = scanItems P k ++ ⟨k, 0, .waitRdy⟩ :: rest := by
  obtain ⟨m, rfl⟩ : ∃ m, count = k + (m + 1) := ⟨count - k - 1, by omega⟩
  simp only [scanItems, List.range_add, List.range_succ_eq_map, List.map_cons, List.flatMap_append, List.flatMap_cons]
  exact ⟨_, rfl⟩

/-- An operation held in a WAITRDY goes on with it. -/
theorem itemsFrom_atWait (h : AtWait s) :
    ∃ rest, itemsFrom s.pc (opItems s.cfg s.chanCount s.pc.op) = ⟨s.pc.k, s.pc.step, .waitRdy⟩ :: rest := by
  rcases h with ⟨hop, hk, hstep⟩ | ⟨hop, hk, hstep⟩
  · have hscan : opItems s.cfg s.chanCount s.pc.op = scanItems s.cfg s.chanCount := by
      rcases hop with hop | hop <;> rw [hop] <;> rfl
    obtain ⟨rest, hsplit⟩ := scanItems_split s.cfg hk
    rw [hscan]
    refine itemsFrom_waitRdy ?_ fun it hit hat => (scanItems_waitRdy hit).2.2 (hat.trans hstep)
    rw [hsplit, hstep]
    exact List.mem_append_right _ List.mem_cons_self
  · rw [hop]
    refine itemsFrom_waitRdy ?_ fun it hit hat => (initActs_waitRdy s.cfg it hit).2.2 (hat.trans hstep)
    rw [hk, hstep]
    simp [opItems, number, initActs, initStartActs]

/-- What stops the WAITRDY an operation is held in stops the operation. -/
theorem continueOp_halts {t : State} (h : AtWait s) (hwait : waitRdy s.inputs s = .halt t) : continueOp s = .halt t := by
  obtain ⟨rest, hrest⟩ := itemsFrom_atWait h
  have hitems : runItems s.pc.op (itemsFrom s.pc (opItems s.cfg s.chanCount s.pc.op)) s = .halt t := by
    rw [hrest, runItems_cons]
    show andThen (waitRdy s.inputs s) _ = _
    rw [hwait, andThen_halt]
  rcases h with ⟨hop | hop, hk, -⟩ | ⟨hop, -⟩
  · rw [hop] at hitems
    simp only [continueOp, hop, hitems, andThen_halt]
  · rw [hop] at hitems
    simp only [continueOp, hop, continueTick, hk, if_true]
    exact congrArg (andThen · _) hitems
  · rw [hop] at hitems
    simp only [continueOp, hop, hitems, andThen_halt]

theorem AtWait.busy (h : AtWait s) : s.pc.op ≠ .idle := by
  rcases h with ⟨hop | hop, -⟩ | ⟨hop, -⟩ <;> rw [hop] <;> nofun

/-- Settles O8: with no edge to come, the line high and no bound, the WAITRDY holds. -/
theorem unboundedWaitHolds : Obligations.UnboundedWaitHolds := by
  intro s hrun hat hinputs hline hbound
  have hwait : waitRdy s.inputs s = .halt s := by
    simp [hinputs, waitRdy_nil, hline, hbound]
  simp only [step, nextStep, busy, hrun, hat.busy, continueOp_halts hat hwait, ne_eq, not_false_eq_true, decide_true,
    Bool.false_eq_true, if_false, if_true, toOutcome_halt]

end

end Sys2Proof.Machine

/-! The edges that actions take (10_state.md R49; log 7): what an action's edges leave to come, and for which actions the
line is ready. -/

namespace Sys2Proof.Machine

section
variable {s t u : State} {m n : Nat}

/-- From `s` to `t` the edges of `n` actions passed: the conversion value is one there was or one they brought, a line they
all leave ready stays so, and of edges of one action each `n` are used up. -/
structure TookEdges (n : Nat) (s t : State) : Prop where
  conv : ∀ c, ConvOf t c → ConvOf s c
  ready : StaysReady s → StaysReady t
  used : ∀ pre post, ReadyActions n pre → s.inputs = pre ++ post → t.inputs = post

theorem TookEdges.refl (s : State) : TookEdges 0 s s where
  conv _ := id
  ready := id
  used pre post h hs := by
    obtain rfl := List.eq_nil_of_length_eq_zero h.1
    exact hs

theorem ReadyActions.split {l : List Edge} (h : ReadyActions (m + n) l) :
    ∃ a b, l = a ++ b ∧ ReadyActions m a ∧ ReadyActions n b := by
  obtain ⟨hlen, hall⟩ := h
  refine ⟨l.take m, l.drop m, (List.take_append_drop m l).symm, ⟨?_, ?_⟩, ⟨?_, ?_⟩⟩
  · rw [List.length_take]
    omega
  · exact fun e he => hall e (List.mem_of_mem_take he)
  · rw [List.length_drop]
    omega
  · exact fun e he => hall e (List.mem_of_mem_drop he)

theorem TookEdges.trans (h : TookEdges m s t) (k : TookEdges n t u) : TookEdges (m + n) s u where
  conv c hc := h.conv c (k.conv c hc)
  ready hs := k.ready (h.ready hs)
  used l post hl hs := by
    obtain ⟨a, b, rfl, ha, hb⟩ := hl.split
    exact k.used b post hb (h.used a (b ++ post) ha (by rw [hs, List.append_assoc]))

/-- Neither the edges to come nor what they bring is touched. -/
def KeepsLines (s t : State) : Prop := t.inputs = s.inputs ∧ t.drdyN = s.drdyN ∧ t.adc.conv = s.adc.conv

theorem TookEdges.of_keepsLines (h : TookEdges n s t) (k : KeepsLines t u) : TookEdges n s u := by
  obtain ⟨hinputs, hline, hconv⟩ := k
  refine ⟨fun c hc => h.conv c ?_, fun hs => ?_, fun pre post hpre hs => hinputs.trans (h.used pre post hpre hs)⟩
  · simpa only [ConvOf, hinputs, hconv] using hc
  · simpa only [StaysReady, hinputs, hline] using h.ready hs

/-- The line is ready for `n` actions: it stays so, or the edges of these leave it so. -/
def ReadyFor (n : Nat) (s : State) : Prop :=
  StaysReady s ∨ ∃ pre post, ReadyActions n pre ∧ s.inputs = pre ++ post

theorem ReadyFor.after (h : ReadyFor (m + n) s) (k : TookEdges m s t) : ReadyFor n t := by
  rcases h with h | ⟨l, post, hl, hs⟩
  · exact .inl (k.ready h)
  · obtain ⟨a, b, rfl, ha, hb⟩ := hl.split
    exact .inr ⟨b, post, hb, k.used a (b ++ post) ha (by rw [hs, List.append_assoc])⟩

theorem ReadyFor.mono (h : ReadyFor n s) (hm : m ≤ n) : ReadyFor m s := by
  obtain ⟨d, rfl⟩ := Nat.exists_eq_add_of_le hm
  rcases h with h | ⟨l, post, hl, hs⟩
  · exact .inl h
  · obtain ⟨a, b, rfl, ha, -⟩ := hl.split
    exact .inr ⟨a, b ++ post, ha, by rw [hs, List.append_assoc]⟩

/-! ### The edges before an action -/

theorem absorb_convOf (es : List Edge) (s : State) :
    (absorb es s).adc.conv = s.adc.conv ∨ ∃ e ∈ es, (absorb es s).adc.conv = e.conv := by
  induction es generalizing s with
  | nil => exact .inl rfl
  | cons e es ih =>
    simp only [absorb]
    split
    · exact .inr ⟨e, List.mem_cons_self, by simp⟩
    · rcases ih (busyEdge e s) with h | ⟨x, hx, h⟩
      · exact .inr ⟨e, List.mem_cons_self, h.trans (by simp)⟩
      · exact .inr ⟨x, List.mem_cons_of_mem _ hx, h⟩

theorem convOf_of_suffix (hconv : ConvOf s t.adc.conv) (hinputs : t.inputs ⊆ s.inputs) {c : BitVec 24}
    (hc : ConvOf t c) : ConvOf s c := by
  rcases hc with rfl | ⟨e, he, rfl⟩
  · exact hconv
  · exact .inr ⟨e, hinputs he, rfl⟩

theorem absorb_tookEdges (s : State) : TookEdges 1 s (absorb s.inputs s) where
  conv _ := convOf_of_suffix (absorb_convOf s.inputs s) (absorb_inputs_suffix _ s).subset
  ready := absorb_staysReady
  used pre post h hs := by
    obtain ⟨e, rfl⟩ := List.length_eq_one_iff.1 h.1
    obtain ⟨hdone, -⟩ := h.2 e List.mem_cons_self
    rw [hs]
    simp [absorb, hdone]

/-- The edges of the action in hand are those before it. -/
theorem act_tookEdges {a : Micro} (ha : a ≠ .waitRdy) (hact : act a s = .go t)
    (hkeeps : (perform a (absorb s.inputs s)).Answers (KeepsLines (absorb s.inputs s))) : TookEdges 1 s t := by
  rw [← act_eq ha, hact] at hkeeps
  exact (absorb_tookEdges s).of_keepsLines hkeeps

theorem normalCommand_keepsLines {c : WireCmd} (hc : c ≠ .reset) (s : State) :
    (normalCommand c s).Answers (KeepsLines s) := by
  cases c
  case reset => exact absurd rfl hc
  case rreg r =>
    show KeepsLines s (beginRead r s)
    unfold beginRead
    split <;> exact ⟨rfl, rfl, rfl⟩
  all_goals exact ⟨rfl, rfl, rfl⟩

/-- Of all bytes only RESET in command position changes the line and the conversion value (44 R227). -/
theorem adcExchange_keepsLines {b : Byte} (hmode : s.adc.mode = .normal)
    (hreset : s.adc.pst = .cmd → classify s.cfg.codes b ≠ some .reset) :
    (adcExchange b s).Answers (KeepsLines s) := by
  unfold adcExchange
  split
  · exact ⟨rfl, rfl, rfl⟩
  split
  · next hcmd =>
    cases hc : classify s.cfg.codes b with
    | none =>
      rw [commandExchange_reserved hmode hc]
      trivial
    | some c =>
      rw [commandExchange_normal hmode hc]
      exact normalCommand_keepsLines (fun h => hreset hcmd (h ▸ hc)) (drawRx s)
  · trivial
  · trivial
  · unfold countExchange
    split
    · trivial
    split
    · trivial
    · exact ⟨rfl, rfl, rfl⟩
  · unfold readExchange
    dsimp only
    split <;> exact ⟨rfl, rfl, rfl⟩
  · exact ⟨rfl, rfl, rfl⟩
  · refine ⟨rfl, rfl, ?_⟩
    show (writeRegister s.cfg s.adc _ b).conv = s.adc.conv
    rw [writeRegister_eq]
  · exact ⟨rfl, rfl, rfl⟩

/-- A byte but RESET takes the edges before it. -/
theorem Sends.tookEdges {b : Byte} {p : Pst} (h : Sends b s u t) (hat : AdcAt p s)
    (hreset : p = .cmd → classify s.cfg.codes b ≠ some .reset) : TookEdges 1 s t := by
  refine act_tookEdges (a := .send b) nofun h.run ?_
  obtain ⟨hadcN, hdacN, -, hpst, hmode⟩ := hat.passed (absorb_passed s)
  have hkeeps : (adcExchange b (absorb s.inputs s)).Answers (KeepsLines (absorb s.inputs s)) :=
    adcExchange_keepsLines hmode fun hcmd => by
      rw [absorb_cfg]
      exact hreset (hpst.symm.trans hcmd)
  rw [← exchange_adc hadcN hdacN] at hkeeps
  exact answers_andThen hkeeps fun _ h => h

/-! ### The edges of a WAITRDY -/

theorem busyEdge_passed {e : Edge} {es : List Edge} (h : s.inputs = e :: es) (n : Nat) :
    Passed { s with polls := n } (withEdges es n (busyEdge e s)) := by
  refine ⟨congrArg (withEdges es n) (busyEdge_amid e s), busyEdge_kept e s, fun hnone => ?_⟩
  cases h.symm.trans hnone

/-- A WAITRDY that saw the line ready. -/
structure Awaited (s t : State) : Prop where
  passed : Passed { s with polls := 0 } t
  trace : t.trace = s.trace ++ [.waitRdy]
  line : t.drdyN = false
  conv : ConvOf s t.adc.conv
  inputs : t.inputs ⊆ s.inputs

theorem Awaited.of_ready (h : s.drdyN = false) : Awaited s (readyNow s) where
  passed := (Passed.refl _).logged _
  trace := rfl
  line := h
  conv := .inl rfl
  inputs := List.Subset.refl _

theorem Awaited.cons {e : Edge} {es : List Edge} (hs : s.inputs = e :: es)
    (h : Awaited (withEdges es n (busyEdge e s)) t) : Awaited s t where
  passed := (busyEdge_passed hs 0).trans h.passed
  trace := h.trace.trans (congrArg (· ++ _) (busyEdge_trace e s))
  line := h.line
  conv := by
    rcases h.conv with hc | ⟨x, hx, hc⟩
    · exact .inr ⟨e, hs ▸ List.mem_cons_self, hc.trans (by simp [withEdges])⟩
    · exact .inr ⟨x, hs ▸ List.mem_cons_of_mem _ hx, hc⟩
  inputs _ hx := hs ▸ List.mem_cons_of_mem _ (h.inputs hx)

theorem ReadyFor.first {e : Edge} {es : List Edge} (h : ReadyFor 1 s) (hs : s.inputs = e :: es) :
    e.drdyN = false ∧ (e.actDone = true ∨ StaysReady (withEdges es n (busyEdge e s))) := by
  rcases h with ⟨-, hall⟩ | ⟨pre, post, ⟨hlen, hall⟩, hpre⟩
  · rw [hs] at hall
    have he := hall e List.mem_cons_self
    exact ⟨he, .inr ⟨(busyEdge_drdyN e s).trans he, fun x hx => hall x (List.mem_cons_of_mem _ hx)⟩⟩
  · obtain ⟨x, rfl⟩ := List.length_eq_one_iff.1 hlen
    obtain ⟨rfl, -⟩ : e = x ∧ es = post := by simpa [hs] using hpre
    obtain ⟨hdone, hline⟩ := hall e List.mem_cons_self
    exact ⟨hline, .inl hdone⟩

/-- A WAITRDY sees the line ready and goes on, or stops, which it does not if the line is ready for it. -/
theorem waitRdy_ends {es : List Edge} (hs : s.inputs = es) :
    (∃ t, waitRdy es s = .go t ∧ Awaited s t) ∨
      ∃ t, waitRdy es s = .halt t ∧ t.done = s.done ∧ ¬ ReadyFor 1 s := by
  induction es generalizing s with
  | nil =>
    rw [waitRdy_nil hs]
    cases hline : s.drdyN with
    | false => exact .inl ⟨_, rfl, .of_ready hline⟩
    | true =>
      have hnot : ¬ ReadyFor 1 s := by
        rintro (⟨hready, -⟩ | ⟨pre, post, ⟨hlen, -⟩, hpre⟩)
        · cases hline.symm.trans hready
        · have := congrArg List.length (hs.symm.trans hpre)
          simp only [List.length_nil, List.length_append, hlen] at this
          omega
      cases s.cfg.readyBound.isSome
      · exact .inr ⟨_, rfl, rfl, hnot⟩
      · exact .inr ⟨_, rfl, by simp [readyTimeout], hnot⟩
  | cons e es ih =>
    rw [waitRdy_cons]
    have hgo : ∀ n t, Awaited (withEdges es n (busyEdge e s)) t → Awaited s t := fun n t => .cons hs
    have hdone : ∀ n, (withEdges es n (busyEdge e s)).done = s.done := fun n => busyEdge_done e s
    split
    · next hfree =>
      refine (ih (s := withEdges es s.polls (busyEdge e s)) rfl).imp
        (fun ⟨t, ht, ha⟩ => ⟨t, ht, hgo _ t ha⟩) fun ⟨t, ht, hd, hnot⟩ => ⟨t, ht, hd.trans (hdone _), fun h => ?_⟩
      rcases (h.first hs).2 with hdone | hstays
      · cases hfree.symm.trans hdone
      · exact hnot (.inl hstays)
    split
    · next hline => exact .inl ⟨_, rfl, hgo s.polls _ (.of_ready ((busyEdge_drdyN e s).trans hline))⟩
    · next hline =>
      have hnot : ¬ ReadyFor 1 s := fun h => hline (h.first (n := 0) hs).1
      split
      · exact .inr ⟨_, rfl, by simp [readyTimeout, withEdges], hnot⟩
      · exact (ih (s := withEdges es (s.polls + 1) (busyEdge e s)) rfl).imp
          (fun ⟨t, ht, ha⟩ => ⟨t, ht, hgo _ t ha⟩) fun ⟨t, ht, hd, _⟩ => ⟨t, ht, hd.trans (hdone _), hnot⟩

/-- Of edges of one action each a WAITRDY that they end at once uses one. -/
theorem Awaited.tookEdges (h : Awaited s t) (hrun : waitRdy s.inputs s = .go t) : TookEdges 1 s t where
  conv _ := convOf_of_suffix h.conv h.inputs
  ready hs := ⟨h.line, fun e he => hs.2 e (h.inputs he)⟩
  used pre post hpre hs := by
    obtain ⟨e, rfl⟩ := List.length_eq_one_iff.1 hpre.1
    obtain ⟨hdone, hline⟩ := hpre.2 e List.mem_cons_self
    rw [hs, List.cons_append, List.nil_append, waitRdy_cons] at hrun
    simp only [hdone, hline, Bool.true_eq_false, if_false, if_true] at hrun
    cases hrun
    rfl

end

end Sys2Proof.Machine

/-! The actions of one channel of a scan (43_scan_engine.md R185, R186), each as its effect on the state,
whatever edges pass before it. -/

namespace Sys2Proof.Machine

section
variable {s t u : State} {f g : State → State} {op : Op} {k i : Nat} {p : Pst} {P : Params}

/-! ### One action -/

/-- The action goes on with the effect `f`, stands in the trace as `a`, and took its edges. -/
structure Performs (m : Micro) (a : Action) (f : State → State) (s t : State) : Prop where
  run : act m s = .go t
  edgeFree : EdgeFree f
  passed : Passed (f s) t
  edges : TookEdges 1 s t
  trace : TraceGrew s t [a]

theorem edgeFree_id : EdgeFree fun s => s := ⟨fun _ _ => rfl, fun _ _ => rfl, fun _ => rfl, fun _ => rfl⟩

theorem performs_delay (d : DelayName) (s : State) : ∃ t, Performs (.delay d) (.delay d) (fun x => x) s t :=
  ⟨_, act_delay d s, edgeFree_id, (absorb_passed s).logged _,
    act_tookEdges (a := .delay d) nofun (act_delay d s) ⟨rfl, rfl, rfl⟩, .of_eq (by simp [delay]) rfl⟩

/-- The polls of a WAITRDY that ended are forgotten. -/
def clearPolls (s : State) : State := { s with polls := 0 }

theorem clearPolls_edgeFree : EdgeFree clearPolls := ⟨fun _ _ => rfl, fun _ _ => rfl, fun _ => rfl, fun _ => rfl⟩

/-- A WAITRDY goes on when it saw the line ready; else the operation stops there, not done. -/
theorem performs_waitRdy (s : State) :
    (∃ t, Performs .waitRdy .waitRdy clearPolls s t) ∨
      ∃ t, act .waitRdy s = .halt t ∧ t.done = s.done ∧ ¬ ReadyFor 1 s :=
  (waitRdy_ends (s := s) rfl).imp_left fun ⟨t, hrun, hawaited⟩ =>
    ⟨t, hrun, clearPolls_edgeFree, hawaited.passed, hawaited.tookEdges hrun, .of_eq hawaited.trace rfl⟩

theorem performs_select (s : State) : ∃ t, Performs (.select .adc) (.cs .adc false) openFrame s t :=
  ⟨_, act_select .adc s, openFrame_edgeFree, select_passed s,
    act_tookEdges (a := .select .adc) nofun (act_select .adc s) ⟨rfl, rfl, rfl⟩, .of_eq (by simp) rfl⟩

theorem Sends.performs {b : Byte} (h : Sends b s (f s) t) (hf : EdgeFree f) (hat : AdcAt p s)
    (hreset : p = .cmd → classify s.cfg.codes b ≠ some .reset) : Performs (.send b) (.xfer b 0#8) f s t :=
  ⟨h.run, hf, h.passed, h.tookEdges hat hreset, .of_eq h.trace rfl⟩

/-- Two actions that run alike. -/
theorem Performs.of_act_eq {m m' : Micro} {a : Action} (h : Performs m a f s t) (hact : act m' s = act m s) :
    Performs m' a f s t :=
  ⟨hact.trans h.run, h.edgeFree, h.passed, h.edges, h.trace⟩

theorem act_sendMux {d : ChDesc} (h : storeRead s.ch k = some d) : act (.sendMux k) s = act (.send d.mux) s := by
  rw [act_eq (m := .sendMux k) nofun, act_eq (m := .send d.mux) nofun]
  simp [perform, withChannel, h]

theorem act_sendGf {d : ChDesc} (h : storeRead s.ch k = some d) (hP : s.cfg = P) :
    act (.sendGf k) s = act (.send (gfByte P.gfUpper d.gain)) s := by
  subst hP
  rw [act_eq (m := .sendGf k) nofun, act_eq (m := .send _) nofun]
  simp [perform, withChannel, h]

/-- The byte a latch keeps. -/
def latch (dst : Latch) (v : Byte) (s : State) : State :=
  match dst with
  | .rx => s
  | .b2 => { s with b2 := v }
  | .b1 => { s with b1 := v }
  | .b0 => { s with b0 := v }

theorem latch_edgeFree (dst : Latch) (v : Byte) : EdgeFree (latch dst v) := by
  cases dst <;> exact ⟨fun _ _ => rfl, fun _ _ => rfl, fun _ => rfl, fun _ => rfl⟩

theorem keepByte_eq_latch (dst : Latch) (s : State) : keepByte dst s = latch dst s.rx s := by
  cases dst <;> rfl

/-- The answer to FILLER is kept. -/
theorem Performs.recv {a : Action} (h : Performs (.send s.cfg.codes.filler) a f s t) (dst : Latch) :
    Performs (.recv dst) a (fun x => latch dst t.rx (f x)) s (keepByte dst t) where
  run := by rw [act_recv, h.run, andThen_go]
  edgeFree := (latch_edgeFree dst t.rx).comp h.edgeFree
  passed := by
    rw [keepByte_eq_latch]
    exact h.passed.map (latch_edgeFree dst t.rx)
  edges := h.edges.of_keepsLines (by cases dst <;> exact ⟨rfl, rfl, rfl⟩)
  trace := by
    obtain ⟨l, hl, ha⟩ := h.trace
    exact ⟨l, by simpa using hl, ha⟩

/-! ### The commands of a channel -/

/-- The command byte of a register write (40 R143). -/
theorem performs_writeCommand (h : AdcAt .cmd s) (hP : s.cfg = P) (hC : P.codes.wf = true) (r : BitVec 4) :
    ∃ t, Performs (.send (commandByte P.codes.wreg r)) (.xfer (commandByte P.codes.wreg r) 0#8)
      (registerStage false (.cnt .w r)) s t := by
  subst hP
  obtain ⟨_, t, rfl, hsent⟩ := send_registerCommand h hC false r
  refine ⟨t, hsent.performs (registerStage_edgeFree _ _) h fun _ => ?_⟩
  rw [classify_registerCommand hC]
  nofun

/-- Its count byte (40 R144). -/
theorem performs_count {r n : BitVec 4} (h : AdcAt (.cnt .w r) s) (hburst : burstInMap r n = true) :
    ∃ t, Performs (.send (countByte n)) (.xfer (countByte n) 0#8)
      (registerStage false (dataPst .w r (n.toNat + 1))) s t :=
  (send_count h hburst).imp fun _ hsent => hsent.performs (registerStage_edgeFree _ _) h nofun

/-- A data byte of it (40 R146). -/
theorem performs_writeByte {a : BitVec 4} {m : Nat} (h : AdcAt (dataPst .w a (m + 1)) s) (b : Byte) :
    ∃ t, Performs (.send b) (.xfer b 0#8) (withRegisters t.adc.mem (dataPst .w (a + 1#4) m)) s t ∧
      WroteFrom s.cfg s.adc t.adc a.toNat [b] := by
  obtain ⟨t, hsent, -, hwrote⟩ := send_writeByte h b
  exact ⟨t, hsent.performs (withRegisters_edgeFree _ _) h nofun, hwrote⟩

/-- The chip's sample copy and its place. -/
def sampleStage (c : BitVec 24) (p : Pst) (s : State) : State := { s with adc := { s.adc with shift := c, pst := p } }

theorem sampleStage_edgeFree (c : BitVec 24) (p : Pst) : EdgeFree (sampleStage c p) :=
  ⟨fun _ _ => rfl, fun _ _ => rfl, fun _ => rfl, fun _ => rfl⟩

/-- A command byte in NORMAL mode, before it the edges. -/
theorem exchange_command {b : Byte} {c : WireCmd} (h : AdcAt .cmd s) (hc : classify s.cfg.codes b = some c) :
    exchange b (absorb s.inputs s) = normalCommand c (drawRx (absorb s.inputs s)) := by
  have hat := h.passed (absorb_passed s)
  obtain ⟨-, -, hrst, hcmd, hmode⟩ := hat
  rw [(h.passed (absorb_passed s)).exchange, adcExchange_cmd hrst hcmd]
  exact commandExchange_normal hmode (by rwa [absorb_cfg])

/-- SYNC and WAKEUP change nothing the chip keeps (44 R210, R225). -/
theorem performs_noCommand {b : Byte} {c : WireCmd} (h : AdcAt .cmd s) (hc : classify s.cfg.codes b = some c)
    (hcmd : c = .sync ∨ c = .wakeup) : ∃ t, Performs (.send b) (.xfer b 0#8) (fun x => x) s t := by
  have hgo : exchange b (absorb s.inputs s) = .go (drawRx (absorb s.inputs s)) := by
    rw [exchange_command h hc]
    rcases hcmd with rfl | rfl <;> rfl
  have hsent := sends_of_exchange edgeFree_id hgo (by rw [← absorb_trace s.inputs s]; rfl)
  refine ⟨_, hsent.performs edgeFree_id h fun _ => ?_⟩
  rw [hc]
  rcases hcmd with rfl | rfl <;> nofun

theorem performs_sync (h : AdcAt .cmd s) (hP : s.cfg = P) (hC : P.codes.wf = true) :
    ∃ t, Performs (.send P.codes.sync) (.xfer P.codes.sync 0#8) (fun x => x) s t := by
  subst hP
  obtain ⟨-, -, -, -, -, -, -, -, -, hsync, -⟩ := classify_eq hC
  exact performs_noCommand h hsync (.inl rfl)

theorem performs_wakeup (h : AdcAt .cmd s) (hP : s.cfg = P) (hC : P.codes.wf = true) :
    ∃ t, Performs (.send P.codes.wakeup) (.xfer P.codes.wakeup 0#8) (fun x => x) s t := by
  subst hP
  obtain ⟨-, hwakeup, -⟩ := classify_eq hC
  exact performs_noCommand h hwakeup (.inr rfl)

/-- RDATA copies a conversion result there is by then (R49, 44 R211). -/
theorem performs_rdata (h : AdcAt .cmd s) (hP : s.cfg = P) (hC : P.codes.wf = true) :
    ∃ c t, ConvOf s c ∧
      Performs (.send P.codes.rdata) (.xfer P.codes.rdata 0#8) (sampleStage c (.smp 3)) s t := by
  subst hP
  obtain ⟨hc, -⟩ := classify_eq hC
  have hgo := exchange_command h hc
  have hsent := sends_of_exchange (sampleStage_edgeFree (absorb s.inputs s).adc.conv (.smp 3)) hgo
    (by rw [← absorb_trace s.inputs s]; rfl)
  exact ⟨_, _, absorb_convOf s.inputs s, hsent.performs (sampleStage_edgeFree _ _) h fun _ => by rw [hc]; nofun⟩

/-- A sample byte comes back, most significant first (40 R147). -/
theorem performs_sample {j : Nat} {c : BitVec 24} (h : AdcAt (.smp j) s) (hP : s.cfg = P) (hc : s.adc.shift = c)
    (dst : Latch) :
    ∃ t, Performs (.recv dst) (.xfer P.codes.filler 0#8)
      (fun x => latch dst (sampleByte c j) (registerStage false (if j > 1 then .smp (j - 1) else .cmd) x)) s t := by
  subst hP
  have hpassed := absorb_passed s
  have hat := h.passed hpassed
  obtain ⟨-, -, hrst, hsmp, hmode⟩ := hat
  have hx : exchange s.cfg.codes.filler (absorb s.inputs s) = .go (sampleExchange j (absorb s.inputs s)) := by
    rw [(h.passed hpassed).exchange, adcExchange_sample hrst hsmp hmode]
  have hsent := sends_of_exchange (registerStage_edgeFree false (if j > 1 then .smp (j - 1) else .cmd)) hx
    (by rw [← absorb_trace s.inputs s]; rfl)
  have hperf := (hsent.performs (registerStage_edgeFree _ _) h nofun).recv dst
  have hrx : (sampleExchange j (absorb s.inputs s)).rx = sampleByte c j := by
    simp [hpassed.shift, hc]
  exact ⟨_, hrx ▸ hperf⟩

theorem rawOf_sampleBytes (c : BitVec 24) : rawOf (sampleByte c 3) (sampleByte c 2) (sampleByte c 1) = c := by
  apply BitVec.eq_of_getLsbD_eq
  intro i hi
  simp only [rawOf, sampleByte, BitVec.getLsbD_append, BitVec.getLsbD_extractLsb']
  by_cases hlow : i < 8
  · simp [hlow]
  · by_cases hmid : i - 8 < 8
    · simp [hlow, hmid, show 8 + (i - 8) = i by omega]
    · simp [hlow, hmid, show i - 8 - 8 < 8 by omega, show 16 + (i - 8 - 8) = i by omega]

/-- The select rises and the three bytes kept are stored as the channel's result. -/
def storeSample (k : Nat) (s : State) : State :=
  { closeFrame s with res := storeWrite s.res k (sampleOf (rawOf s.b2 s.b1 s.b0)) }

theorem storeSample_edgeFree (k : Nat) : EdgeFree (storeSample k) :=
  ⟨fun _ _ => rfl, fun _ _ => rfl, fun _ => rfl, fun _ => rfl⟩

theorem performs_release (k : Nat) (s : State) :
    ∃ t, Performs (.release .adc (.sample k)) (.cs .adc true) (storeSample k) s t := by
  have hrun : act (.release .adc (.sample k)) s =
      .go (logAction (.cs .adc true) (storeSample k (absorb s.inputs s))) := rfl
  exact ⟨_, hrun, storeSample_edgeFree k, ((absorb_passed s).map (storeSample_edgeFree k)).logged _,
    act_tookEdges (a := .release .adc (.sample k)) nofun hrun ⟨rfl, rfl, rfl⟩, .of_eq (by simp [storeSample, closeFrame]) rfl⟩

end

end Sys2Proof.Machine

/-! The twenty actions of one channel of a scan as one list (43_scan_engine.md R185, R186): what they leave changed, and
that they go on from the WAITRDY at their head. -/

namespace Sys2Proof.Machine

section
variable {s t u y y' : State} {g : State → State} {op : Op} {k : Nat} {p : Pst} {acts : List Micro} {l : List Action}

/-! ### A list of actions -/

/-- The program counter stands on an action of channel `k`. -/
def atPlace (op : Op) (k n : Nat) (s : State) : State := { s with pc := ⟨op, k, n⟩ }

theorem atPlace_edgeFree (op : Op) (k n : Nat) : EdgeFree (atPlace op k n) :=
  ⟨fun _ _ => rfl, fun _ _ => rfl, fun _ => rfl, fun _ => rfl⟩

theorem TookEdges.of_atPlace {n m : Nat} (h : TookEdges n (atPlace op k m s) t) : TookEdges n s t := ⟨h.1, h.2, h.3⟩

/-- The first actions `acts` of channel `k` go from `s` on to `t`, with the effect `y`, and stand in the trace as `l`. -/
structure Ran (op : Op) (k : Nat) (acts : List Micro) (l : List Action) (s y t : State) : Prop where
  run : runItems op (number k 0 acts) s = .go t
  passed : ∃ n, Passed (atPlace op k n y) t
  edges : TookEdges acts.length s t
  trace : TraceGrew s t l

theorem runItems_one (m : Micro) (n : Nat) (s : State) :
    runItems op [⟨k, n, m⟩] s = act m (atPlace op k n s) := andThen_go_right _

/-- An effect that does not ask where the program counter stands. -/
def PlaceFree (g : State → State) : Prop := ∀ op k n s, g (atPlace op k n s) = atPlace op k n (g s)

theorem Ran.one {m : Micro} {a : Action} (h : Performs m a g (atPlace op k 0 s) t) (hg : PlaceFree g) :
    Ran op k [m] [a] s (g s) t where
  run := (runItems_one m 0 s).trans h.run
  passed := ⟨0, hg op k 0 s ▸ h.passed⟩
  edges := h.edges.of_atPlace
  trace := h.trace

/-- One more action. -/
theorem Ran.then {m : Micro} {a : Action} (h : Ran op k acts l s y t)
    (hm : Performs m a g (atPlace op k acts.length t) u) (hg : PlaceFree g) :
    Ran op k (acts ++ [m]) (l ++ [a]) s (g y) u where
  run := by
    have hnumber : number k 0 (acts ++ [m]) = number k 0 acts ++ [⟨k, acts.length, m⟩] := by
      simp [number, List.zipIdx_append]
    rw [hnumber, runItems_append, h.run, andThen_go, runItems_one, hm.run]
  passed := by
    obtain ⟨n, hpassed⟩ := h.passed
    refine ⟨acts.length, hg op k acts.length y ▸ ?_⟩
    exact hpassed.then (hm.edgeFree.comp (atPlace_edgeFree op k acts.length)) hm.passed
  edges := by
    rw [List.length_append]
    exact h.edges.trans hm.edges.of_atPlace
  trace := h.trace.trans hm.trace

theorem Ran.delay (h : Ran op k acts l s y t) (d : DelayName) :
    ∃ u, Ran op k (acts ++ [.delay d]) (l ++ [.delay d]) s y u :=
  (performs_delay d _).imp fun _ hm => h.then hm fun _ _ _ _ => rfl

/-- What holds of the effect and no edge changes holds after the actions. -/
theorem Ran.kept {α : Type} {f : State → α} (h : Ran op k acts l s y t) (hf : ∀ u t, f (amid u t) = f u)
    (hpc : ∀ n, f (atPlace op k n y) = f y) : f t = f y := by
  obtain ⟨n, hpassed⟩ := h.passed
  rw [hpassed.kept hf, hpc]

theorem Ran.cfg (h : Ran op k acts l s y t) : t.cfg = y.cfg := h.kept (fun _ _ => rfl) fun _ => rfl

theorem Ran.ch (h : Ran op k acts l s y t) : t.ch = y.ch := h.kept (fun _ _ => rfl) fun _ => rfl

theorem Ran.shift (h : Ran op k acts l s y t) : t.adc.shift = y.adc.shift :=
  h.kept (f := fun x => x.adc.shift) (fun _ _ => rfl) fun _ => rfl

theorem Ran.peerRegister (h : Ran op k acts l s y t) (a : Nat) : peerRegister t.adc a = peerRegister y.adc a :=
  h.kept (f := fun x => Machine.peerRegister x.adc a) (fun _ _ => rfl) fun _ => rfl

theorem Ran.adcAt (h : Ran op k acts l s y t) (hat : AdcAt p y) (n : Nat) : AdcAt p (atPlace op k n t) := by
  obtain ⟨m, hpassed⟩ := h.passed
  exact AdcAt.passed (s := atPlace op k m y) (t := t) hat hpassed

theorem AdcAt.sampleStage {q : Pst} (h : AdcAt p s) (c : BitVec 24) : AdcAt q (sampleStage c q s) := by
  obtain ⟨hadcN, hdacN, hrst, -, hmode⟩ := h
  exact ⟨hadcN, hdacN, hrst, rfl, hmode⟩

theorem registerStage_placeFree (p : Pst) : PlaceFree (registerStage false p) := fun _ _ _ _ => rfl

theorem withRegisters_placeFree (mem : Memory) (p : Pst) : PlaceFree (withRegisters mem p) := fun _ _ _ _ => rfl

theorem sampleStage_placeFree (c : BitVec 24) (p : Pst) : PlaceFree (sampleStage c p) := fun _ _ _ _ => rfl

theorem latch_placeFree (dst : Latch) (v : Byte) (p : Pst) :
    PlaceFree fun x => latch dst v (registerStage false p x) := by
  cases dst <;> exact fun _ _ _ _ => rfl

/-- A later place of the chip replaces the one before. -/
theorem registerStage_registerStage (p q : Pst) (s : State) :
    registerStage false q (registerStage false p s) = registerStage false q s := rfl

theorem withRegisters_registerStage (mem : Memory) (p q : Pst) (s : State) :
    withRegisters mem q (registerStage false p s) = withRegisters mem q s := rfl

theorem withRegisters_withRegisters (mem mem' : Memory) (p q : Pst) (s : State) :
    withRegisters mem' q (withRegisters mem p s) = withRegisters mem' q s := rfl

theorem registerStage_sampleStage (c : BitVec 24) (p q : Pst) (s : State) :
    registerStage false q (sampleStage c p s) = sampleStage c q s := rfl

theorem registerStage_latch (dst : Latch) (v : Byte) (p : Pst) (s : State) :
    registerStage false p (latch dst v s) = latch dst v (registerStage false p s) := by
  cases dst <;> rfl

theorem AdcAt.latch (h : AdcAt p s) (dst : Latch) (v : Byte) : AdcAt p (latch dst v s) := by
  cases dst <;> exact h

/-- R185 actions 2 to 8: the burst of the two registers of channel `k`. -/
def burstActs (P : Params) (k : Nat) : List Micro :=
  [.send (commandByte P.codes.wreg 0x1#4), .delay .tIB, .send (countByte 1#4), .delay .tIB, .sendMux k, .delay .tIB,
    .sendGf k]

def burstTrace (P : Params) (d : ChDesc) : List Action :=
  [.xfer (commandByte P.codes.wreg 0x1#4) 0#8, .delay .tIB, .xfer (countByte 1#4) 0#8, .delay .tIB, .xfer d.mux 0#8,
    .delay .tIB, .xfer (gfByte P.gfUpper d.gain) 0#8]

/-- R185 actions 10 to 18: the conversion is started anew and its result taken byte by byte. -/
def conversionActs (P : Params) : List Micro :=
  [.send P.codes.sync, .delay .tSYNC, .send P.codes.wakeup, .delay .tSTEP, .send P.codes.rdata, .delay .tDATA,
    .recv .b2, .recv .b1, .recv .b0]

def conversionTrace (P : Params) : List Action :=
  [.xfer P.codes.sync 0#8, .delay .tSYNC, .xfer P.codes.wakeup 0#8, .delay .tSTEP, .xfer P.codes.rdata 0#8,
    .delay .tDATA, .xfer P.codes.filler 0#8, .xfer P.codes.filler 0#8, .xfer P.codes.filler 0#8]

theorem Ran.burst {d : ChDesc} (h : Ran op k acts l s y t) (hat : AdcAt .cmd y) (hC : y.cfg.codes.wf = true)
    (hd : storeRead y.ch k = some d) :
    ∃ u, Ran op k (acts ++ burstActs y.cfg k) (l ++ burstTrace y.cfg d) s (withRegisters u.adc.mem .cmd y) u ∧
      WroteFrom y.cfg y.adc u.adc 1 [d.mux, gfByte y.cfg.gfUpper d.gain] := by
  obtain ⟨t₁, hcommand⟩ := performs_writeCommand (h.adcAt hat _) h.cfg hC 0x1#4
  obtain ⟨t₂, h₂⟩ := (h.then hcommand (registerStage_placeFree _)).delay .tIB
  obtain ⟨t₃, hcount⟩ := performs_count (n := 1#4) (h₂.adcAt (hat.registerStage _ _) _) rfl
  have h₃ := h₂.then hcount (registerStage_placeFree _)
  rw [registerStage_registerStage] at h₃
  obtain ⟨t₄, h₄⟩ := h₃.delay .tIB
  obtain ⟨t₅, hmux, hwrote₁⟩ :=
    performs_writeByte (a := 0x1#4) (m := 1) (h₄.adcAt (hat.registerStage _ _) _) d.mux
  have h₅ := h₄.then (hmux.of_act_eq (act_sendMux ((congrArg (storeRead · k) h₄.ch).trans hd)))
    (withRegisters_placeFree _ _)
  rw [withRegisters_registerStage] at h₅
  obtain ⟨t₆, h₆⟩ := h₅.delay .tIB
  obtain ⟨t₇, hgf, hwrote₂⟩ :=
    performs_writeByte (a := 0x2#4) (m := 0) (h₆.adcAt (hat.withRegisters _ _) _) (gfByte y.cfg.gfUpper d.gain)
  have h₇ := h₆.then (hgf.of_act_eq (act_sendGf ((congrArg (storeRead · k) h₆.ch).trans hd) h₆.cfg))
    (withRegisters_placeFree _ _)
  rw [withRegisters_withRegisters] at h₇
  have hfirst : WroteFrom y.cfg y.adc t₆.adc 1 [d.mux] := by
    refine (h₄.cfg ▸ hwrote₁ : WroteFrom y.cfg t₄.adc t₅.adc 1 [d.mux]).congr (fun a => ?_) fun a => ?_
    · exact (h₄.peerRegister a).symm
    · exact (h₆.peerRegister a).trans (h₅.peerRegister a).symm
  refine ⟨t₇, ?_, hfirst.cons (h₆.cfg ▸ hwrote₂)⟩
  simp only [List.append_assoc, List.cons_append, List.nil_append] at h₇
  exact h₇

theorem Ran.conversion (h : Ran op k acts l s y t) (hat : AdcAt .cmd y) (hC : y.cfg.codes.wf = true) :
    ∃ c u, ConvOf s c ∧ Ran op k (acts ++ conversionActs y.cfg) (l ++ conversionTrace y.cfg) s
      (withLatches (sampleByte c 3) (sampleByte c 2) (sampleByte c 1) (sampleStage c .cmd y)) u := by
  obtain ⟨t₁, hsync⟩ := performs_sync (h.adcAt hat _) h.cfg hC
  obtain ⟨t₂, h₂⟩ := (h.then hsync fun _ _ _ _ => rfl).delay .tSYNC
  obtain ⟨t₃, hwakeup⟩ := performs_wakeup (h₂.adcAt hat _) h₂.cfg hC
  obtain ⟨t₄, h₄⟩ := (h₂.then hwakeup fun _ _ _ _ => rfl).delay .tSTEP
  obtain ⟨c, t₅, hconv, hrdata⟩ := performs_rdata (h₄.adcAt hat _) h₄.cfg hC
  obtain ⟨t₆, h₆⟩ := (h₄.then hrdata (sampleStage_placeFree _ _)).delay .tDATA
  have hat₆ : AdcAt (.smp 3) (sampleStage c (.smp 3) y) := hat.sampleStage c
  obtain ⟨t₇, hhigh⟩ := performs_sample (P := y.cfg) (c := c) (h₆.adcAt hat₆ _) h₆.cfg h₆.shift .b2
  have h₇ := h₆.then hhigh (latch_placeFree _ _ _)
  rw [registerStage_sampleStage] at h₇
  have hat₇ : AdcAt (.smp 2) (latch .b2 (sampleByte c 3) (sampleStage c (.smp 2) y)) := (hat.sampleStage c).latch _ _
  obtain ⟨t₈, hmid⟩ := performs_sample (P := y.cfg) (c := c) (h₇.adcAt hat₇ _) h₇.cfg h₇.shift .b1
  have h₈ := h₇.then hmid (latch_placeFree _ _ _)
  rw [registerStage_latch, if_pos (by decide), registerStage_sampleStage] at h₈
  have hat₈ : AdcAt (.smp 1)
      (latch .b1 (sampleByte c 2) (latch .b2 (sampleByte c 3) (sampleStage c (.smp 1) y))) :=
    ((hat.sampleStage c).latch _ _).latch _ _
  obtain ⟨t₉, hlow⟩ := performs_sample (P := y.cfg) (c := c) (h₈.adcAt hat₈ _) h₈.cfg h₈.shift .b0
  have h₉ := h₈.then hlow (latch_placeFree _ _ _)
  rw [registerStage_latch, registerStage_latch, if_neg (by decide), registerStage_sampleStage] at h₉
  simp only [List.append_assoc, List.cons_append, List.nil_append] at h₉
  exact ⟨c, t₉, h₄.edges.conv c hconv, h₉⟩

/-! ### A channel -/

/-- What a scan leaves changed between its frames, beside what edges change: the place, the polls, the results, the latches,
the chip's registers and sample copy. -/
def scanStage (s t : State) : State :=
  { s with
    pc := t.pc, polls := t.polls, res := t.res, b2 := t.b2, b1 := t.b1, b0 := t.b0
    adc := { s.adc with mem := t.adc.mem, shift := t.adc.shift } }

theorem scanStage_edgeFree (t : State) : EdgeFree (scanStage · t) :=
  ⟨fun _ _ => rfl, fun _ _ => rfl, fun _ => rfl, fun _ => rfl⟩

/-- From `s` to `t` a scan changed no more than it may. -/
def ScanKeeps (s t : State) : Prop := Passed (scanStage s t) t

theorem ScanKeeps.refl (s : State) : ScanKeeps s s := Passed.refl s

theorem ScanKeeps.trans (h : ScanKeeps s t) (k : ScanKeeps t u) : ScanKeeps s u :=
  (show Passed (scanStage s t) t from h).then (scanStage_edgeFree u) k

theorem ScanKeeps.of_passed (h : Passed y t) (hy : y = scanStage s y) : ScanKeeps s t := by
  have hstage : scanStage s t = y := (h.kept (g := scanStage s) fun _ _ => rfl).trans hy.symm
  rw [ScanKeeps, hstage]
  exact h

/-- From `s` to `t` channel `k` with the descriptor `d` was sampled (R185, R186). -/
structure Sampled (k : Nat) (d : ChDesc) (s t : State) : Prop where
  keeps : ScanKeeps s t
  polls : t.polls = 0
  edges : TookEdges 20 s t
  trace : TraceGrew s t (channelTrace s.cfg d)
  result : ∃ raw, ConvOf s raw ∧ t.res = storeWrite s.res k (raw.signExtend 32)
  wrote : WroteFrom s.cfg s.adc t.adc 1 [d.mux, gfByte s.cfg.gfUpper d.gain]

/-- The effect of all twenty actions. -/
def sampledStage (k : Nat) (mem : Memory) (c : BitVec 24) (s : State) : State :=
  storeSample k (withLatches (sampleByte c 3) (sampleByte c 2) (sampleByte c 1)
    (sampleStage c .cmd (withRegisters mem .cmd (openFrame (clearPolls s)))))

theorem sampledStage_res (mem : Memory) (c : BitVec 24) (s : State) :
    (sampledStage k mem c s).res = storeWrite s.res k (c.signExtend 32) :=
  congrArg (fun raw => storeWrite s.res k (sampleOf raw)) (rawOf_sampleBytes c)

/-- With no frame open before, none is left open. -/
theorem atPlace_sampledStage (h : AtPhase .closed s) (mem : Memory) (c : BitVec 24) (n : Nat) :
    atPlace op k n (sampledStage k mem c s) = scanStage s (atPlace op k n (sampledStage k mem c s)) := by
  obtain ⟨hadcN, -, -, hcmd, -⟩ := h
  simp only [scanStage, atPlace, sampledStage, storeSample, closeFrame, withLatches, sampleStage, withRegisters,
    openFrame, clearPolls, ← hadcN, ← hcmd]

theorem Sampled.of_ran {d : ChDesc} {mem : Memory} {c : BitVec 24} (hclosed : AtPhase .closed s)
    (h : Ran op k (channelActs s.cfg k) (channelTrace s.cfg d) s (sampledStage k mem c s) t) (hconv : ConvOf s c)
    (hwrote : WroteFrom s.cfg s.adc (sampledStage k mem c s).adc 1 [d.mux, gfByte s.cfg.gfUpper d.gain]) :
    Sampled k d s t where
  keeps := by
    obtain ⟨n, hpassed⟩ := h.passed
    exact .of_passed hpassed (atPlace_sampledStage hclosed mem c n)
  polls := h.kept (f := State.polls) (fun _ _ => rfl) fun _ => rfl
  edges := h.edges
  trace := h.trace
  result := ⟨c, hconv, (h.kept (f := State.res) (fun _ _ => rfl) fun _ => rfl).trans (sampledStage_res mem c s)⟩
  wrote := hwrote.congr (fun _ => rfl) h.peerRegister

/-- A channel is sampled, or the operation stops at its WAITRDY, which it does not with the line ready. -/
theorem runItems_channel {d : ChDesc} (hclosed : AtPhase .closed s) (hmode : s.adc.mode = .normal)
    (hC : s.cfg.codes.wf = true) (hd : storeRead s.ch k = some d) :
    (∃ t, runItems op (number k 0 (channelActs s.cfg k)) s = .go t ∧ Sampled k d s t) ∨
      ∃ t, runItems op (number k 0 (channelActs s.cfg k)) s = .halt t ∧ t.done = s.done ∧ ¬ ReadyFor 20 s := by
  rcases performs_waitRdy (atPlace op k 0 s) with ⟨t₀, hwait⟩ | ⟨t, hwait, hdone, hnot⟩
  · left
    have h₀ := Ran.one hwait fun _ _ _ _ => rfl
    obtain ⟨t₁, hselect⟩ := performs_select (atPlace op k 1 t₀)
    have h₁ := h₀.then hselect fun _ _ _ _ => rfl
    have hat₁ : AdcAt .cmd (openFrame (clearPolls s)) := openFrame_adcAt (s := clearPolls s) hclosed hmode
    obtain ⟨t₂, h₂, hwrote⟩ := h₁.burst hat₁ hC hd
    obtain ⟨t₃, h₃⟩ := h₂.delay .tSTEP
    obtain ⟨c, t₄, hconv, h₄⟩ := h₃.conversion (hat₁.withRegisters _ _) hC
    obtain ⟨t₅, hrelease⟩ := performs_release k (atPlace op k 19 t₄)
    have h₅ := h₄.then hrelease fun _ _ _ _ => rfl
    -- the parts run so far make up `channelActs`, and their entries `channelTrace`, by unfolding
    exact ⟨t₅, h₅.run, .of_ran hclosed h₅ hconv (hwrote.congr (fun _ => rfl) fun a => (h₂.peerRegister a).symm)⟩
  · refine .inr ⟨t, ?_, hdone, fun h => hnot (h.mono (by decide))⟩
    show andThen (act .waitRdy (atPlace op k 0 s)) _ = _
    rw [hwait, andThen_halt]

end

end Sys2Proof.Machine

/-! The scan (43_scan_engine.md R180, R181, R191, R192): the channels sampled one after the other. -/

namespace Sys2Proof.Machine

section
variable {s t u : State} {op : Op} {k n : Nat} {chan : Nat → ChDesc}

/-! ### The channels in order -/

/-- From `s` to `t` the channels below `n` were sampled in order. -/
inductive Scanned (chan : Nat → ChDesc) : Nat → State → State → Prop
  | start (s : State) : Scanned chan 0 s s
  | next {n : Nat} {s t u : State} : Scanned chan n s t → Sampled n (chan n) t u → Scanned chan (n + 1) s u

theorem Scanned.keeps (h : Scanned chan n s t) : ScanKeeps s t := by
  induction h with
  | start s => exact .refl s
  | next _ hlast ih => exact ih.trans hlast.keeps

theorem Scanned.polls (h : Scanned chan n s t) (hs : s.polls = 0) : t.polls = 0 := by
  cases h with
  | start => exact hs
  | next _ hlast => exact hlast.polls

theorem Scanned.edges (h : Scanned chan n s t) : TookEdges (20 * n) s t := by
  induction h with
  | start s => exact .refl s
  | next _ hlast ih => exact ih.trans hlast.edges

/-- What a scan does not write and no edge changes. -/
theorem ScanKeeps.kept {α : Type} {f : State → α} (h : ScanKeeps s t) (hf : ∀ u t, f (amid u t) = f u)
    (hstage : f (scanStage s t) = f s) : f t = f s :=
  (Passed.kept (s := scanStage s t) h hf).trans hstage

theorem ScanKeeps.cfg (h : ScanKeeps s t) : t.cfg = s.cfg := h.kept (fun _ _ => rfl) rfl

theorem ScanKeeps.ch (h : ScanKeeps s t) : t.ch = s.ch := h.kept (fun _ _ => rfl) rfl

theorem ScanKeeps.done (h : ScanKeeps s t) : t.done = s.done := h.kept (fun _ _ => rfl) rfl

theorem ScanKeeps.mode (h : ScanKeeps s t) : t.adc.mode = s.adc.mode :=
  h.kept (f := fun x => x.adc.mode) (fun _ _ => rfl) rfl

theorem ScanKeeps.closed (h : ScanKeeps s t) (hs : AtPhase .closed s) : AtPhase .closed t :=
  hs.of_same (h.kept (fun _ _ => rfl) rfl) (h.kept (fun _ _ => rfl) rfl) (h.kept (fun _ _ => rfl) rfl)
    (h.kept (f := fun x => x.adc.pst) (fun _ _ => rfl) rfl) (h.kept (f := fun x => x.dac.pst) (fun _ _ => rfl) rfl)

theorem Scanned.trace (h : Scanned chan n s t) :
    TraceGrew s t ((List.range n).flatMap fun j => channelTrace s.cfg (chan j)) := by
  induction h with
  | start s => exact ⟨[], by simp, rfl⟩
  | next hfirst hlast ih =>
    rw [List.range_succ, List.flatMap_append, List.flatMap_singleton]
    exact ih.trans (hfirst.keeps.cfg ▸ hlast.trace)

/-- Each channel's result is a conversion sign-extended, and no other entry changes. -/
theorem Scanned.results (h : Scanned chan n s t) :
    ∃ raw : Nat → BitVec 24, (∀ j, ConvOf s (raw j)) ∧
      ∀ j, storeRead t.res j = if j < n then some ((raw j).signExtend 32) else storeRead s.res j := by
  induction h with
  | start s => exact ⟨fun _ => s.adc.conv, fun _ => .inl rfl, fun j => rfl⟩
  | @next n s t u hfirst hlast ih =>
    obtain ⟨raw, hconv, hres⟩ := ih
    obtain ⟨c, hc, hlastRes⟩ := hlast.result
    refine ⟨fun j => if j = n then c else raw j, fun j => ?_, fun j => ?_⟩
    · dsimp only
      split
      · exact hfirst.edges.conv c hc
      · exact hconv j
    · rw [hlastRes, storeRead_write, hres]
      by_cases hj : j = n
      · simp [hj]
      · simp [hj, show j < n + 1 ↔ j < n by omega]

/-- The registers but the two of the burst stay. -/
theorem Scanned.registers_kept (h : Scanned chan n s t) {a : Nat} (h1 : a ≠ 1) (h2 : a ≠ 2) :
    peerRegister t.adc a = peerRegister s.adc a := by
  induction h with
  | start => rfl
  | next _ hlast ih => exact (hlast.wrote.2 a (by simp; omega)).trans ih

theorem TookMasked.trans {mask v w old mid new : Byte} (h : TookMasked mask v old mid) (k : TookMasked mask w mid new) :
    TookMasked mask w old new := fun i hi => by
  rw [k i hi, h i hi]
  split <;> rfl

/-- The two registers of the burst hold the last channel's bytes in the bits that can be written, whatever the channels
before it wrote. -/
theorem Scanned.registers_last (h : Scanned chan (n + 1) s t) :
    TookMasked (writeMask s.cfg 1) (chan n).mux (peerRegister s.adc 1) (peerRegister t.adc 1) ∧
      TookMasked (writeMask s.cfg 2) (gfByte s.cfg.gfUpper (chan n).gain) (peerRegister s.adc 2)
        (peerRegister t.adc 2) := by
  induction n generalizing t with
  | zero =>
    cases h with
    | next hfirst hlast =>
      cases hfirst
      exact ⟨hlast.wrote.1 0 _ rfl (by decide), hlast.wrote.1 1 _ rfl (by decide)⟩
  | succ n ih =>
    cases h with
    | next hfirst hlast =>
      obtain ⟨hmux, hgf⟩ := ih hfirst
      obtain ⟨hwrote, -⟩ := hlast.wrote
      rw [hfirst.keeps.cfg] at hwrote
      exact ⟨hmux.trans (hwrote 0 _ rfl (by decide)), hgf.trans (hwrote 1 _ rfl (by decide))⟩

/-! ### Running it -/

theorem scanItems_succ (P : Params) (n : Nat) :
    scanItems P (n + 1) = scanItems P n ++ number n 0 (channelActs P n) := by
  simp [scanItems, List.range_succ]

/-- The channels are sampled in order, or the operation stops at the WAITRDY of one, which it does not with the line
ready. -/
theorem runItems_scan (hclosed : AtPhase .closed s) (hmode : s.adc.mode = .normal) (hC : s.cfg.codes.wf = true)
    (hch : ∀ j, j < n → storeRead s.ch j = some (chan j)) :
    (∃ t, runItems op (scanItems s.cfg n) s = .go t ∧ Scanned chan n s t) ∨
      ∃ t, runItems op (scanItems s.cfg n) s = .halt t ∧ t.done = s.done ∧ ¬ ReadyFor (20 * n) s := by
  induction n with
  | zero => exact .inl ⟨s, rfl, .start s⟩
  | succ n ih =>
    rw [scanItems_succ, runItems_append]
    rcases ih fun j hj => hch j (by omega) with ⟨t, hrun, hscanned⟩ | ⟨t, hrun, hdone, hnot⟩
    · have hkeeps := hscanned.keeps
      rw [hrun, andThen_go, ← hkeeps.cfg]
      rcases runItems_channel (op := op) (hkeeps.closed hclosed) (hkeeps.mode.trans hmode) (hkeeps.cfg ▸ hC)
        ((congrArg (storeRead · n) hkeeps.ch).trans (hch n (by omega))) with ⟨u, hlast, hsampled⟩ | ⟨u, hlast, hdone, hnot⟩
      · exact .inl ⟨u, hlast, hscanned.next hsampled⟩
      · refine .inr ⟨u, hlast, hdone.trans ?_, fun h => hnot (h.after hscanned.edges)⟩
        exact hkeeps.done
    · refine .inr ⟨t, by rw [hrun, andThen_halt], hdone, fun h => hnot (h.mono (by omega))⟩

/-! ### SCAN -/

theorem exec_scan (hbooted : Booted s) :
    exec .scan s =
      toOutcome (andThen (runItems .scan (scanItems s.cfg s.chanCount) (enterOp .scan s)) finished) := by
  have hall : itemsFrom (enterOp .scan s).pc (opItems s.cfg s.chanCount .scan) = scanItems s.cfg s.chanCount :=
    itemsFrom_zero rfl rfl fun _ => opItems_head
  obtain ⟨hidle, hinit, -⟩ := hbooted
  rw [← hall]
  exact startBus_run hidle hinit

theorem Scanned.finishes (h : Scanned chan n (enterOp .scan s) t) :
    Finished { s with
      res := t.res, resAbort := none, adc := { s.adc with mem := t.adc.mem, shift := t.adc.shift }
      b2 := t.b2, b1 := t.b1, b0 := t.b0 } (finishOp t) := by
  refine finished_of_passed h.keeps ?_
  simp only [finishOp, scanStage, h.polls rfl]
  rfl

/-- The registers a scan leaves are those listed with the epochs of before. -/
theorem ScanKeeps.peerRegister (h : ScanKeeps s t) (a : Nat) :
    peerRegister { s.adc with mem := t.adc.mem, shift := t.adc.shift } a = peerRegister t.adc a :=
  (Passed.peerRegister (s := scanStage s t) h a).symm

/-- Settles O40: SCAN samples its channels in order, or stops at a WAITRDY with the line not ready, not done. -/
theorem scanSamplesEveryChannel : Obligations.ScanSamplesEveryChannel := by
  intro s chan hbooted hC hch
  obtain ⟨-, -, hopen, hmode⟩ := id hbooted
  rw [exec_scan hbooted]
  rcases runItems_scan (op := .scan) (s := enterOp .scan s) hopen.closed hmode hC hch with
    ⟨t, hrun, hscanned⟩ | ⟨t, hrun, hdone, hnot⟩
  · obtain ⟨raw, hconv, hres⟩ := hscanned.results
    have hreg := hscanned.keeps.peerRegister
    refine ⟨raw, t.res, { s.adc with mem := t.adc.mem, shift := t.adc.shift }, finishOp t,
      congrArg (fun r => toOutcome (andThen r finished)) hrun, fun _ =>
      ⟨hscanned.finishes, hres, hconv, hscanned.trace, rfl, fun hzero => ?_, fun hpos => ?_, fun a h1 h2 => ?_⟩⟩
    · rw [hzero] at hscanned
      cases hscanned
      exact ⟨rfl, rfl⟩
    · obtain ⟨m, hm⟩ := Nat.exists_eq_add_one.2 hpos
      rw [hm] at hscanned ⊢
      obtain ⟨hmux, hgf⟩ := hscanned.registers_last
      exact ⟨(hreg 1).symm ▸ hmux, (hreg 2).symm ▸ hgf⟩
    · exact (hreg a).trans (hscanned.registers_kept h1 h2)
  · refine ⟨fun _ => 0, [], s.adc, t, congrArg (fun r => toOutcome (andThen r finished)) hrun, fun h => ?_⟩
    rcases h with hready | htrue
    · exact absurd (.inl hready) hnot
    · cases hdone.symm.trans htrue

end

end Sys2Proof.Machine

/-! The ready timeout (43_scan_engine.md R183, R196; 45_init_sequencer.md R246; 60_exceptions.md R274, R277, R292): what an
operation that comes to one leaves. -/

namespace Sys2Proof.Machine

section
variable {s t u v : State} {op : Op} {i : Instr} {k n : Nat} {chan : Nat → ChDesc} {pre wait post : List Edge}

/-! ### The polls that use up the bound -/

theorem passEdges_passed {l : List Edge} (hs : s.inputs = l ++ post) (n : Nat) :
    Passed { s with polls := n } (withEdges post n (passEdges l s)) := by
  induction l generalizing s with
  | nil =>
    rw [List.nil_append] at hs
    subst hs
    exact .refl _
  | cons e l ih =>
    have hfirst := busyEdge_passed hs n
    have hrest := ih (s := withEdges (l ++ post) n (busyEdge e s)) rfl
    rw [passEdges_withEdges] at hrest
    exact hfirst.trans hrest

/-- Not-ready polls as many as the bound time out at the last of them. -/
theorem waitRdy_notReadyPolls (hpolls : s.polls = 0) (hbound : s.cfg.readyBound = some n) (hwait : NotReadyPolls n wait) :
    waitRdy (wait ++ post) s = .halt (readyTimeout (withEdges post s.polls (passEdges wait s))) := by
  obtain ⟨hline, hcount, l, e, rfl, hdone⟩ := hwait
  have hone : actionsOf [e] = 1 := by simp [actionsOf, hdone]
  have hn : actionsOf l + 1 = n := by
    rw [← hcount, ← hone]
    simp [actionsOf]
  rw [List.append_assoc, List.singleton_append, waitRdy_timeout (fun x hx => hline x (List.mem_append_left _ hx)) hdone
    (hline e (by simp) hdone) (by rw [hpolls, Nat.zero_add, hn, hbound]), hpolls, Nat.zero_add, hn]
  rfl

theorem passEdges_trace (l : List Edge) (s : State) : (passEdges l s).trace = s.trace := by
  induction l generalizing s with
  | nil => rfl
  | cons e l ih => exact (ih (busyEdge e s)).trans (busyEdge_trace e s)

/-- An operation that comes to such polls stops there; before it takes the condition only edges have passed. -/
theorem runItems_waitRdy_timeout (hpolls : s.polls = 0) (hbound : s.cfg.readyBound = some n)
    (hs : s.inputs = wait ++ post) (hwait : NotReadyPolls n wait) (op : Op) (k step : Nat) (rest : List Item) :
    ∃ v, runItems op (⟨k, step, .waitRdy⟩ :: rest) s = .halt (readyTimeout v) ∧ Passed (atPlace op k step s) v ∧
      v.trace = s.trace ∧ v.inputs = post := by
  refine ⟨withEdges post s.polls (passEdges wait (atPlace op k step s)), ?_,
    passEdges_passed (s := atPlace op k step s) hs s.polls, passEdges_trace wait _, rfl⟩
  rw [runItems_cons]
  show andThen (waitRdy s.inputs (atPlace op k step s)) _ = _
  rw [hs, waitRdy_notReadyPolls (s := atPlace op k step s) hpolls hbound hwait]
  rfl

/-! ### The abort -/

@[simp] theorem readyTimeout_res (s : State) : (readyTimeout s).res = s.res := by simp [readyTimeout]

@[simp] theorem readyTimeout_adc (s : State) : (readyTimeout s).adc = s.adc := by simp [readyTimeout]

@[simp] theorem readyTimeout_inputs (s : State) : (readyTimeout s).inputs = s.inputs := by simp [readyTimeout]

@[simp] theorem readyTimeout_trace (s : State) : (readyTimeout s).trace = s.trace ++ [.waitRdy] := by
  simp [readyTimeout]

/-- Inside a tick the session stops with it (R292). -/
theorem readyTimeout_sess (s : State) :
    (readyTimeout s).sess =
      if s.pc.op = .tick then { s.sess with sched := .stopped, armed := false } else s.sess := by
  rw [readyTimeout, takeCondition_sess]
  rfl

/-! ### A scan or a tick -/

/-- The instructions that scan, with their operations. -/
def Scans (i : Instr) (op : Op) (s : State) : Prop :=
  (i = .scan ∧ op = .scan) ∨ (i = .tick ∧ op = .tick ∧ s.sess.armed = true)

/-- What stops the scan stops the operation. -/
theorem exec_scan_halts (hbooted : Booted s) (hi : Scans i op s) (hk : 0 < s.chanCount)
    (hrun : runItems op (scanItems s.cfg s.chanCount) (enterOp op s) = .halt t) : exec i s = .next t := by
  rcases hi with ⟨rfl, rfl⟩ | ⟨rfl, rfl, harmed⟩
  · rw [exec_scan hbooted, hrun]
    rfl
  · obtain ⟨hidle, hinit, -⟩ := hbooted
    have hall : itemsFrom (enterOp .tick s).pc (scanItems s.cfg s.chanCount) = scanItems s.cfg s.chanCount :=
      itemsFrom_zero rfl rfl fun _ => opItems_head (op := .tick)
    have hop : continueOp (enterOp .tick s) = .halt t := by
      show continueTick (enterOp .tick s) = _
      rw [continueTick, if_pos (show (enterOp .tick s).pc.k < (enterOp .tick s).chanCount from hk)]
      exact congrArg (andThen · _) ((congrArg (runItems .tick · _) hall).trans hrun)
    show execTick s = _
    simp only [execTick, harmed, busy, hidle, Bool.true_eq_false, if_false, ne_eq, not_true_eq_false, decide_false,
      Bool.false_eq_true]
    rw [startBus_run hidle hinit, hop, toOutcome_halt]

/-- A ready timeout of a scan or tick at channel `k` (60 R274, R292). -/
theorem readyTimeout_scan_eq (hpc : v.pc = ⟨op, k, 0⟩) (hop : op = .scan ∨ op = .tick) :
    readyTimeout v = { v with
      pc := ⟨.idle, 0, 0⟩, polls := 0, fault := 4#3, resAbort := some k, flags := { v.flags with eRdy := true }
      sess := if op = .tick then { v.sess with sched := .stopped, armed := false } else v.sess
      trace := v.trace ++ [.waitRdy] } := by
  rcases hop with rfl | rfl <;> simp [readyTimeout, takeCondition, logAction, stopSession, hpc, setFlag, conditionCode]

/-- The abort of a scan or tick leaves what the channels before it wrote (R196). -/
theorem readyTimeout_scan (h : ScanKeeps (enterOp op s) v) (hpc : v.pc = ⟨op, k, 0⟩) (hop : op = .scan ∨ op = .tick)
    (ht : t = readyTimeout v) :
    Aborted 4#3 { s with
      res := t.res, resAbort := some k, b2 := t.b2, b1 := t.b1, b0 := t.b0, flags := { s.flags with eRdy := true }
      adc := { s.adc with mem := t.adc.mem, shift := t.adc.shift } } t := by
  have hv : v = amid (scanStage (enterOp op s) v) v := h.1
  rw [readyTimeout_scan_eq hpc hop] at ht
  subst ht
  rw [Aborted]
  conv_lhs => rw [hv]
  rcases hop with rfl | rfl <;> rfl

/-- The scan of the channels below `k` with the line ready, then polls of channel `k` that use up the bound. -/
theorem runItems_scan_timeout (hclosed : AtPhase .closed s) (hmode : s.adc.mode = .normal) (hC : s.cfg.codes.wf = true)
    (hpolls : s.polls = 0) (hk : k < s.chanCount) (hch : ∀ j, j < k → storeRead s.ch j = some (chan j))
    (hbound : s.cfg.readyBound = some n) (hs : s.inputs = pre ++ (wait ++ post)) (hpre : ReadyActions (20 * k) pre)
    (hwait : NotReadyPolls n wait) :
    ∃ t v, Scanned chan k s t ∧ runItems op (scanItems s.cfg s.chanCount) s = .halt (readyTimeout v) ∧
      Passed (atPlace op k 0 t) v ∧ v.trace = t.trace ∧ v.inputs = post := by
  rcases runItems_scan (op := op) hclosed hmode hC hch with ⟨t, hrun, hscanned⟩ | ⟨-, -, -, hnot⟩
  · obtain ⟨rest, hsplit⟩ := scanItems_split s.cfg hk
    obtain ⟨v, hlast, hv⟩ := runItems_waitRdy_timeout (hscanned.polls hpolls)
      ((congrArg Params.readyBound hscanned.keeps.cfg).trans hbound) (hscanned.edges.used pre _ hpre hs) hwait op k 0 rest
    exact ⟨t, v, hscanned, by rw [hsplit, runItems_append, hrun, andThen_go, hlast], hv⟩
  · exact absurd (.inr ⟨pre, wait ++ post, hpre, hs⟩) hnot

/-- A scan or tick whose channel `k` times out (R183, R196, R292). -/
theorem exec_scan_timeout (hbooted : Booted s) (hC : s.cfg.codes.wf = true) (hk : k < s.chanCount)
    (hch : ∀ j, j < k → storeRead s.ch j = some (chan j)) (hbound : s.cfg.readyBound = some n)
    (hs : s.inputs = pre ++ wait ++ post) (hpre : ReadyActions (20 * k) pre) (hwait : NotReadyPolls n wait)
    (hi : Scans i op s) :
    ∃ (raw : Nat → BitVec 24) (t : State), exec i s = .next t ∧
      Aborted 4#3 { s with
        res := t.res, resAbort := some k, b2 := t.b2, b1 := t.b1, b0 := t.b0, flags := { s.flags with eRdy := true }
        adc := { s.adc with mem := t.adc.mem, shift := t.adc.shift } } t ∧
      (∀ j, storeRead t.res j = if j < k then some ((raw j).signExtend 32) else storeRead s.res j) ∧
      t.inputs = post ∧
      (∀ a, a ≠ 1 → a ≠ 2 → peerRegister t.adc a = peerRegister s.adc a) ∧
      TraceGrew s t (((List.range k).flatMap fun j => channelTrace s.cfg (chan j)) ++ [.waitRdy]) ∧
      (i = .scan → KeptOrCancelled s t) ∧ (i = .tick → t.sess.sched = .stopped ∧ t.sess.armed = false) := by
  obtain ⟨-, -, hopen, hmode⟩ := id hbooted
  obtain ⟨u, v, hscanned, hrun, hpassed, htrace, hinputs⟩ := runItems_scan_timeout (op := op) (s := enterOp op s)
    hopen.closed hmode hC rfl hk hch hbound (hs.trans (List.append_assoc pre wait post)) hpre hwait
  obtain ⟨raw, -, hres⟩ := hscanned.results
  have hop : op = .scan ∨ op = .tick := hi.imp (fun h => h.2) fun h => h.2.1
  have hpc : v.pc = ⟨op, k, 0⟩ := hpassed.kept (g := State.pc) fun _ _ => rfl
  have hresKept : v.res = u.res := hpassed.kept (g := State.res) fun _ _ => rfl
  have hkeeps : ScanKeeps (enterOp op s) v := hscanned.keeps.trans (.of_passed hpassed rfl)
  refine ⟨raw, readyTimeout v, exec_scan_halts hbooted hi (by omega) hrun, readyTimeout_scan hkeeps hpc hop rfl,
    fun j => ?_, by rw [readyTimeout_inputs, hinputs], fun a h1 h2 => ?_, ?_, ?_, ?_⟩
  · rw [readyTimeout_res, hresKept, hres]
    rfl
  · rw [readyTimeout_adc]
    exact (hpassed.peerRegister a).trans (hscanned.registers_kept h1 h2)
  · exact hscanned.trace.trans (.of_eq (k := [.waitRdy]) (by rw [readyTimeout_trace, htrace]) rfl)
  · rintro rfl
    obtain ⟨-, rfl⟩ : _ ∧ op = .scan := hi.resolve_right fun h => nomatch h.1
    have hsess : (readyTimeout v).sess = v.sess := by rw [readyTimeout_sess, hpc, if_neg nofun]
    simpa only [KeptOrCancelled, hsess] using (show KeptOrCancelled s v from hkeeps.2.1)
  · rintro rfl
    obtain ⟨-, rfl, -⟩ : _ ∧ op = .tick ∧ _ := hi.resolve_left fun h => nomatch h.1
    simp [readyTimeout_sess, hpc]

/-- With no edge to come a line that is not ready times out at channel 0. -/
theorem exec_scan_quiet_timeout (hbooted : Booted s) (hs : s.inputs = []) (hline : s.drdyN = true)
    (hbound : s.cfg.readyBound = some n) (hk : 0 < s.chanCount) (hi : Scans i op s) :
    exec i s = .next (readyTimeout (enterOp op s)) := by
  refine exec_scan_halts hbooted hi hk ?_
  obtain ⟨rest, hsplit⟩ := scanItems_split s.cfg hk
  rw [hsplit]
  show andThen (waitRdy s.inputs (enterOp op s)) _ = _
  rw [hs, waitRdy_nil (s := enterOp op s) hs]
  simp [hline, hbound]

/-! ### INIT -/

/-- What the first seven actions of INIT leave changed, beside what edges change: the place, the reset line, and what
a reset of the chip changes (R240, R242, 10_state.md R56). -/
def pulseStage (s t : State) : State :=
  { s with
    pc := t.pc, rstN := t.rstN
    adc := { s.adc with
      mem := t.adc.mem, epoch := t.adc.epoch, calEpoch := t.adc.calEpoch, pst := t.adc.pst, mode := t.adc.mode } }

/-- From `s` to `t` no more was changed. -/
def PulseKeeps (s t : State) : Prop := t = amid (pulseStage s t) t ∧ KeptOrCancelled s t

theorem PulseKeeps.refl (s : State) : PulseKeeps s s := ⟨rfl, .inl ⟨rfl, rfl⟩⟩

theorem PulseKeeps.trans (h : PulseKeeps s t) (k : PulseKeeps t u) : PulseKeeps s u := by
  obtain ⟨ht, hkept⟩ := h
  obtain ⟨hu, kkept⟩ := k
  refine ⟨?_, hkept.trans kkept⟩
  calc u = amid (pulseStage t u) u := hu
    _ = amid (pulseStage (amid (pulseStage s t) t) u) u := by rw [← ht]
    _ = amid (pulseStage s u) u := rfl

theorem PulseKeeps.of_passed {y : State} (h : Passed y t) (hy : y = pulseStage s y) : PulseKeeps s t := by
  have hstage : pulseStage s t = y := (h.kept (g := pulseStage s) fun _ _ => rfl).trans hy.symm
  refine ⟨hstage ▸ h.1, ?_⟩
  have hkept := h.2.1
  rw [hy] at hkept
  exact hkept

/-- The trace entry of a delay, of CONFIG and of the reset line. -/
def startEntry (P : Params) : Micro → Option Action
  | .config => some (.config P.bus)
  | .rst level => some (.rst level)
  | .delay d => some (.delay d)
  | _ => none

/-- The chip as a reset leaves it (10_state.md R56). -/
def FreshChip (s : State) : Prop := s.adc.mem = [] ∧ s.adc.mode = .normal

/-- One of these actions, with one edge. -/
theorem act_start {m : Micro} {a : Action} {e : Edge} (hm : startEntry s.cfg m = some a) (hs : s.inputs = e :: post)
    (hdone : e.actDone = true) (hhw : e.hwOk = true) :
    ∃ t, act m s = .go t ∧ PulseKeeps s t ∧ t.inputs = post ∧ t.trace = s.trace ++ [a] ∧
      (m = .rst false ∨ FreshChip s → FreshChip t) := by
  have hpassed := absorb_passed s
  have hkeeps : PulseKeeps s (absorb s.inputs s) := .of_passed hpassed rfl
  have hinputs : (absorb s.inputs s).inputs = post := by simp [hs, absorb, hdone]
  have hup : (absorb s.inputs s).hwOk = true := by simp [hs, absorb, hdone, hhw]
  have htrace := absorb_trace s.inputs s
  have hcfg := absorb_cfg s.inputs s
  have hfresh : FreshChip s → FreshChip (absorb s.inputs s) := fun h =>
    ⟨hpassed.mem.trans h.1, hpassed.mode.trans h.2⟩
  have hact : m ≠ .waitRdy → act m s = perform m (absorb s.inputs s) := fun h => act_eq h s
  generalize absorb s.inputs s = u at hkeeps hinputs hup htrace hcfg hfresh hact
  cases m
  case config =>
    cases hm
    refine ⟨logAction (.config s.cfg.bus) u, ?_, hkeeps.trans ⟨rfl, .inl ⟨rfl, rfl⟩⟩, hinputs, ?_, ?_⟩
    · rw [hact nofun, perform, configure, if_pos hup, hcfg]
    · exact congrArg (· ++ _) htrace
    · exact fun h => hfresh (h.resolve_left nofun)
  case rst level =>
    cases hm
    refine ⟨setRst level u, hact nofun, hkeeps.trans ?_, ?_, ?_, ?_⟩
    · cases level <;> exact ⟨rfl, .inl ⟨rfl, rfl⟩⟩
    · cases level <;> exact hinputs
    · cases level <;> exact congrArg (· ++ _) htrace
    · cases level with
      | false => exact fun _ => ⟨rfl, rfl⟩
      | true => exact fun h => hfresh (h.resolve_left nofun)
  case delay d =>
    cases hm
    exact ⟨delay d u, hact nofun, hkeeps.trans ⟨rfl, .inl ⟨rfl, rfl⟩⟩, hinputs, congrArg (· ++ _) htrace,
      fun h => hfresh (h.resolve_left nofun)⟩
  all_goals cases hm

/-- The edges of one action more. -/
theorem ReadyActions.uncons {e : Edge} (h : ReadyActions (n + 1) (e :: pre)) :
    e.actDone = true ∧ ReadyActions n pre := by
  obtain ⟨hlen, hall⟩ := h
  exact ⟨(hall e List.mem_cons_self).1, Nat.succ.inj hlen, fun x hx => hall x (List.mem_cons_of_mem _ hx)⟩

/-- These actions, with one edge each. -/
theorem runItems_start {acts : List Micro} {l : List Action} (hacts : acts.map (startEntry s.cfg) = l.map some)
    (hs : s.inputs = pre ++ post) (hpre : ReadyActions acts.length pre) (hhw : ∀ e ∈ pre, e.hwOk = true) (i : Nat) :
    ∃ t, runItems op (number k i acts) s = .go t ∧ PulseKeeps s t ∧ t.inputs = post ∧ t.trace = s.trace ++ l ∧
      (.rst false ∈ acts ∨ FreshChip s → FreshChip t) := by
  induction acts generalizing s pre l i with
  | nil =>
    obtain rfl := List.eq_nil_of_length_eq_zero hpre.1
    obtain rfl : l = [] := by simpa using hacts.symm
    exact ⟨s, rfl, .refl s, hs, by simp, fun h => h.resolve_left nofun⟩
  | cons m acts ih =>
    obtain ⟨a, l, rfl⟩ : ∃ a l', l = a :: l' := by
      cases l with
      | nil => cases hacts
      | cons a l => exact ⟨a, l, rfl⟩
    obtain ⟨e, pre, rfl⟩ : ∃ e pre', pre = e :: pre' := by
      cases pre with
      | nil => cases hpre.1
      | cons e pre => exact ⟨e, pre, rfl⟩
    obtain ⟨hm, hacts⟩ : startEntry s.cfg m = some a ∧ acts.map (startEntry s.cfg) = l.map some := by
      simpa using hacts
    obtain ⟨hdone, hpre⟩ := hpre.uncons
    obtain ⟨he, hhw⟩ := List.forall_mem_cons.1 hhw
    obtain ⟨t, hact, hkeeps, hinputs, htrace, hfresh⟩ := act_start (s := { s with pc := ⟨op, k, i⟩ }) hm hs hdone he
    have hcfg : t.cfg = s.cfg := by rw [hkeeps.1]; rfl
    obtain ⟨u, hrun, hrest, hinputs', htrace', hfresh'⟩ := ih (hcfg ▸ hacts) hinputs hpre hhw (i + 1)
    refine ⟨u, ?_, ?_, hinputs', ?_, ?_⟩
    · show andThen (act m { s with pc := ⟨op, k, i⟩ }) _ = _
      rw [hact]
      exact hrun
    · exact (show PulseKeeps s { s with pc := ⟨op, k, i⟩ } from ⟨rfl, .inl ⟨rfl, rfl⟩⟩).trans (hkeeps.trans hrest)
    · rw [htrace', htrace, List.append_assoc]
      rfl
    · rintro (hin | h)
      · rcases List.mem_cons.1 hin with hm | hin
        · exact hfresh' (.inr (hfresh (.inl hm.symm)))
        · exact hfresh' (.inl hin)
      · exact hfresh' (.inr (hfresh (.inr h)))

/-- R240 actions 0 to 6. -/
def pulseActs : List Micro := [.config, .rst true, .delay .tRST, .rst false, .delay .tRST, .rst true, .delay .tRST]

theorem initActs_eq (P : Params) :
    ∃ rest, number 0 0 (initActs P) = number 0 0 pulseActs ++ ⟨0, 7, .waitRdy⟩ :: rest := ⟨_, rfl⟩

theorem exec_init_halts (hidle : s.pc.op = .idle) (hsess : s.sess.sched = .idle ∨ s.sess.sched = .stopped)
    (hrun : runItems .init (number 0 0 (initActs s.cfg)) (enterOp .init { s with initok := false }) = .halt t) :
    exec .init s = .next t := by
  have hall : itemsFrom ⟨.init, 0, 0⟩ (opItems s.cfg s.chanCount .init) = number 0 0 (initActs s.cfg) :=
    itemsFrom_zero rfl rfl fun _ => opItems_head
  have hop : continueOp (enterOp .init { s with initok := false }) = .halt t :=
    congrArg (andThen · finished) ((congrArg (runItems .init · _) hall).trans hrun)
  show execInit s = _
  rw [execInit, if_neg (by simp [busy, outsideSession, hidle, hsess]), hop, toOutcome_halt]

/-- The actions before INIT's WAITRDY leave no frame open and the reset line high. -/
theorem pulseActs_closed (hclosed : AtPhase .closed s) (hrun : runItems op (number 0 0 pulseActs) s = .go t) :
    AtPhase .closed t := by
  have hends := runItems_atPhase (op := op) (q := .closed) (items := number 0 0 pulseActs) rfl hclosed
    fun it hit hwait => by
      have hact := List.mem_map_of_mem (f := Item.act) hit
      simp [number_map_act, pulseActs, hwait] at hact
  rw [hrun] at hends
  exact hends

/-- A ready timeout of INIT (60 R274). -/
theorem readyTimeout_init_eq (hpc : v.pc.op = .init) :
    readyTimeout v = { v with
      pc := ⟨.idle, 0, 0⟩, polls := 0, fault := 4#3, flags := { v.flags with eRdy := true }
      trace := v.trace ++ [.waitRdy] } := by
  simp [readyTimeout, takeCondition, logAction, hpc, setFlag, conditionCode]

/-- The abort of INIT leaves a fresh chip (R246). -/
theorem readyTimeout_init (h : PulseKeeps (enterOp .init { s with initok := false }) v) (hpc : v.pc.op = .init)
    (hopen : AtPhase .closed s) (hclosed : AtPhase .closed v) (hfresh : FreshChip v) (ht : t = readyTimeout v) :
    Aborted 4#3 { s with
      initok := false, flags := { s.flags with eRdy := true }
      adc := { s.adc with mem := [], epoch := t.adc.epoch, calEpoch := t.adc.calEpoch, mode := .normal } } t := by
  obtain ⟨-, -, hrst, hcmd, -⟩ := hopen
  obtain ⟨-, -, hrst', hcmd', -⟩ := hclosed
  obtain ⟨hmem, hmode⟩ := hfresh
  have hv := h.1
  rw [pulseStage, hmem, hmode, hcmd', ← hcmd, hrst', ← hrst] at hv
  rw [readyTimeout_init_eq hpc] at ht
  subst ht
  rw [Aborted]
  conv_lhs => rw [hv]
  rfl

/-- INIT whose WAITRDY times out (R246). -/
theorem exec_init_timeout (hidle : s.pc.op = .idle) (hopen : NoFrameOpen s)
    (hsess : s.sess.sched = .idle ∨ s.sess.sched = .stopped) (hbound : s.cfg.readyBound = some n)
    (hs : s.inputs = pre ++ wait ++ post) (hpre : ReadyActions 7 pre) (hhw : ∀ e ∈ pre, e.hwOk = true)
    (hwait : NotReadyPolls n wait) :
    ∃ t : State, exec .init s = .next t ∧
      Aborted 4#3 { s with
        initok := false, flags := { s.flags with eRdy := true }
        adc := { s.adc with mem := [], epoch := t.adc.epoch, calEpoch := t.adc.calEpoch, mode := .normal } } t ∧
      t.sess.sched = s.sess.sched ∧ t.sess.armed = s.sess.armed ∧ t.inputs = post ∧
      TraceGrew s t
        [.config s.cfg.bus, .rst true, .delay .tRST, .rst false, .delay .tRST, .rst true, .delay .tRST, .waitRdy] := by
  obtain ⟨u, hrun, hkeeps, hinputs, htrace, hfresh⟩ :=
    runItems_start (s := enterOp .init { s with initok := false }) (op := .init) (k := 0) (acts := pulseActs)
      (l := [.config s.cfg.bus, .rst true, .delay .tRST, .rst false, .delay .tRST, .rst true, .delay .tRST]) rfl
      (hs.trans (List.append_assoc pre wait post)) hpre hhw 0
  have hclosed := pulseActs_closed (s := enterOp .init { s with initok := false }) hopen.closed hrun
  obtain ⟨rest, hsplit⟩ := initActs_eq s.cfg
  have hcfg : u.cfg = s.cfg := by rw [hkeeps.1]; rfl
  have hpolls : u.polls = 0 := by rw [hkeeps.1]; rfl
  obtain ⟨v, hlast, hpassed, hsame, hpost⟩ :=
    runItems_waitRdy_timeout hpolls ((congrArg Params.readyBound hcfg).trans hbound) hinputs hwait .init 0 7 rest
  have hhalts : runItems .init (number 0 0 (initActs s.cfg)) (enterOp .init { s with initok := false }) =
      .halt (readyTimeout v) := by rw [hsplit, runItems_append, hrun, andThen_go, hlast]
  have hpc : v.pc.op = .init := hpassed.kept (g := fun x => x.pc.op) fun _ _ => rfl
  have hkeepsAll := hkeeps.trans (.of_passed hpassed rfl)
  have hclosedAll : AtPhase .closed v := hclosed.of_same hpassed.csAdcN hpassed.csDacN hpassed.rstN hpassed.pst
    (hpassed.kept (g := fun x => x.dac.pst) fun _ _ => rfl)
  obtain ⟨hmem, hmode⟩ := hfresh (.inl (by simp [pulseActs]))
  have hsessKept : (readyTimeout v).sess = v.sess := by rw [readyTimeout_sess, hpc, if_neg nofun]
  obtain ⟨hsched, harmed⟩ : v.sess.sched = s.sess.sched ∧ v.sess.armed = s.sess.armed :=
    hkeepsAll.2.resolve_right fun ⟨hin, _⟩ => by
      rcases hsess with h | h <;> rcases hin with h' | h' <;> cases h.symm.trans h'
  refine ⟨readyTimeout v, exec_init_halts hidle hsess hhalts,
    readyTimeout_init hkeepsAll hpc hopen.closed hclosedAll ⟨hpassed.mem.trans hmem, hpassed.mode.trans hmode⟩ rfl,
    by rw [hsessKept, hsched], by rw [hsessKept, harmed], by rw [readyTimeout_inputs, hpost], ?_⟩
  exact .of_eq (by rw [readyTimeout_trace, hsame, htrace, List.append_assoc]; rfl) rfl

/-- Settles O41: the polls of a WAITRDY counted, then what a timeout leaves of a scan or tick and of INIT. -/
theorem readyTimeoutAborts : Obligations.ReadyTimeoutAborts := by
  refine ⟨fun s wait post e hwait hdone => ⟨fun hline hbound => waitRdy_ready hwait hdone hline hbound,
    fun hline hbound => waitRdy_timeout hwait hdone hline hbound⟩,
    fun s chan k n pre wait post hbooted hC hk hch hbound hs hpre hwait i hi => ?_,
    fun s n pre wait post hidle hopen hsess hbound hs hpre hhw hwait =>
      exec_init_timeout hidle hopen hsess hbound hs hpre hhw hwait,
    fun s n hbooted hs hline hbound hk => ⟨?_, fun harmed => ?_⟩⟩
  · obtain ⟨op, hscans⟩ : ∃ op, Scans i op s := by
      rcases hi with rfl | ⟨rfl, harmed⟩
      · exact ⟨.scan, .inl ⟨rfl, rfl⟩⟩
      · exact ⟨.tick, .inr ⟨rfl, rfl, harmed⟩⟩
    exact exec_scan_timeout hbooted hC hk hch hbound hs hpre hwait hscans
  · exact exec_scan_quiet_timeout hbooted hs hline hbound hk (.inl ⟨rfl, rfl⟩)
  · exact exec_scan_quiet_timeout hbooted hs hline hbound hk (.inr ⟨rfl, rfl, harmed⟩)

end

end Sys2Proof.Machine

/-! The wire commands of one byte (44_wire_commands.md R210 to R228): what each does at the start of a command in an open
frame, whatever edges pass before it. -/

namespace Sys2Proof.Machine

section
variable {s t u : State} {f : State → State} {i : Instr} {b : Byte} {c : WireCmd} {m : AdcMode}

/-! ### A command byte -/

/-- A frame is open to the converter chip, which is at the start of a command, in whatever mode. -/
def AtCommand (s : State) : Prop := s.csAdcN = false ∧ s.csDacN = true ∧ s.rstN = true ∧ s.adc.pst = .cmd

theorem AdcListening.atCommand (h : AdcListening s) : AtCommand s := by
  obtain ⟨hadcN, hdacN, hrst, hcmd, -⟩ := h
  exact ⟨hadcN, hdacN, hrst, hcmd⟩

theorem AdcListening.normal (h : AdcListening s) : s.adc.mode = .normal := h.2.2.2.2

theorem AtCommand.passed (h : AtCommand s) (k : Passed s t) : AtCommand t := by
  simpa only [AtCommand, k.csAdcN, k.csDacN, k.rstN, k.pst] using h

theorem AtCommand.exchange (h : AtCommand s) (b : Byte) : exchange b s = commandExchange b s := by
  obtain ⟨hadcN, hdacN, hrst, hcmd⟩ := h
  rw [exchange_adc hadcN hdacN, adcExchange_cmd hrst hcmd]

/-- A wire command of one byte is the exchange of it. -/
theorem exec_oneByte (h : encode s.cfg.codes i = .wire [b]) : exec i s = toOutcome (act (.send b) s) := by
  cases i
  case wakeup | rdatac | sdatac | selfcal | selfocal | selfgcal | sysocal | sysgcal | sync | standby | reset | wakeup2 =>
    cases h
    rfl
  all_goals cases h

/-- What the chip makes of the byte after the edges is the effect of the command. -/
theorem exec_command (h : AtCommand s) (hi : encode s.cfg.codes i = .wire [b]) (hf : EdgeFree f)
    (hx : commandExchange b (absorb s.inputs s) = .go u)
    (hu : u = { f (absorb s.inputs s) with rx := u.rx, draws := u.draws, trace := (absorb s.inputs s).trace }) :
    ∃ t, exec i s = .next t ∧ Passed (f s) t ∧ t.draws = u.draws ∧ t.trace = s.trace ++ [.xfer b t.rx] := by
  rw [absorb_trace] at hu
  have hsent := sends_of_exchange hf (((h.passed (absorb_passed s)).exchange b).trans hx) hu
  exact ⟨_, by rw [exec_oneByte hi, hsent.run, toOutcome_go], hsent.passed, rfl, hsent.trace⟩

/-! ### The mode -/

/-- The mode after a command that changes nothing else of the chip; none where the command changes more or is refused (R210,
R212, R213, R225, R226, R228). -/
def modeAfter : WireCmd → AdcMode → Option AdcMode
  | .wakeup, .normal | .wakeup2, .normal | .sync, .normal | .sdatac, .normal => some .normal
  | .rdatac, .normal => some .cont
  | .standby, .normal => some .stby
  | .sdatac, .cont | .wakeup, .stby | .wakeup2, .stby => some .normal
  | _, _ => none

theorem setMode_self (h : s.adc.mode = m) : setMode m s = s := by
  subst h
  rfl

theorem setMode_edgeFree (m : AdcMode) : EdgeFree (setMode m) :=
  ⟨fun _ _ => rfl, fun _ _ => rfl, fun _ => rfl, fun _ => rfl⟩

theorem commandExchange_modeAfter (hc : classify s.cfg.codes b = some c) (hm : modeAfter c s.adc.mode = some m) :
    commandExchange b s = .go (setMode m (drawRx s)) := by
  cases hmode : s.adc.mode with
  | normal =>
    rw [hmode] at hm
    rw [commandExchange_normal hmode hc]
    cases c
    case wakeup | wakeup2 | sync | sdatac =>
      cases hm
      exact congrArg Run.go (setMode_self (s := drawRx s) hmode).symm
    case rdatac | standby =>
      cases hm
      rfl
    all_goals cases hm
  | cont =>
    rw [hmode] at hm
    cases c
    case sdatac =>
      cases hm
      simp only [commandExchange, hmode, hc]
    all_goals cases hm
  | stby =>
    rw [hmode] at hm
    cases c
    case wakeup | wakeup2 =>
      cases hm
      simp only [commandExchange, hmode, hc]
    all_goals cases hm

theorem exec_modeCommand (h : AtCommand s) (hi : encode s.cfg.codes i = .wire [b])
    (hc : classify s.cfg.codes b = some c) (hm : modeAfter c s.adc.mode = some m) :
    ∃ t, exec i s = .next t ∧ Passed (setMode m s) t ∧ t.trace = s.trace ++ [.xfer b t.rx] := by
  have hpassed := absorb_passed s
  have hx := commandExchange_modeAfter (hpassed.cfg ▸ hc) (hpassed.mode ▸ hm)
  obtain ⟨t, hexec, hpassed, -, htrace⟩ := exec_command h hi (setMode_edgeFree m) hx rfl
  exact ⟨t, hexec, hpassed, htrace⟩

/-- Settles O50: in NORMAL mode the mode after each of the four is NORMAL. -/
theorem wireCommandsWithoutEffect : Obligations.WireCommandsWithoutEffect := by
  intro s i b h hC hib
  obtain ⟨-, hwakeup, -, hsdatac, -, -, -, -, -, hsync, -⟩ := classify_eq hC
  obtain ⟨hi, c, hc, hm⟩ : encode s.cfg.codes i = .wire [b] ∧
      ∃ c, classify s.cfg.codes b = some c ∧ modeAfter c .normal = some .normal := by
    simp only [List.mem_cons, List.not_mem_nil, or_false, Prod.mk.injEq] at hib
    obtain ⟨rfl, rfl⟩ | ⟨rfl, rfl⟩ | ⟨rfl, rfl⟩ | ⟨rfl, rfl⟩ := hib
    · exact ⟨rfl, _, hwakeup, rfl⟩
    · exact ⟨rfl, _, hsdatac, rfl⟩
    · exact ⟨rfl, _, hsync, rfl⟩
    · exact ⟨rfl, (classify_wakeup2_cases hC).elim (fun hc => ⟨_, hc, rfl⟩) fun hc => ⟨_, hc, rfl⟩⟩
  obtain ⟨t, hexec, hpassed, htrace⟩ := exec_modeCommand h.atCommand hi hc (by rwa [h.normal])
  rw [setMode_self h.normal] at hpassed
  exact ⟨t.rx, t, hexec, hpassed, htrace⟩

/-- Settles O51: the mode after each is that of its row. -/
theorem wireCommandsThatChangeMode : Obligations.WireCommandsThatChangeMode := by
  intro s i b m m' hC hadcN hdacN hrst hcmd hmode hrow
  obtain ⟨-, hwakeup, hrdatac, hsdatac, -, -, -, -, -, -, hstandby, -⟩ := classify_eq hC
  obtain ⟨hi, c, hc, hm⟩ : encode s.cfg.codes i = .wire [b] ∧
      ∃ c, classify s.cfg.codes b = some c ∧ modeAfter c m = some m' := by
    simp only [List.mem_cons, List.not_mem_nil, or_false, Prod.mk.injEq] at hrow
    obtain ⟨rfl, rfl, rfl, rfl⟩ | ⟨rfl, rfl, rfl, rfl⟩ | ⟨rfl, rfl, rfl, rfl⟩ | ⟨rfl, rfl, rfl, rfl⟩ |
      ⟨rfl, rfl, rfl, rfl⟩ := hrow
    · exact ⟨rfl, _, hrdatac, rfl⟩
    · exact ⟨rfl, _, hstandby, rfl⟩
    · exact ⟨rfl, _, hsdatac, rfl⟩
    · exact ⟨rfl, _, hwakeup, rfl⟩
    · exact ⟨rfl, (classify_wakeup2_cases hC).elim (fun hc => ⟨_, hc, rfl⟩) fun hc => ⟨_, hc, rfl⟩⟩
  obtain ⟨t, hexec, hpassed, htrace⟩ := exec_modeCommand ⟨hadcN, hdacN, hrst, hcmd⟩ hi hc (hmode ▸ hm)
  exact ⟨t.rx, t, hexec, hpassed, htrace⟩

/-! ### The registers -/

/-- The calibration registers as the draws of epoch `n` (R220 to R224). -/
def calibrated (n : Nat) (s : State) : State :=
  { s with adc := { s.adc with mem := storeBelow s.adc.mem 5, calEpoch := n } }

theorem calibrated_edgeFree (n : Nat) : EdgeFree (calibrated n) :=
  ⟨fun _ _ => rfl, fun _ _ => rfl, fun _ => rfl, fun _ => rfl⟩

theorem peerRegister_calibrated_below {a : Nat} (n : Nat) (s : State) (ha : a < 5) :
    peerRegister (calibrated n s).adc a = peerRegister s.adc a := by
  simp [peerRegister, calibrated, storeRead_below, ha]

theorem storeRead_calibrated {a : Nat} (n : Nat) (s : State) (ha : 5 ≤ a) :
    storeRead (calibrated n s).adc.mem a = none := by
  simp [calibrated, storeRead_below, show ¬ a < 5 by omega]

theorem peerRegister_calibrated {a : Nat} (n : Nat) (s : State) (ha : 5 ≤ a) :
    peerRegister (calibrated n s).adc a = Config.unspecifiedReg n a := by
  rw [peerRegister, storeRead_calibrated n s ha, if_neg (by omega)]
  rfl

/-- Settles O52: each of the five is the calibration of a fresh epoch. -/
theorem calibrationsDrawTheirRegisters : Obligations.CalibrationsDrawTheirRegisters := by
  intro s i b h hC hib
  obtain ⟨-, -, -, -, hselfcal, hselfocal, hselfgcal, hsysocal, hsysgcal, -⟩ := classify_eq hC
  obtain ⟨hi, c, hc, hcal⟩ : encode s.cfg.codes i = .wire [b] ∧
      ∃ c, classify s.cfg.codes b = some c ∧ ∀ x, normalCommand c x = .go (calibrate x) := by
    simp only [List.mem_cons, List.not_mem_nil, or_false, Prod.mk.injEq] at hib
    obtain ⟨rfl, rfl⟩ | ⟨rfl, rfl⟩ | ⟨rfl, rfl⟩ | ⟨rfl, rfl⟩ | ⟨rfl, rfl⟩ := hib
    · exact ⟨rfl, _, hselfcal, fun _ => rfl⟩
    · exact ⟨rfl, _, hselfocal, fun _ => rfl⟩
    · exact ⟨rfl, _, hselfgcal, fun _ => rfl⟩
    · exact ⟨rfl, _, hsysocal, fun _ => rfl⟩
    · exact ⟨rfl, _, hsysgcal, fun _ => rfl⟩
  have hedges := absorb_passed s
  have hx := (commandExchange_normal (hedges.mode.trans h.normal) (hedges.cfg ▸ hc)).trans (hcal _)
  obtain ⟨t, hexec, hpassed, hdraws, htrace⟩ :=
    exec_command h.atCommand hi (calibrated_edgeFree ((absorb s.inputs s).draws + 2)) hx rfl
  have hdraws : t.draws = (absorb s.inputs s).draws + 2 := hdraws
  rw [← hdraws] at hpassed
  refine ⟨t.rx, t, hexec, ?_, ?_, htrace, fun a ha => ?_, fun a ha => ⟨?_, ?_⟩⟩
  · rw [hpassed.mem]
    exact hpassed
  · rw [hdraws, absorb_draws]
    omega
  · rw [hpassed.peerRegister, peerRegister_calibrated_below _ _ ha]
  · rw [hpassed.mem, storeRead_calibrated _ _ ha]
  · rw [hpassed.peerRegister, peerRegister_calibrated _ _ ha]

/-- The chip after a reset of epoch `n`, with the ready line and the conversion value it leaves (R227, 10_state.md R56). -/
def chipReset (n : Nat) (line : Bool) (conv : BitVec 24) (s : State) : State :=
  { s with
    drdyN := line
    adc := { s.adc with mem := [], epoch := n, calEpoch := n, pst := .cmd, mode := .normal, conv := conv } }

theorem chipReset_edgeFree (n : Nat) (line : Bool) (conv : BitVec 24) : EdgeFree (chipReset n line conv) :=
  ⟨fun _ _ => rfl, fun _ _ => rfl, fun _ => rfl, fun _ => rfl⟩

/-- Settles O53: the opcode is taken in every mode. -/
theorem resetCommandResetsTheChip : Obligations.ResetCommandResetsTheChip := by
  intro s hC hadcN hdacN hrst hcmd
  obtain ⟨-, -, -, -, -, -, -, -, -, -, -, hreset, -⟩ := classify_eq hC
  have hx : commandExchange s.cfg.codes.reset (absorb s.inputs s) = _ :=
    commandExchange_reset (by rwa [absorb_cfg])
  obtain ⟨t, hexec, hpassed, hdraws, htrace⟩ := exec_command (i := .reset) ⟨hadcN, hdacN, hrst, hcmd⟩ rfl
    (chipReset_edgeFree ((absorb s.inputs s).draws + 2) (Config.resetDrdyN ((absorb s.inputs s).draws + 1))
      (Config.resetConv ((absorb s.inputs s).draws + 1))) hx rfl
  have hdraws : t.draws = (absorb s.inputs s).draws + 2 := hdraws
  rw [← hdraws] at hpassed
  refine ⟨t.rx, _, _, t, hexec, hpassed, ?_, htrace⟩
  rw [hdraws, absorb_draws]
  omega

end

end Sys2Proof.Machine

/-! RDATA on the wire (44_wire_commands.md R211; 40_register_access.md R147; 30_encoding.md R94): the opcode, the delay and
the three bytes of the sample. -/

namespace Sys2Proof.Machine

section
variable {s y : State} {v : BitVec 24}

/-- The opcode copies a conversion value there is by then (R49, R211). -/
theorem sends_rdata (h : AdcAt .cmd s) (hC : s.cfg.codes.wf = true) :
    ∃ v t, ConvOf s v ∧ Sends s.cfg.codes.rdata s (sampleStage v (.smp 3) s) t := by
  obtain ⟨hrdata, -⟩ := classify_eq hC
  exact ⟨_, _, absorb_convOf s.inputs s, sends_of_exchange (sampleStage_edgeFree (absorb s.inputs s).adc.conv (.smp 3))
    (exchange_command h hrdata) (by rw [← absorb_trace s.inputs s]; rfl)⟩

/-- The chip's place after the sample byte `j` (R147). -/
def samplePst (j : Nat) : Pst := if j > 1 then .smp (j - 1) else .cmd

/-- A sample byte comes back for FILLER and is kept in its latch. -/
theorem recv_sample {j : Nat} (h : AdcAt (.smp j) s) (hv : s.adc.shift = v) (dst : Latch) :
    ∃ t, act (.recv dst) s = .go t ∧
      Passed (latch dst (sampleByte v j) (registerStage false (samplePst j) s)) t ∧ t.rx = sampleByte v j ∧
      t.trace = s.trace ++ [.xfer s.cfg.codes.filler (sampleByte v j)] := by
  subst hv
  have hedges := absorb_passed s
  have hat := h.passed hedges
  have ⟨_, _, hrst, hsmp, hmode⟩ := hat
  have hx : exchange s.cfg.codes.filler (absorb s.inputs s) = .go (sampleExchange j (absorb s.inputs s)) := by
    rw [hat.exchange, adcExchange_sample hrst hsmp hmode]
  have hsent := sends_of_exchange (registerStage_edgeFree false (samplePst j)) hx
    (by rw [← absorb_trace s.inputs s]; rfl)
  have hrx : (sampleExchange j (absorb s.inputs s)).rx = sampleByte s.adc.shift j := by
    rw [sampleExchange_rx, hedges.shift]
  refine ⟨_, by rw [act_recv, hsent.run, andThen_go], ?_, by simp [hedges.shift], by simp [hedges.shift]⟩
  rw [keepByte_eq_latch, ← hrx]
  exact hsent.passed.map (latch_edgeFree dst _)

/-- The next sample byte, after edges and bytes with the effect `y`. -/
theorem Passed.recv_sample {j : Nat} (h : Passed y s) (hat : AdcAt (.smp j) y) (hv : y.adc.shift = v) (dst : Latch) :
    ∃ t, act (.recv dst) s = .go t ∧
      Passed (latch dst (sampleByte v j) (registerStage false (samplePst j) y)) t ∧ t.rx = sampleByte v j ∧
      t.trace = s.trace ++ [.xfer y.cfg.codes.filler (sampleByte v j)] := by
  obtain ⟨t, hrun, hpassed, hrx, htrace⟩ := Machine.recv_sample (hat.passed h) (h.shift.trans hv) dst
  rw [h.cfg] at htrace
  exact ⟨t, hrun, h.then ((latch_edgeFree dst _).comp (registerStage_edgeFree false _)) hpassed, hrx, htrace⟩

/-- Settles O54: the copy comes back byte by byte, and the chip is at the start of a command again. -/
theorem rdataReturnsTheConversion : Obligations.RdataReturnsTheConversion := by
  intro s h hC
  obtain ⟨v, t₁, hconv, hsent⟩ := sends_rdata h hC
  have hat : ∀ p, AdcAt p (sampleStage v p s) := fun p => AdcAt.sampleStage (p := .cmd) h v
  have h₂ : Passed (sampleStage v (.smp 3) s) (delay .tDATA (absorb t₁.inputs t₁)) :=
    hsent.passed.trans ((absorb_passed t₁).logged _)
  obtain ⟨t₃, hrun₃, h₃, -, htrace₃⟩ := h₂.recv_sample (hat _) rfl .b2
  have h₃ : Passed (latch .b2 (sampleByte v 3) (sampleStage v (.smp 2) s)) t₃ := h₃
  obtain ⟨t₄, hrun₄, h₄, -, htrace₄⟩ := h₃.recv_sample ((hat _).latch _ _) rfl .b1
  have h₄ : Passed (latch .b1 (sampleByte v 2) (latch .b2 (sampleByte v 3) (sampleStage v (.smp 1) s))) t₄ := h₄
  obtain ⟨t₅, hrun₅, h₅, hrx, htrace₅⟩ := h₄.recv_sample (((hat _).latch _ _).latch _ _) rfl .b0
  refine ⟨t₁.rx, v, t₅, ?_, hconv, ?_, hrx, ?_⟩
  · show execRdata s = _
    simp only [execRdata, hsent.run, act_delay, andThen_go, hrun₃, hrun₄, hrun₅, toOutcome_go]
  · have hplace : sampleStage v .cmd s = { s with adc := { s.adc with shift := v } } := by
      rw [sampleStage, ← AdcAt.pst_eq h]
    have hall : Passed (withLatches (sampleByte v 3) (sampleByte v 2) (sampleByte v 1) (sampleStage v .cmd s)) t₅ := h₅
    rw [hplace] at hall
    exact hall
  · simp only [htrace₅, htrace₄, htrace₃, hsent.trace, delay, logAction, absorb_trace, List.append_assoc]
    rfl

end

end Sys2Proof.Machine

/-! Traffic that the rules give no meaning in the peer's mode, and which the model refuses (30_encoding.md R115, R119;
44_wire_commands.md R212, R226; 46_output_rate_conversion.md R251). -/

namespace Sys2Proof

variable {C : WireCodes} {i : Instr} {b : Byte} {c : WireCmd} {rest bytes : List Byte}

/-! ### The first byte of a wire command -/

/-- What the first byte of a wire command is to the chip (R141). -/
def commandOf : Instr → Option WireCmd
  | .wakeup => some .wakeup
  | .rdata => some .rdata
  | .rdatac => some .rdatac
  | .sdatac => some .sdatac
  | .rreg r _ => some (.rreg r)
  | .wreg r _ _ => some (.wreg r)
  | .selfcal => some .selfcal
  | .selfocal => some .selfocal
  | .selfgcal => some .selfgcal
  | .sysocal => some .sysocal
  | .sysgcal => some .sysgcal
  | .sync => some .sync
  | .standby => some .standby
  | .reset => some .reset
  | .wakeup2 => some .wakeup2
  | _ => none

/-- The first byte is read as the command's, or, where the two wake opcodes share one byte, as the other one's (R12). -/
theorem classify_encode_head (hC : C.wf = true) (h : encode C i = .wire (b :: rest)) :
    classify C b = commandOf i ∨ i = .wakeup2 ∧ classify C b = some .wakeup := by
  obtain ⟨hrdata, hwakeup, hrdatac, hsdatac, hselfcal, hselfocal, hselfgcal, hsysocal, hsysgcal, hsync, hstandby, hreset,
    -⟩ := classify_eq hC
  cases i
  case wakeup2 =>
    cases h
    exact (classify_wakeup2_cases hC).imp id fun hc => ⟨rfl, hc⟩
  case rreg r n =>
    cases h
    exact .inl (classify_rreg C hC r)
  case wreg r n data =>
    cases h
    exact .inl (classify_wreg C hC r)
  case wakeup | rdata | rdatac | sdatac | selfcal | selfocal | selfgcal | sysocal | sysgcal | sync | standby | reset =>
    cases h
    left
    assumption
  all_goals cases h

/-- The commands some mode but NORMAL answers to are of one instruction each. -/
theorem commandOf_leaving (i : Instr) :
    (commandOf i = some .sdatac → i = .sdatac) ∧ (commandOf i = some .reset → i = .reset) ∧
      (commandOf i = some .wakeup → i = .wakeup) ∧ (commandOf i = some .wakeup2 → i = .wakeup2) := by
  cases i <;> simp [commandOf]

theorem classify_encode_head_ne (hC : C.wf = true) (hwire : encode C i = .wire (b :: rest))
    (hc : commandOf i ≠ some c) (hshared : c ≠ .wakeup ∨ i ≠ .wakeup2) : classify C b ≠ some c := by
  rcases classify_encode_head hC hwire with hb | ⟨hi, hb⟩
  · rwa [hb]
  · rw [hb]
    rintro ⟨rfl⟩
    exact hshared.elim (absurd rfl) (absurd hi)

/-- A byte read as a command of one byte is that command's opcode (R141). -/
theorem mem_oneByteCmds_of_classify (h : classify C b = some c) (hrreg : ∀ r, c ≠ .rreg r)
    (hwreg : ∀ r, c ≠ .wreg r) : (b, c) ∈ oneByteCmds C := by
  unfold classify at h
  split at h
  · exact absurd (Option.some.inj h).symm (hrreg _)
  split at h
  · exact absurd (Option.some.inj h).symm (hwreg _)
  · obtain ⟨⟨b', c'⟩, hfind, rfl⟩ := Option.map_eq_some_iff.1 h
    obtain rfl : b' = b := by simpa using List.find?_some hfind
    exact List.mem_of_find?_eq_some hfind

theorem classify_ne (hb : (b, c) ∉ oneByteCmds C) (hrreg : ∀ r, c ≠ .rreg r) (hwreg : ∀ r, c ≠ .wreg r) :
    classify C b ≠ some c := fun hc => hb (mem_oneByteCmds_of_classify hc hrreg hwreg)

end Sys2Proof

namespace Sys2Proof.Machine

section
variable {s : State} {i : Instr} {b : Byte} {rest bytes : List Byte} {r : Refusal} {rw : Rw} {a n : BitVec 4}

theorem xfer_refused (h : exchange b s = .refuse r) : xfer b s = .refuse r := by
  rw [xfer, h, andThen_refuse]

/-! ### A whole command -/

/-- A wire command sends its first byte first. -/
theorem frameActs_head {C : WireCodes} (h : encode C i = .wire bytes) :
    ∃ b rest acts, bytes = b :: rest ∧ frameActs C i = .send b :: acts := by
  cases i
  case wakeup | rdata | rdatac | sdatac | rreg | wreg | selfcal | selfocal | selfgcal | sysocal | sysgcal | sync |
      standby | reset | wakeup2 =>
    cases h
    exact ⟨_, _, _, rfl, rfl⟩
  all_goals cases h

/-- A wire command whose first byte is refused is refused. -/
theorem exec_refused (hwire : encode s.cfg.codes i = .wire (b :: rest))
    (h : xfer b (absorb s.inputs s) = .refuse r) : exec i s = .refused r := by
  obtain ⟨hhost, htick⟩ := encode_wire_notHost hwire
  obtain ⟨_, _, acts, ⟨rfl, rfl⟩, hacts⟩ := frameActs_head hwire
  rw [exec_eq_actAll hhost htick, hacts, actAll, act_eq (m := .send b) nofun, perform, h]
  rfl

/-! ### The other modes (R212, R226, R227) -/

theorem AtCommand.refused_cont (h : AtCommand s) (hmode : s.adc.mode = .cont)
    (hsdatac : classify s.cfg.codes b ≠ some .sdatac) (hreset : classify s.cfg.codes b ≠ some .reset) :
    xfer b s = .refuse .peerInContinuousRead := by
  refine xfer_refused ((h.exchange b).trans ?_)
  simp only [commandExchange, hmode]

theorem AtCommand.refused_stby (h : AtCommand s) (hmode : s.adc.mode = .stby)
    (hwakeup : classify s.cfg.codes b ≠ some .wakeup) (hwakeup2 : classify s.cfg.codes b ≠ some .wakeup2)
    (hreset : classify s.cfg.codes b ≠ some .reset) : xfer b s = .refuse .peerInStandby := by
  refine xfer_refused ((h.exchange b).trans ?_)
  simp only [commandExchange, hmode]

theorem AtCommand.exec_refused_cont (h : AtCommand s) (hC : s.cfg.codes.wf = true) (hmode : s.adc.mode = .cont)
    (hwire : encode s.cfg.codes i = .wire bytes) (hsdatac : i ≠ .sdatac) (hreset : i ≠ .reset) :
    exec i s = .refused .peerInContinuousRead := by
  obtain ⟨b, rest, -, rfl, -⟩ := frameActs_head hwire
  obtain ⟨isdatac, ireset, -⟩ := commandOf_leaving i
  have hedges := absorb_passed s
  have hne := fun c => classify_encode_head_ne (c := c) hC hwire
  rw [← hedges.cfg] at hne
  exact exec_refused hwire ((h.passed hedges).refused_cont (hedges.mode.trans hmode)
    (hne _ (mt isdatac hsdatac) (.inl nofun)) (hne _ (mt ireset hreset) (.inl nofun)))

theorem AtCommand.exec_refused_stby (h : AtCommand s) (hC : s.cfg.codes.wf = true) (hmode : s.adc.mode = .stby)
    (hwire : encode s.cfg.codes i = .wire bytes) (hwakeup : i ≠ .wakeup) (hwakeup2 : i ≠ .wakeup2)
    (hreset : i ≠ .reset) : exec i s = .refused .peerInStandby := by
  obtain ⟨b, rest, -, rfl, -⟩ := frameActs_head hwire
  obtain ⟨-, ireset, iwakeup, iwakeup2⟩ := commandOf_leaving i
  have hedges := absorb_passed s
  have hne := fun c => classify_encode_head_ne (c := c) hC hwire
  rw [← hedges.cfg] at hne
  exact exec_refused hwire ((h.passed hedges).refused_stby (hedges.mode.trans hmode)
    (hne _ (mt iwakeup hwakeup) (.inr hwakeup2)) (hne _ (mt iwakeup2 hwakeup2) (.inl nofun))
    (hne _ (mt ireset hreset) (.inl nofun)))

/-! ### The count byte (R119, R144) -/

theorem AdcAt.exchange_count (h : AdcAt (.cnt rw a) s) (b : Byte) :
    Machine.exchange b s = countExchange rw a b s := by
  obtain ⟨-, -, hrst, hcnt, hmode⟩ := id h
  rw [h.exchange, adcExchange_cnt hrst hcnt hmode]

theorem AdcAt.refused_reservedCount (h : AdcAt (.cnt rw a) s) (hhigh : hiNibble b ≠ 0#4) :
    xfer b s = .refuse .reservedCount :=
  xfer_refused ((h.exchange_count b).trans (if_pos hhigh))

theorem AdcAt.refused_burstPastEnd (h : AdcAt (.cnt rw a) s) (hhigh : hiNibble b = 0#4)
    (hburst : burstInMap a (loNibble b) = false) : xfer b s = .refuse .burstPastEnd := by
  refine xfer_refused ((h.exchange_count b).trans ?_)
  rw [countExchange, if_neg (not_not.2 hhigh), if_pos (by simp [hburst])]

/-- A burst of more than one register that ends past 0x0A (R119; log 10). -/
theorem burstInMap_false (hn : n ≠ 0#4) (hpast : 0x0A < a.toNat + n.toNat) : burstInMap a n = false := by
  simp [burstInMap, hn, hpast]

/-- A register command is refused at its count byte if the burst passes the map. -/
theorem sendAll_burstPastEnd (h : AdcAt .cmd s) (hC : s.cfg.codes.wf = true) (read : Bool)
    (hburst : burstInMap a n = false) (data : List Byte) :
    sendAll (registerCommand s.cfg.codes read a :: countByte n :: data) s = .refuse .burstPastEnd := by
  obtain ⟨rw, t, -, hsent⟩ := send_registerCommand h hC read a
  have hat := ((h.registerStage _ _).passed hsent.passed).passed (absorb_passed t)
  rw [hsent.sendAll_cons, sendAll_cons,
    hat.refused_burstPastEnd (hiNibble_countByte n) (by rwa [loNibble_countByte]), andThen_refuse]

/-- Settles O59: the byte is refused where the chip stands, and with it the command that begins with it. -/
theorem unmeantTrafficRefused : Obligations.UnmeantTrafficRefused := by
  refine ⟨fun s hC hadcN hdacN hrst => ⟨fun hcmd hmode => ?_, fun hcmd hmode => ?_, fun hmode hcmd => ?_,
    fun hmode rw a b hcnt => ?_⟩, fun s b hadcN hdacN => ⟨fun hstart h0 h1 => ?_, fun hfull => ?_⟩⟩
  · have hat : AtCommand s := ⟨hadcN, hdacN, hrst, hcmd⟩
    refine ⟨fun b hsdatac hreset => hat.refused_cont hmode ?_ ?_, fun i bytes => hat.exec_refused_cont hC hmode⟩
    · exact classify_ne (by simpa [oneByteCmds] using hsdatac) nofun nofun
    · exact classify_ne (by simpa [oneByteCmds] using hreset) nofun nofun
  · have hat : AtCommand s := ⟨hadcN, hdacN, hrst, hcmd⟩
    refine ⟨fun b hwakeup hwakeup2 hreset => hat.refused_stby hmode ?_ ?_ ?_,
      fun i bytes => hat.exec_refused_stby hC hmode⟩
    · exact classify_ne (by simpa [oneByteCmds] using hwakeup) nofun nofun
    · exact classify_ne (by simpa [oneByteCmds] using hwakeup2) nofun nofun
    · exact classify_ne (by simpa [oneByteCmds] using hreset) nofun nofun
  · have hat : AtCommand s := ⟨hadcN, hdacN, hrst, hcmd⟩
    have hlisten : AdcAt .cmd s := ⟨hadcN, hdacN, hrst, hcmd, hmode⟩
    refine ⟨fun b hc => xfer_refused ((hat.exchange b).trans (commandExchange_reserved hmode hc)),
      fun r n hn hpast => ⟨?_, fun data => ?_⟩⟩
    · exact congrArg toOutcome (sendAll_burstPastEnd hlisten hC true (burstInMap_false hn hpast) _)
    · exact congrArg toOutcome (sendAll_burstPastEnd hlisten hC false (burstInMap_false hn hpast) data)
  · have hat : AdcAt (.cnt rw a) s := ⟨hadcN, hdacN, hrst, hcnt, hmode⟩
    exact ⟨hat.refused_reservedCount, fun hhigh hlow hpast =>
      hat.refused_burstPastEnd hhigh (burstInMap_false hlow hpast)⟩
  · refine xfer_refused ((exchange_dac hadcN hdacN b).trans ?_)
    simp [dacExchange, hstart, dacCommand, h0, h1]
  · refine xfer_refused ((exchange_dac hadcN hdacN b).trans ?_)
    simp only [dacExchange, hfull]

end

end Sys2Proof.Machine

/-! A list of actions as its effect on the state, a reset of the chip among them (45_init_sequencer.md R240, R242;
10_state.md R49, R56): unlike `Ran` it says nothing of the ready line and the conversion value, which a reset draws. -/

namespace Sys2Proof.Machine

section
variable {s t u y : State} {f g : State → State} {op : Op} {m : Micro} {a : Action} {p : Pst} {acts : List Micro}
  {l : List Action}

/-! ### One action -/

/-- The action goes on with the effect `f` and stands in the trace as `a`. -/
structure Does (m : Micro) (a : Action) (f : State → State) (s t : State) : Prop where
  run : act m s = .go t
  edgeFree : EdgeFree f
  passed : Passed (f s) t
  trace : TraceGrew s t [a]

theorem Performs.does (h : Performs m a f s t) : Does m a f s t := ⟨h.run, h.edgeFree, h.passed, h.trace⟩

theorem Sends.does {b : Byte} (h : Sends b s (f s) t) (hf : EdgeFree f) : Does (.send b) (.xfer b 0#8) f s t :=
  ⟨h.run, hf, h.passed, .of_eq h.trace rfl⟩

/-! ### A list of actions -/

/-- The first actions `acts` of an operation went from `s` on to `t`, with the effect `y` and the trace entries `l`. -/
structure Acted (op : Op) (acts : List Micro) (l : List Action) (s y t : State) : Prop where
  run : ∀ rest, runItems op (number 0 0 (acts ++ rest)) s = runItems op (number 0 acts.length rest) t
  passed : ∃ n, Passed (atPlace op 0 n y) t
  trace : TraceGrew s t l

theorem Acted.start (hpc : s.pc = ⟨op, 0, 0⟩) : Acted op [] [] s s s where
  run _ := rfl
  passed := ⟨0, by rw [atPlace, ← hpc]; exact .refl s⟩
  trace := ⟨[], by simp, rfl⟩

/-- One more action. -/
theorem Acted.then (h : Acted op acts l s y t) (hm : Does m a g (atPlace op 0 acts.length t) u) (hg : PlaceFree g) :
    Acted op (acts ++ [m]) (l ++ [a]) s (g y) u where
  run rest := by
    rw [List.append_assoc, h.run, List.length_append]
    exact runItems_number_cons rest hm.run
  passed := by
    obtain ⟨n, hpassed⟩ := h.passed
    refine ⟨acts.length, hg op 0 acts.length y ▸ ?_⟩
    exact hpassed.then (hm.edgeFree.comp (atPlace_edgeFree op 0 acts.length)) hm.passed
  trace := h.trace.trans hm.trace

theorem Acted.goes (h : Acted op acts l s y t) : runItems op (number 0 0 acts) s = .go t := by
  have hrun := h.run []
  rwa [List.append_nil] at hrun

/-- What holds of the effect and no edge changes holds after the actions. -/
theorem Acted.kept {α : Type} {f : State → α} (h : Acted op acts l s y t) (hf : ∀ u t, f (amid u t) = f u)
    (hpc : ∀ n, f (atPlace op 0 n y) = f y) : f t = f y := by
  obtain ⟨n, hpassed⟩ := h.passed
  rw [hpassed.kept hf, hpc]

theorem Acted.cfg (h : Acted op acts l s y t) : t.cfg = y.cfg := h.kept (fun _ _ => rfl) fun _ => rfl

theorem Acted.mem (h : Acted op acts l s y t) : t.adc.mem = y.adc.mem :=
  h.kept (f := fun x => x.adc.mem) (fun _ _ => rfl) fun _ => rfl

theorem Acted.done (h : Acted op acts l s y t) : t.done = y.done := h.kept (fun _ _ => rfl) fun _ => rfl

theorem Acted.runFaulted (h : Acted op acts l s y t) : t.runFaulted = y.runFaulted :=
  h.kept (fun _ _ => rfl) fun _ => rfl

theorem Acted.peerRegister (h : Acted op acts l s y t) (a : Nat) : peerRegister t.adc a = peerRegister y.adc a :=
  h.kept (f := fun x => Machine.peerRegister x.adc a) (fun _ _ => rfl) fun _ => rfl

theorem Acted.adcAt (h : Acted op acts l s y t) (hat : AdcAt p y) (n : Nat) : AdcAt p (atPlace op 0 n t) := by
  obtain ⟨m, hpassed⟩ := h.passed
  exact AdcAt.passed (s := atPlace op 0 m y) (t := t) hat hpassed

theorem Acted.delay (h : Acted op acts l s y t) (d : DelayName) :
    ∃ u, Acted op (acts ++ [.delay d]) (l ++ [.delay d]) s y u :=
  (performs_delay d _).imp fun _ hm => h.then hm.does fun _ _ _ _ => rfl

theorem Acted.select (h : Acted op acts l s y t) :
    ∃ u, Acted op (acts ++ [.select .adc]) (l ++ [.cs .adc false]) s (openFrame y) u ∧ (StaysReady t → StaysReady u) :=
  (performs_select _).imp fun _ hm => ⟨h.then hm.does fun _ _ _ _ => rfl, hm.edges.ready⟩

/-- The select rises and nothing is written with it. -/
theorem does_release (s : State) : ∃ t, Does (.release .adc .nothing) (.cs .adc true) closeFrame s t :=
  ⟨_, act_release_nothing .adc s, closeFrame_edgeFree, release_passed s, .of_eq (by simp) rfl⟩

theorem Acted.release (h : Acted op acts l s y t) :
    ∃ u, Acted op (acts ++ [.release .adc .nothing]) (l ++ [.cs .adc true]) s (closeFrame y) u :=
  (does_release _).imp fun _ hm => h.then hm fun _ _ _ _ => rfl

end

end Sys2Proof.Machine

/-! The pulse on the reset line (45_init_sequencer.md R240 to R242): the chip is reset, and the first edge after it
decides the ready line. -/

namespace Sys2Proof.Machine

section
variable {s t : State} {f : State → State} {op : Op} {m : Micro} {a : Action} {P : Params} {n : Nat} {es : List Edge}

/-! ### The ready line after the pulse -/

/-- The edges leave the line ready, and one comes after those of `n` actions. -/
def ReadyAfter (n : Nat) (es : List Edge) : Prop :=
  (∀ e ∈ es, e.drdyN = false) ∧ ∃ pre e post, es = pre ++ e :: post ∧ n ≤ actionsOf pre

theorem ReadyAfter.absorb (h : ReadyAfter (n + 1) es) (s : State) : ReadyAfter n (absorb es s).inputs := by
  obtain ⟨hlow, pre, e, post, rfl, hn⟩ := h
  refine ⟨fun x hx => hlow x ((absorb_inputs_suffix _ s).subset hx), ?_⟩
  clear hlow
  induction pre generalizing s with
  | nil => cases hn
  | cons x pre ih =>
    rw [actionsOf_cons] at hn
    rw [List.cons_append, Machine.absorb]
    cases hdone : x.actDone with
    | true =>
      rw [hdone, if_pos rfl] at hn
      exact ⟨pre, e, post, rfl, by omega⟩
    | false =>
      rw [hdone, if_neg nofun, Nat.zero_add] at hn
      exact ih (busyEdge x s) hn

/-- An edge that passes makes the line ready. -/
theorem ReadyAfter.staysReady (h : ReadyAfter n s.inputs) : StaysReady (Machine.absorb s.inputs s) := by
  obtain ⟨hlow, pre, e, post, hs, -⟩ := h
  refine ⟨?_, fun x hx => hlow x ((absorb_inputs_suffix _ s).subset hx)⟩
  cases hes : s.inputs with
  | nil => simp [hes] at hs
  | cons x es =>
    rw [hes] at hlow
    obtain ⟨hx, hlow⟩ := List.forall_mem_cons.1 hlow
    have hline : (busyEdge x s).drdyN = false := (busyEdge_drdyN x s).trans hx
    rw [Machine.absorb]
    split
    · exact hline
    · exact absorb_drdyN_low es _ hline hlow


/-! ### The actions of the pulse (R240 actions 0 to 6) -/

theorem absorb_hwOk (h : s.hwOk = true) (hes : ∀ e ∈ es, e.hwOk = true) : (absorb es s).hwOk = true := by
  induction es generalizing s with
  | nil => exact h
  | cons e es ih =>
    obtain ⟨he, hes⟩ := List.forall_mem_cons.1 hes
    have hup : (busyEdge e s).hwOk = true := (busyEdge_hwOk e s).trans he
    rw [absorb]
    split
    · exact hup
    · exact ih hup hes

/-- An action whose effect `f` comes after the edges, and which takes no other edge. -/
structure Starts (m : Micro) (a : Action) (f : State → State) (s t : State) : Prop extends Does m a f s t where
  inputs : t.inputs = (absorb s.inputs s).inputs
  line : t.drdyN = (f (absorb s.inputs s)).drdyN

theorem starts_of_effect (hf : EdgeFree f) (hrun : act m s = .go t)
    (ht : t = { f (absorb s.inputs s) with draws := t.draws, trace := s.trace ++ [a] }) : Starts m a f s t where
  run := hrun
  edgeFree := hf
  passed := by
    rw [ht]
    exact ((absorb_passed s).map hf).noise _ _ _
  trace := .of_eq (by rw [ht]) rfl
  inputs := by
    rw [ht]
    exact hf.inputs _
  line := by rw [ht]

theorem Starts.readyAfter (h : Starts m a f s t) (hs : ReadyAfter (n + 1) s.inputs) : ReadyAfter n t.inputs :=
  h.inputs ▸ hs.absorb s

theorem Starts.staysReady (h : Starts m a f s t) (hf : ∀ x, (f x).drdyN = x.drdyN)
    (hs : StaysReady (absorb s.inputs s)) : StaysReady t := by
  rwa [StaysReady, h.line, hf, h.inputs]

theorem starts_config (hP : s.cfg = P) (h : s.hwOk = true) (hes : ∀ e ∈ s.inputs, e.hwOk = true) :
    ∃ t, Starts .config (.config P.bus) (fun x => x) s t := by
  subst hP
  have hup := absorb_hwOk h hes
  refine ⟨logAction (.config s.cfg.bus) (absorb s.inputs s), starts_of_effect edgeFree_id ?_ ?_⟩
  · rw [act_eq (m := .config) nofun, perform, configure, if_pos hup, absorb_cfg]
  · rw [← absorb_trace s.inputs s]
    rfl

theorem starts_delay (d : DelayName) (s : State) : ∃ t, Starts (.delay d) (.delay d) (fun x => x) s t :=
  ⟨_, starts_of_effect edgeFree_id (act_delay d s) (by rw [← absorb_trace s.inputs s]; rfl)⟩

/-- The reset line at a level. -/
def withRst (level : Bool) (s : State) : State := { s with rstN := level }

theorem withRst_edgeFree (level : Bool) : EdgeFree (withRst level) :=
  ⟨fun _ _ => rfl, fun _ _ => rfl, fun _ => rfl, fun _ => rfl⟩

theorem starts_rst_high (s : State) : ∃ t, Starts (.rst true) (.rst true) (withRst true) s t :=
  ⟨setRst true (absorb s.inputs s),
    starts_of_effect (withRst_edgeFree true) rfl (by rw [← absorb_trace s.inputs s]; rfl)⟩

/-- The reset line falls, and with it the chip is reset (R242). -/
theorem starts_rst_low (s : State) :
    ∃ k line conv t, Starts (.rst false) (.rst false) (fun x => chipReset k line conv (withRst false x)) s t :=
  ⟨_, _, _, setRst false (absorb s.inputs s),
    starts_of_effect ((chipReset_edgeFree _ _ _).comp (withRst_edgeFree false)) rfl
      (by rw [← absorb_trace s.inputs s]; rfl)⟩

/-- The trace of the pulse. -/
def pulseTrace (P : Params) : List Action :=
  [.config P.bus, .rst true, .delay .tRST, .rst false, .delay .tRST, .rst true, .delay .tRST]

/-- With the transport up the pulse resets the chip, and the first edge after it decides the line. -/
theorem acted_pulse (hpc : s.pc = ⟨op, 0, 0⟩) (hhw : s.hwOk = true) (hes : ∀ e ∈ s.inputs, e.hwOk = true) :
    ∃ k line conv t, Acted op pulseActs (pulseTrace s.cfg) s (withRst true (chipReset k line conv s)) t ∧
      (ReadyAfterPulse s → StaysReady t) := by
  obtain ⟨t₁, hconfig⟩ := starts_config (s := atPlace op 0 0 s) (P := s.cfg) rfl hhw hes
  have h₁ := (Acted.start hpc).then hconfig.toDoes fun _ _ _ _ => rfl
  obtain ⟨t₂, hhigh⟩ := starts_rst_high (atPlace op 0 1 t₁)
  have h₂ := h₁.then hhigh.toDoes fun _ _ _ _ => rfl
  obtain ⟨t₃, hsettle⟩ := starts_delay .tRST (atPlace op 0 2 t₂)
  have h₃ := h₂.then hsettle.toDoes fun _ _ _ _ => rfl
  obtain ⟨k, line, conv, t₄, hlow⟩ := starts_rst_low (atPlace op 0 3 t₃)
  have h₄ := h₃.then hlow.toDoes fun _ _ _ _ => rfl
  obtain ⟨t₅, hheld⟩ := starts_delay .tRST (atPlace op 0 4 t₄)
  have h₅ := h₄.then hheld.toDoes fun _ _ _ _ => rfl
  obtain ⟨t₆, hrise⟩ := starts_rst_high (atPlace op 0 5 t₅)
  have h₆ := h₅.then hrise.toDoes fun _ _ _ _ => rfl
  obtain ⟨t₇, hlast⟩ := starts_delay .tRST (atPlace op 0 6 t₆)
  refine ⟨k, line, conv, t₇, h₆.then hlast.toDoes fun _ _ _ _ => rfl, fun hready => ?_⟩
  have hpulsed : ReadyAfter 0 t₄.inputs :=
    hlow.readyAfter (hsettle.readyAfter (hhigh.readyAfter (hconfig.readyAfter hready)))
  have hline₅ : StaysReady t₅ :=
    hheld.staysReady (fun _ => rfl) (ReadyAfter.staysReady (s := atPlace op 0 4 t₄) hpulsed)
  have hline₆ : StaysReady t₆ :=
    hrise.staysReady (fun _ => rfl) (absorb_staysReady (s := atPlace op 0 5 t₅) hline₅)
  exact hlast.staysReady (fun _ => rfl) (absorb_staysReady (s := atPlace op 0 6 t₆) hline₆)

end

end Sys2Proof.Machine

/-! The frames of the initialization (45_init_sequencer.md R243 to R246): the wait and the identity read, the two
commands, the burst of the default block. -/

namespace Sys2Proof.Machine

section
variable {s t u y : State} {op : Op} {m : Micro} {acts : List Micro} {l : List Action} {P : Params} {rw : Rw}

/-! ### The wait and the identity read (R243) -/

/-- An action that stops the operation after those that went on. -/
theorem Acted.halts (h : Acted op acts l s y t) (hm : act m (atPlace op 0 acts.length t) = .halt u)
    (rest : List Micro) : runItems op (number 0 0 (acts ++ m :: rest)) s = .halt u := by
  rw [h.run]
  show andThen (act m (atPlace op 0 acts.length t)) _ = _
  rw [hm, andThen_halt]

/-- The WAITRDY goes on, or the operation stops there, which it does not with the line ready. -/
theorem Acted.waitRdy (h : Acted op acts l s y t) :
    (∃ u, Acted op (acts ++ [.waitRdy]) (l ++ [.waitRdy]) s (clearPolls y) u ∧ (StaysReady t → StaysReady u)) ∨
      ∃ u, (∀ rest, runItems op (number 0 0 (acts ++ .waitRdy :: rest)) s = .halt u) ∧ u.done = y.done ∧
        ¬ StaysReady t := by
  rcases performs_waitRdy (atPlace op 0 acts.length t) with ⟨u, hm⟩ | ⟨u, hm, hdone, hnot⟩
  · exact .inl ⟨u, h.then hm.does fun _ _ _ _ => rfl, hm.edges.ready⟩
  · exact .inr ⟨u, h.halts hm, hdone.trans h.done, fun hready => hnot (.inl hready)⟩

/-- The command byte of a register read (R148). -/
theorem does_readCommand (h : AdcAt .cmd s) (hP : s.cfg = P) (hC : P.codes.wf = true) (r : BitVec 4) :
    ∃ rw t, rw ≠ .w ∧ (StaysReady s → rw = .r) ∧ Does (.send (commandByte P.codes.rreg r))
      (.xfer (commandByte P.codes.rreg r) 0#8) (registerStage rw.marks (.cnt rw r)) s t := by
  subst hP
  obtain ⟨rw, t, hbegins, hsent⟩ := send_registerCommand h hC true r
  exact ⟨rw, t, hbegins.ne_write, hbegins.of_staysReady, hsent.does (registerStage_edgeFree _ _)⟩

/-- The count byte of a register command (R144). -/
theorem does_count {r k : BitVec 4} (h : AdcAt (.cnt rw r) s) (hburst : burstInMap r k = true) :
    ∃ t, Does (.send (countByte k)) (.xfer (countByte k) 0#8) (registerStage false (.dat rw r (k.toNat + 1))) s t :=
  (send_count h hburst).imp fun _ hsent => hsent.does (registerStage_edgeFree _ _)

/-- The byte of the status register holds the chip's identity, unless the read was begun while not ready (R41). -/
theorem does_recvStatus (h : AdcAt (.dat rw 0x0#4 1) s) (hrw : rw ≠ .w) (hP : s.cfg = P) :
    ∃ t, Does (.recv .rx) (.xfer P.codes.filler 0#8) (registerStage false .cmd) s t ∧
      (rw = .r → hiNibble t.rx = P.peerId) := by
  subst hP
  obtain ⟨t, hsent, hvalue⟩ := send_readData hrw h s.cfg.codes.filler
  have hdoes : Does (.send s.cfg.codes.filler) _ (registerStage false .cmd) s t :=
    hsent.does (registerStage_edgeFree _ _)
  refine ⟨t, ⟨(act_recv_rx s).trans hdoes.run, hdoes.edgeFree, hdoes.passed, hdoes.trace⟩, fun hr => ?_⟩
  obtain ⟨free, hfree⟩ := hvalue hr (Nat.zero_le _)
  rw [hfree]
  exact hiNibble_readValue_status _ _ _

/-- R240 actions 8 to 12: the read of the status register, its frame still open. -/
def statusActs (P : Params) : List Micro :=
  [.select .adc, .send (commandByte P.codes.rreg 0x0#4), .send (countByte 0#4), .delay .tIB, .recv .rx]

def statusTrace (P : Params) : List Action :=
  [.cs .adc false, .xfer (commandByte P.codes.rreg 0x0#4) 0#8, .xfer (countByte 0#4) 0#8, .delay .tIB,
    .xfer P.codes.filler 0#8]

theorem Acted.readStatus (h : Acted op acts l s y t) (hat : AdcAt .cmd (openFrame y)) (hC : y.cfg.codes.wf = true) :
    ∃ (rw : Rw) (u : State), Acted op (acts ++ statusActs y.cfg) (l ++ statusTrace y.cfg) s
        (registerStage rw.marks .cmd (openFrame y)) u ∧
      (StaysReady t → rw = .r) ∧ (rw = .r → hiNibble u.rx = y.cfg.peerId) := by
  obtain ⟨t₁, h₁, hline⟩ := h.select
  obtain ⟨rw, t₂, hrw, hready, hcommand⟩ := does_readCommand (h₁.adcAt hat _) h₁.cfg hC 0x0#4
  have h₂ := h₁.then hcommand fun _ _ _ _ => rfl
  have hat₂ := hat.registerStage rw.marks
  obtain ⟨t₃, hcount⟩ := does_count (k := 0#4) (h₂.adcAt (hat₂ _) _) rfl
  obtain ⟨t₄, h₄⟩ := (h₂.then hcount fun _ _ _ _ => rfl).delay .tIB
  obtain ⟨t₅, hrecv, hvalue⟩ := does_recvStatus (h₄.adcAt (hat₂ _) _) hrw h₄.cfg
  have h₅ := h₄.then hrecv fun _ _ _ _ => rfl
  simp only [List.append_assoc, List.cons_append, List.nil_append] at h₅
  exact ⟨rw, t₅, h₅, fun hs => hready (hline hs), hvalue⟩

/-- RDATA and IDNIB take the byte of the identity read. -/
def identified (v : Byte) : State → State :=
  withRegs fun x => { x with rdata := written v, idnib := written (hiNibble v) }

theorem identified_edgeFree (v : Byte) : EdgeFree fun x => identified v (closeFrame x) :=
  (withRegs_edgeFree _).comp closeFrame_edgeFree

/-- The end of the identity read, before the comparison. -/
def afterIdentity (s : State) : State := storeIdentity (setCs .adc true (absorb s.inputs s))

theorem afterIdentity_passed (s : State) : Passed (identified s.rx (closeFrame s)) (afterIdentity s) := by
  have hstore : afterIdentity s = identified s.rx (setCs .adc true (absorb s.inputs s)) := by
    simp [afterIdentity, storeIdentity, identified, withRegs]
  rw [hstore]
  exact (release_passed s).map (withRegs_edgeFree _)

theorem afterIdentity_trace (s : State) : TraceGrew s (afterIdentity s) [.cs .adc true] :=
  .of_eq (by simp [afterIdentity]) rfl

/-- The comparison with `CHIP_ID` (R240 action 13). -/
theorem act_checkIdentity (s : State) :
    act (.release .adc .checkIdentity) s =
      if hiNibble s.rx = s.cfg.chipId then .go (afterIdentity s)
      else .halt (takeCondition .chipIdentityMismatch (afterIdentity s)) := by
  rw [act_eq (m := .release .adc .checkIdentity) nofun]
  simp [perform, applyPost, afterIdentity]

/-- On the right chip the operation goes on. -/
theorem Acted.identityMatches (h : Acted op acts l s y t) (hid : hiNibble t.rx = y.cfg.chipId) :
    ∃ u, Acted op (acts ++ [.release .adc .checkIdentity]) (l ++ [.cs .adc true]) s
      (identified t.rx (closeFrame y)) u := by
  have hrun := (act_checkIdentity (atPlace op 0 acts.length t)).trans
    (if_pos (show hiNibble t.rx = t.cfg.chipId from h.cfg ▸ hid))
  exact ⟨_, h.then ⟨hrun, identified_edgeFree _, afterIdentity_passed _, afterIdentity_trace _⟩ fun _ _ _ _ => rfl⟩

/-- On the wrong chip it stops there (R246). -/
theorem Acted.identityDiffers (h : Acted op acts l s y t) (hid : hiNibble t.rx ≠ y.cfg.chipId) :
    ∃ v, (∀ rest, runItems op (number 0 0 (acts ++ .release .adc .checkIdentity :: rest)) s =
        .halt (takeCondition .chipIdentityMismatch v)) ∧
      Passed (atPlace op 0 acts.length (identified t.rx (closeFrame y))) v ∧ TraceGrew s v (l ++ [.cs .adc true]) := by
  have hrun := (act_checkIdentity (atPlace op 0 acts.length t)).trans
    (if_neg (show hiNibble t.rx ≠ t.cfg.chipId from h.cfg ▸ hid))
  obtain ⟨n, hpassed⟩ := h.passed
  exact ⟨_, h.halts hrun, hpassed.then ((identified_edgeFree t.rx).comp (atPlace_edgeFree op 0 acts.length))
    (afterIdentity_passed (atPlace op 0 acts.length t)), h.trace.trans (afterIdentity_trace (atPlace op 0 _ t))⟩

/-! ### The two commands (R244) -/

theorem does_reset (h : AdcAt .cmd s) (hP : s.cfg = P) (hC : P.codes.wf = true) :
    ∃ k line conv t, Does (.send P.codes.reset) (.xfer P.codes.reset 0#8) (chipReset k line conv) s t := by
  subst hP
  obtain ⟨-, -, -, -, -, -, -, -, -, -, -, hreset, -⟩ := classify_eq hC
  have hsent := sends_of_exchange (chipReset_edgeFree ((absorb s.inputs s).draws + 2)
    (Config.resetDrdyN ((absorb s.inputs s).draws + 1)) (Config.resetConv ((absorb s.inputs s).draws + 1)))
    (exchange_command h hreset) (by rw [← absorb_trace s.inputs s]; rfl)
  exact ⟨_, _, _, _, hsent.does (chipReset_edgeFree _ _ _)⟩

theorem does_sdatac (h : AdcAt .cmd s) (hP : s.cfg = P) (hC : P.codes.wf = true) :
    ∃ t, Does (.send P.codes.sdatac) (.xfer P.codes.sdatac 0#8) (fun x => x) s t := by
  subst hP
  obtain ⟨-, -, -, hsdatac, -⟩ := classify_eq hC
  have hsent := sends_of_exchange edgeFree_id (exchange_command h hsdatac) (by rw [← absorb_trace s.inputs s]; rfl)
  exact ⟨_, hsent.does edgeFree_id⟩

/-- R240 actions 14 to 21. -/
def commandsActs (P : Params) : List Micro := commandActs P.codes.reset .tCMD ++ commandActs P.codes.sdatac .tCMD

def commandsTrace (P : Params) : List Action :=
  [.cs .adc false, .xfer P.codes.reset 0#8, .cs .adc true, .delay .tCMD,
    .cs .adc false, .xfer P.codes.sdatac 0#8, .cs .adc true, .delay .tCMD]

theorem Acted.commands (h : Acted op acts l s y t) (hat : AdcAt .cmd (openFrame y)) (hC : y.cfg.codes.wf = true) :
    ∃ k line conv u, Acted op (acts ++ commandsActs y.cfg) (l ++ commandsTrace y.cfg) s
      (closeFrame (chipReset k line conv y)) u := by
  obtain ⟨t₁, h₁, -⟩ := h.select
  obtain ⟨k, line, conv, t₂, hreset⟩ := does_reset (h₁.adcAt hat _) h₁.cfg hC
  obtain ⟨t₃, h₃⟩ := (h₁.then hreset fun _ _ _ _ => rfl).release
  obtain ⟨t₄, h₄⟩ := h₃.delay .tCMD
  obtain ⟨t₅, h₅, -⟩ := h₄.select
  have hat₅ : AdcAt .cmd (openFrame (closeFrame (chipReset k line conv (openFrame y)))) := by
    obtain ⟨-, hdacN, hrst, -, -⟩ := hat
    exact ⟨rfl, hdacN, hrst, rfl, rfl⟩
  obtain ⟨t₆, hsdatac⟩ := does_sdatac (h₅.adcAt hat₅ _) h₅.cfg hC
  obtain ⟨t₇, h₇⟩ := (h₅.then hsdatac fun _ _ _ _ => rfl).release
  obtain ⟨t₈, h₈⟩ := h₇.delay .tCMD
  simp only [List.append_assoc, List.cons_append, List.nil_append] at h₈
  exact ⟨k, line, conv, t₈, h₈⟩

/-! ### The default block (R245) -/

theorem storeRead_writeRegister_other {a x : Nat} (hx : x ≠ a) (p : AdcPeer) (v : Byte) :
    storeRead (writeRegister P p a v).mem x = storeRead p.mem x := by
  unfold writeRegister
  split
  · exact storeRead_write_other _ _ hx
  · rfl

/-- Data bytes of a burst, a delay after each. -/
def delayedActs (data : List (Byte × DelayName)) : List Micro := data.flatMap fun x => [.send x.1, .delay x.2]

def delayedTrace (data : List (Byte × DelayName)) : List Action :=
  data.flatMap fun x => [.xfer x.1 0#8, .delay x.2]

/-- The data bytes go into ascending registers; what lies past them is as listed before. -/
theorem Acted.dataBytes {data : List (Byte × DelayName)} {r : BitVec 4} (h : Acted op acts l s y t)
    (hat : AdcAt (dataPst .w r data.length) y) (hroom : r.toNat + data.length < 16) :
    ∃ u, Acted op (acts ++ delayedActs data) (l ++ delayedTrace data) s (withRegisters u.adc.mem .cmd y) u ∧
      WroteFrom y.cfg y.adc u.adc r.toNat (data.map Prod.fst) ∧
      ∀ x, r.toNat + data.length ≤ x → storeRead u.adc.mem x = storeRead y.adc.mem x := by
  induction data generalizing acts l y t r with
  | nil =>
    have hstage : withRegisters t.adc.mem .cmd y = y := by
      rw [h.mem, withRegisters, show Pst.cmd = y.adc.pst from hat.pst_eq.symm]
    refine ⟨t, ?_, (WroteFrom.nil _ _ _).congr (fun _ => rfl) h.peerRegister, fun x _ => by rw [h.mem]⟩
    rw [hstage]
    simpa [delayedActs, delayedTrace] using h
  | cons x data ih =>
    obtain ⟨b, d⟩ := x
    rw [List.length_cons] at hat hroom ⊢
    obtain ⟨t₁, hsent, hmem, hwrote⟩ := send_writeByte (h.adcAt hat acts.length) b
    have h₁ := h.then (hsent.does (withRegisters_edgeFree _ _)) (withRegisters_placeFree _ _)
    obtain ⟨t₂, h₂⟩ := h₁.delay d
    have haddr : (r + 1#4).toNat = r.toNat + 1 := addr_succ (by omega)
    obtain ⟨u, hu, hrest, hkept⟩ := ih h₂ (hat.withRegisters _ _) (by omega)
    rw [haddr] at hrest hkept
    refine ⟨u, ?_, WroteFrom.cons ?_ hrest, fun x hx => ?_⟩
    · rw [withRegisters_withRegisters] at hu
      simpa [delayedActs, delayedTrace] using hu
    · rw [show (atPlace op 0 acts.length t).cfg = y.cfg from h.cfg] at hwrote
      exact hwrote.congr (fun a => (h.peerRegister a).symm) fun a => (h₁.peerRegister a).symm
    · calc storeRead u.adc.mem x = storeRead t₁.adc.mem x := hkept x (by omega)
        _ = storeRead t.adc.mem x := by
          rw [hmem]
          exact storeRead_writeRegister_other (by omega) _ _
        _ = storeRead y.adc.mem x := by rw [h.mem]

/-- `INIT_BLOCK`, each byte with the delay after it (R245). -/
def blockBytes (P : Params) : List (Byte × DelayName) :=
  [(P.initBlock.status, .tCOMMIT 0), (P.initBlock.mux, .tCOMMIT 1), (P.initBlock.gf, .tCOMMIT 2),
    (P.initBlock.drate, .tCOMMIT 3), (P.initBlock.dio, .tCOMMIT 4)]

/-- The trace of the burst. -/
def blockTrace (P : Params) : List Action :=
  [.cs .adc false, .xfer (commandByte P.codes.wreg 0x0#4) 0#8, .delay .tIB, .xfer (countByte 4#4) 0#8, .delay .tIB] ++
    delayedTrace (blockBytes P) ++ [.cs .adc true]

/-- INITOK is set (R240 action 37). -/
def markBooted (s : State) : State := { s with initok := true }

theorem markBooted_edgeFree : EdgeFree markBooted := ⟨fun _ _ => rfl, fun _ _ => rfl, fun _ => rfl, fun _ => rfl⟩

theorem does_releaseBooted (s : State) :
    ∃ t, Does (.release .adc .booted) (.cs .adc true) (fun x => markBooted (closeFrame x)) s t :=
  ⟨markBooted (setCs .adc true (absorb s.inputs s)), rfl, markBooted_edgeFree.comp closeFrame_edgeFree,
    (release_passed s).map markBooted_edgeFree, .of_eq (by simp [markBooted]) rfl⟩

/-- The burst writes the first five registers and no other. -/
theorem Acted.block (h : Acted op acts l s y t) (hat : AdcAt .cmd (openFrame y)) (hC : y.cfg.codes.wf = true) :
    ∃ u, Acted op (acts ++ initBlockActs y.cfg) (l ++ blockTrace y.cfg) s
        (markBooted (closeFrame (withRegisters u.adc.mem .cmd y))) u ∧
      WroteFrom y.cfg y.adc u.adc 0 ((blockBytes y.cfg).map Prod.fst) ∧
      ∀ x, 5 ≤ x → storeRead u.adc.mem x = storeRead y.adc.mem x := by
  obtain ⟨t₁, h₁, -⟩ := h.select
  obtain ⟨t₂, hcommand⟩ := performs_writeCommand (h₁.adcAt hat _) h₁.cfg hC 0x0#4
  obtain ⟨t₃, h₃⟩ := (h₁.then hcommand.does (registerStage_placeFree _)).delay .tIB
  obtain ⟨t₄, hcount⟩ := does_count (k := 4#4) (h₃.adcAt (hat.registerStage _ _) _) rfl
  obtain ⟨t₅, h₅⟩ := (h₃.then hcount (registerStage_placeFree _)).delay .tIB
  rw [registerStage_registerStage] at h₅
  obtain ⟨t₆, h₆, hwrote, hkept⟩ := h₅.dataBytes (data := blockBytes y.cfg) (r := 0x0#4) (hat.registerStage _ _)
    (by simp [blockBytes])
  obtain ⟨u, hrelease⟩ := does_releaseBooted (atPlace op 0 _ t₆)
  have h₇ := h₆.then hrelease fun _ _ _ _ => rfl
  have hmem : u.adc.mem = t₆.adc.mem := h₇.mem
  refine ⟨u, ?_, hwrote.congr (fun _ => rfl) fun x => ?_, fun x hx => ?_⟩
  · rw [hmem]
    simp only [List.append_assoc, List.cons_append, List.nil_append] at h₇
    exact h₇
  · exact (h₇.peerRegister x).trans (h₆.peerRegister x).symm
  · rw [hmem]
    exact hkept x hx

end

end Sys2Proof.Machine

/-! INIT (45_init_sequencer.md R240 to R247): the wait times out or holds, the identity differs, or all
thirty-eight actions run. -/

namespace Sys2Proof.Machine

section
variable {s t u : State} {l : List Action}

/-- The chip after the pulse and the wait, with the identity read but for the end of its frame. -/
def identityStage (mark : Bool) (k : Nat) (line : Bool) (conv : BitVec 24) (s : State) : State :=
  registerStage mark .cmd (openFrame (clearPolls (withRst true (chipReset k line conv s))))

/-- The command byte for register 0 is the opcode (R97). -/
theorem commandByte_zero (b : Byte) : commandByte b 0x0#4 = b := BitVec.or_zero

/-- INIT as accepted. -/
def enterInit (s : State) : State := enterOp .init { s with initok := false }

/-- The trace up to there. -/
def identityTrace (P : Params) : List Action := pulseTrace P ++ [.waitRdy] ++ statusTrace P

/-- What an accepted INIT comes to first: it stops at its WAITRDY, not done, which it does not if the line is ready
after the pulse; or it has read the identity. -/
theorem enterInit_reads (hopen : NoFrameOpen s) (hC : s.cfg.codes.wf = true) (hhw : s.hwOk = true)
    (hes : ∀ e ∈ s.inputs, e.hwOk = true) :
    (∃ t, runItems .init (number 0 0 (initActs s.cfg)) (enterInit s) = .halt t ∧ t.done = false ∧
        ¬ ReadyAfterPulse s) ∨
      ∃ (rw : Rw) (k : Nat) (line : Bool) (conv : BitVec 24) (t : State),
        Acted .init (initStartActs ++ statusActs s.cfg) (identityTrace s.cfg) (enterInit s)
          (identityStage rw.marks k line conv (enterInit s)) t ∧
        (ReadyAfterPulse s → rw = .r) ∧ (rw = .r → hiNibble t.rx = s.cfg.peerId) := by
  obtain ⟨k, line, conv, t₁, hpulse, hready⟩ := acted_pulse (s := enterInit s) (op := .init) rfl hhw hes
  rcases hpulse.waitRdy with ⟨t₂, hwait, hstays⟩ | ⟨t₂, hrun, hdone, hnot⟩
  · obtain ⟨-, hdacN, -, -, -⟩ := hopen
    obtain ⟨rw, t₃, hread, hline, hvalue⟩ := hwait.readStatus ⟨rfl, hdacN, rfl, rfl, rfl⟩ hC
    exact .inr ⟨rw, k, line, conv, t₃, hread, fun h => hline (hstays (hready h)), hvalue⟩
  · exact .inl ⟨t₂, hrun _, hdone, fun h => hnot (hready h)⟩

theorem exec_init_goes (hidle : s.pc.op = .idle) (hsess : s.sess.sched = .idle ∨ s.sess.sched = .stopped)
    (hrun : runItems .init (number 0 0 (initActs s.cfg)) (enterInit s) = .go t) :
    exec .init s = .next (finishOp t) := by
  have hall : itemsFrom (enterInit s).pc (opItems s.cfg s.chanCount .init) = number 0 0 (initActs s.cfg) :=
    itemsFrom_zero rfl rfl fun _ => opItems_head
  have hop : continueOp (enterInit s) = .go (finishOp t) :=
    congrArg (andThen · finished) ((congrArg (runItems .init · _) hall).trans hrun)
  show execInit s = _
  rw [execInit, if_neg (by simp [busy, outsideSession, hidle, hsess])]
  exact congrArg toOutcome hop

/-- A mismatch of the identity. -/
theorem takeCondition_identity_eq (hpc : u.pc.op = .init) :
    takeCondition .chipIdentityMismatch u =
      { u with pc := ⟨.idle, 0, 0⟩, polls := 0, fault := 2#3, flags := { u.flags with eId := true } } := by
  simp [takeCondition, hpc, setFlag, conditionCode]

/-- The identity read, its frame closed, leaves the chip reset and the byte in the host's registers. -/
theorem identified_identityStage (h : AtPhase .closed s) (mark : Bool) (k : Nat) (line : Bool) (conv : BitVec 24)
    (v : Byte) :
    identified v (closeFrame (identityStage mark k line conv (enterInit s))) = { s with
      pc := ⟨.init, 0, 0⟩, polls := 0, done := false, initok := false, runFaulted := mark || s.runFaulted, drdyN := line
      regs := { s.regs with rdata := written v, idnib := written (hiNibble v) }
      adc := { s.adc with mem := [], epoch := k, calEpoch := k, mode := .normal, conv := conv } } := by
  obtain ⟨hadcN, -, hrst, hcmd, -⟩ := h
  simp [identified, withRegs, closeFrame, identityStage, registerStage, openFrame, clearPolls, withRst, chipReset,
    enterInit, enterOp, hadcN, hrst, hcmd]

/-- The rest of the actions leaves the chip reset once more, with registers of its own. -/
theorem markBooted_identityStage (h : AtPhase .closed s) (mark : Bool) (k k' : Nat) (line line' : Bool)
    (conv conv' : BitVec 24) (v : Byte) (mem : Memory) :
    markBooted (closeFrame (withRegisters mem .cmd (chipReset k' line' conv' (identified v
        (closeFrame (identityStage mark k line conv (enterInit s))))))) = { s with
      pc := ⟨.init, 0, 0⟩, polls := 0, done := false, initok := true, runFaulted := mark || s.runFaulted, drdyN := line'
      regs := { s.regs with rdata := written v, idnib := written (hiNibble v) }
      adc := { s.adc with mem := mem, epoch := k', calEpoch := k', mode := .normal, conv := conv' } } := by
  rw [identified_identityStage h]
  obtain ⟨hadcN, -, -, hcmd, -⟩ := h
  simp [markBooted, closeFrame, withRegisters, chipReset, hadcN, hcmd]

/-- With the identity as it should be INIT does the rest of its actions (R244, R245). -/
theorem Acted.configured {k : Nat} {line : Bool} {conv : BitVec 24} {mark : Bool}
    (h : Acted .init (initStartActs ++ statusActs s.cfg) l (enterInit s)
      (identityStage mark k line conv (enterInit s)) t)
    (hopen : NoFrameOpen s) (hC : s.cfg.codes.wf = true) (hid : hiNibble t.rx = s.cfg.chipId) :
    ∃ k' line' conv' u,
      Acted .init (initActs s.cfg) (l ++ [.cs .adc true] ++ commandsTrace s.cfg ++ blockTrace s.cfg) (enterInit s)
        { s with
          pc := ⟨.init, 0, 0⟩, polls := 0, done := false, initok := true, runFaulted := mark || s.runFaulted
          drdyN := line', regs := { s.regs with rdata := written t.rx, idnib := written (hiNibble t.rx) }
          adc := { s.adc with mem := u.adc.mem, epoch := k', calEpoch := k', mode := .normal, conv := conv' } } u ∧
      (∀ j b, ((blockBytes s.cfg).map Prod.fst)[j]? = some b → ∀ i, i < 8 →
        (writeMask s.cfg j).getLsbD i = true → (Machine.peerRegister u.adc j).getLsbD i = b.getLsbD i) ∧
      ∀ x, 5 ≤ x → storeRead u.adc.mem x = none := by
  obtain ⟨t₁, h₁⟩ := h.identityMatches hid
  have ⟨_, hdacN, _⟩ := hopen
  obtain ⟨k', line', conv', t₂, h₂⟩ := h₁.commands ⟨rfl, hdacN, rfl, rfl, rfl⟩ hC
  obtain ⟨u, h₃, ⟨htook, -⟩, hkept⟩ := h₂.block ⟨rfl, hdacN, rfl, rfl, rfl⟩ hC
  refine ⟨k', line', conv', u, ?_, fun j b hj i hi hmask => ?_, fun x hx => hkept x hx⟩
  · rw [← markBooted_identityStage hopen.closed mark k k' line line' conv conv']
    exact h₃
  · have hj5 : j < 5 := (List.getElem?_eq_some_iff.1 hj).1
    have hbit := htook j b hj (by omega) i hi
    rw [Nat.zero_add] at hbit
    exact hbit.trans (if_pos hmask)

/-- Outside a session there is nothing to cancel. -/
theorem KeptOrCancelled.outside (h : KeptOrCancelled s t) (hsess : s.sess.sched = .idle ∨ s.sess.sched = .stopped) :
    t.sess.sched = s.sess.sched ∧ t.sess.armed = s.sess.armed :=
  h.resolve_right fun ⟨hin, _⟩ => by
    rcases hsess with hs | hs <;> rcases hin with hs' | hs' <;> cases hs.symm.trans hs'

/-- Settles O45: the identity read with the line ready is the chip's own, and the comparison stops the operation. -/
theorem initOnTheWrongChipAborts : Obligations.InitOnTheWrongChipAborts := by
  intro s hidle hopen hC hsess hhw hes hready hid
  rcases enterInit_reads hopen hC hhw hes with ⟨-, -, -, hnot⟩ | ⟨rw, k, line, conv, t, hread, hrw, hvalue⟩
  · exact absurd hready hnot
  obtain rfl := hrw hready
  have hidentity := hvalue rfl
  obtain ⟨v, hrun, hpassed, htrace⟩ := hread.identityDiffers (hidentity ▸ hid)
  rw [identified_identityStage hopen.closed] at hpassed
  have hpc : v.pc.op = .init := hpassed.kept (g := fun x => x.pc.op) fun _ _ => rfl
  have hepoch : v.adc.epoch = k := hpassed.kept (g := fun x => x.adc.epoch) fun _ _ => rfl
  have hcalEpoch : v.adc.calEpoch = k := hpassed.kept (g := fun x => x.adc.calEpoch) fun _ _ => rfl
  obtain ⟨hsched, harmed⟩ : v.sess.sched = s.sess.sched ∧ v.sess.armed = s.sess.armed :=
    KeptOrCancelled.outside hpassed.2.1 hsess
  refine ⟨t.rx, takeCondition .chipIdentityMismatch v, ?_, ?_, hidentity, ?_⟩
  · exact exec_init_halts hidle hsess (hrun _)
  · rw [takeCondition_identity_eq hpc, ← hidentity, hepoch, hcalEpoch]
    have hv := hpassed.1
    rw [amid, hsched, harmed] at hv
    conv_lhs => rw [hv]
    rfl
  · rw [takeCondition_identity_eq hpc]
    simp only [identityTrace, statusTrace, commandByte_zero] at htrace
    exact htrace

/-- On the right chip INIT stops not done, which it does not if the line is ready after the pulse, or has read the
identity as it should be. -/
theorem exec_init_rightChip (hidle : s.pc.op = .idle) (hopen : NoFrameOpen s) (hC : s.cfg.codes.wf = true)
    (hsess : s.sess.sched = .idle ∨ s.sess.sched = .stopped) (hhw : s.hwOk = true) (hes : ∀ e ∈ s.inputs, e.hwOk = true)
    (hid : s.cfg.peerId = s.cfg.chipId) :
    (∃ t, exec .init s = .next t ∧ t.done = false ∧ ¬ ReadyAfterPulse s) ∨
      ∃ mark k line conv t,
        Acted .init (initStartActs ++ statusActs s.cfg) (identityTrace s.cfg) (enterInit s)
          (identityStage mark k line conv (enterInit s)) t ∧
        (ReadyAfterPulse s → mark = false) ∧ hiNibble t.rx = s.cfg.chipId := by
  rcases enterInit_reads hopen hC hhw hes with ⟨t, hrun, hstop⟩ | ⟨rw, k, line, conv, t, hread, hrw, hvalue⟩
  · exact .inl ⟨t, exec_init_halts hidle hsess hrun, hstop⟩
  by_cases hmatch : hiNibble t.rx = s.cfg.chipId
  · exact .inr ⟨rw.marks, k, line, conv, t, hread, fun h => by rw [hrw h]; rfl, hmatch⟩
  · obtain ⟨v, hrun, hpassed, -⟩ := hread.identityDiffers hmatch
    have hdone : v.done = false := hpassed.kept (g := State.done) fun _ _ => rfl
    exact .inl ⟨_, exec_init_halts hidle hsess (hrun _), (takeCondition_done v _).trans hdone,
      fun h => hmatch ((hvalue (hrw h)).trans hid)⟩

/-- Settles O43: a run that is not marked read the identity with the line ready. -/
theorem initBringsTheChipUp : Obligations.InitBringsTheChipUp := by
  intro s hidle hopen hC hsess hhw hes hid
  rcases exec_init_rightChip hidle hopen hC hsess hhw hes hid with
    ⟨t, hexec, hdone, hnot⟩ | ⟨mark, k, line, conv, t, hread, hready, hmatch⟩
  · refine ⟨0, s.adc, t, hexec, fun h => ?_⟩
    rcases h with hready | ⟨htrue, -⟩
    · exact absurd hready hnot
    · cases hdone.symm.trans htrue
  obtain ⟨k', line', conv', u, hacted, hblock, hcal⟩ := hread.configured hopen hC hmatch
  refine ⟨t.rx, { s.adc with mem := u.adc.mem, epoch := k', calEpoch := k', mode := .normal, conv := conv' },
    finishOp u, exec_init_goes hidle hsess hacted.goes, fun h =>
    ⟨?_, hmatch, rfl, fun a b hab i hi hmask => ?_, hcal, ?_⟩⟩
  · have hmarked : u.runFaulted = (mark || s.runFaulted) := hacted.runFaulted
    have hmark : mark = false := h.elim hready fun ⟨_, hclean⟩ =>
      (Bool.or_eq_false_iff.1 (hmarked.symm.trans hclean)).1
    obtain ⟨n, hpassed⟩ := hacted.passed
    have hfinished := hpassed.map finishOp_edgeFree
    rw [hmark] at hfinished
    rw [← hmatch]
    exact ⟨hfinished.1, hfinished.2.1⟩
  · rw [← hacted.peerRegister]
    refine hblock a b ?_ i hi hmask
    simp only [List.mem_cons, Prod.mk.injEq, List.not_mem_nil, or_false] at hab
    rcases hab with ⟨rfl, rfl⟩ | ⟨rfl, rfl⟩ | ⟨rfl, rfl⟩ | ⟨rfl, rfl⟩ | ⟨rfl, rfl⟩ <;> rfl
  · have htrace := hacted.trace
    simp only [identityTrace, statusTrace, blockTrace, commandByte_zero] at htrace
    exact htrace

end

end Sys2Proof.Machine

/-! The conversions of voltages and codes (46_output_rate_conversion.md R252 to R255): the rounding to
the nearest code, its exact inverse, and the scale of a signed sample. -/

namespace Sys2Proof.Machine

section
variable {s : State} {volt ref : Rat}

/-! ### The nearest code (R252) -/

/-- The floor after half a step, clamped to a code. -/
theorem voltsToCode_toNat (volt ref : Rat) :
    ((voltsToCode volt ref).toNat : Int) = max 0 (min 65535 ⌊65536 * volt / ref + 1 / 2⌋) := by
  change ((BitVec.ofInt 16 (max 0 (min 65535 ⌊65536 * volt / ref + 1 / 2⌋))).toNat : Int) = _
  rw [BitVec.toNat_ofInt]
  omega

/-- A code that is nearest the scaled voltage, halves up, is the one chosen. -/
theorem voltsToCode_eq_of_nearest {c : BitVec 16} (hlow : (c.toNat : Rat) - 1 / 2 ≤ 65536 * volt / ref)
    (hhigh : 65536 * volt / ref < (c.toNat : Rat) + 1 / 2) : voltsToCode volt ref = c := by
  have hfloor : ⌊65536 * volt / ref + 1 / 2⌋ = (c.toNat : Int) :=
    Int.floor_eq_iff.2 ⟨by push_cast; linarith, by push_cast; linarith⟩
  have hcode := voltsToCode_toNat volt ref
  have hlt := c.isLt
  rw [hfloor] at hcode
  exact BitVec.eq_of_toNat_eq (by omega)

theorem voltsToCode_below (h : 65536 * volt / ref < 1 / 2) : voltsToCode volt ref = 0#16 := by
  have hfloor : ⌊65536 * volt / ref + 1 / 2⌋ < 1 := Int.floor_lt.2 (by push_cast; linarith)
  have hcode := voltsToCode_toNat volt ref
  exact BitVec.eq_of_toNat_eq (by simp only [BitVec.toNat_ofNat]; omega)

theorem voltsToCode_above (h : 65535 - 1 / 2 ≤ 65536 * volt / ref) : voltsToCode volt ref = 65535#16 := by
  have hfloor : 65535 ≤ ⌊65536 * volt / ref + 1 / 2⌋ := Int.le_floor.2 (by push_cast; linarith)
  have hcode := voltsToCode_toNat volt ref
  exact BitVec.eq_of_toNat_eq (by simp only [BitVec.toNat_ofNat]; omega)

/-- In range the code chosen is nearest, an exact half rounded up. -/
theorem voltsToCode_nearest (hlow : 1 / 2 ≤ 65536 * volt / ref) (hhigh : 65536 * volt / ref < 65535 - 1 / 2) :
    ((voltsToCode volt ref).toNat : Rat) - 1 / 2 ≤ 65536 * volt / ref ∧
      65536 * volt / ref < ((voltsToCode volt ref).toNat : Rat) + 1 / 2 := by
  have hone : 1 ≤ ⌊65536 * volt / ref + 1 / 2⌋ := Int.le_floor.2 (by push_cast; linarith)
  have hmax : ⌊65536 * volt / ref + 1 / 2⌋ < 65535 := Int.floor_lt.2 (by push_cast; linarith)
  have hcode := voltsToCode_toNat volt ref
  have hfloor : ⌊65536 * volt / ref + 1 / 2⌋ = ((voltsToCode volt ref).toNat : Int) := by omega
  obtain ⟨hle, hlt⟩ := Int.floor_eq_iff.1 hfloor
  push_cast at hle hlt
  exact ⟨by linarith, by linarith⟩

/-- R253 is the exact inverse of R252. -/
theorem voltsToCode_codeToVolts (href : 0 < ref) (code : BitVec 16) :
    voltsToCode (codeToVolts code ref) ref = code := by
  have hexact : 65536 * codeToVolts code ref / ref = code.toNat := by
    rw [codeToVolts]
    field_simp
  exact voltsToCode_eq_of_nearest (by linarith) (by linarith)

/-! ### The operations -/

/-- Offered to an idle handler, a pure operation finishes or is not accepted by the proposition it asks for (R111). -/
theorem pureOp_decide (hidle : s.pc.op = .idle) (p : Prop) [Decidable p] (f : State → State) :
    pureOp (decide p) f s = if p then .next (finishOp (f s)) else .next s := by
  rw [pureOp_of_idle hidle]
  simp only [decide_eq_true_eq]

/-- V2CODE at an idle handler (R252). -/
theorem exec_v2code (hidle : s.pc.op = .idle) (volt ref : Rat) :
    exec (.v2code volt ref) s =
      if 0 < ref then .next (finishOp { s with regs := { s.regs with code16 := written (voltsToCode volt ref) } })
      else .next s := by
  unfold exec execV2code
  exact pureOp_decide hidle (0 < ref) _

/-- CODE2V at an idle handler (R253). -/
theorem exec_code2v (hidle : s.pc.op = .idle) (code : BitVec 16) (ref : Rat) :
    exec (.code2v code ref) s =
      if 0 < ref then .next (finishOp { s with regs := { s.regs with volts := written (codeToVolts code ref) } })
      else .next s := by
  unfold exec execCode2v
  exact pureOp_decide hidle (0 < ref) _

/-- RAW2V at an idle handler (R255). -/
theorem exec_raw2v (hidle : s.pc.op = .idle) (raw : Sample) (ref : Rat) :
    exec (.raw2v raw ref) s =
      if 0 < ref then .next (finishOp { s with regs := { s.regs with volts := written (rawToVolts raw ref) } })
      else .next s := by
  unfold exec execRaw2v
  exact pureOp_decide hidle (0 < ref) _

end

/-- Settles O27: the floor after half a step is 0 below, 65535 above and the nearest code in range. -/
theorem v2codeRoundsAndClamps : Obligations.V2codeRoundsAndClamps := by
  have hoffered : OfferedAs 0x0B#5 (fun h => .v2code h.volt h.ref) := fun h hop => by simp [decodeHost, hop]
  refine ⟨hoffered, fun volt ref => ⟨?_, fun s hidle => ⟨fun href => ?_, fun href => ?_⟩⟩⟩
  · exact notAcceptedWhileBusy_of_decodeHost (hoffered { HostPort.ofOp 0x0B#5 with volt, ref } rfl) nofun
  · exact ⟨voltsToCode volt ref, (exec_v2code hidle volt ref).trans (if_pos href), voltsToCode_below, voltsToCode_above,
      voltsToCode_nearest⟩
  · exact (exec_v2code hidle volt ref).trans (if_neg href.not_gt)

/-- Settles O28: the voltage scales back to the code exactly, and CODE2V leaves the handler idle for V2CODE. -/
theorem code2vInvertsV2code : Obligations.Code2vInvertsV2code := by
  have hoffered : OfferedAs 0x0C#5 (fun h => .code2v h.code h.ref) := fun h hop => by simp [decodeHost, hop]
  refine ⟨hoffered, fun code ref => ⟨?_, fun s hidle => ⟨fun href => ?_, fun href => ?_⟩⟩⟩
  · exact notAcceptedWhileBusy_of_decodeHost (hoffered { HostPort.ofOp 0x0C#5 with code, ref } rfl) nofun
  · refine ⟨codeToVolts code ref, _, _, (exec_code2v hidle code ref).trans (if_pos href), rfl,
      div_mul_cancel₀ _ (by norm_num), (exec_v2code rfl _ ref).trans (if_pos href), ?_⟩
    rw [voltsToCode_codeToVolts href]
    rfl
  · exact (exec_code2v hidle code ref).trans (if_neg href.not_gt)

/-- Settles O29: the quotient times its divisor. -/
theorem raw2vScalesTheSignedSample : Obligations.Raw2vScalesTheSignedSample := by
  have hoffered : OfferedAs 0x0D#5 (fun h => .raw2v h.raw h.ref) := fun h hop => by simp [decodeHost, hop]
  refine ⟨hoffered, fun raw ref => ⟨?_, fun s hidle => ⟨fun href => ?_, fun href => ?_⟩⟩⟩
  · exact notAcceptedWhileBusy_of_decodeHost (hoffered { HostPort.ofOp 0x0D#5 with raw, ref } rfl) nofun
  · exact ⟨rawToVolts raw ref, (exec_raw2v hidle raw ref).trans (if_pos href), div_mul_cancel₀ _ (by norm_num)⟩
  · exact (exec_raw2v hidle raw ref).trans (if_neg href.not_gt)

end Sys2Proof.Machine

/-! The rate selection (46_output_rate_conversion.md R260, R261): the first entry of an ascending table that reaches the
request is the least that does. -/

namespace Sys2Proof.Machine

section
variable {s : State} {P : Params} {rate : Rat} {e : Rat × Byte}

/-- The sixteen entries, the maximum last (R260). -/
def rateTable (P : Params) : List (Rat × Byte) := P.rates ++ [P.rateMax]

theorem ratesWf_ascending (h : P.ratesWf = true) : (rateTable P).Pairwise fun a b => a.1 < b.1 := by
  simp only [Params.ratesWf, Bool.and_eq_true, decide_eq_true_eq] at h
  obtain ⟨⟨⟨⟨⟨-, hpairs⟩, -⟩, -⟩, -⟩, -⟩ := h
  exact List.pairwise_map.1 hpairs

theorem rateEntry_of_unreached (h : ∀ e ∈ rateTable P, e.1 < rate) : rateEntry P rate = P.rateMax := by
  have hnone : (rateTable P).find? (fun row => decide (rate ≤ row.1)) = none :=
    List.find?_eq_none.2 fun e he => by simpa using h e he
  exact congrArg (Option.getD · P.rateMax) hnone

/-- Where some entry reaches the request, the one selected is the first that does. -/
theorem rateEntry_of_reached (h : ∃ e ∈ rateTable P, rate ≤ e.1) :
    ∃ below above, rateTable P = below ++ rateEntry P rate :: above ∧ rate ≤ (rateEntry P rate).1 ∧
      ∀ e ∈ below, e.1 < rate := by
  have hsome : ((rateTable P).find? fun row => decide (rate ≤ row.1)).isSome = true := by simpa using h
  obtain ⟨e, he⟩ := Option.isSome_iff_exists.1 hsome
  have hentry : rateEntry P rate = e := congrArg (Option.getD · P.rateMax) he
  obtain ⟨hreaches, below, above, hsplit, hbelow⟩ := List.find?_eq_some_iff_append.1 he
  rw [hentry]
  exact ⟨below, above, hsplit, by simpa using hreaches, by simpa using hbelow⟩

theorem rateEntry_mem (P : Params) (rate : Rat) : rateEntry P rate ∈ rateTable P := by
  by_cases h : ∃ e ∈ rateTable P, rate ≤ e.1
  · obtain ⟨below, above, hsplit, -⟩ := rateEntry_of_reached h
    rw [hsplit]
    exact List.mem_append_right _ List.mem_cons_self
  · rw [rateEntry_of_unreached fun e he => not_le.1 fun hreaches => h ⟨e, he, hreaches⟩]
    exact List.mem_append_right _ List.mem_cons_self

/-- The table ascends, so no entry that reaches the request is below the first. -/
theorem rateEntry_least (hwf : P.ratesWf = true) (he : e ∈ rateTable P) (hreaches : rate ≤ e.1) :
    rate ≤ (rateEntry P rate).1 ∧ (rateEntry P rate).1 ≤ e.1 := by
  obtain ⟨below, above, hsplit, hentry, hbelow⟩ := rateEntry_of_reached ⟨e, he, hreaches⟩
  refine ⟨hentry, ?_⟩
  have hascending := ratesWf_ascending hwf
  rw [hsplit] at he hascending
  obtain ⟨-, htail, -⟩ := List.pairwise_append.1 hascending
  rcases List.mem_append.1 he with hbefore | hfrom
  · exact absurd (hbelow e hbefore) hreaches.not_gt
  · rcases List.mem_cons.1 hfrom with rfl | hafter
    · exact le_rfl
    · exact (List.rel_of_pairwise_cons htail hafter).le

/-- RATESEL at an idle handler (R261). -/
theorem exec_ratesel (hidle : s.pc.op = .idle) (rate : Rat) :
    exec (.ratesel rate) s =
      .next (finishOp { s with
        regs := { s.regs with
          ratecode := written (rateEntry s.cfg rate).2, ratehz := written (rateEntry s.cfg rate).1 } }) := by
  unfold exec
  exact pureOp_idle hidle rfl

end

/-- Settles O30: the entry selected is the first of an ascending table that reaches the request, or the maximum. -/
theorem rateselChoosesTheCeiling : Obligations.RateselChoosesTheCeiling := by
  have hoffered : OfferedAs 0x0E#5 (fun h => .ratesel h.rate) := fun h hop => by simp [decodeHost, hop]
  refine ⟨hoffered, fun rate => ⟨?_, fun s hidle hwf => ?_⟩⟩
  · exact notAcceptedWhileBusy_of_decodeHost (hoffered { HostPort.ofOp 0x0E#5 with rate } rfl) nofun
  refine ⟨_, _, exec_ratesel hidle rate, rateEntry_mem s.cfg rate, ?_, rateEntry_of_unreached⟩
  rintro ⟨e, he, hreaches⟩
  exact ⟨(rateEntry_least hwf he hreaches).1, fun e he hreaches => (rateEntry_least hwf he hreaches).2⟩

end Sys2Proof.Machine

/-! The output frame (46_output_rate_conversion.md R250, R251; 30_encoding.md R95, R103): its three bytes one at a time,
and the six actions of an output write. -/

namespace Sys2Proof.Machine

section
variable {s t : State} {g : State → State} {op : Op} {k n : Nat} {p : DacPst} {m : Micro} {a : Action} {c : BitVec 1}

/-! ### The bytes of the frame -/

/-- The output chip listens in an open frame, at the place `p`. -/
def DacAt (p : DacPst) (s : State) : Prop := s.csAdcN = true ∧ s.csDacN = false ∧ s.dac.pst = p

theorem Passed.dac (h : Passed s t) : t.dac = s.dac := h.kept fun _ _ => rfl

theorem DacAt.passed (h : DacAt p s) (k : Passed s t) : DacAt p t := by
  simpa only [DacAt, k.csAdcN, k.csDacN, k.dac] using h

/-- An effect on the output chip. -/
def onDac (g : DacPeer → DacPeer) (s : State) : State := { s with dac := g s.dac }

theorem onDac_edgeFree (g : DacPeer → DacPeer) : EdgeFree (onDac g) :=
  ⟨fun _ _ => rfl, fun _ _ => rfl, fun _ => rfl, fun _ => rfl⟩

/-- The output chip at a place of its frame. -/
def dacPlace (p : DacPst) (d : DacPeer) : DacPeer := { d with pst := p }

theorem DacAt.atPlace (h : DacAt p s) (op : Op) (k n : Nat) : DacAt p (atPlace op k n s) := h

/-- A byte that the output chip takes, whatever edges pass before it. -/
theorem DacAt.sends {q : DacPst} {b : Byte} {g : DacPeer → DacPeer} (h : DacAt p s) (hg : ∀ d, (g d).pst = q)
    (hx : ∀ x : State, x.dac.pst = p → x.cfg = s.cfg → dacExchange b x = .go (onDac g (drawRx x))) :
    ∃ t, Sends b s (onDac g s) t ∧ DacAt q t := by
  have ⟨hadcN, hdacN, _⟩ := h
  have hedges := absorb_passed s
  obtain ⟨hadcN', hdacN', hplace⟩ := h.passed hedges
  have hsent := sends_of_exchange (onDac_edgeFree g) ((exchange_dac hadcN' hdacN' b).trans (hx _ hplace hedges.cfg))
    (by rw [← absorb_trace s.inputs s]; rfl)
  exact ⟨_, hsent, DacAt.passed (s := onDac g s) ⟨hadcN, hdacN, hg s.dac⟩ hsent.passed⟩

/-- The command byte by the output's number, as `outputTrace` writes it. -/
theorem dacCommand_eq (C : WireCodes) (c : BitVec 1) :
    dacCommand C c = if c.toNat = 0 then C.dacCmd0 else C.dacCmd1 := by
  simp [dacCommand, BitVec.toNat_eq]

/-- The command byte says which output. -/
theorem send_dacCommand (h : DacAt .start s) (hC : s.cfg.codes.wf = true) (c : BitVec 1) :
    ∃ t, Sends (dacCommand s.cfg.codes c) s (onDac (dacPlace (.high c)) s) t ∧ DacAt (.high c) t := by
  refine h.sends (fun _ => rfl) fun x hplace hcfg => ?_
  have hne : dacCommand s.cfg.codes 1#1 ≠ dacCommand s.cfg.codes 0#1 := (WireCodes.wf_dacCmd hC).symm
  simp only [dacExchange, hplace, hcfg]
  obtain rfl | rfl := BitVec.eq_zero_or_eq_one c
  · rw [if_pos rfl]
    rfl
  · rw [if_neg hne, if_pos rfl]
    rfl

theorem send_dacHigh (h : DacAt (.high c) s) (b : Byte) :
    ∃ t, Sends b s (onDac (dacPlace (.low c b)) s) t ∧ DacAt (.low c b) t :=
  h.sends (fun _ => rfl) fun x hplace _ => by
    simp only [dacExchange, hplace]
    rfl

/-- The low byte completes the code, which the output takes. -/
theorem send_dacLow {hi : Byte} (h : DacAt (.low c hi) s) (b : Byte) :
    ∃ t, Sends b s (onDac (fun d => dacPlace .full (latchDac c (hi ++ b) d)) s) t ∧ DacAt .full t :=
  h.sends (fun _ => rfl) fun x hplace _ => by
    simp only [dacExchange, hplace]
    rfl

/-! ### What the frame leaves -/

theorem dacPlace_dacPlace (p q : DacPst) (d : DacPeer) : dacPlace q (dacPlace p d) = dacPlace q d := rfl

theorem dacPlace_latchDac (q : DacPst) (c : BitVec 1) (code : BitVec 16) (d : DacPeer) :
    dacPlace q (latchDac c code d) =
      if c = 0#1 then { d with out0 := code, pst := q } else { d with out1 := code, pst := q } := by
  unfold latchDac
  split <;> rfl

/-- The outputs are latched whatever the place before. -/
theorem latchDac_dacPlace (p q : DacPst) (c : BitVec 1) (code : BitVec 16) (d : DacPeer) :
    dacPlace q (latchDac c code (dacPlace p d)) = dacPlace q (latchDac c code d) := by
  rw [dacPlace_latchDac, dacPlace_latchDac]
  rfl

theorem codeHigh_append_codeLow (code : BitVec 16) : (codeHigh code ++ codeLow code : BitVec 16) = code :=
  code_bytes code

/-- The three bytes of a frame, one effect after another (R95, R251). -/
theorem onDac_frameBytes (c : BitVec 1) (code : BitVec 16) (s : State) :
    onDac (fun d => dacPlace .full (latchDac c (codeHigh code ++ codeLow code) d))
        (onDac (dacPlace (.low c (codeHigh code))) (onDac (dacPlace (.high c)) s)) =
      onDac (fun d => dacPlace .full (latchDac c code d)) s := by
  simp only [onDac, codeHigh_append_codeLow, latchDac_dacPlace]

/-! ### One action of an output write -/

/-- The select of the output chip falls. -/
def openDac (s : State) : State := { s with csDacN := false }

/-- The select of the output chip rises, and the chip is at the start of a frame (R251). -/
def closeDac (s : State) : State := onDac (dacPlace .start) { s with csDacN := true }

theorem openDac_edgeFree : EdgeFree openDac := ⟨fun _ _ => rfl, fun _ _ => rfl, fun _ => rfl, fun _ => rfl⟩

theorem closeDac_edgeFree : EdgeFree closeDac := ⟨fun _ _ => rfl, fun _ _ => rfl, fun _ => rfl, fun _ => rfl⟩

theorem does_selectDac (s : State) : ∃ t, Does (.select .dac) (.cs .dac false) openDac s t :=
  ⟨_, act_select .dac s, openDac_edgeFree, ((absorb_passed s).map openDac_edgeFree).logged _, .of_eq (by simp) rfl⟩

theorem does_releaseDac (s : State) : ∃ t, Does (.release .dac .nothing) (.cs .dac true) closeDac s t :=
  ⟨_, act_release_nothing .dac s, closeDac_edgeFree, ((absorb_passed s).map closeDac_edgeFree).logged _,
    .of_eq (by simp) rfl⟩

/-- An action goes on to the next of its list. -/
theorem Does.runItems_cons (h : Does m a g (atPlace op k n s) t) (acts : List Micro) :
    runItems op (number k n (m :: acts)) s = runItems op (number k (n + 1) acts) t := by
  change andThen (act m (atPlace op k n s)) _ = _
  rw [h.run]
  rfl

/-- An action after edges and bytes with the effect `y`. -/
theorem Does.after {y : State} {m' : Nat} (h : Does m a g (atPlace op k n s) t) (hg : PlaceFree g)
    (hy : Passed (atPlace op k m' y) s) : Passed (atPlace op k n (g y)) t :=
  hg op k n y ▸ hy.then (h.edgeFree.comp (atPlace_edgeFree op k n)) h.passed

theorem onDac_placeFree (g : DacPeer → DacPeer) : PlaceFree (onDac g) := fun _ _ _ _ => rfl

/-- Of a whole frame nothing stays but the code. -/
theorem closeDac_latched (h : AtPhase .closed s) (c : BitVec 1) (code : BitVec 16) :
    closeDac (onDac (fun d => dacPlace .full (latchDac c code d)) (openDac s)) = onDac (latchDac c code) s := by
  obtain ⟨-, hdacN, -, -, hstart⟩ := h
  have hdac : dacPlace .start (latchDac c code s.dac) = latchDac c code s.dac := by
    rw [dacPlace_latchDac, ← hstart]
    rfl
  simp only [closeDac, openDac, onDac, dacPlace_dacPlace, hdac, ← hdacN]

/-! ### The six actions -/

/-- One output write, wherever its six actions stand in an operation (R250; 60_exceptions.md R291). -/
theorem runItems_dacActs (hclosed : AtPhase .closed s) (hC : s.cfg.codes.wf = true) (op : Op) (k n : Nat) (c : BitVec 1)
    (code : BitVec 16) :
    ∃ t, runItems op (number k n (dacActs s.cfg c code)) s = .go t ∧
      Passed (atPlace op k (n + 5) (onDac (latchDac c code) s)) t ∧ TraceGrew s t (outputTrace s.cfg c.toNat code) := by
  have ⟨hadcN, _, _, _, hstart⟩ := hclosed
  obtain ⟨t₀, h₀⟩ := does_selectDac (atPlace op k n s)
  have hat₀ : DacAt .start t₀ := DacAt.passed (s := openDac (atPlace op k n s)) ⟨hadcN, rfl, hstart⟩ h₀.passed
  have hcfg : t₀.cfg = s.cfg := h₀.passed.cfg
  obtain ⟨t₁, hcommand, hat₁⟩ := send_dacCommand (hat₀.atPlace op k (n + 1)) (hcfg ▸ hC) c
  rw [show (atPlace op k (n + 1) t₀).cfg = s.cfg from hcfg] at hcommand
  obtain ⟨t₂, hhigh, hat₂⟩ := send_dacHigh (hat₁.atPlace op k (n + 2)) (codeHigh code)
  obtain ⟨t₃, hdelay⟩ := performs_delay .tIB (atPlace op k (n + 3) t₂)
  have hat₃ : DacAt (.low c (codeHigh code)) t₃ := (hat₂.atPlace op k (n + 3)).passed hdelay.passed
  obtain ⟨t₄, hlow, -⟩ := send_dacLow (hat₃.atPlace op k (n + 4)) (codeLow code)
  obtain ⟨t₅, h₅⟩ := does_releaseDac (atPlace op k (n + 5) t₄)
  have h₁ := hcommand.does (onDac_edgeFree _)
  have h₂ := hhigh.does (onDac_edgeFree _)
  have h₃ := hdelay.does
  have h₄ := hlow.does (onDac_edgeFree _)
  refine ⟨t₅, ?_, ?_, ?_⟩
  · rw [dacActs, h₀.runItems_cons, h₁.runItems_cons, h₂.runItems_cons, h₃.runItems_cons, h₄.runItems_cons,
      h₅.runItems_cons]
    rfl
  · have hbytes := h₄.after (onDac_placeFree _) (h₃.after (fun _ _ _ _ => rfl)
      (h₂.after (onDac_placeFree _) (h₁.after (onDac_placeFree _) (y := openDac s) h₀.passed)))
    have hall := h₅.after (fun _ _ _ _ => rfl) hbytes
    rwa [onDac_frameBytes, closeDac_latched hclosed] at hall
  · have hall := ((((h₀.trace.trans h₁.trace).trans h₂.trace).trans h₃.trace).trans h₄.trace).trans h₅.trace
    rwa [dacCommand_eq] at hall

end

/-- Settles O46: the operation is one output write. -/
theorem dacwrSetsTheOutput : Obligations.DacwrSetsTheOutput := by
  intro c code s hbooted hC
  have ⟨_, _, hopen, _⟩ := hbooted
  obtain ⟨t, hrun, hpassed, htrace⟩ :=
    runItems_dacActs (s := enterOp (.dacwr c code) s) hopen.closed hC (.dacwr c code) 0 0 c code
  refine ⟨finishOp t, startBus_ran hbooted nofun nofun rfl hrun, finished_of_passed hpassed ?_, htrace⟩
  simp [finishOp, atPlace, onDac, latchDac, enterOp]

/-- Settles O57: the command byte chooses the output, and the low byte latches the code. -/
theorem dacframeSetsTheOutput : Obligations.DacframeSetsTheOutput := by
  intro c code s hadcN hdacN hstart hC
  obtain ⟨t₁, h₁, hat₁⟩ := send_dacCommand ⟨hadcN, hdacN, hstart⟩ hC c
  obtain ⟨t₂, h₂, hat₂⟩ := send_dacHigh hat₁ (codeHigh code)
  obtain ⟨t₃, h₃, -⟩ := send_dacLow hat₂ (codeLow code)
  refine ⟨t₃, ?_, ?_, ?_⟩
  · change toOutcome (sendAll [dacCommand s.cfg.codes c, codeHigh code, codeLow code] s) = _
    rw [h₁.sendAll_cons, h₂.sendAll_cons, h₃.sendAll_cons, sendAll_nil, toOutcome_go]
  · have hall := (h₁.passed.then (onDac_edgeFree _) h₂.passed).then (onDac_edgeFree _) h₃.passed
    rw [onDac_frameBytes] at hall
    rwa [← dacPlace_latchDac]
  · exact ((TraceGrew.of_eq h₁.trace rfl).trans (.of_eq h₂.trace rfl)).trans (.of_eq h₃.trace rfl)

end Sys2Proof.Machine

/-! The session's operations (60_exceptions.md R281, R285 to R289) and what an idle block makes of a tick (R276, R282;
70_reset_and_hazards.md R326). -/

namespace Sys2Proof.Machine

section
variable {s : State} {e : Edge} {es : List Edge}

/-! ### ARM, START, CANCEL, LDOUT at an idle handler -/

/-- ARM (R286): the sequences of the configured outputs are emptied, and no session has three outputs. -/
theorem exec_arm (hidle : s.pc.op = .idle) (target : Count) (nout : BitVec 2) :
    exec (.arm target nout) s =
      if (s.sess.sched = .idle ∨ s.sess.sched = .stopped) ∧ nout.toNat ≤ 2 then
        .next (finishOp { s with
          sess := { s.sess with
            target := target, nout := nout, cycle := 0#32, buf := [], sched := .armed
            outseq0 := if nout = 0#2 then s.sess.outseq0 else []
            outseq1 := if nout = 2#2 then [] else s.sess.outseq1 } })
      else .next s := by
  change execArm target nout s = _
  rw [execArm, pureOp_of_idle hidle]
  simp only [Bool.and_eq_true, outsideSession_iff, decide_eq_true_eq]
  refine if_ctx_congr Iff.rfl (fun ⟨_, hnout⟩ => ?_) fun _ => rfl
  obtain rfl | rfl | rfl : nout = 0#2 ∨ nout = 1#2 ∨ nout = 2#2 := by bv_omega
  all_goals rfl

/-- START (R287). -/
theorem exec_start (hidle : s.pc.op = .idle) :
    exec .start s =
      if s.sess.sched = .armed then
        .next (finishOp { s with
          sess := if s.sess.target = 0#32 then { s.sess with sched := .stopped }
            else { s.sess with sched := .running, armed := true } })
      else .next s := by
  change execStart s = _
  rw [execStart, pureOp_of_idle hidle]
  simp only [decide_eq_true_eq]

/-- LDOUT (R288). -/
theorem exec_ldout (hidle : s.pc.op = .idle) (c : BitVec 1) (i : Count) (code : BitVec 16) :
    exec (.ldout c i code) s =
      if s.sess.sched = .armed ∧ c.toNat < s.sess.nout.toNat ∧ i < s.sess.target then
        .next (finishOp { s with
          sess := { s.sess with
            outseq0 := if c = 0#1 then storeWrite s.sess.outseq0 i.toNat code else s.sess.outseq0
            outseq1 := if c = 1#1 then storeWrite s.sess.outseq1 i.toNat code else s.sess.outseq1 } })
      else .next s := by
  change execLdout c i code s = _
  rw [execLdout, pureOp_of_idle hidle]
  simp only [Bool.and_eq_true, decide_eq_true_eq, and_assoc]
  obtain rfl | rfl := BitVec.eq_zero_or_eq_one c <;> rfl

theorem cancelSession_eq (s : State) :
    cancelSession s = { s with
      sess := if s.sess.sched = .armed ∨ s.sess.sched = .running
        then { s.sess with sched := .stopped, armed := false } else s.sess } := by
  unfold cancelSession
  split <;> rfl

/-! ### A tick -/

/-- A tick of the armed timer at an idle handler enters the operation (R283). -/
theorem exec_tick_idle (hidle : s.pc.op = .idle) (harmed : s.sess.armed = true) : exec .tick s = startBus .tick s := by
  change execTick s = _
  simp [execTick, busy, hidle, harmed]

/-- While BUSY it is dropped as an overrun (R276). -/
theorem exec_tick_busy (hbusy : s.pc.op ≠ .idle) (harmed : s.sess.armed = true) :
    exec .tick s = .next (noteOverrun s) := by
  change execTick s = _
  simp [execTick, busy, hbusy, harmed]

/-- A timer that is not armed raises none (R281; log 29). -/
theorem exec_tick_disarmed (hdisarmed : s.sess.armed = false) : exec .tick s = .next s := by
  change execTick s = _
  simp [execTick, hdisarmed]

/-- At an edge with no host read CANCEL comes first, a tick of the armed timer next (R282). -/
theorem idleEdge_tick (hread : e.read = none) (htick : e.tick = true) (harmed : s.sess.armed = true) :
    idleEdge e s = exec (if offersCancel e then .cancel else .tick) (setLines e s) := by
  cases hcancel : offersCancel e <;> simp [idleEdge, hread, hcancel, htick, harmed]

end

/-- Settles O31: the operation finishes with the session anew, the two sequences by the number of outputs. -/
theorem armOpensASession : Obligations.ArmOpensASession := by
  have hoffered : OfferedAs 0x0F#5 (fun h => .arm h.target h.nout) := fun h hop => by simp [decodeHost, hop]
  refine ⟨hoffered, fun target nout => ⟨?_, fun s hidle => exec_arm hidle target nout⟩⟩
  exact notAcceptedWhileBusy_of_decodeHost (hoffered { HostPort.ofOp 0x0F#5 with target, nout } rfl) nofun

/-- Settles O32: the operation finishes at once, the timer armed unless the target is reached already. -/
theorem startStartsTheTimer : Obligations.StartStartsTheTimer := by
  have hoffered : OfferedAs 0x10#5 (fun _ => .start) := fun h hop => by simp [decodeHost, hop]
  exact ⟨hoffered, notAcceptedWhileBusy_of_decodeHost (hoffered (HostPort.ofOp 0x10#5) rfl) nofun,
    fun s hidle => exec_start hidle⟩

/-- Settles O33: one write to the sequence of the output named. -/
theorem ldoutLoadsOneEntry : Obligations.LdoutLoadsOneEntry := by
  have hoffered : OfferedAs 0x12#5 (fun h => .ldout h.c h.i h.code) := fun h hop => by simp [decodeHost, hop]
  refine ⟨hoffered, fun c i code => ⟨?_, fun s hidle => ?_⟩⟩
  · exact notAcceptedWhileBusy_of_decodeHost (hoffered { HostPort.ofOp 0x12#5 with c, i, code } rfl) nofun
  rw [exec_ldout hidle]
  refine ⟨fun hacc => ⟨_, _, if_pos hacc, fun j => ?_, fun j => ?_⟩, fun hrej => if_neg hrej⟩
  all_goals
    split
    · next hc => simp [hc, storeRead_write]
    · next hc => simp [hc]

/-- Settles O34: a single disarm, whatever is in progress. -/
theorem cancelStopsTheSession : Obligations.CancelStopsTheSession :=
  ⟨fun _ hop => decodeHost_cancel hop, fun s => congrArg Host.Outcome.next (cancelSession_eq s)⟩

/-- Settles O48: the armed timer's tick is noted, any other is none. -/
theorem tickWhileBusyIsAnOverrun : Obligations.TickWhileBusyIsAnOverrun :=
  fun _ => ⟨fun hbusy harmed => exec_tick_busy hbusy harmed, fun hdisarmed => exec_tick_disarmed hdisarmed⟩

/-- Settles O6: the edge is consumed, and its tick comes before any operation but CANCEL. -/
theorem stepTakesTheTickFirst : Obligations.StepTakesTheTickFirst := by
  intro s e es hrun hidle hframes hinputs hread htick harmed
  rw [step_idleEdge hrun hidle hframes hinputs]
  exact idleEdge_tick (s := { s with inputs := es }) hread htick harmed

/-- Settles O20: each of them is a bus operation, the tick once the armed timer raises it. -/
theorem unbootedBusOperationsRefused : Obligations.UnbootedBusOperationsRefused := by
  intro s hidle hinit
  have hrefused : ∀ op, startBus op s = .refused .notBooted := fun op => startBus_notBooted hidle hinit
  exact ⟨fun id => hrefused (.rdreg id), fun id v => hrefused (.wrreg id v), hrefused .rdid, hrefused .scan,
    fun c code => hrefused (.dacwr c code), fun harmed => (exec_tick_idle hidle harmed).trans (hrefused .tick)⟩

end Sys2Proof.Machine

/-! INIT with the transport layer down (45_init_sequencer.md R241, R246; 60_exceptions.md R271): it stops at CONFIG. -/

namespace Sys2Proof.Machine

section
variable {s : State} {es : List Edge}

/-- The transport stays down while every edge leaves it so. -/
theorem absorb_hwOk_low (h : s.hwOk = false) (hes : ∀ e ∈ es, e.hwOk = false) : (absorb es s).hwOk = false := by
  induction es generalizing s with
  | nil => exact h
  | cons e es ih =>
    obtain ⟨he, hes⟩ := List.forall_mem_cons.1 hes
    have hdown : (busyEdge e s).hwOk = false := (busyEdge_hwOk e s).trans he
    rw [absorb]
    split
    · exact hdown
    · exact ih hdown hes

theorem act_config_down (h : s.hwOk = false) (hes : ∀ e ∈ s.inputs, e.hwOk = false) :
    act .config s = .halt (takeCondition .hardwareUnavailable (logAction (.config s.cfg.bus) (absorb s.inputs s))) := by
  rw [act_eq (m := .config) nofun, perform, configure, absorb_hwOk_low h hes, absorb_cfg]
  rfl

/-- The condition of a transport that is down, taken by INIT. -/
theorem takeCondition_hardware_eq (hpc : s.pc.op = .init) :
    takeCondition .hardwareUnavailable s =
      { s with pc := ⟨.idle, 0, 0⟩, polls := 0, fault := 1#3, flags := { s.flags with eHw := true } } := by
  simp [takeCondition, hpc, setFlag, conditionCode]

/-- Outside a session edges change the lines, the conversion value and what counts overruns. -/
theorem absorb_outside (hsess : s.sess.sched = .idle ∨ s.sess.sched = .stopped) {t : State}
    (ht : t = absorb s.inputs s) :
    t = { s with
      drdyN := t.drdyN, hwOk := t.hwOk, inputs := t.inputs, adc := { s.adc with conv := t.adc.conv }
      flags := { s.flags with eTick := t.flags.eTick }, sess := { s.sess with overruns := t.sess.overruns } } := by
  have hpassed : Passed s t := ht ▸ absorb_passed s
  obtain ⟨hsched, harmed⟩ := hpassed.2.1.outside hsess
  have hrx : t.rx = s.rx := by rw [ht, absorb_rx]
  have hdraws : t.draws = s.draws := by rw [ht, absorb_draws]
  have htrace : t.trace = s.trace := by rw [ht, absorb_trace]
  have hamid := hpassed.1
  rwa [amid, hsched, harmed, hrx, hdraws, htrace] at hamid

/-- INIT as accepted, at its first action. -/
def atConfig (s : State) : State := atPlace .init 0 0 (enterInit s)

end

/-- Settles O44: the first action takes the condition, after the edges before it. -/
theorem initWithoutHardwareAborts : Obligations.InitWithoutHardwareAborts := by
  intro s hidle hsess hdown hes
  obtain ⟨u, hu⟩ : ∃ u, u = absorb s.inputs (atConfig s) := ⟨_, rfl⟩
  have hact := act_config_down (s := atConfig s) hdown hes
  rw [show absorb (atConfig s).inputs (atConfig s) = u from hu.symm] at hact
  refine ⟨takeCondition .hardwareUnavailable (logAction (.config s.cfg.bus) u), exec_init_halts hidle hsess ?_, ?_⟩
  · obtain ⟨rest, hrest⟩ := initActs_eq s.cfg
    rw [hrest]
    change andThen (act .config (atConfig s)) _ = _
    rw [hact]
    rfl
  · have hkept := absorb_outside (s := atConfig s) hsess hu
    have hpc : u.pc.op = .init := by rw [hu, absorb_pc]; rfl
    have hline : u.hwOk = s.hwOk := by rw [hu, absorb_hwOk_low (s := atConfig s) hdown hes, hdown]
    rw [takeCondition_hardware_eq (s := logAction _ u) hpc]
    rw [hline] at hkept
    conv_lhs => rw [hkept]
    rfl

end Sys2Proof.Machine

/-! What an action, a list of actions and an outside frame leave of the operation in progress, the edges to come and the
scheduler (60_exceptions.md R270, R281, R289): the scheduler is disturbed by a CANCEL, or by a condition that ends the
operation with its code in `fault`. -/

namespace Sys2Proof.Machine

section
variable {s t u : State} {P Q R : State → Prop} {op : Op} {i : Instr} {es : List Edge} {n : Nat}

/-! ### Where a part ends -/

theorem Run.Ends.and {r : Run} (h : r.Ends P Q) (k : r.Answers R) :
    r.Ends (fun x => P x ∧ R x) fun x => Q x ∧ R x := by
  cases r with
  | go x => exact ⟨h, k⟩
  | halt x => exact ⟨h, k⟩
  | fault x => trivial
  | refuse x => trivial

theorem Run.Answers.ends_same {r : Run} (h : r.Answers P) : r.Ends P P := by
  cases r <;> exact h

/-- A part that never stops early. -/
theorem Run.Ends.of_ne_halt {r : Run} (h : r.Ends P Q) (hstop : ∀ x, r ≠ .halt x) : r.Ends P R := by
  cases r with
  | go x => exact h
  | halt x => exact absurd rfl (hstop x)
  | fault x => trivial
  | refuse x => trivial

/-! ### The operation, the edges and the scheduler -/

/-- From `s` to `t` the operation is the same, the edges to come are some of those there were, and the scheduler is as it was
unless one of these offered CANCEL. -/
structure Undisturbed (s t : State) : Prop where
  sameOp : t.pc.op = s.pc.op
  inputs : t.inputs ⊆ s.inputs
  sched : t.sess.sched = s.sess.sched ∨ ∃ e ∈ s.inputs, offersCancel e = true

/-- Where an operation may stop: held where it stood, or ended by a condition, its code in `fault`. -/
def HeldOrAborted (s t : State) : Prop := Undisturbed s t ∨ (t.pc.op = .idle ∧ t.fault ≠ 0#3)

theorem Undisturbed.of_same (hop : t.pc.op = s.pc.op) (hinputs : t.inputs = s.inputs)
    (hsched : t.sess.sched = s.sess.sched) : Undisturbed s t :=
  ⟨hop, hinputs ▸ List.Subset.refl _, .inl hsched⟩

theorem Undisturbed.refl (s : State) : Undisturbed s s := .of_same rfl rfl rfl

theorem Undisturbed.trans (h : Undisturbed s t) (k : Undisturbed t u) : Undisturbed s u where
  sameOp := k.sameOp.trans h.sameOp
  inputs := List.Subset.trans k.inputs h.inputs
  sched := by
    rcases k.sched with hsched | ⟨e, he, hcancel⟩
    · exact h.sched.imp_left hsched.trans
    · exact .inr ⟨e, h.inputs he, hcancel⟩

theorem HeldOrAborted.after (k : HeldOrAborted t u) (h : Undisturbed s t) : HeldOrAborted s u :=
  k.imp_left h.trans

theorem HeldOrAborted.sameOrIdle (h : HeldOrAborted s t) : t.pc.op = s.pc.op ∨ t.pc.op = .idle :=
  h.imp Undisturbed.sameOp And.left

theorem takeCondition_aborted (c : Condition) (s t : State) : HeldOrAborted s (takeCondition c t) :=
  .inr ⟨by simp, by cases c <;> simp [conditionCode]⟩

/-- Where every part after one that leaves `s` undisturbed ends. -/
theorem Run.Ends.after {r : Run} (k : r.Ends (Undisturbed t) (HeldOrAborted t)) (h : Undisturbed s t) :
    r.Ends (Undisturbed s) (HeldOrAborted s) :=
  k.mono (fun _ => h.trans) fun _ hx => hx.after h

/-! ### One action -/

theorem absorb_undisturbed (s : State) : Undisturbed s (absorb s.inputs s) := by
  have hwithin := absorb_within (Within.start .scan s) (List.Subset.refl s.inputs)
  refine ⟨by simp, hwithin.inputs, ?_⟩
  rcases hwithin.changes .sched with (hscan | hcancel) | hkept
  · cases hscan
  · exact .inr hcancel
  · exact .inl hkept

theorem busyEdge_undisturbed {e : Edge} (hs : s.inputs = e :: es) (n : Nat) :
    Undisturbed s (withEdges es n (busyEdge e s)) := by
  refine ⟨congrArg Pc.op (busyEdge_pc e s), fun x hx => hs ▸ List.mem_cons_of_mem _ hx, ?_⟩
  rcases busyEdge_changesOnly (op := .scan) (hs ▸ List.mem_cons_self : e ∈ s.inputs) s .sched with (hscan | hcancel) | hkept
  · cases hscan
  · exact .inr hcancel
  · exact .inl hkept

theorem waitRdy_undisturbed (hs : s.inputs = es) : (waitRdy es s).Ends (Undisturbed s) (HeldOrAborted s) := by
  induction es generalizing s with
  | nil =>
    rw [waitRdy_nil hs]
    split
    · exact .of_same rfl rfl rfl
    · split
      · exact takeCondition_aborted _ _ _
      · exact .inl (.refl s)
  | cons e es ih =>
    have hedge : ∀ n, Undisturbed s (withEdges es n (busyEdge e s)) := busyEdge_undisturbed hs
    have hrest : ∀ n, (waitRdy es (withEdges es n (busyEdge e s))).Ends (Undisturbed s) (HeldOrAborted s) :=
      fun n => (ih rfl).after (hedge n)
    rw [waitRdy_cons]
    split
    · exact hrest _
    split
    · exact (hedge s.polls).trans (.of_same rfl rfl rfl)
    split
    · exact takeCondition_aborted _ _ _
    · exact hrest _

theorem xfer_undisturbed (b : Byte) (s : State) : (xfer b s).Ends (Undisturbed s) (HeldOrAborted s) := by
  refine ((xfer_frame b s).mono fun t ht => ?_).ends (xfer_ne_halt b s)
  obtain ⟨_, _, _, _, _, _, _, rfl, -⟩ := ht
  exact .of_same rfl rfl rfl

theorem applyPost_undisturbed (post : Post) (s : State) :
    (applyPost post s).Ends (Undisturbed s) (HeldOrAborted s) := by
  cases post with
  | checkIdentity =>
    simp only [applyPost]
    split
    · exact .of_same rfl rfl rfl
    · exact takeCondition_aborted _ _ _
  | nothing | rdata | identity | sample | booted => exact .of_same rfl rfl rfl

theorem withChannel_undisturbed (k : Nat) (f : ChDesc → Byte) (s : State) :
    (withChannel k (fun d => xfer (f d)) s).Ends (Undisturbed s) (HeldOrAborted s) := by
  unfold withChannel
  split
  · exact xfer_undisturbed _ s
  · trivial

theorem perform_undisturbed (m : Micro) (s : State) : (perform m s).Ends (Undisturbed s) (HeldOrAborted s) := by
  cases m with
  | config =>
    simp only [perform, configure]
    split
    · exact .of_same rfl rfl rfl
    · exact takeCondition_aborted _ _ _
  | rst level => cases level <;> exact .of_same rfl rfl rfl
  | delay d => exact .of_same rfl rfl rfl
  | waitRdy => exact waitRdy_undisturbed rfl
  | select dev => cases dev <;> exact .of_same rfl rfl rfl
  | release dev post =>
    have hcs : Undisturbed s (setCs dev true s) := by cases dev <;> exact .of_same rfl rfl rfl
    exact (applyPost_undisturbed post _).after hcs
  | send b => exact xfer_undisturbed b s
  | sendMux k => exact withChannel_undisturbed k ChDesc.mux s
  | sendGf k => exact withChannel_undisturbed k (fun d => gfByte s.cfg.gfUpper d.gain) s
  | recv dst =>
    refine ends_andThen (xfer_undisturbed _ s) fun t ht => ?_
    exact ht.trans (by cases dst <;> exact .of_same rfl rfl rfl)

theorem act_undisturbed (m : Micro) (s : State) : (act m s).Ends (Undisturbed s) (HeldOrAborted s) := by
  unfold act
  split
  · exact perform_undisturbed m s
  · exact (perform_undisturbed m _).after (absorb_undisturbed s)

/-- An action enters no operation. -/
theorem act_op (m : Micro) (s : State) : (act m s).Answers fun t => t.pc.op = s.pc.op ∨ t.pc.op = .idle :=
  Run.Ends.answers ((act_undisturbed m s).mono (fun _ h => .inl h.sameOp) fun _ h => h.sameOrIdle)

/-! ### Lists of actions -/

theorem runItems_undisturbed (hop : s.pc.op = op) (items : List Item) :
    (runItems op items s).Ends (Undisturbed s) (HeldOrAborted s) := by
  induction items generalizing s with
  | nil => exact .refl s
  | cons it rest ih =>
    have hplaced : Undisturbed s { s with pc := ⟨op, it.k, it.step⟩ } := .of_same hop.symm rfl rfl
    refine ends_andThen ((act_undisturbed it.act _).after hplaced) fun t ht => ?_
    exact (ih (ht.sameOp.trans hop)).after ht

/-- The operation is in progress still, or over. -/
theorem runItems_op (hop : s.pc.op = op) (items : List Item) :
    (runItems op items s).Answers fun t => t.pc.op = op ∨ t.pc.op = .idle :=
  Run.Ends.answers ((runItems_undisturbed hop items).mono (fun _ h => .inl (h.sameOp.trans hop)) fun _ h =>
    h.sameOrIdle.imp_left fun hsame => hsame.trans hop)

/-- A bus operation but TICK, in progress or over, is not a tick. -/
theorem continueOp_op (hop : s.pc.op ≠ .tick) : (continueOp s).Answers fun t => t.pc.op ≠ .tick := by
  unfold continueOp
  split
  · exact hop
  · contradiction
  · refine Run.Ends.answers (ends_andThen ((runItems_op rfl _).mono fun t ht => ?_).ends_same fun t _ => nofun)
    rcases ht with ht | ht
    · exact ht ▸ hop
    · exact ht ▸ nofun

/-! ### Outside frames (log 13) -/

theorem actAll_keeps {ms : List Micro} (hact : ∀ m ∈ ms, ∀ x, P x → (act m x).Answers P) (hs : P s) :
    (actAll ms s).Answers P := by
  induction ms generalizing s with
  | nil => exact hs
  | cons m ms ih =>
    exact answers_andThen (hact m List.mem_cons_self s hs) fun t ht =>
      ih (fun x hx => hact x (List.mem_cons_of_mem _ hx)) ht

theorem Micro.inFrame.writes {m : Micro} (h : m.inFrame) : m.writes = [] := by
  cases m
  case send | recv | delay => rfl
  all_goals cases h

/-- What the actions that write no part of the state keep, an instruction of neither the host nor the timer keeps. -/
theorem exec_wire_keeps (hact : ∀ m x, m.writes = [] → P x → (act m x).Answers P) (hs : P s)
    (h : exec i s = .next t) (hhost : i.isHostOp = false) (htick : i ≠ .tick) : P t := by
  rw [exec_eq_actAll hhost htick] at h
  refine toOutcome_next_of_answers (actAll_keeps (fun m hm x => ?_) hs) h
  exact hact m x (frameActs_inFrame _ _ m hm).writes

theorem sendAll_keeps_silent (hact : ∀ m x, m.writes = [] → P x → (act m x).Answers P) (bs : List Byte) (hs : P s) :
    (sendAll bs s).Answers P := by
  rw [sendAll_eq_actAll]
  refine actAll_keeps (fun m hm x => hact m x ?_) hs
  obtain ⟨b, -, rfl⟩ := List.mem_map.1 hm
  rfl

theorem runCommands_keeps_silent (hact : ∀ m x, m.writes = [] → P x → (act m x).Answers P) {bytes : List Byte}
    (hs : P s) : (runCommands n bytes s).Answers P := by
  induction n generalizing bytes s with
  | zero => exact sendAll_keeps_silent hact bytes hs
  | succ n ih =>
    cases bytes with
    | nil => exact hs
    | cons b bs =>
      simp only [runCommands]
      split
      · next hi =>
        obtain ⟨hhost, htick⟩ := decodeWire_notHost hi
        exact answers_andThen (answers_ofOutcome fun _ h => exec_wire_keeps hact hs h hhost htick) fun _ ht => ih ht
      · exact sendAll_keeps_silent hact _ hs

theorem runDacBytes_keeps_silent (hact : ∀ m x, m.writes = [] → P x → (act m x).Answers P) {bytes : List Byte}
    (hs : P s) : (runDacBytes bytes s).Answers P := by
  unfold runDacBytes
  split
  · next hi =>
    obtain ⟨c, code, rfl⟩ := decodeDac_ok hi
    exact answers_andThen (answers_ofOutcome fun _ h => exec_wire_keeps hact hs h rfl nofun) fun _ ht =>
      sendAll_keeps_silent hact _ ht
  · exact sendAll_keeps_silent hact bytes hs

/-- An outside frame is made of such actions only. -/
theorem runFrame_keeps_silent (hact : ∀ m x, m.writes = [] → P x → (act m x).Answers P) {f : BusFrame} (hs : P s) :
    (runFrame f s).Answers P := by
  unfold runFrame
  refine answers_andThen (hact _ s rfl hs) fun t ht => answers_andThen ?_ fun u hu => hact _ u rfl hu
  cases f.dev with
  | adc => exact runCommands_keeps_silent hact ht
  | dac => exact runDacBytes_keeps_silent hact ht

end

end Sys2Proof.Machine

/-! The session (60_exceptions.md R281, R285, R289, R291): the timer armed exactly in Running and the counter below its
target, kept by everything a step is made of. -/

namespace Sys2Proof.Machine

section
variable {s t : State} {op : Op} {i : Instr}

/-! ### What keeps it -/

/-- It speaks of the session, the table size and count, and of whether a tick is in progress. -/
theorem SessionSound.of_same (hs : SessionSound s) (hsess : t.sess = s.sess) (hcount : t.chanCount = s.chanCount)
    (hcfg : t.cfg = s.cfg) (hop : t.pc.op = .tick → s.pc.op = .tick) : SessionSound t := by
  obtain ⟨harmed, hbelow, htick, hrest⟩ := hs
  simp only [SessionSound, hsess, hcount, hcfg]
  exact ⟨harmed, fun h => hbelow (h.imp_right hop), fun h => htick (hop h), hrest⟩

/-- What an action list may change keeps it, entering no tick: the scheduler stays, or stops with the timer disarmed. -/
theorem SessionSound.of_opFrame (hs : SessionSound s) (h : OpFrame s t) (hop : t.pc.op = .tick → s.pc.op = .tick) :
    SessionSound t := by
  obtain ⟨harmed, hbelow, htick, hle, hzero, hnout, hcount⟩ := hs
  simp only [SessionSound, h.cycle, h.target, h.nout, h.chanCount, h.cfg]
  rcases h.sched with ⟨hsched, harm⟩ | ⟨hsched, harm⟩
  · rw [hsched, harm]
    exact ⟨harmed, fun h => hbelow (h.imp_right hop), fun h => htick (hop h), hle, hzero, hnout, hcount⟩
  · rw [hsched, harm]
    exact ⟨by simp, fun h => hbelow (.inr (hop (h.resolve_left nofun))), fun _ => .inr rfl, hle, nofun, hnout, hcount⟩

/-- A sound session that is stopped. -/
theorem SessionSound.stopSession (hs : SessionSound s) : SessionSound (stopSession s) := by
  obtain ⟨-, hbelow, -, hle, -, hrest⟩ := hs
  exact ⟨by simp, fun h => hbelow (.inr (h.resolve_left nofun)), fun _ => .inr rfl, hle, nofun, hrest⟩

theorem SessionSound.cancelSession (hs : SessionSound s) : SessionSound (cancelSession s) := by
  unfold Machine.cancelSession
  split
  · exact hs.stopSession
  · exact hs

theorem act_sessionSound (m : Micro) (s : State) (hs : SessionSound s) : (act m s).Answers SessionSound :=
  ((act_opFrame m s).and (act_op m s)).mono fun t ⟨hframe, hop⟩ => hs.of_opFrame hframe fun htick => by
    rcases hop with hop | hop
    · exact hop ▸ htick
    · cases hop.symm.trans htick

/-! ### The tick (R291) -/

/-- A tick is in progress with its cycle still to count. -/
def MidTick (s : State) : Prop :=
  SessionSound s ∧ s.sess.cycle < s.sess.target ∧ (s.sess.sched = .running ∨ s.sess.sched = .stopped)

theorem SessionSound.midTick (hs : SessionSound s) (htick : s.pc.op = .tick) : MidTick s := by
  have ⟨_, hbelow, hsched, _⟩ := hs
  exact ⟨hs, hbelow (.inr htick), hsched htick⟩

/-- Wherever the program counter stands. -/
theorem MidTick.of_opFrame (hs : MidTick s) (h : OpFrame s t) : MidTick t := by
  obtain ⟨⟨harmed, -, -, hle, hzero, hnout, hcount⟩, hlt, hsched⟩ := hs
  have hsched' : t.sess.sched = .running ∨ t.sess.sched = .stopped := by
    rcases h.sched with ⟨hsame, -⟩ | ⟨hstopped, -⟩
    · exact hsame ▸ hsched
    · exact .inr hstopped
  have hlt' : t.sess.cycle < t.sess.target := by rwa [h.cycle, h.target]
  refine ⟨⟨?_, fun _ => hlt', fun _ => hsched', ?_, fun h => ?_, h.nout ▸ hnout, ?_⟩, hlt', hsched'⟩
  · rcases h.sched with ⟨hsame, harm⟩ | ⟨hstopped, harm⟩
    · rwa [hsame, harm]
    · simp [hstopped, harm]
  · rwa [h.cycle, h.target]
  · rcases hsched' with hr | hr <;> cases hr.symm.trans h
  · rwa [h.chanCount, h.cfg]

theorem storeVector_midTick (js : List Nat) (hs : MidTick s) : (storeVector js s).Answers MidTick :=
  (storeVector_frame js s).mono fun _ ⟨_, ht⟩ => ht ▸ hs

/-- The counter is at its target at most, and the session stops there. -/
theorem tickDone_sessionSound (hs : MidTick s) : (tickDone s).Answers SessionSound := by
  obtain ⟨⟨harmed, -, -, -, -, hnout, hcount⟩, hlt, hsched⟩ := hs
  have hle : s.sess.cycle + 1#32 ≤ s.sess.target := by bv_omega
  have hnotArmed : s.sess.sched ≠ .armed := by
    rcases hsched with h | h <;> rw [h] <;> nofun
  simp only [tickDone, finished]
  split
  · exact ⟨by simp, fun h => h.elim nofun nofun, nofun, hle, nofun, hnout, hcount⟩
  · next hmore =>
    have hlt' : s.sess.cycle + 1#32 < s.sess.target := by
      replace hmore : s.sess.cycle + 1#32 ≠ s.sess.target := hmore
      bv_omega
    exact ⟨harmed, fun _ => hlt', nofun, hle, fun h => absurd h hnotArmed, hnout, hcount⟩

theorem tickOutputs_sessionSound (first : Nat) (hs : MidTick s) : (tickOutputs first s).Answers SessionSound :=
  Run.Ends.answers (ends_andThen
    (((runOutputs_opFrame _ _ s).mono fun _ => hs.of_opFrame).ends_same.mono (fun _ => id) fun _ ht => ht.1)
    fun _ ht => (tickDone_sessionSound ht).ends_same)

theorem continueTick_sessionSound (hs : SessionSound s) (htick : s.pc.op = .tick) :
    (continueTick s).Answers SessionSound := by
  have hmid := hs.midTick htick
  have hstep : ∀ {r : Run}, r.Answers MidTick → r.Ends MidTick SessionSound := fun hr =>
    hr.ends_same.mono (fun _ => id) fun _ ht => ht.1
  refine Run.Ends.answers ?_
  unfold continueTick
  split
  · refine ends_andThen (hstep ((runItems_opFrame _ _ s).mono fun _ => hmid.of_opFrame)) fun t ht => ?_
    exact ends_andThen (hstep (storeVector_midTick _ ht)) fun u hu => (tickOutputs_sessionSound 0 hu).ends_same
  · exact (tickOutputs_sessionSound _ hmid).ends_same

/-- The operation in progress. -/
theorem continueOp_sessionSound (hs : SessionSound s) : (continueOp s).Answers SessionSound := by
  by_cases htick : s.pc.op = .tick
  · simpa only [continueOp, htick] using continueTick_sessionSound hs htick
  · exact ((continueOp_opFrame s htick).and (continueOp_op htick)).mono fun t ⟨hframe, hop⟩ =>
      hs.of_opFrame hframe fun h => absurd h hop

/-! ### The instructions -/

theorem startBus_sessionSound (hs : SessionSound s) (h : startBus op s = .next t) (hop : op ≠ .tick) :
    SessionSound t := by
  unfold startBus at h
  split at h
  · cases h
    exact hs
  split at h
  · cases h
  · have hentered : SessionSound (enterOp op s) := hs.of_same rfl rfl rfl fun h => absurd h hop
    exact toOutcome_next_of_answers (continueOp_sessionSound hentered) h

theorem execInit_sessionSound (hs : SessionSound s) (h : execInit s = .next t) : SessionSound t := by
  unfold execInit at h
  split at h
  · cases h
    exact hs
  · have hentered : SessionSound (enterInit s) := hs.of_same rfl rfl rfl nofun
    exact toOutcome_next_of_answers (continueOp_sessionSound hentered) h

/-- The timer being armed, the session is Running with cycles to go. -/
theorem SessionSound.enterTick (hs : SessionSound s) (harmed : s.sess.armed = true) :
    SessionSound (enterOp .tick s) := by
  obtain ⟨hiff, hbelow, -, hrest⟩ := hs
  exact ⟨hiff, fun _ => hbelow (.inl harmed), fun _ => .inl (hiff.1 harmed), hrest⟩

theorem exec_tick_sessionSound (hs : SessionSound s) (h : exec .tick s = .next t) : SessionSound t := by
  cases harmed : s.sess.armed with
  | false =>
    cases (exec_tick_disarmed harmed).symm.trans h
    exact hs
  | true =>
    by_cases hidle : s.pc.op = .idle
    · rw [exec_tick_idle hidle harmed] at h
      cases hinit : s.initok with
      | false => cases (startBus_notBooted hidle hinit).symm.trans h
      | true =>
        rw [startBus_run hidle hinit] at h
        exact toOutcome_next_of_answers (continueOp_sessionSound (hs.enterTick harmed)) h
    · cases (exec_tick_busy hidle harmed).symm.trans h
      exact hs

/-- A pure operation keeps it when what it writes, finished, does. -/
theorem pureOp_sessionSound {acc : Bool} {f : State → State} (hs : SessionSound s) (h : pureOp acc f s = .next t)
    (hf : acc = true → SessionSound (finishOp (f s))) : SessionSound t := by
  rcases pureOp_next h with rfl | ⟨-, hacc, rfl⟩
  · exact hs
  · exact hf hacc

/-- SETK takes no count above the table (42 R177). -/
theorem execSetk_sessionSound {count : Nat} (hs : SessionSound s) (h : execSetk count s = .next t) :
    SessionSound t := by
  refine pureOp_sessionSound hs h fun hacc => ?_
  obtain ⟨-, hcount⟩ : _ ∧ count ≤ s.cfg.nchMax := by simpa using hacc
  obtain ⟨harmed, hbelow, -, hle, hzero, hnout, -⟩ := hs
  exact ⟨harmed, fun h => hbelow (.inl (h.resolve_right nofun)), nofun, hle, hzero, hnout, hcount⟩

/-- ARM opens a session of a timer that is not armed (R286). -/
theorem execArm_sessionSound {target : Count} {nout : BitVec 2} (hs : SessionSound s)
    (h : execArm target nout s = .next t) : SessionSound t := by
  refine pureOp_sessionSound hs h fun hacc => ?_
  obtain ⟨hout, hnout⟩ := Bool.and_eq_true_iff.1 hacc
  obtain ⟨harmed, -, -, -, -, -, hcount⟩ := hs
  have hdisarmed : s.sess.armed = false := by
    rcases outsideSession_iff.1 hout with hsched | hsched <;> simpa [hsched] using harmed
  refine ⟨?_, ?_, nofun, ?_, fun _ => rfl, of_decide_eq_true hnout, hcount⟩
  · simp [hdisarmed]
  · simp [hdisarmed]
  · show 0#32 ≤ target
    bv_omega

/-- START arms the timer with cycles to go, or stops at a target of 0 (R287). -/
theorem execStart_sessionSound (hs : SessionSound s) (h : execStart s = .next t) : SessionSound t := by
  refine pureOp_sessionSound hs h fun hacc => ?_
  have hsched : s.sess.sched = .armed := of_decide_eq_true hacc
  obtain ⟨harmed, -, -, hle, hzero, hnout, hcount⟩ := hs
  have hdisarmed : s.sess.armed = false := by simpa [hsched] using harmed
  have hcycle := hzero hsched
  by_cases htarget : s.sess.target = 0#32
  · simp [SessionSound, htarget, hdisarmed, hcycle, hnout, hcount]
  · have hlt : 0#32 < s.sess.target := by bv_omega
    have hle' : 0#32 ≤ s.sess.target := hcycle ▸ hle
    simp [SessionSound, htarget, hcycle, hnout, hcount, hlt, hle']

/-- LDOUT writes output entries only (R288). -/
theorem execLdout_sessionSound {c : BitVec 1} {j : Count} {code : BitVec 16} (hs : SessionSound s)
    (h : execLdout c j code s = .next t) : SessionSound t := by
  refine pureOp_sessionSound hs h fun _ => ?_
  obtain ⟨harmed, hbelow, -, hrest⟩ := hs
  dsimp only
  split <;> exact ⟨harmed, fun h => hbelow (.inl (h.resolve_right nofun)), nofun, hrest⟩

/-- Every instruction, by the shape of its meaning. -/
theorem exec_sessionSound (hs : SessionSound s) (h : exec i s = .next t) : SessionSound t := by
  cases i
  case rdreg | wrreg | rdid | scan | dacwr => exact startBus_sessionSound hs h nofun
  case init => exact execInit_sessionSound hs h
  case tick => exact exec_tick_sessionSound hs h
  case cancel =>
    cases h
    exact hs.cancelSession
  case setk => exact execSetk_sessionSound hs h
  case arm => exact execArm_sessionSound hs h
  case start => exact execStart_sessionSound hs h
  case ldout => exact execLdout_sessionSound hs h
  case muxenc | gainenc | gaindec | setch | v2code | code2v | raw2v | ratesel =>
    unfold exec at h
    exact pureOp_sessionSound hs h fun _ => hs.of_same rfl rfl rfl nofun
  all_goals exact exec_wire_keeps (fun m x _ => act_sessionSound m x) hs h rfl nofun

end

/-- Settles O14: every action, every instruction and the operation in progress keep it. -/
theorem stepKeepsSessionSound : Obligations.StepKeepsSessionSound := fun _ _ =>
  step_keeps act_sessionSound (fun _ _ _ => exec_sessionSound) (fun _ => continueOp_sessionSound)
    (fun _ _ hs => hs) fun _ _ _ hs => hs

end Sys2Proof.Machine

/-! The buffer of a session (60_exceptions.md R286, R291, R293; 10_state.md R35): a tick stores a vector and counts its cycle, and
nothing else that runs in a session writes either; how a tick leaves the scheduler. -/

namespace Sys2Proof.Machine

section
variable {s t u : State} {js : List Nat} {op : Op} {i : Instr} {e : Edge}

/-! ### Storing the vector (R291 step 2) -/

/-- The session with another buffer. -/
def withBuf (buf : Store Sample) (s : State) : State := { s with sess := { s.sess with buf := buf } }

/-- The first entry of the cycle in progress. -/
def cycleBase (s : State) : Nat := s.sess.cycle.toNat * s.chanCount

/-- The results listed were there and are stored behind those of the cycles counted, and no other entry is written. -/
structure VectorStored (js : List Nat) (s t : State) : Prop where
  only : t = withBuf t.sess.buf s
  results : ∀ j ∈ js, (storeRead s.res j).isSome = true
  read : ∀ i, storeRead t.sess.buf i =
    if cycleBase s ≤ i ∧ i - cycleBase s ∈ js then storeRead s.res (i - cycleBase s) else storeRead s.sess.buf i

theorem VectorStored.nil (s : State) : VectorStored [] s s := ⟨rfl, nofun, fun _ => by simp⟩

theorem VectorStored.cons {j : Nat} {v : Sample} (hv : storeRead s.res j = some v)
    (h : VectorStored js (withBuf (storeWrite s.sess.buf (cycleBase s + j) v) s) t) : VectorStored (j :: js) s t where
  only := h.only
  results := List.forall_mem_cons.2 ⟨hv ▸ rfl, h.results⟩
  read i := by
    have hrest : storeRead t.sess.buf i =
        if cycleBase s ≤ i ∧ i - cycleBase s ∈ js then storeRead s.res (i - cycleBase s)
        else storeRead (storeWrite s.sess.buf (cycleBase s + j) v) i := h.read i
    rw [hrest, storeRead_write]
    by_cases hlater : cycleBase s ≤ i ∧ i - cycleBase s ∈ js
    · rw [if_pos hlater, if_pos ⟨hlater.1, List.mem_cons_of_mem _ hlater.2⟩]
    rw [if_neg hlater]
    by_cases hi : i = cycleBase s + j
    · subst hi
      simp [hv]
    · rw [if_neg hi, if_neg]
      rintro ⟨hle, hmem⟩
      rcases List.mem_cons.1 hmem with hj | hmem
      · exact hi (by omega)
      · exact hlater ⟨hle, hmem⟩

theorem storeVector_ends (js : List Nat) (s : State) :
    (storeVector js s).Ends (VectorStored js s) fun _ => False := by
  induction js generalizing s with
  | nil => exact .nil s
  | cons j js ih =>
    simp only [storeVector]
    split
    · next v hv =>
      split
      · exact (ih _).mono (fun t ht => ht.cons hv) fun _ => id
      · trivial
    · trivial

/-- With the results there and room for them it goes through. -/
theorem storeVector_goes (hres : ∀ j ∈ js, (storeRead s.res j).isSome = true)
    (hroom : ∀ j ∈ js, cycleBase s + j < s.sess.target.toNat * s.chanCount) :
    ∃ t, storeVector js s = .go t ∧ VectorStored js s t := by
  suffices hgoes : ∃ t, storeVector js s = .go t by
    obtain ⟨t, ht⟩ := hgoes
    have hends := storeVector_ends js s
    rw [ht] at hends
    exact ⟨t, ht, hends⟩
  induction js generalizing s with
  | nil => exact ⟨s, rfl⟩
  | cons j js ih =>
    obtain ⟨hj, hres⟩ := List.forall_mem_cons.1 hres
    obtain ⟨hjroom, hroom⟩ := List.forall_mem_cons.1 hroom
    obtain ⟨v, hv⟩ := Option.isSome_iff_exists.1 hj
    simp only [storeVector, hv]
    rw [if_pos (by exact hjroom)]
    exact ih hres hroom

/-! ### The outputs of a tick never stop it -/

theorem act_dacActs_ne_halt {P : Params} {c : BitVec 1} {code : BitVec 16} {m : Micro} (hm : m ∈ dacActs P c code)
    (s t : State) : act m s ≠ .halt t := by
  simp only [dacActs, List.mem_cons, List.not_mem_nil, or_false] at hm
  rcases hm with rfl | rfl | rfl | rfl | rfl | rfl
  case inr.inl | inr.inr.inl | inr.inr.inr.inr.inl => exact xfer_ne_halt _ _ t
  all_goals nofun

theorem runItems_ne_halt {items : List Item} (h : ∀ it ∈ items, ∀ x y, act it.act x ≠ .halt y) (s t : State) :
    runItems op items s ≠ .halt t := by
  induction items generalizing s with
  | nil => nofun
  | cons it rest ih =>
    obtain ⟨hit, hrest⟩ := List.forall_mem_cons.1 h
    rw [runItems_cons, runItem]
    cases hact : act it.act { s with pc := ⟨op, it.k, it.step⟩ } with
    | go u =>
      rw [andThen_go]
      exact ih hrest u
    | halt u => exact absurd hact (hit _ u)
    | fault x => nofun
    | refuse x => nofun

/-- The six actions of an output, whichever of them are still to do. -/
theorem runItems_output (hop : s.pc.op = .tick) (P : Params) (k n : Nat) (c : BitVec 1) (code : BitVec 16)
    (keep : Item → Bool) :
    (runItems .tick ((number k n (dacActs P c code)).filter keep) s).Ends (Undisturbed s) fun _ => False := by
  refine (runItems_undisturbed hop _).of_ne_halt (runItems_ne_halt (fun it hit => ?_) s)
  have hmem := List.mem_map_of_mem (f := Item.act) (List.mem_filter.1 hit).1
  rw [number_map_act] at hmem
  exact act_dacActs_ne_halt hmem

theorem runOutputs_undisturbed (hop : s.pc.op = .tick) (first : Nat) (cs : List Nat) :
    (runOutputs first cs s).Ends (Undisturbed s) fun _ => False := by
  induction cs generalizing s with
  | nil => exact .refl s
  | cons c cs ih =>
    simp only [runOutputs]
    split
    · trivial
    · refine ends_andThen (runItems_output hop _ _ _ _ _ _) fun t ht => ?_
      exact (ih (ht.sameOp.trans hop)).mono (fun _ => ht.trans) fun _ => id

/-! ### How a tick leaves the scheduler (R285, R289, R291, R292) -/

/-- As it was, unless an edge offered CANCEL, the tick was aborted, or the counter came to the target. -/
def TickLeaves (s t : State) : Prop :=
  (t.sess.sched = s.sess.sched ∨ ∃ e ∈ s.inputs, offersCancel e = true) ∨ t.fault ≠ 0#3 ∨ t.sess.cycle = t.sess.target

theorem HeldOrAborted.tickLeaves (h : HeldOrAborted s t) : TickLeaves s t :=
  h.imp Undisturbed.sched fun h => .inl h.2

theorem VectorStored.undisturbed (h : VectorStored js s t) : Undisturbed s t := by
  rw [h.only]
  exact .of_same rfl rfl rfl

theorem tickDone_leaves (h : Undisturbed s t) : (tickDone t).Answers (TickLeaves s) := by
  simp only [tickDone, finished]
  split
  · next htarget => exact .inr (.inr htarget)
  · exact .inl h.sched

theorem tickOutputs_leaves (h : Undisturbed s t) (hop : s.pc.op = .tick) (first : Nat) :
    (tickOutputs first t).Answers (TickLeaves s) :=
  Run.Ends.answers (ends_andThen
    ((runOutputs_undisturbed (h.sameOp.trans hop) _ _).mono (fun _ => h.trans) fun _ => False.elim)
    fun _ hu => (tickDone_leaves hu).ends_same)

theorem continueTick_leaves (hop : s.pc.op = .tick) : (continueTick s).Answers (TickLeaves s) := by
  refine Run.Ends.answers ?_
  unfold continueTick
  split
  · refine ends_andThen ((runItems_undisturbed hop _).mono (fun _ => id) fun _ => HeldOrAborted.tickLeaves) fun t ht => ?_
    refine ends_andThen ((storeVector_ends _ t).mono (fun u hu => ht.trans hu.undisturbed) fun _ => False.elim)
      fun u hu => ?_
    exact (tickOutputs_leaves hu hop 0).ends_same
  · exact (tickOutputs_leaves (.refl s) hop _).ends_same

/-! ### The buffer in a tick -/

/-- Exactly the entries of the cycles counted and of the one in progress are written. -/
def BufferFilled (s : State) : Prop :=
  ∀ i, (storeRead s.sess.buf i).isSome = true ↔ i < (s.sess.cycle.toNat + 1) * s.chanCount

theorem BufferExact.of_opFrame (hs : BufferExact s) (h : OpFrame s t) : BufferExact t := by
  simpa only [BufferExact, h.buf, h.cycle, h.chanCount] using hs

theorem BufferFilled.of_opFrame (hs : BufferFilled s) (h : OpFrame s t) : BufferFilled t := by
  simpa only [BufferFilled, h.buf, h.cycle, h.chanCount] using hs

theorem VectorStored.bufferFilled (hs : BufferExact s) (h : VectorStored (List.range s.chanCount) s t) :
    BufferFilled t := by
  have hcycle : t.sess.cycle = s.sess.cycle := by rw [h.only]; rfl
  have hcount : t.chanCount = s.chanCount := by rw [h.only]; rfl
  intro i
  rw [h.read, hcycle, hcount, Nat.succ_mul]
  change _ ↔ i < cycleBase s + s.chanCount
  split
  · next hin =>
    have hj := List.mem_range.1 hin.2
    exact iff_of_true (h.results _ hin.2) (by omega)
  · next hout =>
    rw [hs i]
    change i < cycleBase s ↔ _
    rw [List.mem_range] at hout
    omega

/-- The cycle of the vector stored is counted. -/
theorem tickDone_bufferExact (hs : BufferFilled s) (hlt : s.sess.cycle < s.sess.target) :
    (tickDone s).Answers BufferExact := by
  have hcount : (s.sess.cycle + 1#32).toNat = s.sess.cycle.toNat + 1 := by bv_omega
  have hexact : ∀ i, (storeRead s.sess.buf i).isSome = true ↔ i < (s.sess.cycle + 1#32).toNat * s.chanCount := by
    rwa [hcount]
  simp only [tickDone, finished]
  split <;> exact hexact

theorem tickOutputs_bufferExact (hop : s.pc.op = .tick) (hs : BufferFilled s) (hlt : s.sess.cycle < s.sess.target)
    (first : Nat) : (tickOutputs first s).Answers BufferExact := by
  have houtputs := (runOutputs_undisturbed hop first
    ((List.range s.sess.nout.toNat).filter fun c => decide (first < 6 * c + 6))).and (runOutputs_opFrame _ _ s)
  refine Run.Ends.answers (ends_andThen (houtputs.mono (fun _ => And.right) fun _ h => h.1.elim) fun t ht => ?_)
  exact (tickDone_bufferExact (hs.of_opFrame ht) (by rwa [ht.cycle, ht.target])).ends_same

/-- A tick stores its vector and counts its cycle, or stops before either. -/
theorem continueTick_bufferExact (hop : s.pc.op = .tick) (hpc : StartsOrWaits s) (hs : BufferExact s)
    (hlt : s.sess.cycle < s.sess.target) : (continueTick s).Answers BufferExact := by
  refine Run.Ends.answers ?_
  unfold continueTick
  split
  · have hscan := (runItems_undisturbed hop (itemsFrom s.pc (scanItems s.cfg s.chanCount))).and (runItems_opFrame _ _ s)
    refine ends_andThen (hscan.mono (fun _ => id) fun t ht => hs.of_opFrame ht.2) fun t ⟨hundisturbed, hframe⟩ => ?_
    refine ends_andThen ((storeVector_ends _ t).mono (fun _ => id) fun _ => False.elim) fun u hu => ?_
    have hop' : u.pc.op = .tick := hu.undisturbed.sameOp.trans (hundisturbed.sameOp.trans hop)
    have hlt' : u.sess.cycle < u.sess.target := by
      rw [hu.only]
      show t.sess.cycle < t.sess.target
      rwa [hframe.cycle, hframe.target]
    exact (tickOutputs_bufferExact hop' (hu.bufferFilled (hs.of_opFrame hframe)) hlt' 0).ends_same
  · next hk =>
    have hnone : s.chanCount = 0 := by
      rcases hpc with ⟨hzero, -⟩ | ⟨-, hbelow, -⟩ | ⟨hinit, -⟩
      · omega
      · exact absurd hbelow hk
      · cases hop.symm.trans hinit
    have hfilled : BufferFilled s := by simpa only [BufferFilled, BufferExact, hnone, Nat.mul_zero] using hs
    exact (tickOutputs_bufferExact hop hfilled hlt _).ends_same

/-! ### In a session -/

/-- A session or a tick lasts. -/
def InSession (s : State) : Prop := s.sess.sched = .armed ∨ s.sess.sched = .running ∨ s.pc.op = .tick

/-- The buffer is exact after a part that began or ends in a session. -/
def BufferStep (s t : State) : Prop := InSession s ∨ InSession t → BufferExact t

theorem BufferStep.of_exact (h : BufferExact t) : BufferStep s t := fun _ => h

theorem BufferStep.of_same (hs : SessionBufferExact s) (hsess : t.sess = s.sess) (hcount : t.chanCount = s.chanCount)
    (hop : t.pc.op = .tick → s.pc.op = .tick) : BufferStep s t := by
  intro h
  have hin : InSession s := h.elim id fun ht => by
    simp only [InSession, hsess] at ht
    exact ht.imp_right (Or.imp_right hop)
  simpa only [BufferExact, hsess, hcount] using hs hin

/-- What an action list may change leaves the buffer exact and opens no session. -/
theorem BufferStep.of_opFrame (hs : SessionBufferExact s) (h : OpFrame s t) (hop : t.pc.op = .tick → s.pc.op = .tick) :
    BufferStep s t := by
  intro hin
  refine BufferExact.of_opFrame (hs (hin.elim id fun ht => ?_)) h
  rcases h.sched with ⟨hsched, -⟩ | ⟨hstopped, -⟩
  · exact ht.imp hsched.symm.trans (Or.imp hsched.symm.trans hop)
  · rcases ht with ht | ht | ht
    · cases hstopped.symm.trans ht
    · cases hstopped.symm.trans ht
    · exact .inr (.inr (hop ht))

/-- A bus operation but TICK. -/
theorem continueOp_bufferStep (hop : s.pc.op ≠ .tick) (hs : SessionBufferExact s) (h : toOutcome (continueOp s) = .next t) :
    BufferStep s t := by
  obtain ⟨hframe, ht⟩ := toOutcome_next_of_answers ((continueOp_opFrame s hop).and (continueOp_op hop)) h
  exact .of_opFrame hs hframe fun htick => absurd htick ht

theorem enterOp_run_bufferStep (hs : SessionBufferExact s) (h : toOutcome (continueOp (enterOp op s)) = .next t)
    (hop : op ≠ .tick) : BufferStep s t := by
  obtain ⟨hframe, ht⟩ := toOutcome_next_of_answers
    ((continueOp_opFrame (enterOp op s) hop).and (continueOp_op (s := enterOp op s) hop)) h
  exact .of_opFrame hs ((enterOp_opFrame op s).trans hframe) fun htick => absurd htick ht

/-! ### The instructions -/

theorem startBus_bufferStep (hs : SessionBufferExact s) (h : startBus op s = .next t) (hop : op ≠ .tick) :
    BufferStep s t := by
  unfold startBus at h
  split at h
  · cases h
    exact .of_same hs rfl rfl id
  split at h
  · cases h
  · exact enterOp_run_bufferStep hs h hop

theorem execInit_bufferStep (hs : SessionBufferExact s) (h : execInit s = .next t) : BufferStep s t := by
  unfold execInit at h
  split at h
  · cases h
    exact .of_same hs rfl rfl id
  · exact enterOp_run_bufferStep (s := { s with initok := false }) hs h nofun

theorem exec_tick_bufferStep (hsound : SessionSound s) (hs : SessionBufferExact s) (h : exec .tick s = .next t) :
    BufferStep s t := by
  cases harmed : s.sess.armed with
  | false =>
    cases (exec_tick_disarmed harmed).symm.trans h
    exact .of_same hs rfl rfl id
  | true =>
    by_cases hidle : s.pc.op = .idle
    · rw [exec_tick_idle hidle harmed] at h
      cases hinit : s.initok with
      | false => cases (startBus_notBooted hidle hinit).symm.trans h
      | true =>
        rw [startBus_run hidle hinit] at h
        obtain ⟨hiff, hbelow, -⟩ := hsound
        exact .of_exact (toOutcome_next_of_answers (continueTick_bufferExact (s := enterOp .tick s) rfl
          (.inl ⟨rfl, rfl⟩) (hs (.inr (.inl (hiff.1 harmed)))) (hbelow (.inl harmed))) h)
    · cases (exec_tick_busy hidle harmed).symm.trans h
      exact fun hin => hs (hin.elim id id)

/-- A pure operation, by what it writes. -/
theorem pureOp_bufferStep {acc : Bool} {f : State → State} (hs : SessionBufferExact s) (h : pureOp acc f s = .next t)
    (hf : s.pc.op = .idle → acc = true → BufferStep s (finishOp (f s))) : BufferStep s t := by
  rcases pureOp_next h with rfl | ⟨hidle, hacc, rfl⟩
  · exact .of_same hs rfl rfl id
  · exact hf hidle hacc

/-- The count changes outside a session only (42 R177). -/
theorem execSetk_bufferStep {count : Nat} (hs : SessionBufferExact s) (h : execSetk count s = .next t) :
    BufferStep s t := by
  refine pureOp_bufferStep hs h fun hidle hacc hin => ?_
  have hout := outsideSession_iff.1 (Bool.and_eq_true_iff.1 hacc).1
  have hnot : ¬ (s.sess.sched = .armed ∨ s.sess.sched = .running) := by
    rcases hout with hout | hout <;> simp [hout]
  rcases hin with (hin | hin | hin) | (hin | hin | hin)
  · exact absurd (.inl hin) hnot
  · exact absurd (.inr hin) hnot
  · cases hidle.symm.trans hin
  · exact absurd (.inl hin) hnot
  · exact absurd (.inr hin) hnot
  · cases hin

/-- A new session has counted no cycle and has an empty buffer (R286). -/
theorem execArm_bufferStep {target : Count} {nout : BitVec 2} (hs : SessionBufferExact s)
    (h : execArm target nout s = .next t) : BufferStep s t :=
  pureOp_bufferStep hs h fun _ _ => .of_exact fun i => by simp

/-- START leaves the buffer of the armed session (R287). -/
theorem execStart_bufferStep (hs : SessionBufferExact s) (h : execStart s = .next t) : BufferStep s t := by
  refine pureOp_bufferStep hs h fun _ hacc => .of_exact ?_
  have hexact : BufferExact s := hs (.inl (of_decide_eq_true hacc))
  dsimp only
  split <;> exact hexact

/-- LDOUT too (R288). -/
theorem execLdout_bufferStep {c : BitVec 1} {j : Count} {code : BitVec 16} (hs : SessionBufferExact s)
    (h : execLdout c j code s = .next t) : BufferStep s t := by
  refine pureOp_bufferStep hs h fun _ hacc => .of_exact ?_
  simp only [Bool.and_eq_true, decide_eq_true_eq] at hacc
  have hexact : BufferExact s := hs (.inl hacc.1.1)
  dsimp only
  split <;> exact hexact

theorem cancelSession_bufferStep (hs : SessionBufferExact s) : BufferStep s (cancelSession s) := by
  unfold cancelSession
  split
  · next hin => exact .of_exact (hs (hin.imp_right .inl))
  · exact .of_same hs rfl rfl id

/-- From `s` to `t` no more than an action list may change, and no tick was entered. -/
def OnlyActed (s t : State) : Prop := OpFrame s t ∧ (t.pc.op = .tick → s.pc.op = .tick)

theorem act_onlyActed (m : Micro) (h : OnlyActed s t) : (act m t).Answers (OnlyActed s) :=
  ((act_opFrame m t).and (act_op m t)).mono fun u ⟨hframe, hop⟩ => ⟨h.1.trans hframe, fun htick => by
    rcases hop with hop | hop
    · exact h.2 (hop ▸ htick)
    · cases hop.symm.trans htick⟩

/-- Every instruction, by the shape of its meaning. -/
theorem exec_bufferStep (hsound : SessionSound s) (hs : SessionBufferExact s) (h : exec i s = .next t) :
    BufferStep s t := by
  cases i
  case rdreg | wrreg | rdid | scan | dacwr => exact startBus_bufferStep hs h nofun
  case init => exact execInit_bufferStep hs h
  case tick => exact exec_tick_bufferStep hsound hs h
  case cancel =>
    cases h
    exact cancelSession_bufferStep hs
  case setk => exact execSetk_bufferStep hs h
  case arm => exact execArm_bufferStep hs h
  case start => exact execStart_bufferStep hs h
  case ldout => exact execLdout_bufferStep hs h
  case muxenc | gainenc | gaindec | setch | v2code | code2v | raw2v | ratesel =>
    unfold exec at h
    exact pureOp_bufferStep hs h fun _ _ => .of_same hs rfl rfl nofun
  all_goals
    have hacted := exec_wire_keeps (P := OnlyActed s) (fun m _ _ => act_onlyActed m) ⟨.refl s, id⟩ h rfl nofun
    exact .of_opFrame hs hacted.1 hacted.2

/-! ### How a running session is left -/

theorem decodeHost_eq_cancel {h : HostPort} (hi : decodeHost h = .ok .cancel) : h.cmdOp = 0x11#5 := by
  unfold decodeHost at hi
  split at hi
  case h_18 hop => exact BitVec.eq_of_toNat_eq hop
  all_goals cases hi

/-- An idle edge without CANCEL moved the lines, and ran another instruction or none. -/
theorem idleEdge_next_of_no_cancel (hcancel : offersCancel e = false) (h : idleEdge e s = .next t) :
    t = setLines e s ∨ ∃ i, i ≠ .cancel ∧ exec i (setLines e s) = .next t := by
  unfold idleEdge at h
  dsimp only at h
  rw [hcancel, if_neg nofun] at h
  split at h
  · cases h
  split at h
  · exact .inr ⟨.tick, nofun, h⟩
  split at h
  · next i hcmd =>
    obtain ⟨port, hport, hi⟩ := Option.map_eq_some_iff.1 hcmd
    refine .inr ⟨i, fun hi' => ?_, h⟩
    have hoffers := (offersCancel_iff hport).2 (decodeHost_eq_cancel (hi' ▸ hi))
    cases hcancel.symm.trans hoffers
  · cases h
    exact .inl rfl

theorem exec_tick_leaves (h : exec .tick s = .next t) : TickLeaves s t := by
  cases harmed : s.sess.armed with
  | false =>
    cases (exec_tick_disarmed harmed).symm.trans h
    exact .inl (.inl rfl)
  | true =>
    by_cases hidle : s.pc.op = .idle
    · rw [exec_tick_idle hidle harmed] at h
      cases hinit : s.initok with
      | false => cases (startBus_notBooted hidle hinit).symm.trans h
      | true =>
        rw [startBus_run hidle hinit] at h
        exact toOutcome_next_of_answers (continueTick_leaves (s := enterOp .tick s) rfl) h
    · cases (exec_tick_busy hidle harmed).symm.trans h
      exact .inl (.inl rfl)

/-- In Running no operation but CANCEL and the tick touches the scheduler: ARM and START are not accepted (R286, R287). -/
theorem exec_leaves (hrunning : s.sess.sched = .running) (hne : i ≠ .cancel) (h : exec i s = .next t) :
    TickLeaves s t := by
  rcases exec_changesOnly h .sched with hwrites | hkept
  · rcases hwrites with ⟨target, nout, rfl⟩ | rfl | rfl | rfl | hcancel
    · have hrejected : execArm target nout s = .next s :=
        pureOp_not_accepted (.inr (by simp [outsideSession, hrunning]))
      cases hrejected.symm.trans h
      exact .inl (.inl rfl)
    · have hrejected : execStart s = .next s := pureOp_not_accepted (.inr (by simp [hrunning]))
      cases hrejected.symm.trans h
      exact .inl (.inl rfl)
    · exact absurd rfl hne
    · exact exec_tick_leaves h
    · exact .inl (.inr hcancel)
  · exact .inl (.inl hkept)

theorem runFrame_sched {f : BusFrame} :
    (runFrame f s).Answers fun t => t.sess.sched = s.sess.sched ∨ ∃ e ∈ s.inputs, offersCancel e = true := by
  have hwithin := runFrame_keeps_silent (P := Within .idle s.inputs s) (f := f)
    (fun m x hm hx => act_silent_within hx hm) (.start .idle s)
  refine hwithin.mono fun t ht => ?_
  rcases ht.changes .sched with (htick | hcancel) | hkept
  · cases htick
  · exact .inr hcancel
  · exact .inl hkept

theorem continueOp_leaves (s : State) : (continueOp s).Answers (TickLeaves s) := by
  by_cases htick : s.pc.op = .tick
  · simpa only [continueOp, htick] using continueTick_leaves htick
  · refine (continueOp_within s).mono fun t ht => .inl ?_
    rcases ht.changes .sched with (h | hcancel) | hkept
    · exact absurd h htick
    · exact .inr hcancel
    · exact .inl hkept

/-- A step leaves Running by a CANCEL, with the abort of a tick, or at the target. -/
theorem step_leaves (hrunning : s.sess.sched = .running) (h : step s = .next t) : TickLeaves s t := by
  obtain ⟨-, ⟨-, hop⟩ | ⟨-, f, fs, -, hframe⟩ | ⟨-, -, e, es, hinputs, hedge⟩ | ⟨-, -, -, rfl⟩⟩ := step_next h
  · exact toOutcome_next_of_answers (continueOp_leaves s) hop
  · exact .inl (toOutcome_next_of_answers (runFrame_sched (s := { s with frames := fs })) hframe)
  · cases hcancel : offersCancel e with
    | true => exact .inl (.inr ⟨e, hinputs ▸ List.mem_cons_self, hcancel⟩)
    | false =>
      rcases idleEdge_next_of_no_cancel hcancel hedge with rfl | ⟨i, hne, hi⟩
      · exact .inl (.inl rfl)
      · have hleaves := exec_leaves (s := setLines e { s with inputs := es }) hrunning hne hi
        refine hleaves.imp_left (Or.imp_right fun ⟨x, hx, hcancel⟩ => ⟨x, ?_, hcancel⟩)
        exact hinputs ▸ List.mem_cons_of_mem _ hx
  · exact .inl (.inl rfl)

/-! ### The step -/

theorem step_bufferStep (hopen : NoFrameOpen s) (hsound : SessionSound s) (hs : SessionBufferExact s)
    (h : step s = .next t) : BufferStep s t := by
  obtain ⟨-, ⟨hbusy, hop⟩ | ⟨-, f, fs, -, hframe⟩ | ⟨-, -, e, es, -, hedge⟩ | ⟨-, -, -, rfl⟩⟩ := step_next h
  · by_cases htick : s.pc.op = .tick
    · have hwaits : StartsOrWaits s := .inr ((noFrameOpen_iff.1 hopen).2.resolve_left hbusy)
      obtain ⟨-, hbelow, -⟩ := hsound
      have hexact := continueTick_bufferExact htick hwaits (hs (.inr (.inr htick))) (hbelow (.inr htick))
      simp only [continueOp, htick] at hop
      exact .of_exact (toOutcome_next_of_answers hexact hop)
    · exact continueOp_bufferStep htick hs hop
  · have hacted := runFrame_keeps_silent (P := OnlyActed { s with frames := fs }) (f := f)
      (fun m _ _ => act_onlyActed m) ⟨.refl _, id⟩
    have ht := toOutcome_next_of_answers hacted hframe
    exact BufferStep.of_opFrame (s := { s with frames := fs }) hs ht.1 ht.2
  · rcases idleEdge_next hedge with hi | hi | ⟨_, _, -, -, hi⟩ | rfl
    · exact exec_bufferStep (s := setLines e { s with inputs := es }) hsound hs hi
    · exact exec_bufferStep (s := setLines e { s with inputs := es }) hsound hs hi
    · exact exec_bufferStep (s := setLines e { s with inputs := es }) hsound hs hi
    · exact fun hin => hs (hin.elim id id)
  · exact .of_same hs rfl rfl id

end

/-- Settles O16: the buffer is exact through a session and the step that ends it, and Running is left at the target where
neither a CANCEL nor an abort ends it. -/
theorem stepKeepsBufferExact : Obligations.StepKeepsBufferExact := by
  intro s t hopen hsound hs h
  have hstep := step_bufferStep hopen hsound hs h
  refine ⟨fun hin => hstep (.inr hin), fun hin => hstep (.inl hin), fun hrunning hstopped hfault hnone => ?_⟩
  have htarget : t.sess.cycle = t.sess.target := by
    rcases step_leaves hrunning h with (hsched | ⟨e, he, hcancel⟩) | hcode | htarget
    · cases hstopped.symm.trans (hsched.trans hrunning)
    · cases (hnone e he).symm.trans hcancel
    · exact absurd hfault hcode
    · exact htarget
  exact ⟨htarget, htarget ▸ hstep (.inl (.inr (.inl hrunning)))⟩

end Sys2Proof.Machine

/-! A scan that comes to a descriptor SETCH never wrote (43_scan_engine.md R180; 42_mux_codec.md R177;
70_reset_and_hazards.md R339). -/

namespace Sys2Proof.Machine

section
variable {s t y : State} {op : Op} {k n : Nat} {acts : List Micro} {l : List Action} {chan : Nat → ChDesc}

/-- What is written below a bound, as a function. -/
theorem exists_values {α : Type} (zero : α) {f : Nat → Option α} (h : ∀ k, k < n → (f k).isSome = true) :
    ∃ g : Nat → α, ∀ k, k < n → f k = some (g k) := by
  refine ⟨fun k => (f k).getD zero, fun k hk => ?_⟩
  obtain ⟨v, hv⟩ := Option.isSome_iff_exists.1 (h k hk)
  simp [hv]

theorem exists_channels (h : ∀ k, k < n → (storeRead s.ch k).isSome = true) :
    ∃ chan : Nat → ChDesc, ∀ k, k < n → storeRead s.ch k = some (chan k) :=
  exists_values ⟨0#8, 0#8, 0#16, 0#3, 0#8⟩ h

/-- What faults after the first actions of a channel faults the list. -/
theorem Ran.faults {m : Micro} {r : Fault} (h : Ran op k acts l s y t)
    (hm : act m (atPlace op k acts.length t) = .fault r) (rest : List Micro) :
    runItems op (number k 0 (acts ++ m :: rest)) s = .fault r := by
  have hnumber : number k 0 (acts ++ m :: rest) =
      number k 0 acts ++ ⟨k, acts.length, m⟩ :: number k (acts.length + 1) rest := by
    simp [number, List.zipIdx_append]
  rw [hnumber, runItems_append, h.run, andThen_go, runItems_cons]
  change andThen (act m (atPlace op k acts.length t)) _ = _
  rw [hm, andThen_fault]

theorem act_sendMux_unwritten (h : storeRead s.ch k = none) : act (.sendMux k) s = .fault (.unwrittenChannel k) := by
  rw [act_eq (m := .sendMux k) nofun]
  simp [perform, withChannel, h]

/-- Such a channel goes as far as its multiplexer byte, with the line ready (R185 actions 0 to 5). -/
theorem runItems_channel_unwritten (hclosed : AtPhase .closed s) (hmode : s.adc.mode = .normal)
    (hC : s.cfg.codes.wf = true) (hnone : storeRead s.ch k = none) (hready : StaysReady s) :
    runItems op (number k 0 (channelActs s.cfg k)) s = .fault (.unwrittenChannel k) := by
  obtain ⟨t₀, hwait⟩ :=
    (performs_waitRdy (atPlace op k 0 s)).resolve_right fun ⟨_, _, _, hnot⟩ => hnot (.inl hready)
  have h₀ := Ran.one hwait fun _ _ _ _ => rfl
  obtain ⟨t₁, hselect⟩ := performs_select (atPlace op k 1 t₀)
  have h₁ := h₀.then hselect fun _ _ _ _ => rfl
  have hat : AdcAt .cmd (openFrame (clearPolls s)) := openFrame_adcAt (s := clearPolls s) hclosed hmode
  obtain ⟨t₂, hcommand⟩ := performs_writeCommand (h₁.adcAt hat _) h₁.cfg hC 0x1#4
  obtain ⟨t₃, h₃⟩ := (h₁.then hcommand (registerStage_placeFree _)).delay .tIB
  obtain ⟨t₄, hcount⟩ := performs_count (n := 1#4) (h₃.adcAt (hat.registerStage _ _) _) rfl
  obtain ⟨t₅, h₅⟩ := (h₃.then hcount (registerStage_placeFree _)).delay .tIB
  exact h₅.faults (act_sendMux_unwritten ((congrArg (storeRead · k) h₅.ch).trans hnone)) _

/-- The actions of a channel come after those of the channels before it. -/
theorem scanItems_split_channel (P : Params) {k count : Nat} (hk : k < count) :
    ∃ rest, scanItems P count = scanItems P k ++ (number k 0 (channelActs P k) ++ rest) := by
  obtain ⟨m, rfl⟩ : ∃ m, count = k + (m + 1) := ⟨count - k - 1, by omega⟩
  simp only [scanItems, List.range_add, List.range_succ_eq_map, List.map_cons, List.flatMap_append, List.flatMap_cons]
  exact ⟨_, rfl⟩

/-- With the line ready the channels before it are sampled, and it faults. -/
theorem runItems_scan_unwritten (hclosed : AtPhase .closed s) (hmode : s.adc.mode = .normal)
    (hC : s.cfg.codes.wf = true) (hready : StaysReady s) (hk : k < n)
    (hch : ∀ j, j < k → (storeRead s.ch j).isSome = true) (hnone : storeRead s.ch k = none) :
    runItems op (scanItems s.cfg n) s = .fault (.unwrittenChannel k) := by
  obtain ⟨chan, hchan⟩ := exists_channels hch
  obtain ⟨t, hrun, hscanned⟩ :=
    (runItems_scan (op := op) hclosed hmode hC hchan).resolve_right fun ⟨_, _, _, hnot⟩ => hnot (.inl hready)
  have hkeeps := hscanned.keeps
  obtain ⟨rest, hsplit⟩ := scanItems_split_channel s.cfg hk
  rw [hsplit, runItems_append, hrun, andThen_go, runItems_append, ← hkeeps.cfg,
    runItems_channel_unwritten (hkeeps.closed hclosed) (hkeeps.mode.trans hmode) (hkeeps.cfg ▸ hC)
      ((congrArg (storeRead · k) hkeeps.ch).trans hnone) (hscanned.edges.ready hready), andThen_fault]

end

/-- Settles O42: the channels below are sampled, and the descriptor is not there. -/
theorem scanOfUnwrittenChannelFaults : Obligations.ScanOfUnwrittenChannelFaults := by
  intro s k hbooted hC hready hk hch hnone
  have ⟨_, _, hopen, hmode⟩ := hbooted
  rw [exec_scan hbooted]
  exact congrArg (fun r => toOutcome (andThen r finished))
    (runItems_scan_unwritten (s := enterOp .scan s) hopen.closed hmode hC hready hk hch hnone)

end Sys2Proof.Machine

/-! The tick (60_exceptions.md R291): the scan, the vector stored, the outputs written in order, the cycle counted. -/

namespace Sys2Proof.Machine

section
variable {s t u v w : State} {n : Nat} {chan : Nat → ChDesc} {out : Nat → BitVec 16}

/-! ### The outputs (R291 step 3) -/

/-- The first `n` outputs hold their codes, and the program counter stands somewhere. -/
def withOutputs (n : Nat) (out : Nat → BitVec 16) (pc : Pc) (s : State) : State :=
  { s with
    pc := pc
    dac := { s.dac with
      out0 := if 0 < n then out 0 else s.dac.out0
      out1 := if 1 < n then out 1 else s.dac.out1 } }

theorem withOutputs_edgeFree (n : Nat) (out : Nat → BitVec 16) (pc : Pc) : EdgeFree (withOutputs n out pc) :=
  ⟨fun _ _ => rfl, fun _ _ => rfl, fun _ => rfl, fun _ => rfl⟩

/-- One more output. -/
theorem withOutputs_succ (hn : n < 2) (out : Nat → BitVec 16) (pc : Pc) (k step : Nat) (s : State) :
    atPlace .tick k step (onDac (latchDac (BitVec.ofNat 1 n) (out n)) (withOutputs n out pc s)) =
      withOutputs (n + 1) out ⟨.tick, k, step⟩ s := by
  obtain rfl | rfl : n = 0 ∨ n = 1 := by omega
  all_goals rfl

theorem runOutputs_append (first : Nat) (l₁ l₂ : List Nat) (s : State) :
    runOutputs first (l₁ ++ l₂) s = andThen (runOutputs first l₁ s) (runOutputs first l₂) := by
  induction l₁ generalizing s with
  | nil => rfl
  | cons c l₁ ih =>
    simp only [List.cons_append, runOutputs]
    split
    · rfl
    · rw [andThen_assoc]
      congr 1
      funext t
      exact ih t

theorem runOutputs_cons_unloaded {c : Nat} (h : storeRead (outSeq s c) s.sess.cycle.toNat = none) (first : Nat)
    (cs : List Nat) : runOutputs first (c :: cs) s = .fault (.unloadedOutput c) := by
  simp only [runOutputs, h]

/-- From the first action on an output is its whole list. -/
theorem runOutputs_one {c : Nat} {code : BitVec 16} (h : storeRead (outSeq s c) s.sess.cycle.toNat = some code) :
    runOutputs 0 [c] s =
      runItems .tick (number s.chanCount (6 * c) (dacActs s.cfg (BitVec.ofNat 1 c) code)) s := by
  simp only [runOutputs, h, Nat.zero_le, decide_true, List.filter_true]
  exact andThen_go_right _

/-- The entry of the cycle in progress. -/
def outEntry (s : State) (c : Nat) : Option (BitVec 16) := storeRead (outSeq s c) s.sess.cycle.toNat

theorem outEntry_of_sess (h : t.sess = s.sess) (c : Nat) : outEntry t c = outEntry s c := by
  rcases c with _ | _ | c <;> simp [outEntry, outSeq, h]

theorem Passed.outEntry (h : Passed s t) (c : Nat) : outEntry t c = outEntry s c :=
  h.kept (g := fun x => Machine.outEntry x c) fun _ _ => by rcases c with _ | _ | c <;> rfl

/-- The outputs, their entries loaded, are written in order. -/
theorem runOutputs_loaded (hn : n ≤ 2) (hclosed : AtPhase .closed s) (hC : s.cfg.codes.wf = true)
    (hout : ∀ c, c < n → outEntry s c = some (out c)) :
    ∃ pc t, runOutputs 0 (List.range n) s = .go t ∧ Passed (withOutputs n out pc s) t ∧
      TraceGrew s t ((List.range n).flatMap fun c => outputTrace s.cfg c (out c)) := by
  induction n with
  | zero => exact ⟨s.pc, s, rfl, .refl s, [], by simp, rfl⟩
  | succ n ih =>
    obtain ⟨pc, t, hrun, hpassed, htrace⟩ := ih (by omega) fun c hc => hout c (by omega)
    have hcfg : t.cfg = s.cfg := hpassed.cfg
    have hclosed' : AtPhase .closed t := hclosed.of_same hpassed.csAdcN hpassed.csDacN hpassed.rstN hpassed.pst
      (hpassed.kept (g := fun x => x.dac.pst) fun _ _ => rfl)
    have hentry : outEntry t n = some (out n) :=
      (hpassed.outEntry n).trans ((outEntry_of_sess rfl n).trans (hout n (by omega)))
    obtain ⟨u, hlast, hpassed', htrace'⟩ :=
      runItems_dacActs hclosed' (hcfg ▸ hC) .tick t.chanCount (6 * n) (BitVec.ofNat 1 n) (out n)
    refine ⟨⟨.tick, t.chanCount, 6 * n + 5⟩, u, ?_, ?_, ?_⟩
    · rw [List.range_succ, runOutputs_append, hrun, andThen_go, runOutputs_one hentry, hlast]
    · have hall := hpassed.then ((atPlace_edgeFree .tick t.chanCount (6 * n + 5)).comp
        (onDac_edgeFree (latchDac (BitVec.ofNat 1 n) (out n)))) hpassed'
      rwa [withOutputs_succ (by omega)] at hall
    · have hnumber : (BitVec.ofNat 1 n).toNat = n := Nat.mod_eq_of_lt (by omega)
      rw [hnumber, hcfg] at htrace'
      rw [List.range_succ, List.flatMap_append, List.flatMap_singleton]
      exact htrace.trans htrace'

/-- The first output whose entry is not loaded faults (R288). -/
theorem runOutputs_unloaded {c : Nat} (hc : c < n) (hn : n ≤ 2) (hclosed : AtPhase .closed s)
    (hC : s.cfg.codes.wf = true) (hout : ∀ d, d < c → (outEntry s d).isSome = true) (hnone : outEntry s c = none) :
    runOutputs 0 (List.range n) s = .fault (.unloadedOutput c) := by
  obtain ⟨out, hloaded⟩ := exists_values 0#16 hout
  obtain ⟨pc, t, hrun, hpassed, -⟩ := runOutputs_loaded (by omega) hclosed hC hloaded
  have hnone' : outEntry t c = none := (hpassed.outEntry c).trans ((outEntry_of_sess rfl c).trans hnone)
  obtain ⟨m, rfl⟩ : ∃ m, n = c + (m + 1) := ⟨n - c - 1, by omega⟩
  rw [List.range_add, List.range_succ_eq_map, List.map_cons, runOutputs_append, hrun, andThen_go]
  exact runOutputs_cons_unloaded hnone' 0 _

/-! ### The scan and the vector (R291 steps 1 and 2) -/

/-- A tick of the armed timer at a booted handler. -/
theorem exec_tick (hbooted : Booted s) (harmed : s.sess.armed = true) :
    exec .tick s =
      toOutcome (andThen (runItems .tick (scanItems s.cfg s.chanCount) (enterOp .tick s)) fun t =>
        andThen (storeVector (List.range t.chanCount) t) (tickOutputs 0)) := by
  obtain ⟨hidle, hinit, -⟩ := hbooted
  have hall : itemsFrom (enterOp .tick s).pc (scanItems s.cfg s.chanCount) = scanItems s.cfg s.chanCount :=
    itemsFrom_zero rfl rfl fun _ => opItems_head (op := .tick)
  rw [exec_tick_idle hidle harmed, startBus_run hidle hinit]
  change toOutcome (continueTick (enterOp .tick s)) = _
  unfold continueTick
  split
  · rw [← hall]
    rfl
  · next hk =>
    have hnone : s.chanCount = 0 := Nat.eq_zero_of_not_pos hk
    have hempty : List.range (enterOp .tick s).chanCount = [] := congrArg List.range hnone
    rw [show scanItems s.cfg s.chanCount = [] from congrArg (scanItems s.cfg) hnone, runItems_nil, andThen_go, hempty]
    rfl

theorem tickOutputs_zero (s : State) :
    tickOutputs 0 s = andThen (runOutputs 0 (List.range s.sess.nout.toNat) s) tickDone := by
  simp [tickOutputs]

/-- The scan and the vector of a tick done, from `s` by way of `u` to `v`. -/
structure ScannedAndStored (chan : Nat → ChDesc) (s u v : State) : Prop where
  scanned : Scanned chan s.chanCount s u
  stored : VectorStored (List.range s.chanCount) u v

theorem ScanKeeps.sess (h : ScanKeeps s t) :
    t.sess.cycle = s.sess.cycle ∧ t.sess.target = s.sess.target ∧ t.sess.buf = s.sess.buf ∧
      t.chanCount = s.chanCount :=
  ⟨h.kept (f := fun x => x.sess.cycle) (fun _ _ => rfl) rfl,
    h.kept (f := fun x => x.sess.target) (fun _ _ => rfl) rfl,
    h.kept (f := fun x => x.sess.buf) (fun _ _ => rfl) rfl, h.kept (fun _ _ => rfl) rfl⟩

/-- With a cycle to go there is room for the results of a scan (20_memory.md R62). -/
theorem Scanned.stores (h : Scanned chan s.chanCount s u) (hlt : s.sess.cycle < s.sess.target) :
    ∃ v, storeVector (List.range u.chanCount) u = .go v ∧ ScannedAndStored chan s u v := by
  obtain ⟨hcycle, htarget, -, hcount⟩ := h.keeps.sess
  obtain ⟨raw, -, hres⟩ := h.results
  rw [hcount]
  obtain ⟨v, hrun, hstored⟩ := storeVector_goes (s := u) (js := List.range s.chanCount)
    (fun j hj => by rw [hres, if_pos (List.mem_range.1 hj)]; rfl) fun j hj => by
      have hj := List.mem_range.1 hj
      have hroom : (s.sess.cycle.toNat + 1) * s.chanCount ≤ s.sess.target.toNat * s.chanCount :=
        Nat.mul_le_mul_right _ hlt
      rw [Nat.succ_mul] at hroom
      rw [cycleBase, hcycle, htarget, hcount]
      omega
  exact ⟨v, hrun, h, hstored⟩

/-- A tick whose channels are written comes to its outputs, or stops at a WAITRDY with the line not ready, not done. -/
theorem exec_tick_scans (hbooted : Booted s) (hsound : SessionSound s) (hC : s.cfg.codes.wf = true)
    (harmed : s.sess.armed = true) (hch : ∀ k, k < s.chanCount → storeRead s.ch k = some (chan k)) :
    (∃ u v, ScannedAndStored chan (enterOp .tick s) u v ∧ exec .tick s = toOutcome (tickOutputs 0 v)) ∨
      ∃ t, exec .tick s = .next t ∧ t.done = false ∧ ¬ StaysReady s := by
  have ⟨_, _, hopen, hmode⟩ := hbooted
  obtain ⟨-, hbelow, -⟩ := hsound
  rw [exec_tick hbooted harmed]
  rcases runItems_scan (op := .tick) (s := enterOp .tick s) hopen.closed hmode hC hch with
    ⟨u, hrun, hscanned⟩ | ⟨t, hrun, hdone, hnot⟩
  · obtain ⟨v, hstores, hboth⟩ := Scanned.stores (s := enterOp .tick s) hscanned (hbelow (.inl harmed))
    refine .inl ⟨u, v, hboth, ?_⟩
    rw [show runItems .tick (scanItems s.cfg s.chanCount) (enterOp .tick s) = .go u from hrun, andThen_go, hstores,
      andThen_go]
  · refine .inr ⟨t, ?_, hdone, fun hready => hnot (.inl hready)⟩
    rw [show runItems .tick (scanItems s.cfg s.chanCount) (enterOp .tick s) = .halt t from hrun]
    rfl

/-- What they leave to the outputs. -/
theorem ScannedAndStored.kept {α : Type} {f : State → α} (h : ScannedAndStored chan s u v)
    (hf : ∀ u t, f (amid u t) = f u) (hstage : f (scanStage s u) = f s) (hbuf : ∀ b, f (withBuf b u) = f u) :
    f v = f s := by
  rw [h.stored.only, hbuf, h.scanned.keeps.kept hf hstage]

theorem ScannedAndStored.closed (h : ScannedAndStored chan s u v) (hs : AtPhase .closed s) : AtPhase .closed v := by
  rw [h.stored.only]
  exact h.scanned.keeps.closed hs

theorem ScannedAndStored.outEntry (h : ScannedAndStored chan s u v) (c : Nat) : outEntry v c = outEntry s c :=
  h.kept (f := fun x => Machine.outEntry x c) (fun _ _ => by rcases c with _ | _ | c <;> rfl)
    (by rcases c with _ | _ | c <;> rfl) fun _ => by rcases c with _ | _ | c <;> rfl

/-! ### What a tick leaves -/

theorem Passed.withBuf (h : Passed s t) (buf : Store Sample) : Passed (withBuf buf s) (withBuf buf t) := by
  obtain ⟨hamid, hkept, hquiet⟩ := h
  exact ⟨congrArg (Machine.withBuf buf) hamid, hkept, fun hin => congrArg (Machine.withBuf buf) (hquiet hin)⟩

theorem ScannedAndStored.passed (h : ScannedAndStored chan s u v) :
    Passed (Machine.withBuf v.sess.buf (scanStage s u)) v := by
  have hpassed := Passed.withBuf (show Passed (scanStage s u) u from h.scanned.keeps) v.sess.buf
  rwa [← h.stored.only] at hpassed

/-- The cycle is counted. -/
def countCycle (s : State) : State := { s with sess := { s.sess with cycle := s.sess.cycle + 1#32 } }

/-- Counting, and the end of the session at its target (R291 steps 4 to 6). -/
theorem tickDone_go (h : w = amid u w) :
    ∃ t, tickDone w = .go t ∧ t = amid (finishOp (countCycle u)) t ∧ t.trace = w.trace ∧
      (t.sess.cycle = t.sess.target → t.sess.sched = .stopped ∧ t.sess.armed = false) ∧
      (t.sess.cycle ≠ t.sess.target → t.sess.sched = w.sess.sched ∧ t.sess.armed = w.sess.armed) := by
  simp only [tickDone, finished]
  split
  · next htarget =>
    refine ⟨_, rfl, ?_, rfl, fun _ => ⟨rfl, rfl⟩, fun hne => absurd htarget hne⟩
    conv_lhs => rw [h]
    rfl
  · next hmore =>
    refine ⟨_, rfl, ?_, rfl, fun htarget => absurd htarget hmore, fun _ => ⟨rfl, rfl⟩⟩
    conv_lhs => rw [h]
    rfl

/-- Everything a finished tick changed, the scheduler and what edges may change aside. -/
def tickEffect (out : Nat → BitVec 16) (s u v : State) : State :=
  finishOp (countCycle (withOutputs s.sess.nout.toNat out u.pc
    (withBuf v.sess.buf (scanStage (enterOp .tick s) u))))

/-- A tick ran to its end, from `s` by way of the scan's end `u` and the vector stored in `v`. -/
structure TickRan (chan : Nat → ChDesc) (out : Nat → BitVec 16) (s u v t : State) : Prop where
  scans : ScannedAndStored chan (enterOp .tick s) u v
  effect : t = amid (tickEffect out s u v) t
  trace : TraceGrew s t (((List.range s.chanCount).flatMap fun k => channelTrace s.cfg (chan k)) ++
    (List.range s.sess.nout.toNat).flatMap fun c => outputTrace s.cfg c (out c))
  atTarget : t.sess.cycle = t.sess.target → t.sess.sched = .stopped ∧ t.sess.armed = false
  sched : (t.sess.sched = .running ∧ t.sess.armed = true) ∨ (t.sess.sched = .stopped ∧ t.sess.armed = false)

/-- The outputs loaded, the rest of a tick goes to its end. -/
theorem ScannedAndStored.finishes (h : ScannedAndStored chan (enterOp .tick s) u v) (hopen : NoFrameOpen s)
    (hC : s.cfg.codes.wf = true) (hnout : s.sess.nout.toNat ≤ 2) (hrunning : s.sess.sched = .running)
    (harmed : s.sess.armed = true) (hout : ∀ c, c < s.sess.nout.toNat → Machine.outEntry s c = some (out c)) :
    ∃ t, tickOutputs 0 v = .go t ∧ TickRan chan out s u v t := by
  have hcfg : v.cfg = s.cfg := h.kept (fun _ _ => rfl) rfl fun _ => rfl
  have hcount : v.sess.nout = s.sess.nout := h.kept (f := fun x => x.sess.nout) (fun _ _ => rfl) rfl fun _ => rfl
  obtain ⟨pc, w, hrun, hpassed, htrace⟩ := runOutputs_loaded (s := v) (n := s.sess.nout.toNat) hnout
    (h.closed (s := enterOp .tick s) hopen.closed) (hcfg ▸ hC) fun c hc => (h.outEntry c).trans (hout c hc)
  have hall := h.passed.then (withOutputs_edgeFree s.sess.nout.toNat out pc) hpassed
  obtain ⟨t, hdone, heffect, htrace', hstop, hgoes⟩ := tickDone_go hall.1
  refine ⟨t, ?_, h, heffect, ?_, hstop, ?_⟩
  · rw [tickOutputs_zero, hcount, hrun, andThen_go, hdone]
  · have hscan : TraceGrew s v ((List.range s.chanCount).flatMap fun k => channelTrace s.cfg (chan k)) := by
      rw [h.stored.only]
      exact h.scanned.trace
    rw [hcfg] at htrace
    obtain ⟨l, hl, hsent⟩ := hscan.trans htrace
    exact ⟨l, htrace'.trans hl, hsent⟩
  · by_cases htarget : t.sess.cycle = t.sess.target
    · exact .inr (hstop htarget)
    · obtain ⟨hsched, harm⟩ := hgoes htarget
      rw [hsched, harm]
      rcases hall.2.1 with ⟨hsame, hsame'⟩ | ⟨-, hstopped⟩
      · exact .inl ⟨hsame.trans hrunning, hsame'.trans harmed⟩
      · exact .inr hstopped

/-- The entries of the cycle are the results of the scan, and no other entry changes. -/
theorem ScannedAndStored.buffer (h : ScannedAndStored chan s u v) {raw : Nat → BitVec 24}
    (hres : ∀ j, storeRead u.res j = if j < s.chanCount then some ((raw j).signExtend 32) else storeRead s.res j)
    (i : Nat) :
    storeRead v.sess.buf i =
      if s.sess.cycle.toNat * s.chanCount ≤ i ∧ i < (s.sess.cycle.toNat + 1) * s.chanCount
      then some ((raw (i - s.sess.cycle.toNat * s.chanCount)).signExtend 32) else storeRead s.sess.buf i := by
  obtain ⟨hcycle, -, hbuf, hcount⟩ := h.scanned.keeps.sess
  have hbase : cycleBase u = s.sess.cycle.toNat * s.chanCount := by rw [cycleBase, hcycle, hcount]
  rw [h.stored.read, hbase, hbuf, Nat.succ_mul]
  refine if_ctx_congr (by rw [List.mem_range]; omega) (fun hin => ?_) fun _ => rfl
  rw [hres, if_pos (by omega)]

/-- A reader of the state finds after the tick what it finds in the effect. -/
theorem TickRan.reads (h : TickRan chan out s u v t) {α : Type} (f : State → α) :
    f t = f (amid (tickEffect out s u v) t) :=
  congrArg f h.effect

/-- The registers and the sample copy are those the scan left. -/
theorem TickRan.peerRegister (h : TickRan chan out s u v t) (a : Nat) : peerRegister t.adc a = peerRegister u.adc a :=
  (h.reads fun x => Machine.peerRegister x.adc a).trans (h.scans.scanned.keeps.peerRegister a)

end

/-- Settles O47: the tick runs to its end, or stops at a WAITRDY with the line not ready, not done. -/
theorem tickRunsOneCycle : Obligations.TickRunsOneCycle := by
  intro s chan out hbooted hsound hC harmed hch hout
  have ⟨_, _, hopen, _⟩ := hbooted
  have ⟨hiff, _, _, _, _, hnout, _⟩ := hsound
  have hrunning := hiff.1 harmed
  rcases exec_tick_scans hbooted hsound hC harmed hch with ⟨u, v, hscans, hexec⟩ | ⟨t, hexec, hdone, hnot⟩
  · obtain ⟨t, hgo, hran⟩ := hscans.finishes hopen hC hnout hrunning harmed hout
    rw [hgo, toOutcome_go] at hexec
    obtain ⟨raw, hconv, hres⟩ := hscans.scanned.results
    have hscanRes : t.res = u.res := hran.reads State.res
    have hbuf : t.sess.buf = v.sess.buf := hran.reads (fun x => x.sess.buf)
    have hmem : t.adc.mem = u.adc.mem := hran.reads (fun x => x.adc.mem)
    have hshift : t.adc.shift = u.adc.shift := hran.reads (fun x => x.adc.shift)
    refine ⟨raw, t, hexec, fun _ => ⟨hran.reads State.pc, hran.reads State.done, hran.reads State.fault,
      (hran.reads State.polls).trans (hscans.scanned.polls rfl), hran.reads State.resAbort,
      hran.reads State.runFaulted, fun j => ?_, hconv, fun i => ?_, hran.reads (fun x => x.sess.cycle),
      hran.atTarget, hran.sched, fun hnone hmore => ?_, hran.reads State.dac, hran.trace, hran.reads State.cfg,
      hran.reads State.regs, hran.reads State.ch, hran.reads State.chanCount, hran.reads State.initok,
      hran.reads State.illegal, hran.reads State.flags, hran.reads (fun x => x.sess.target),
      hran.reads (fun x => x.sess.nout), hran.reads (fun x => x.sess.outseq0),
      hran.reads (fun x => x.sess.outseq1), hran.reads State.frames, exec_noFrameOpen (.inr rfl) hopen hexec, ?_,
      fun hpos => ?_, fun a h1 h2 => ?_, fun hzero => ?_⟩⟩
    · rw [hscanRes]
      exact hres j
    · rw [hbuf]
      exact hscans.buffer hres i
    · rcases exec_tick_leaves hexec with (hsched | ⟨e, he, hcancel⟩) | hcode | htarget
      · exact hsched.trans hrunning
      · cases (hnone e he).symm.trans hcancel
      · exact absurd (hran.reads State.fault) hcode
      · exact absurd htarget hmore
    · rw [hmem, hshift]
      exact hran.reads State.adc
    · have hlast := hscans.scanned
      obtain ⟨m, hm⟩ := Nat.exists_eq_add_one.2 hpos
      rw [show (enterOp .tick s).chanCount = m + 1 from hm] at hlast
      rw [hm, hran.peerRegister, hran.peerRegister]
      exact hlast.registers_last
    · exact (hran.peerRegister a).trans (hscans.scanned.registers_kept h1 h2)
    · have hnone := hscans.scanned
      rw [show (enterOp .tick s).chanCount = 0 from hzero] at hnone
      cases hnone
      exact hmem
  · refine ⟨fun _ => 0, t, hexec, fun h => ?_⟩
    rcases h with hready | htrue
    · exact absurd hready hnot
    · cases hdone.symm.trans htrue

/-- Settles O49: the scan comes to the descriptor, or goes through and the outputs come to the entry. -/
theorem tickWithUnloadedOutputFaults : Obligations.TickWithUnloadedOutputFaults := by
  intro s hbooted hsound hC hready harmed
  have ⟨_, _, hopen, hmode⟩ := hbooted
  have ⟨_, _, _, _, _, hnout, _⟩ := hsound
  refine ⟨fun k hk hch hnone => ?_, fun c hch hc hout hnone => ?_⟩
  · rw [exec_tick hbooted harmed, show runItems .tick (scanItems s.cfg s.chanCount) (enterOp .tick s) = _ from
      runItems_scan_unwritten (s := enterOp .tick s) hopen.closed hmode hC hready hk hch hnone]
    rfl
  · obtain ⟨chan, hchan⟩ := exists_channels hch
    obtain ⟨u, v, hscans, hexec⟩ := (exec_tick_scans hbooted hsound hC harmed hchan).resolve_right
      fun ⟨_, _, _, hnot⟩ => hnot hready
    have hcfg : v.cfg = s.cfg := hscans.kept (fun _ _ => rfl) rfl fun _ => rfl
    have hcount : v.sess.nout = s.sess.nout :=
      hscans.kept (f := fun x => x.sess.nout) (fun _ _ => rfl) rfl fun _ => rfl
    rw [hexec, tickOutputs_zero, hcount, runOutputs_unloaded hc hnout
      (hscans.closed (s := enterOp .tick s) hopen.closed) (hcfg ▸ hC)
      (fun d hd => (hscans.outEntry d).symm ▸ hout d hd) ((hscans.outEntry c).trans hnone)]
    rfl

end Sys2Proof.Machine
